-- ==== Sys2Proof/Word.lean ====
section
/-! DEFINITION. The word types of the machine (R5, R26). -/

namespace Sys2Proof

/-- A 64-bit scalar or lane register value (R26). -/
abbrev Word := BitVec 64
/-- One byte (R5). -/
abbrev Byte := BitVec 8
/-- A set of the 32 lanes of a group, bit l for lane l (R34). -/
abbrev Lanes := BitVec 32
/-- A 96-bit L-code slot (R17). -/
abbrev LBits := BitVec 96

end Sys2Proof
end

