-- ==== Sys2Proof/Machine/Store.lean ====
section
/-! DEFINITION. Finite maps from numbers, in one canonical form (keys strictly rising), and the bit-field,
byte-order and sign-extension helpers that the rest of the machine uses. -/

namespace Sys2Proof.Machine

/-- A finite map from numbers. Canonical form: keys strictly rising (`FMap.wf`). -/
abbrev FMap (α : Type) := List (Nat × α)

/-- The entry at key `k`, if there is one. -/
def FMap.get {α : Type} : FMap α → Nat → Option α
  | [], _ => none
  | (k', v) :: m, k => if k = k' then some v else FMap.get m k

/-- Put `v` at key `k`, keeping the keys in rising order. -/
def FMap.put {α : Type} : FMap α → Nat → α → FMap α
  | [], k, v => [(k, v)]
  | (k', v') :: m, k, v =>
    if k < k' then (k, v) :: (k', v') :: m
    else if k = k' then (k, v) :: m
    else (k', v') :: FMap.put m k v

/-- Remove the entry at key `k`. -/
def FMap.del {α : Type} : FMap α → Nat → FMap α
  | [], _ => []
  | (k', v') :: m, k => if k = k' then FMap.del m k else (k', v') :: FMap.del m k

/-- The keys are strictly rising. -/
def FMap.wf {α : Type} : FMap α → Bool
  | [] => true
  | [_] => true
  | (k, _) :: (k', v') :: m => decide (k < k') && FMap.wf ((k', v') :: m)

/-- The entry at `k`, or `d` where nothing is listed. -/
def FMap.rd {α : Type} (d : α) (m : FMap α) (k : Nat) : α := (FMap.get m k).getD d

/-- Write `v` at `k` in a map whose unlisted keys read as `d`: writing `d` removes the entry. -/
def FMap.wr {α : Type} [DecidableEq α] (d : α) (m : FMap α) (k : Nat) (v : α) : FMap α :=
  if v = d then FMap.del m k else FMap.put m k v

/-- No entry equals what an unlisted key reads as. -/
def FMap.clean {α : Type} [DecidableEq α] (d : α) (m : FMap α) : Bool := m.all (fun p => decide (p.2 ≠ d))

/-- Change the entry at `k`, if there is one. -/
def FMap.upd {α : Type} (m : FMap α) (k : Nat) (f : α → α) : FMap α :=
  match FMap.get m k with
  | some v => FMap.put m k (f v)
  | none => m

/-- The least key at or above `k` (searching at most `fuel` keys) that the map does not list. -/
def FMap.free {α : Type} (m : FMap α) : Nat → Nat → Nat
  | 0, k => k
  | fuel + 1, k => match FMap.get m k with
    | none => k
    | some _ => FMap.free m fuel (k + 1)

/-- The `w` bits of `x` from bit `lo` up, as a number (R5). -/
def fld {n : Nat} (x : BitVec n) (lo w : Nat) : Nat := (x.toNat >>> lo) % 2 ^ w

/-- Bit `i` of `x` as a truth value. -/
def bitOf {n : Nat} (x : BitVec n) (i : Nat) : Bool := x.getLsbD i

/-- Replace the `w` bits of `x` from bit `lo` up by the low bits of `v`. -/
def setFld {n : Nat} (x : BitVec n) (lo w v : Nat) : BitVec n :=
  (x &&& ~~~(BitVec.ofNat n ((2 ^ w - 1) <<< lo))) ||| BitVec.ofNat n ((v % 2 ^ w) <<< lo)

/-- The number `v` of `w` bits read as two's complement. -/
def sextNat (w v : Nat) : Int := if v % 2 ^ w < 2 ^ (w - 1) then (v % 2 ^ w : Int) else (v % 2 ^ w : Int) - 2 ^ w

/-- sext(x, 64) of R7. -/
def sext64 {n : Nat} (x : BitVec n) : Word := BitVec.signExtend 64 x

/-- zext(x, 64) of R7. -/
def zext64 {n : Nat} (x : BitVec n) : Word := BitVec.zeroExtend 64 x

/-- The integer `x` modulo 2^64. -/
def wordOfInt (x : Int) : Word := BitVec.ofInt 64 x

/-- Little-endian bytes of the low `k` bytes of `v` (R5). -/
def bytesOf : Nat → Nat → List Byte
  | 0, _ => []
  | k + 1, v => BitVec.ofNat 8 (v % 256) :: bytesOf k (v / 256)

/-- The number that little-endian bytes spell (R5). -/
def natOfBytes : List Byte → Nat
  | [] => 0
  | b :: bs => b.toNat + 256 * natOfBytes bs

/-- The lanes 0 to 31 in ascending order. -/
def laneList : List Nat := List.range 32

/-- Lane `l` is in the set. -/
def inLanes (m : Lanes) (l : Nat) : Bool := m.getLsbD l

/-- The set that holds lane `l` alone. -/
def laneBit (l : Nat) : Lanes := BitVec.ofNat 32 (2 ^ l)

/-- The lanes 0 to 31 for which `p` holds, as a set. -/
def lanesOf (p : Nat → Bool) : Lanes :=
  BitVec.ofNat 32 (laneList.foldl (fun a l => if p l then a + 2 ^ l else a) 0)

/-- The members of a set in ascending order. -/
def lanesIn (m : Lanes) : List Nat := laneList.filter (inLanes m)

/-- The lowest-numbered lane of the set, 32 for the empty set. -/
def lowLane (m : Lanes) : Nat := (lanesIn m).headD 32

/-- The number of lanes in the set. -/
def countLanes (m : Lanes) : Nat := (lanesIn m).length

/-- The number of 1 bits among the low `k` bits of `v`. -/
def popNat : Nat → Nat → Nat
  | 0, _ => 0
  | k + 1, v => v % 2 + popNat k (v / 2)

/-- The number of leading 0 bits of the `w`-bit number `v`. -/
def clzNat (w v : Nat) : Nat := if v % 2 ^ w = 0 then w else w - 1 - Nat.log2 (v % 2 ^ w)

/-- The `w`-bit number `v` with bit i moved to bit w − 1 − i. -/
def brevNat (w v : Nat) : Nat :=
  (List.range w).foldl (fun a i => if (v >>> i) % 2 = 1 then a + 2 ^ (w - 1 - i) else a) 0

/-- ⌈a / b⌉. -/
def ceilDiv (a b : Nat) : Nat := (a + b - 1) / b

/-- Insert keeping the order `lt`; equal elements keep the order of insertion. -/
def insertBy {α : Type} (lt : α → α → Bool) (x : α) : List α → List α
  | [] => [x]
  | y :: ys => if lt x y then x :: y :: ys else y :: insertBy lt x ys

/-- A stable sort by structural insertion. -/
def sortBy {α : Type} (lt : α → α → Bool) (xs : List α) : List α :=
  xs.foldl (fun acc x => insertBy lt x acc) []

/-- The first element that no other is `lt` of. -/
def minBy {α : Type} (lt : α → α → Bool) : List α → Option α
  | [] => none
  | x :: xs => some (xs.foldl (fun m y => if lt y m then y else m) x)

/-- Remove repeats, keeping first occurrences. -/
def dedup {α : Type} [DecidableEq α] (xs : List α) : List α :=
  xs.foldl (fun acc x => if acc.contains x then acc else acc ++ [x]) []

end Sys2Proof.Machine
end

