-- ==== Sys2Proof/Machine/Float.lean ====
section
/-! DEFINITION. Exact values of floating-point encodings, the one rounding function and the sums of exact terms
(R71 to R79, R85). -/

namespace Sys2Proof.Machine

/-- A floating-point format (R71): fraction bits, exponent bits, bias, and the largest significand. -/
structure Fmt where
  fb : Nat
  eb : Nat
  bias : Nat
  e4m3 : Bool
deriving DecidableEq, Repr

def fmt64 : Fmt := ⟨52, 11, 1023, false⟩
def fmt32 : Fmt := ⟨23, 8, 127, false⟩
def fmt16 : Fmt := ⟨10, 5, 15, false⟩
def fmtBf : Fmt := ⟨7, 8, 127, false⟩
def fmtE4 : Fmt := ⟨3, 4, 7, true⟩
def fmtE5 : Fmt := ⟨2, 5, 15, false⟩
def fmt40 : Fmt := ⟨31, 8, 127, false⟩

/-- The format of a float type code (R52, R71). -/
def fmtOf (ty : Nat) : Fmt :=
  if ty = 8 then fmt64 else if ty = 9 then fmt32 else if ty = 10 then fmt16 else if ty = 11 then fmtBf
  else if ty = 12 then fmtE4 else fmtE5

/-- The value of an encoding: a finite value is ± num / den with den ≠ 0 and carries the sign of a zero. -/
inductive Flt where
  | nan
  | inf (neg : Bool)
  | fin (neg : Bool) (num den : Nat)
deriving DecidableEq, Repr

/-- Bits of an encoding. -/
def Fmt.width (f : Fmt) : Nat := 1 + f.eb + f.fb
/-- The exponent field of all ones. -/
def Fmt.eTop (f : Fmt) : Nat := 2 ^ f.eb - 1
/-- The encoding of +∞. -/
def Fmt.infBits (f : Fmt) : Nat := f.eTop * 2 ^ f.fb
/-- The canonical NaN (R71). -/
def Fmt.nanBits (f : Fmt) : Nat := if f.e4m3 then 0x7F else f.infBits + 2 ^ (f.fb - 1)
/-- The encoding of the largest finite value. -/
def Fmt.maxBits (f : Fmt) : Nat := if f.e4m3 then 0x7E else f.infBits - 1
/-- The sign bit in place. -/
def Fmt.signBits (f : Fmt) (neg : Bool) : Nat := if neg then 2 ^ (f.eb + f.fb) else 0

/-- m × 2^(e − k), for naturals. -/
def scaled (m e k : Nat) : Nat × Nat := if k ≤ e then (m * 2 ^ (e - k), 1) else (m, 2 ^ (k - e))

/-- The value of an encoding (R73). -/
def Flt.ofBits (f : Fmt) (x : Nat) : Flt :=
  let neg := decide (x / 2 ^ (f.eb + f.fb) % 2 = 1)
  let e := x / 2 ^ f.fb % 2 ^ f.eb
  let m := x % 2 ^ f.fb
  if f.e4m3 ∧ e = f.eTop ∧ m = 7 then .nan
  else if e = f.eTop ∧ !f.e4m3 then (if m = 0 then .inf neg else .nan)
  else if e = 0 then
    let p := scaled m 1 (f.bias + f.fb)
    .fin neg p.1 p.2
  else
    let p := scaled (2 ^ f.fb + m) e (f.bias + f.fb)
    .fin neg p.1 p.2

/-- The value of an integer. -/
def Flt.ofInt (x : Int) : Flt := .fin (decide (x < 0)) x.natAbs 1

/-- a/b ≤ c/d for naturals. -/
def ratLe (a b c d : Nat) : Bool := decide (a * d ≤ c * b)

/-- ⌊log2 (num/den)⌋ for num, den ≠ 0. -/
def floorLog2 (num den : Nat) : Int :=
  let k : Int := (Nat.log2 num : Int) - (Nat.log2 den : Int)
  let ge := if 0 ≤ k then decide (den * 2 ^ k.toNat ≤ num) else decide (den ≤ num * 2 ^ (-k).toNat)
  if ge then k else k - 1

/-- num/den ÷ 2^q as a fraction. -/
def unscale (num den : Nat) (q : Int) : Nat × Nat :=
  if 0 ≤ q then (num, den * 2 ^ q.toNat) else (num * 2 ^ (-q).toNat, den)

/-- Whether a rounding mode moves q + r/d (0 ≤ r < d) away from zero (R75). -/
def roundsAway (rm : Nat) (neg : Bool) (q r d : Nat) : Bool :=
  if r = 0 then false
  else if rm = 0 then decide (d < 2 * r ∨ (2 * r = d ∧ q % 2 = 1))
  else if rm = 1 then false
  else if rm = 2 then !neg
  else neg

/-- The magnitude num/den is at or beyond where it overflows (R75, R79): L′ under nearest-even, the largest finite
value otherwise. -/
def overflows (f : Fmt) (rm num den : Nat) : Bool :=
  let big := if f.e4m3 then 14 else 2 ^ (f.fb + 1) - 1
  let e := (if f.e4m3 then f.eTop else f.eTop - 1)          -- largest exponent field
  let p := if rm = 0 then scaled (2 * big + 1) e (f.bias + f.fb + 1) else scaled big e (f.bias + f.fb)
  if rm = 0 then ratLe p.1 p.2 num den else !ratLe num den p.1 p.2

/-- What an overflowing magnitude becomes (R75). -/
def overflowBits (f : Fmt) (rm : Nat) (neg : Bool) : Nat :=
  let toInf := rm = 0 ∨ (rm = 2 ∧ !neg) ∨ (rm = 3 ∧ neg)
  if toInf then (if f.e4m3 then f.nanBits else f.infBits + f.signBits neg) else f.maxBits + f.signBits neg

/-- A finite nonzero magnitude rounded into a format (R75). -/
def roundMag (f : Fmt) (rm : Nat) (neg : Bool) (num den : Nat) : Nat :=
  if overflows f rm num den then overflowBits f rm neg
  else
    let e := max (floorLog2 num den) (1 - (f.bias : Int))
    let p := unscale num den (e - f.fb)
    let q := p.1 / p.2
    let q := if roundsAway rm neg q (p.1 % p.2) p.2 then q + 1 else q
    f.signBits neg + (if q < 2 ^ f.fb then q else (e + f.bias).toNat * 2 ^ f.fb + (q - 2 ^ f.fb))

/-- round(x, fmt, rm) of R75. For E4M3 an infinite result is the canonical NaN (R79). -/
def round (f : Fmt) (rm : Nat) (x : Flt) : Nat :=
  match x with
  | .nan => f.nanBits
  | .inf neg => if f.e4m3 then f.nanBits else f.infBits + f.signBits neg
  | .fin neg num den => if num = 0 then f.signBits neg else roundMag f rm neg num den

/-- An encoding with an infinite (or, in E4M3, overflowing) result of `x` replaced by ± the largest finite value
(R79, .sat). -/
def roundSat (f : Fmt) (rm : Nat) (x : Flt) : Nat :=
  match x with
  | .nan => f.nanBits
  | .inf neg => f.maxBits + f.signBits neg
  | .fin neg num den =>
    if num = 0 then f.signBits neg
    else if overflows f rm num den then f.maxBits + f.signBits neg
    else roundMag f rm neg num den

/-- The encoding is a NaN. -/
def isNanBits (f : Fmt) (x : Nat) : Bool := Flt.ofBits f x = .nan

/-- The encoding is a subnormal. -/
def isSubBits (f : Fmt) (x : Nat) : Bool := decide (x / 2 ^ f.fb % 2 ^ f.eb = 0 ∧ x % 2 ^ f.fb ≠ 0)

/-- A subnormal read, or returned, as a zero of its sign (R78). -/
def flushBits (f : Fmt) (ftz : Bool) (x : Nat) : Nat :=
  if ftz ∧ isSubBits f x then x / 2 ^ (f.eb + f.fb) % 2 * 2 ^ (f.eb + f.fb) else x

/-- R78 applies to the format: binary32, binary16 and bfloat16. -/
def ftzFmt (f : Fmt) : Bool := decide (f = fmt32 ∨ f = fmt16 ∨ f = fmtBf)

/-- The sign of a value; a NaN counts as positive. -/
def Flt.neg? : Flt → Bool
  | .nan => false
  | .inf n => n
  | .fin n _ _ => n

/-- −x. -/
def Flt.negate : Flt → Flt
  | .nan => .nan
  | .inf n => .inf (!n)
  | .fin n a b => .fin (!n) a b

/-- |x|. -/
def Flt.abs : Flt → Flt
  | .nan => .nan
  | .inf _ => .inf false
  | .fin _ a b => .fin false a b

/-- The signed numerator. -/
def signedNum (neg : Bool) (num : Nat) : Int := if neg then -(num : Int) else num

/-- a/b + c/d with a denominator no larger than needed for powers of two. -/
def ratAdd (a : Int) (b : Nat) (c : Int) (d : Nat) : Int × Nat :=
  if b = d then (a + c, b)
  else if b % d = 0 then (a + c * (b / d : Nat), b)
  else if d % b = 0 then (a * (d / b : Nat) + c, d)
  else (a * d + c * b, b * d)

/-- The exact sum of terms (R85): an exact zero is −0 when every term is −0, and +0 otherwise. -/
def Flt.sum (xs : List Flt) : Flt :=
  if xs.any (fun x => x = .nan) then .nan
  else if xs.any (fun x => x = .inf false) ∧ xs.any (fun x => x = .inf true) then .nan
  else if xs.any (fun x => x = .inf false) then .inf false
  else if xs.any (fun x => x = .inf true) then .inf true
  else
    let t := xs.foldl (fun acc x =>
      match x with
      | .fin n a b => if a = 0 then acc else ratAdd acc.1 acc.2 (signedNum n a) b
      | _ => acc) ((0 : Int), 1)
    if t.1 = 0 then .fin (xs.all (fun x => match x with | .fin n a _ => n && a = 0 | _ => false) && !xs.isEmpty) 0 1
    else .fin (decide (t.1 < 0)) t.1.natAbs t.2

/-- The exact product; 0 × ∞ is NaN (R174, R85). -/
def Flt.mul : Flt → Flt → Flt
  | .nan, _ => .nan
  | _, .nan => .nan
  | .inf n, .inf m => .inf (n != m)
  | .inf n, .fin m a _ => if a = 0 then .nan else .inf (n != m)
  | .fin n a _, .inf m => if a = 0 then .nan else .inf (n != m)
  | .fin n a b, .fin m c d => .fin (n != m) (a * c) (b * d)

/-- The exact quotient (R174). -/
def Flt.div : Flt → Flt → Flt
  | .nan, _ => .nan
  | _, .nan => .nan
  | .inf _, .inf _ => .nan
  | .inf n, .fin m _ _ => .inf (n != m)
  | .fin n _ _, .inf m => .fin (n != m) 0 1
  | .fin n a b, .fin m c d =>
    if c = 0 then (if a = 0 then .nan else .inf (n != m)) else .fin (n != m) (a * d) (b * c)

/-- x + y where an exact zero takes the sign that R76 gives under a rounding mode. -/
def Flt.add (rm : Nat) (x y : Flt) : Flt :=
  match Flt.sum [x, y] with
  | .fin _ 0 _ =>
    let bothNeg := x.neg? && y.neg?
    let opposite := x.neg? != y.neg?
    .fin (bothNeg || (opposite && rm = 3)) 0 1
  | r => r

/-- x < y on values that are not NaN; −0 and +0 are equal. -/
def Flt.lt : Flt → Flt → Bool
  | .nan, _ => false
  | _, .nan => false
  | .inf n, .inf m => n && !m
  | .inf n, .fin _ _ _ => n
  | .fin _ _ _, .inf m => !m
  | .fin n a b, .fin m c d => decide (signedNum n a * d < signedNum m c * b)

/-- x = y on values; NaN equals nothing, −0 equals +0. -/
def Flt.eq (x y : Flt) : Bool := x != .nan && y != .nan && !Flt.lt x y && !Flt.lt y x

/-- ⌊√n⌋ by one bit at a time. -/
def isqrt (n : Nat) : Nat :=
  (List.range (Nat.log2 n / 2 + 1)).reverse.foldl
    (fun r k => if (r + 2 ^ k) * (r + 2 ^ k) ≤ n then r + 2 ^ k else r) 0

/-- √(num/den) rounded into a format (R75, R173); num, den ≠ 0. -/
def roundSqrt (f : Fmt) (rm num den : Nat) : Nat :=
  let e := max (floorLog2 num den / 2) (1 - (f.bias : Int))
  let p := unscale num den (2 * (e - f.fb))
  let q := isqrt (p.1 / p.2)
  let exact := q * q * p.2 = p.1
  let half := (2 * q + 1) * (2 * q + 1) * p.2
  let away := if exact then false
    else if rm = 0 then decide (half < 4 * p.1 ∨ (half = 4 * p.1 ∧ q % 2 = 1))
    else rm = 2
  let q := if away then q + 1 else q
  if q < 2 ^ f.fb then q else (e + f.bias).toNat * 2 ^ f.fb + (q - 2 ^ f.fb)

/-- ⌊x⌋ of a finite value. -/
def floorRat (neg : Bool) (num den : Nat) : Int :=
  if neg then -((ceilDiv num den : Nat) : Int) else ((num / den : Nat) : Int)

/-- x rounded to an integer in a rounding mode (R75, R178). -/
def roundInt (rm : Nat) (neg : Bool) (num den : Nat) : Int :=
  let q := num / den
  let q := if roundsAway rm neg q (num % den) den then q + 1 else q
  signedNum neg q

/-- FMIN and FMAX on encodings: `hi` selects the greater (R175). -/
def selectBits (f : Fmt) (hi : Bool) (x y : Nat) : Nat :=
  let a := Flt.ofBits f x
  let b := Flt.ofBits f y
  if a = .nan ∧ b = .nan then f.nanBits
  else if a = .nan then y
  else if b = .nan then x
  else if Flt.lt a b then (if hi then y else x)
  else if Flt.lt b a then (if hi then x else y)
  else if a.neg? = hi then y else x

/-- num/den × 2^k. -/
def Flt.ldexp (x : Flt) (k : Int) : Flt :=
  match x with
  | .fin n a b => if 0 ≤ k then .fin n (a * 2 ^ k.toNat) b else .fin n a (b * 2 ^ (-k).toNat)
  | r => r

end Sys2Proof.Machine
end

