-- ==== Sys2Proof/Config.lean ====
section
/-! DEFINITION. What an implementation fixes (figures of R1) and the free values: constants with no body, so that
no proof can use a value that the spec leaves open. -/

namespace Sys2Proof.Config

/-- Cores of the device, 12 in each of 24 clusters (R1). -/
def nCores : Nat := 288
/-- Clusters of the device (R1). -/
def nClusters : Nat := 24
/-- Cores of a cluster (R1). -/
def coresPerCluster : Nat := 12
/-- Unit slots and group slots of a core (R265, R270). -/
def slotsPerCore : Nat := 64
/-- Group slots that SPAWN alone uses (R270). -/
def spawnSlots : Nat := 8
/-- Bytes of one HBM stack, 48 GiB (R295). -/
def stackBytes : Nat := 0xC_0000_0000
/-- Bytes of HBM, 576 GiB (R295). -/
def hbmBytes : Nat := 12 * stackBytes
/-- First physical address of host memory (R295). -/
def hostBase : Nat := 0x8000_0000_0000
/-- End of the physical address space (R1). -/
def physEnd : Nat := 0x1_0000_0000_0000
/-- L1 TLB entries of a core (R302). -/
def l1TlbEntries : Nat := 96
/-- Ways of a cluster TLB set (R302). -/
def clTlbWays : Nat := 8
/-- Non-leaf entries of a walker cache (R302). -/
def walkerCacheEntries : Nat := 64
/-- Replay-queue entries of a group (R372). -/
def replayEntries : Nat := 16
/-- Run-queue entries of a split (R23). -/
def runQueueEntries : Nat := 4
/-- Stack entries of a split (R125). -/
def stackEntries : Nat := 16
/-- Ticks of packet slack at a switch and at a sill (R318). -/
def switchTick : Nat := 14
def sillTick : Nat := 11
/-- Switch ports (R316). -/
def clusterPorts : Nat := 16
def sectorPorts : Nat := 13
def stopPorts : Nat := 3
def hubPorts : Nat := 33
/-- Ring stops: three sectors, the bridge, six sill ports and the hub of each die, and the host port of die 0 (R1, R316;
log entry 10). -/
def ringStops : Nat := 23

/-- The CXL.io function: bytes of BAR0 and MSI-X vectors (R436). -/
def barBytes : Nat := 0x1_0000
def msixVectors : Nat := 9
/-- Rates in GT/s and widths of the CXL link, and bytes of a flit of it (R436). -/
def cxlRates : List Nat := [64, 32, 16, 8]
def cxlWidths : List Nat := [8, 4, 2, 1]
def cxlFlitBytes : Nat := 256

/-- What a byte of memory that nothing has written reads as (log entry 1). DESIGN CHOICE, unsafe. -/
def memDefault : Byte := 0

/-- A value the spec leaves open, fresh for each number of the counter `State.fresh` (log entry 5). -/
opaque freeWord : Nat → Word
/-- The device's choice of a launch handle (R138), before the bounds of R138 are applied (log entry 8). -/
opaque handleChoice : Nat → BitVec 63
/-- GEN of a unit slot after a device reset (R151, log entry 7). -/
opaque genStart : Nat → BitVec 32
/-- Half of one less than the advance of GEN of a unit slot (R151, log entry 7). -/
opaque genStep : Nat → BitVec 31
/-- The ring stops that a packet passes from one stop to another (R316 gives no order of stops, log entry 10). -/
opaque ringPath : Nat → Nat → List Nat
/-- The device's own bits for the approximated functions (R176), kept only inside the bounds of R176 (log entry 6). -/
opaque frsqBits : BitVec 32 → BitVec 32
opaque fexp2Bits : BitVec 32 → BitVec 32
opaque flog2Bits : BitVec 32 → BitVec 32
opaque fsinBits : BitVec 32 → BitVec 32
opaque fcosBits : BitVec 32 → BitVec 32
/-- The device's own bits for e^s of RCQT (R247), kept only inside its bound (log entry 6). -/
opaque expBits : BitVec 40 → BitVec 32
/-- ECDSA over P-521 with SHA-512: key, message, signature (R451, R454; log entry 11). -/
opaque ecdsaValid : Nat → Nat → Nat → Bool
/-- The signature that the identity key makes over a message (R453; log entry 11). -/
opaque identitySign : Nat → Nat
/-- SHA-512 of a byte image (R451; log entry 11). -/
opaque sha512 : Nat → Nat
/-- Fused constants: firmware key, Verihel's debug and fuse keys, security counter, ROM digest, serial number (R451, R453, R454). -/
opaque firmwareKey : Nat
opaque debugKey : Nat
opaque fuseKey : Nat
opaque fusedVersion : Nat
opaque romDigest : Nat
opaque serial : Nat
/-- A nonce that the device offers for an unlock token (R454). -/
opaque nonce : Nat → Nat
/-- Futas identity of the device before a firmware image has set it (R442, R451). -/
opaque fid : BitVec 12

end Sys2Proof.Config
end

