-- ==== Sys2Proof/Syntax.lean ====
section
/-! DEFINITION. The instructions and events of the device: one constructor per row of the opcode table.
Names: `c…` C-code (R65), `l…` L-code (R67), `ev…` the table's indivisible events that no program word encodes. -/

namespace Sys2Proof

/-- The fields of a lane instruction (R42); the opcode is the constructor's. -/
structure LF where
  d : BitVec 8
  a : BitVec 8
  b : BitVec 8
  c : BitVec 8
  ty : BitVec 5
  rm : BitVec 2
  neg : BitVec 1
  pg : BitVec 3
  fe : BitVec 3
  sk : BitVec 2
  md : BitVec 6
  imm : BitVec 32
deriving DecidableEq, Repr

/-- The three register blocks a host or debugger reaches (R438). -/
inductive PortId where
  | a
  | b
  | dbg
deriving DecidableEq, Repr

/-- Where a packet stands: a switch of R316, or an end of a path. -/
inductive Place where
  | cluster (n : Nat)
  | sector (n : Nat)
  | stop (n : Nat)
  | hub (n : Nat)
  | slice (n : Nat)
  | sill (n : Nat)
  | core (n : Nat)
  | rca (n : Nat)
  | raster (n : Nat)
  | host
  | futas (n : Nat)
deriving DecidableEq, Repr

/-- What an access does at its page (R300, R301). -/
inductive AccKind where
  | read
  | write
  | exec
deriving DecidableEq, Repr

/-- Where a memory-side budget is counted (R324). -/
inductive BudgetSite where
  | net (cluster part : Nat)
  | hbm (stack part : Nat)
deriving DecidableEq, Repr

/-- What a request that comes to the Futas hub asks (R449, R450): an access of a peer, a piece of a put to an endpoint, or
a request packet of this device itself, which its own hub serves; and what else comes for a device (R448): a reply, a brace's
set-up, an unbrace, the error completion of a put. -/
inductive PeerKind where
  | load (size : Nat)
  | store (size : Nat) (v : Word)
  | atomic (op ty size : Nat) (v cmp : Word)
  | put (dst src : Word) (counter off total id : Nat) (bytes : List Byte) (bad : List Nat)
  | replicated (size : Nat) (v : Word)
  | own (pkt : Nat)
  | reply (v : Word) (ok : Bool)
  | setup (endpoint : Word) (flits : Nat)
  | unbrace (endpoint : Word)
  | putError (src : Word)
deriving DecidableEq, Repr

/-- An inbound request (R448 to R450): the device that it is for, its initiator, the address space it names, its address
or put offset, its slack and LATE bit, whether the initiator's page is SO, the devices of its peer set. -/
structure PeerReq where
  dev : Nat
  fid : Nat
  tasid : Nat
  va : Word
  slack : Nat
  late : Bool
  so : Bool
  devs : List Nat
  kind : PeerKind
deriving DecidableEq, Repr

/-- What a debugger names of a group (R382, R383, R454): a register, of an X register its address, LIM or page-table entry
too, of a split's run T0 to T7 or Q; a system register as SGET and SSET number them, a put counter of its unit, eight bytes of
its frame; or eight bytes of device memory. -/
inductive DebugReg where
  | s (n place : Nat)
  | ks (n place : Nat)
  | v (n : Nat)
  | k (n : Nat)
  | x (n : Nat)
  | xlim (n : Nat)
  | xpte (n : Nat)
  | t (n place : Nat)
  | q (n place : Nat)
  | p (n : Nat)
  | lstat
  | pc (place : Nat)
  | sys (n place : Nat)
  | counter (n : Nat)
  | frame (offset : Nat)
  | mem (addr : Nat)
deriving DecidableEq, Repr

/-- Debug levels (R454). -/
inductive DebugLevel where
  | none
  | observe
  | invasive
deriving DecidableEq, Repr

/-- Lifecycle states (R454), in the order in which they may be entered. -/
inductive Lifecycle where
  | manufacture
  | opened
  | sealed
  | returned
deriving DecidableEq, Repr

/-- A firmware image as the boot flash holds it (R451): its bytes as a number, its signature, its security
version and the Futas identity of its configuration block. -/
structure Firmware where
  image : Nat
  signature : Nat
  version : Nat
  fid : BitVec 12
deriving DecidableEq, Repr

/-- What POWER_ON meets (R451): the image in boot flash, whether the stacks and HBM come up, whether the CXL link trains. -/
structure BringUp where
  image : Firmware
  hbmUp : Bool
  link : Bool
deriving DecidableEq, Repr

/-- What the exchange state of a Futas port brings besides the partner's FID (R446): its slack unit and the buffer depths of its
virtual channels. -/
structure LinkOffer where
  unit : Nat
  depths : List Nat
deriving DecidableEq, Repr

/-- Where a soft error arises (R310, R313, R380). -/
inductive ErrSite where
  | scratch (core uslot word : Nat)
  | l1 (core line : Nat)
  | line (core gslot lane reg : Nat)
  | window (core gslot lane word : Nat)
  | tile (core uslot element : Nat)
  | l2 (word : Nat)
  | guest (slice word : Nat)
  | hbm (sector badBytes : Nat)
  | control (core gslot : Nat) (addr : Word)
  | shadow (core gslot : Nat) (addr : Word)
deriving DecidableEq, Repr

/-- Every instruction and event of the opcode table. -/
inductive Instr where
  /-- SADD: Writes S[a] + S[b] modulo 2^64 into S[d] (R100). -/
  | cSadd (d : BitVec 6) (a : BitVec 6) (b : BitVec 6)
  /-- SSUB: Writes S[a] − S[b] into S[d] (R100). -/
  | cSsub (d : BitVec 6) (a : BitVec 6) (b : BitVec 6)
  /-- SMUL: Writes the low 64 bits of the product into S[d] (R100). -/
  | cSmul (d : BitVec 6) (a : BitVec 6) (b : BitVec 6)
  /-- SMULHI: Writes the high 64 bits of the signed 128-bit product (R100). -/
  | cSmulhi (d : BitVec 6) (a : BitVec 6) (b : BitVec 6)
  /-- SMULHN: Writes the high 64 bits of the unsigned 128-bit product (R100). -/
  | cSmulhn (d : BitVec 6) (a : BitVec 6) (b : BitVec 6)
  /-- SDIV: Writes the signed quotient, with the fixed results for division by zero and overflow (R101). -/
  | cSdiv (d : BitVec 6) (a : BitVec 6) (b : BitVec 6)
  /-- SDIVN: Writes the unsigned quotient (R101). -/
  | cSdivn (d : BitVec 6) (a : BitVec 6) (b : BitVec 6)
  /-- SREM: Writes the signed remainder (R101). -/
  | cSrem (d : BitVec 6) (a : BitVec 6) (b : BitVec 6)
  /-- SREMN: Writes the unsigned remainder (R101). -/
  | cSremn (d : BitVec 6) (a : BitVec 6) (b : BitVec 6)
  /-- SAND: Writes the bitwise AND of S[a] and S[b] (R100). -/
  | cSand (d : BitVec 6) (a : BitVec 6) (b : BitVec 6)
  /-- SOR: Writes the bitwise OR (R100). -/
  | cSor (d : BitVec 6) (a : BitVec 6) (b : BitVec 6)
  /-- SXOR: Writes the bitwise XOR (R100). -/
  | cSxor (d : BitVec 6) (a : BitVec 6) (b : BitVec 6)
  /-- SANDN: Writes S[a] AND NOT S[b] (R100). -/
  | cSandn (d : BitVec 6) (a : BitVec 6) (b : BitVec 6)
  /-- SSHL: Shifts S[a] left by the whole of S[b] (R102). -/
  | cSshl (d : BitVec 6) (a : BitVec 6) (b : BitVec 6)
  /-- SSHR: Shifts S[a] right logically by S[b] (R102). -/
  | cSshr (d : BitVec 6) (a : BitVec 6) (b : BitVec 6)
  /-- SSRA: Shifts S[a] right arithmetically by S[b] (R102). -/
  | cSsra (d : BitVec 6) (a : BitVec 6) (b : BitVec 6)
  /-- SMIN: Writes the signed minimum (R100). -/
  | cSmin (d : BitVec 6) (a : BitVec 6) (b : BitVec 6)
  /-- SMAX: Writes the signed maximum (R100). -/
  | cSmax (d : BitVec 6) (a : BitVec 6) (b : BitVec 6)
  /-- SMINN: Writes the unsigned minimum (R100). -/
  | cSminn (d : BitVec 6) (a : BitVec 6) (b : BitVec 6)
  /-- SMAXN: Writes the unsigned maximum (R100). -/
  | cSmaxn (d : BitVec 6) (a : BitVec 6) (b : BitVec 6)
  /-- SCMP: Writes 1 if S[a] meets the integer condition against S[b], else 0 (R100). -/
  | cScmp (d : BitVec 6) (a : BitVec 6) (b : BitVec 6) (c : BitVec 6)
  /-- SSEL: Writes S[a] if S[c] is nonzero, else S[b] (R100). -/
  | cSsel (d : BitVec 6) (a : BitVec 6) (b : BitVec 6) (c : BitVec 6)
  /-- SMOV: Copies S[a] into S[d] (R100). -/
  | cSmov (d : BitVec 6) (a : BitVec 6)
  /-- SPOPC: Writes the number of 1 bits of S[a] (R100). -/
  | cSpopc (d : BitVec 6) (a : BitVec 6)
  /-- SCLZ: Writes the number of leading zero bits of S[a] (R100). -/
  | cSclz (d : BitVec 6) (a : BitVec 6)
  /-- SBFX: Extracts a field of width w at the position in S[b] (R103). -/
  | cSbfx (d : BitVec 6) (a : BitVec 6) (b : BitVec 6) (w : BitVec 6)
  /-- SBFI: Inserts the low w bits of S[a] into S[d] at the position in S[b] (R103). -/
  | cSbfi (d : BitVec 6) (a : BitVec 6) (b : BitVec 6) (w : BitVec 6)
  /-- SADDI: Adds the sign-extended imm12 to S[a] (R104). -/
  | cSaddi (d : BitVec 6) (a : BitVec 6) (i : BitVec 12)
  /-- SANDI: ANDs S[a] with the sign-extended imm12 (R104). -/
  | cSandi (d : BitVec 6) (a : BitVec 6) (i : BitVec 12)
  /-- SORI: ORs S[a] with the sign-extended imm12 (R104). -/
  | cSori (d : BitVec 6) (a : BitVec 6) (i : BitVec 12)
  /-- SXORI: XORs S[a] with the sign-extended imm12 (R104). -/
  | cSxori (d : BitVec 6) (a : BitVec 6) (i : BitVec 12)
  /-- SSHLI: Shifts S[a] left by an immediate count 0–63 (R104). -/
  | cSshli (d : BitVec 6) (a : BitVec 6) (n : BitVec 12)
  /-- SSHRI: Shifts S[a] right logically by an immediate count (R104). -/
  | cSshri (d : BitVec 6) (a : BitVec 6) (n : BitVec 12)
  /-- SSRAI: Shifts S[a] right arithmetically by an immediate count (R104). -/
  | cSsrai (d : BitVec 6) (a : BitVec 6) (n : BitVec 12)
  /-- SCMPI: Compares S[a] with a signed 8-bit immediate under a condition and writes 1 or 0 (R104). -/
  | cScmpi (d : BitVec 6) (a : BitVec 6) (c : BitVec 4) (i : BitVec 8)
  /-- SMOVI: Writes the sign-extended 18-bit immediate into S[d] (R104). -/
  | cSmovi (d : BitVec 6) (i : BitVec 18)
  /-- SLIT: Loads a sign-extended 32-bit literal into S[d] (R105). -/
  | cSlit (d : BitVec 6) (lit : BitVec 32)
  /-- SLIT_HI: Forms S[d] from a 32-bit literal in the high half and the low half of S[a] (R105). -/
  | cSlitHi (d : BitVec 6) (a : BitVec 6) (lit : BitVec 32)
  /-- SLD: Marks S[d] empty and loads an aligned 64-bit value through the TLBs (R106). -/
  | cSld (d : BitVec 6) (a : BitVec 6) (o : BitVec 12)
  /-- SST: Stores S[d] as an aligned 64-bit value through the TLBs (R106). -/
  | cSst (d : BitVec 6) (a : BitVec 6) (o : BitVec 12)
  /-- SATOM: Performs a 64-bit read-modify-write at the home, with an optional ordering, into an empty S[d] (R107). -/
  | cSatom (d : BitVec 6) (a : BitVec 6) (b : BitVec 6) (r : BitVec 2) (o : BitVec 4)
  /-- SFROM: Copies the register of lane S[b] mod 32 into S[d] after the lane-state wait (R108). -/
  | cSfrom (d : BitVec 6) (a : BitVec 6) (b : BitVec 6)
  /-- SFROM_FIRST: Copies the register of the lowest lane of the split's mask into S[d] (R108). -/
  | cSfromFirst (d : BitVec 6) (a : BitVec 6)
  /-- XLAT: Fills an X register with a translation snapshot for reading, never faulting (R111). -/
  | cXlat (d : BitVec 6) (a : BitVec 6) (b : BitVec 6)
  /-- XLAT_W: Fills an X register with a writable translation snapshot and sets D in the leaf (R111). -/
  | cXlatW (d : BitVec 6) (a : BitVec 6) (b : BitVec 6)
  /-- XFREE: Clears every bit of an X register (R112). -/
  | cXfree (d : BitVec 6)
  /-- PREF_L2: Requests a line into L2 without faulting or ordering (R113). -/
  | cPrefL2 (a : BitVec 6) (i : BitVec 12)
  /-- PREF_L1: Requests a line into L1 and L2 without faulting or ordering (R113). -/
  | cPrefL1 (a : BitVec 6) (i : BitVec 12)
  /-- PIN: Checks a range and pins its L2 lines, writing a status (R114). -/
  | cPin (d : BitVec 6) (a : BitVec 6) (b : BitVec 6)
  /-- UNPIN: Clears the issuer's pins on a range and writes the count cleared (R115). -/
  | cUnpin (d : BitVec 6) (a : BitVec 6) (b : BitVec 6)
  /-- BRA: Branches to PC + 4·off14 when S[a] meets the condition against 0 (R117). -/
  | cBra (a : BitVec 6) (c : BitVec 4) (o : BitVec 14)
  /-- B: Branches unconditionally, optionally marking a merge point (R117). -/
  | cB (m : BitVec 1) (o : BitVec 23)
  /-- BRAL: Long-form conditional branch with a 32-bit word offset (R117). -/
  | cBral (a : BitVec 6) (c : BitVec 4) (m : BitVec 1) (lit : BitVec 32)
  /-- BDIV: Divides, serialises, branches or falls through according to a predicate over the split's lanes (R127). -/
  | cBdiv (n : BitVec 1) (p : BitVec 3) (m : BitVec 1) (o : BitVec 14)
  /-- JSET: Pushes a plain token whose join address is the target (R126). -/
  | cJset (o : BitVec 14)
  /-- JBRK: Removes the split's lanes from its innermost token and continues at the target (R129). -/
  | cJbrk (o : BitVec 14)
  /-- CALL: Checks the target FN and budget, writes S63 and enters the function (R118). -/
  | cCall (o : BitVec 24)
  /-- CALLI: Calls the function at the address in S[a] (R118). -/
  | cCalli (a : BitVec 6)
  /-- CALLL: Long-form call with a 32-bit word offset (R118). -/
  | cCalll (lit : BitVec 32)
  /-- CALLV: Calls per-lane targets, pushing a call token and splitting or deferring the lanes (R133). -/
  | cCallv (a : BitVec 6)
  /-- RET: Transfers control to S[a], acting as JOIN on a matching call token (R119). -/
  | cRet (a : BitVec 6)
  /-- FN: Function entry word declaring budgets; does nothing when executed (R120). -/
  | cFn (s : BitVec 1) (p : BitVec 9) (v : BitVec 5)
  /-- RUN: Fetches and checks a run, snapshots S56–S59 and enqueues it with the split's mask (R123). -/
  | cRun (l : BitVec 18) (s : BitVec 4)
  /-- RUNP: Enqueues a run whose active set is the split's mask ANDed with a predicate (R123). -/
  | cRunp (p : BitVec 3) (l : BitVec 17) (s : BitVec 4)
  /-- WAITF_V: Waits as WAITF and also until V[a] is full in every lane of the mask (R124). -/
  | cWaitfV (a : BitVec 6)
  /-- SPAWN: Creates one user-mode group in the issuing unit at a line entry, writing its index or all ones (R139). -/
  | cSpawn (d : BitVec 6) (a : BitVec 6) (i : BitVec 12)
  /-- LAUNCH: Reads a launch record and places it as a node of the issuing graph, writing a handle or status (R138). -/
  | cLaunch (d : BitVec 6) (a : BitVec 6) (b : BitVec 6)
  /-- LAUNCH_GRAPH: Places a launch as a new graph after the last graph of the phase (R138). -/
  | cLaunchGraph (d : BitVec 6) (a : BitVec 6) (b : BitVec 6)
  /-- LAUNCH_PHASE: Places a launch as a new phase after the last phase of the job (R138). -/
  | cLaunchPhase (d : BitVec 6) (a : BitVec 6) (b : BitVec 6)
  /-- CANCEL: Cancels the launch named by S[a] and writes a status once the cancelled groups have ended (R141). -/
  | cCancel (d : BitVec 6) (a : BitVec 6)
  /-- CANCEL_GRAPH: Cancels the graph containing the named launch (R141). -/
  | cCancelGraph (d : BitVec 6) (a : BitVec 6)
  /-- CANCEL_PHASE: Cancels the phase containing the named launch (R141). -/
  | cCancelPhase (d : BitVec 6) (a : BitVec 6)
  /-- CANCEL_JOB: Cancels the job containing the named launch (R141). -/
  | cCancelJob (d : BitVec 6) (a : BitVec 6)
  /-- ARRIVE: Adds arrivals to a scratchpad barrier object atomically, completing its phase, and returns the old phase (R143). -/
  | cArrive (d : BitVec 6) (a : BitVec 6) (b : BitVec 6)
  /-- AWAIT: Waits until the barrier object's phase differs from S[b], then acquires (R143). -/
  | cAwait (a : BitVec 6) (b : BitVec 6)
  /-- FENCE: Waits for earlier accesses and orders them at the named scope and storage, optionally draining UO writes (R144). -/
  | cFence (r : BitVec 1) (k : BitVec 2) (p : BitVec 1) (g : BitVec 1) (l : BitVec 1) (s : BitVec 3)
  /-- CPY: Checks both ranges and starts a copy on the core's copy engine in the group's open batch (R145). -/
  | cCpy (d : BitVec 6) (a : BitVec 6) (b : BitVec 6) (r : BitVec 2) (t : BitVec 1)
  /-- SEAL: Closes the open batch and writes the new batch number (R146). -/
  | cSeal (d : BitVec 6)
  /-- WAITB: Waits until the copies of batches up to min(S[a], B) are written and visible in the group (R146). -/
  | cWaitb (d : BitVec 6) (a : BitVec 6)
  /-- HINIT: Reads a hod descriptor and initialises a hod at a scratchpad base (R148). -/
  | cHinit (a : BitVec 6) (b : BitVec 6) (h : BitVec 6)
  /-- HBIND_OFF: Unbinds two hods once the engine's current firing ends (R149). -/
  | cHbindOff (i : BitVec 6) (o : BitVec 6) (b : BitVec 6)
  /-- HBIND_GATHER: Reads a gather descriptor and binds the core's gather engine to an input and output hod (R149). -/
  | cHbindGather (i : BitVec 6) (o : BitVec 6) (b : BitVec 6)
  /-- HBIND_RASTER: Reads a raster descriptor and binds the cluster's raster engine to two hods (R421). -/
  | cHbindRaster (i : BitVec 6) (o : BitVec 6) (b : BitVec 6)
  /-- HWAIT_ROOM: Waits until a hod has room for S[a] slots and writes P (R150). -/
  | cHwaitRoom (d : BitVec 6) (a : BitVec 6) (h : BitVec 4)
  /-- HWAIT_DATA: Waits until a hod holds S[a] slots, acquires and writes C (R150). -/
  | cHwaitData (d : BitVec 6) (a : BitVec 6) (h : BitVec 4)
  /-- HADV_P: Advances a hod's producer pointer with release after earlier scratchpad stores (R150). -/
  | cHadvP (a : BitVec 6) (h : BitVec 4)
  /-- HADV_C: Advances a hod's consumer pointer after earlier scratchpad loads (R150). -/
  | cHadvC (a : BitVec 6) (h : BitVec 4)
  /-- PUT: Sends scratchpad bytes to a remote unit's scratchpad, naming a counter there (R152). -/
  | cPut (d : BitVec 6) (a : BitVec 6) (b : BitVec 6)
  /-- CWAIT: Waits until a put counter reaches S[a], acquires and returns the counter (R153). -/
  | cCwait (d : BitVec 6) (a : BitVec 6) (c : BitVec 4)
  /-- CWAIT_SUB: Waits as CWAIT and subtracts S[a] from the counter in the same atomic step (R153). -/
  | cCwaitSub (d : BitVec 6) (a : BitVec 6) (c : BitVec 4)
  /-- BRACE: Sends a set-up packet reserving a virtual channel toward an endpoint's core and writes a status (R154). -/
  | cBrace (d : BitVec 6) (a : BitVec 6) (b : BitVec 6)
  /-- UNBRACE: Ends the brace to an endpoint and returns the flits not used (R154). -/
  | cUnbrace (d : BitVec 6) (a : BitVec 6)
  /-- GENPUB: Waits for the next generation's old rays, releases and increments a structure's generation (R155). -/
  | cGenpub (d : BitVec 6) (a : BitVec 6)
  /-- GENWAIT: Waits until every ray of generation g and older has retired, then acquires (R155). -/
  | cGenwait (d : BitVec 6) (a : BitVec 6) (b : BitVec 6)
  /-- GENWAIT_TEST: Tests without waiting whether generation g and older have retired (R155). -/
  | cGenwaitTest (d : BitVec 6) (a : BitVec 6) (b : BitVec 6)
  /-- RCPUB: Waits until the network's latest weights are published to, or adopted by, every RCA (R156). -/
  | cRcpub (n : BitVec 2)
  /-- RCHOLD: Fixes a network's visible version until the end of the phase (R156). -/
  | cRchold (n : BitVec 2)
  /-- RCHOLD_OFF: Ends a network's hold (R156). -/
  | cRcholdOff (n : BitVec 2)
  /-- RCSTEP: Queues one Adam step of a given batch size for a network (R156). -/
  | cRcstep (b : BitVec 2) (n : BitVec 2)
  /-- SGET: Copies a system register into S[d] (R157). -/
  | cSget (d : BitVec 6) (r : BitVec 12)
  /-- SSET: Writes S[a] into a system register under its access codes (R157). -/
  | cSset (a : BitVec 6) (r : BitVec 12)
  /-- TRAP: Raises a cause with a value, entering the handler or halting in supervisor mode (R159). -/
  | cTrap (v : BitVec 16) (c : BitVec 8)
  /-- RPLY: Re-injects one frame entry at once and writes a status (R160). -/
  | cRply (d : BitVec 6) (a : BitVec 6)
  /-- MAP: Writes a leaf PTE for a virtual address if the slot is free, writing a status (R162). -/
  | cMap (d : BitVec 6) (a : BitVec 6) (b : BitVec 6)
  /-- MAP_FT: Pops a frame from the free-frame stack, zeroes it and completes a first-touch leaf (R162). -/
  | cMapFt (d : BitVec 6) (a : BitVec 6)
  /-- UNMAP: Clears a leaf's V, returns the old leaf and invalidates the page (R163). -/
  | cUnmap (d : BitVec 6) (a : BitVec 6)
  /-- TLBINV: Removes the translation of one page from every TLB, walker cache and X register (R163). -/
  | cTlbinv (a : BitVec 6) (b : BitVec 6)
  /-- TLBINV_RANGE: Removes the translations of every page of a range (R163). -/
  | cTlbinvRange (a : BitVec 6) (b : BitVec 6)
  /-- BKPT: Stops the group for an attached debugger, or traps DEBUG with the tag (R159). -/
  | cBkpt (t : BitVec 24)
  /-- ADD: Adds elements, optionally saturating (R167). -/
  | lAdd (f : LF)
  /-- SUB: Subtracts elements, optionally saturating (R167). -/
  | lSub (f : LF)
  /-- MUL: Multiplies elements, optionally saturating (R167). -/
  | lMul (f : LF)
  /-- MULHI: Writes the high half of each element product (R167). -/
  | lMulhi (f : LF)
  /-- MAD: Multiplies and adds elements from the exact value (R167). -/
  | lMad (f : LF)
  /-- DIV: Divides elements, setting LSTAT.DZ or OV per lane (R170). -/
  | lDiv (f : LF)
  /-- REM: Computes element remainders, setting LSTAT.DZ or OV (R170). -/
  | lRem (f : LF)
  /-- ABS: Writes the absolute value of signed elements (R167). -/
  | lAbs (f : LF)
  /-- NEG: Negates signed elements (R167). -/
  | lNeg (f : LF)
  /-- MIN: Writes the lesser element (R167). -/
  | lMin (f : LF)
  /-- MAX: Writes the greater element (R167). -/
  | lMax (f : LF)
  /-- AND: Bitwise AND of two registers (R167). -/
  | lAnd (f : LF)
  /-- OR: Bitwise OR of two registers (R167). -/
  | lOr (f : LF)
  /-- XOR: Bitwise XOR of two registers (R167). -/
  | lXor (f : LF)
  /-- ANDN: Bitwise A AND NOT B (R167). -/
  | lAndn (f : LF)
  /-- SHL: Shifts elements left (R168). -/
  | lShl (f : LF)
  /-- SHR: Shifts elements right logically (R168). -/
  | lShr (f : LF)
  /-- SRA: Shifts elements right arithmetically (R168). -/
  | lSra (f : LF)
  /-- ROTL: Rotates elements left (R168). -/
  | lRotl (f : LF)
  /-- POPC: Counts the 1 bits of each element (R167). -/
  | lPopc (f : LF)
  /-- CLZ: Counts leading zero bits of each element (R167). -/
  | lClz (f : LF)
  /-- BREV: Reverses the bits of each element (R167). -/
  | lBrev (f : LF)
  /-- BFX: Extracts a bit field per element (R169). -/
  | lBfx (f : LF)
  /-- BFI: Inserts a bit field per element (R169). -/
  | lBfi (f : LF)
  /-- DOT4: Forms a four-term dot product plus an addend (R172). -/
  | lDot4 (f : LF)
  /-- FADD: Floating-point addition with one rounding (R173). -/
  | lFadd (f : LF)
  /-- FSUB: Floating-point subtraction (R173). -/
  | lFsub (f : LF)
  /-- FMUL: Floating-point multiplication (R173). -/
  | lFmul (f : LF)
  /-- FFMA: Fused multiply-add with one rounding (R173). -/
  | lFfma (f : LF)
  /-- FMIN: Selects the lesser operand with NaN and zero rules (R175). -/
  | lFmin (f : LF)
  /-- FMAX: Selects the greater operand with NaN and zero rules (R175). -/
  | lFmax (f : LF)
  /-- FDIV: Correctly rounded floating-point division (R173). -/
  | lFdiv (f : LF)
  /-- FRCP: Correctly rounded reciprocal (R173). -/
  | lFrcp (f : LF)
  /-- FRSQ: Approximate reciprocal square root (R176). -/
  | lFrsq (f : LF)
  /-- FSQRT: Correctly rounded square root (R173). -/
  | lFsqrt (f : LF)
  /-- FEXP2: Approximate 2^x (R176). -/
  | lFexp2 (f : LF)
  /-- FLOG2: Approximate log2 x (R176). -/
  | lFlog2 (f : LF)
  /-- FSIN: Approximate sin(πx) (R176). -/
  | lFsin (f : LF)
  /-- FCOS: Approximate cos(πx) (R176). -/
  | lFcos (f : LF)
  /-- FRND: Rounds to an integral value in the direction rm names (R178). -/
  | lFrnd (f : LF)
  /-- FFRAC: Writes A − floor(A), rounded toward zero (R178). -/
  | lFfrac (f : LF)
  /-- FLDEXP: Scales by 2^k with one rounding (R178). -/
  | lFldexp (f : LF)
  /-- CVT: Converts elements between types into a window of the destination (R179). -/
  | lCvt (f : LF)
  /-- PACK: Narrows two registers into one at half width (R182). -/
  | lPack (f : LF)
  /-- UNPK: Widens half the elements of a register (R183). -/
  | lUnpk (f : LF)
  /-- SWZ: Selects elements of A and B by an immediate pattern (R184). -/
  | lSwz (f : LF)
  /-- BXQ: Quantises 64 binary32 values across the group into a BX superblock (R186). -/
  | lBxq (f : LF)
  /-- BXDQ: Decodes a BX superblock into binary32 elements across the group (R187). -/
  | lBxdq (f : LF)
  /-- BXEXP: Extracts the four block exponents of a superblock word (R188). -/
  | lBxexp (f : LF)
  /-- BXALIGN: Converts superblock elements to integers at the Emax scale (R189). -/
  | lBxalign (f : LF)
  /-- BXNORM: Quantises summed aligned integers back into a BX superblock (R190). -/
  | lBxnorm (f : LF)
  /-- CMP: Compares integer elements and writes a predicate (R193). -/
  | lCmp (f : LF)
  /-- FCMP: Compares float elements and writes a predicate (R193). -/
  | lFcmp (f : LF)
  /-- SEL: Selects A or B by a predicate (R195). -/
  | lSel (f : LF)
  /-- MOV: Copies a source into the destination (R195). -/
  | lMov (f : LF)
  /-- PAND: ANDs two predicates with optional negation (R194). -/
  | lPand (f : LF)
  /-- POR: ORs two predicates (R194). -/
  | lPor (f : LF)
  /-- PXOR: XORs two predicates (R194). -/
  | lPxor (f : LF)
  /-- PSET: Sets a predicate from a nonzero register (R194). -/
  | lPset (f : LF)
  /-- PGET: Copies a predicate into a register (R194). -/
  | lPget (f : LF)
  /-- SHFL: Reads elements from lanes named by an index source (R197). -/
  | lShfl (f : LF)
  /-- SHFLX: Reads elements at the flat index XOR a mask (R197). -/
  | lShflx (f : LF)
  /-- BCAST: Broadcasts a named lane's register (R197). -/
  | lBcast (f : LF)
  /-- BCAST_FIRST: Broadcasts the lowest acting lane's register (R197). -/
  | lBcastFirst (f : LF)
  /-- VOTE: Forms a ballot, any, all or count over contributing lanes (R198). -/
  | lVote (f : LF)
  /-- MATCH: Writes the mask of contributing lanes with a matching key (R199). -/
  | lMatch (f : LF)
  /-- REDS: Reduces each segment by a fixed pairwise tree (R200). -/
  | lReds (f : LF)
  /-- SCAN: Computes segmented inclusive prefixes (R201). -/
  | lScan (f : LF)
  /-- DDX: Forms the horizontal quad difference (R203). -/
  | lDdx (f : LF)
  /-- DDY: Forms the vertical quad difference (R203). -/
  | lDdy (f : LF)
  /-- QSWAP: Exchanges a register with a quad neighbour (R204). -/
  | lQswap (f : LF)
  /-- LD: Loads through an X register per lane, marking the destination empty until data lands (R206). -/
  | lLd (f : LF)
  /-- LD_PLANES: Loads the leading words of a BX superblock into lanes 0 to 1 + k (R207). -/
  | lLdPlanes (f : LF)
  /-- ST: Stores per lane through an X register, the highest lane winning shared bytes (R208). -/
  | lSt (f : LF)
  /-- LDS: Loads from the unit's scratchpad (R210). -/
  | lLds (f : LF)
  /-- STS: Stores to the unit's scratchpad (R210). -/
  | lSts (f : LF)
  /-- LDP: Loads from the lane's private window (R211). -/
  | lLdp (f : LF)
  /-- STP: Stores to the lane's private window (R211). -/
  | lStp (f : LF)
  /-- ATOM: Performs per-lane atomics at the home through an X register (R213). -/
  | lAtom (f : LF)
  /-- ATOMS: Performs per-lane atomics on the scratchpad (R213). -/
  | lAtoms (f : LF)
  /-- HPUSH: Waits for room, writes each lane's value into a hod slot and advances P with release (R216). -/
  | lHpush (f : LF)
  /-- HPOP: Marks D empty and reads a hod slot into it when data is present, advancing C (R217). -/
  | lHpop (f : LF)
  /-- TRAPIF: Enters the handler for a cause in lanes whose condition holds (R218). -/
  | lTrapif (f : LF)
  /-- LNOP: Holds the issue slot for 1 + n cycles (R219). -/
  | lLnop (f : LF)
  /-- WLD: Checks and latches a dense weight tile from scratchpad into a bank (R226). -/
  | lWld (f : LF)
  /-- WLDS: Checks and latches a sparse weight tile into a bank (R226). -/
  | lWlds (f : LF)
  /-- MMA: Updates accumulator rows with the dense bank's tile (R230). -/
  | lMma (f : LF)
  /-- MMAS: Updates accumulator rows with the sparse bank's tile (R230). -/
  | lMmas (f : LF)
  /-- ACCZ: Zeroes accumulator rows (R235). -/
  | lAccz (f : LF)
  /-- ACCRD: Reads accumulator columns into a register block after they drain (R235). -/
  | lAccrd (f : LF)
  /-- ACCWR: Writes a register block into accumulator columns (R235). -/
  | lAccwr (f : LF)
  /-- TRACE: Sends a ray message per acting lane, or writes a miss or invalid record at once (R240). -/
  | lTrace (f : LF)
  /-- RESUME_REJECT: Discards a candidate and continues traversal (R241). -/
  | lResumeReject (f : LF)
  /-- RESUME_ACCEPT: Accepts a candidate as the held hit and continues (R241). -/
  | lResumeAccept (f : LF)
  /-- RESUME_END: Accepts a candidate and ends traversal (R241). -/
  | lResumeEnd (f : LF)
  /-- HITGET: Names a new record block that fills with the ray's next record (R241). -/
  | lHitget (f : LF)
  /-- SAMPLE: Requests filtered texels from the texture's home sill (R243). -/
  | lSample (f : LF)
  /-- HGRID: Requests interpolated hash-grid features from the grid's home sill (R245). -/
  | lHgrid (f : LF)
  /-- RCQT: Queries a radiance network and optionally enqueues training samples (R246). -/
  | lRcqt (f : LF)
  /-- BANK_LOAD: Once earlier MMAs have drained and stores are performed, the bank loads the image (R226). -/
  | evBankLoad (core bank : Nat)
  /-- BANK_RELATCH: The array re-latches a bank from the unit's descriptor when another unit's tile is held (R228). -/
  | evBankRelatch (core bank : Nat)
  /-- MATRIX_ACCEPT: The array accepts a waiting MMA or MMAS and drains its rows and columns on the fixed schedule (R233). -/
  | evMatrixAccept (core : Nat)
  /-- PRODUCER_RESULT_LANDS: A long-latency producer's reply is written into its destination, which becomes full, with LATE and poison handling (R35). -/
  | evProducerResultLands (core gslot pid : Nat)
  /-- REGISTER_LINE_FILL: A register line is filled from the image, evicting the least recently named eligible line (R293). -/
  | evRegisterLineFill (core gslot line : Nat)
  /-- LANE_SLOT_SELECT: Each cycle the free lane slots select candidate or resumed runs in rank order, pairing where allowed (R275). -/
  | evLaneSlotSelect (core : Nat)
  /-- CANDIDATE_OVERDUE: A candidate's waiting count reaches 64 and it becomes overdue (R276). -/
  | evCandidateOverdue (core gslot place : Nat) (run : Bool)
  /-- YIELD_EXPIRY: The 8 cycles after YIELD pass and the split is eligible again (R122). -/
  | evYieldExpiry (core gslot place : Nat)
  /-- UNIT_PLACEMENT: The partition places the next fitting unit of a started launch on a core and starts its groups (R264). -/
  | evUnitPlacement (part : Nat)
  /-- DEFERRED_TRAP_ENTRY: A class-D event (POISON, PEERFAULT, PEERTIMEOUT, LATESLACK) is taken at the group's next boundary (R367). -/
  | evDeferredTrapEntry (core gslot : Nat)
  /-- CANCELLED_ENTRY: A cancelled group takes CANCELLED at its next issue and ends after its handler (R141). -/
  | evCancelledEntry (core gslot : Nat)
  /-- PREEMPT_ENTRY: A group of a pre-empted partition takes PREEMPT at its next boundary (R375). -/
  | evPreemptEntry (core gslot : Nat)
  /-- SHADOW_SAVE: Once every core of the partition is halted, its state is copied to shadow storage and its resources are freed (R375). -/
  | evShadowSave (part : Nat)
  /-- PACKET_ARRIVAL: A packet arrives at a switch, exhausted and LATE if its slack is 0 (R319). -/
  | evPacketArrival (pkt : Nat)
  /-- SWITCH_ARBITRATION: A free output grants one packet with credit by exhaustion, slack, arrival and port (R319). -/
  | evSwitchArbitration (sw out : Place)
  /-- BRACE_SETUP: A brace set-up packet reserves VC3 at a hop or fails and frees the path (R322). -/
  | evBraceSetup (pkt : Nat)
  /-- PUT_ARRIVAL: Put packets land at the receiver, which increments the counter when all bytes arrive or logs a stale put (R323). -/
  | evPutArrival (pkt : Nat)
  /-- COPY_PIECE: The copy engine moves a 32-byte piece of a row in ascending order (R145). -/
  | evCopyPiece (core : Nat)
  /-- GATHER_FIRING: With an input slot and output room, the gather engine gathers COUNT elements and advances both hods (R149). -/
  | evGatherFiring (core : Nat)
  /-- RASTER_FIRING: The raster engine rasterises an input slot's triangles, updates the visibility buffer and writes a record (R425). -/
  | evRasterFiring (cluster : Nat)
  /-- RAY_MESSAGE_ARRIVAL: A sill queues an arriving ray message, spilling it when the SRAM is full (R404). -/
  | evRayMessageArrival (pkt : Nat)
  /-- TRAVERSAL_PIPE_SELECT: A free traversal pipe takes the next ray by exhaustion, cache and queue order, loading its treelet (R405). -/
  | evTraversalPipeSelect (stack pipe : Nat)
  /-- TREELET_VISIT: A pipe traverses a ray through one treelet until it leaves, suspends or ends (R397). -/
  | evTreeletVisit (stack pipe : Nat)
  /-- CONTINUATION_RETURN: A record returning to a continuation merges its hit and continues or sends the final record (R402). -/
  | evContinuationReturn (pkt : Nat)
  /-- FILTER_REQUEST: A sill serves a SAMPLE or HGRID request by slack and arrival, replying with all fetches (R412). -/
  | evFilterRequest (stack : Nat)
  /-- RCA_BATCH: An RCA begins a batch of queries of one network when 32 wait or the oldest has waited 8 cycles (R415). -/
  | evRcaBatch (cluster net : Nat)
  /-- SANDER_STEP: Once enough samples are queued, the Sander takes them and performs one Adam step or discards it (R417). -/
  | evSanderStep (die : Nat)
  /-- SANDER_PUBLICATION: The Sander writes new weights to every RCA, sends the switch and writes the status block (R416). -/
  | evSanderPublication (part net : Nat)
  /-- HBM_REQUEST_SERVE: A sill serves a queued request by slack and arrival with the burst its sector mask selects (R312). -/
  | evHbmRequestServe (stack : Nat)
  /-- HOME_SLICE_REQUEST: A request arriving at its home L2 slice is served there: hit or sector fill, store merge, atomic performed, insertion by set duelling, guest install, and a reply sent (R305). -/
  | evHomeSliceRequest (pkt : Nat)
  /-- UNDEFINED_ENCODING: A C-code word with an unassigned opcode, or with a field value no instruction gives a meaning, traps ILLEGAL when it would execute (R43). -/
  | evUndefinedEncoding (word : BitVec 32)
  /-- PAGE_WALK: The walker translates an address level by level at the home slices, setting A and D (R300). -/
  | evPageWalk (cluster asid : Nat) (va : Word) (acc : AccKind) (user : Bool)
  /-- SLACK_TICK: At a divider tick every buffered packet loses 1 slack, exhausted packets becoming LATE (R318). -/
  | evSlackTick (place : Place)
  /-- BRACE_IDLE_TIMEOUT: A hop ends its brace after 256 switch cycles with no braced flit (R322). -/
  | evBraceIdleTimeout (sw out : Place)
  /-- PATROL_SCRUB: Every SCRIV sill cycles the scrubber reads the next line and may write back a correction (R314). -/
  | evPatrolScrub (stack : Nat)
  /-- REFRESH: The sill refreshes a bank per HBM4 timing (R315). -/
  | evRefresh (stack bank : Nat)
  /-- STACK_TEMPERATURE_REPORT: A stack reports its temperature and the refresh rate doubles above 85 °C (R315). -/
  | evStackTemperatureReport (stack celsius : Nat)
  /-- PEER_TIMEOUT: A peer access with no reply after 2^20 core cycles completes with 0 and PEERTIMEOUT (R381). -/
  | evPeerTimeout (pkt : Nat)
  /-- PEER_REQUEST: A peer request arrives at a replica or primary and is served, forwarded or faulted (R449). -/
  | evPeerRequest (req : PeerReq)
  /-- HOST_SNOOP: The home slice answers a host snoop at once (R437). -/
  | evHostSnoop (line : Nat) (invalidate : Bool)
  /-- HOST_MEM_ACCESS: A host CXL.mem access in the window is performed at the home slice (R437). -/
  | evHostMemAccess (offset size : Nat) (write : Option (List Byte))
  /-- FUTAS_PACKET_CROSS: A packet crosses a Futas port with its slack rescaled and charged to the budget (R447). -/
  | evFutasPacketCross (port pkt : Nat)
  /-- FUTAS_DETECT: A port senses a partner on all lanes and enters lane lock (R446). -/
  | evFutasDetect (port : Nat)
  /-- FUTAS_LANE_LOCK: Lanes lock and the port enters equalisation (R446). -/
  | evFutasLaneLock (port : Nat)
  /-- FUTAS_LANE_LOCK_TIMEOUT: Lane lock fails within 2^20 cycles and the port returns to Detect (R446). -/
  | evFutasLaneLockTimeout (port : Nat)
  /-- FUTAS_EQUALISATION: Presets are tuned and the port enters deskew or Detect (R446). -/
  | evFutasEqualisation (port : Nat) (ok : Bool)
  /-- FUTAS_DESKEW: Lanes are aligned and the port enters exchange or Detect (R446). -/
  | evFutasDeskew (port : Nat) (ok : Bool)
  /-- FUTAS_EXCHANGE: FIDs and parameters are exchanged and the port becomes active, down or Detect (R446). -/
  | evFutasExchange (port fid : Nat) (offer : LinkOffer) (ok : Bool)
  /-- FUTAS_REPLAY_LIMIT: Sixteen successive replays of one flit return the port to Detect (R446). -/
  | evFutasReplayLimit (port : Nat)
  /-- ISSUE_BUDGET_PERIOD: At each 4,096-cycle period a core's issue count becomes ALLOT + min(count, 0) (R280). -/
  | evIssueBudgetPeriod (core : Nat)
  /-- MEMORY_BUDGET_PERIOD: At each period a network or HBM budget count is renewed (R325). -/
  | evMemoryBudgetPeriod (site : BudgetSite)
  /-- RAY_STEP_BUDGET_PERIOD: At each period a sill's ray-step count becomes 4 × ALLOT + min(count, 0) (R407). -/
  | evRayStepBudgetPeriod (stack : Nat)
  /-- FUTAS_BUDGET_PERIOD: At each period a Futas port's budget count is renewed (R447). -/
  | evFutasBudgetPeriod (port : Nat)
  /-- GO: Checks the port and record and starts a job or refuses it with a code (R440). -/
  | evGo (port : PortId)
  /-- JCAN: Cancels the port's job as CANCEL .job, ending halted groups (R438). -/
  | evJcan (port : PortId)
  /-- PRE_SAVE: Starts pre-emption of a partition by PREEMPT to every group (R375). -/
  | evPreSave (port : PortId) (part : Nat)
  /-- PRE_RESTORE: Restores a saved partition to its cores and resumes its groups through PREEMPT handlers (R377). -/
  | evPreRestore (port : PortId) (part : Nat)
  /-- POP: Removes the oldest entry of the inbound fault log (R450). -/
  | evPop
  /-- SEMA_ACQUIRE: A port writing its OWNER code takes SEMA when it is free (R442). -/
  | evSemaAcquire (port : PortId)
  /-- SEMA_RELEASE: The owner writing 0 frees SEMA and raises vector 8 (R442). -/
  | evSemaRelease (port : PortId)
  /-- PTSYNC: Reloads the partition, address-space and route tables or refuses the change (R445). -/
  | evPtsync (port : PortId)
  /-- WARM_RESET: Ends every job, discards volatile state and repeats bring-up, keeping HBM (R452). -/
  | evWarmReset (port : PortId)
  /-- WARM_RESET_ZERO_HBM: A warm reset that also zeroes all HBM (R452). -/
  | evWarmResetZeroHbm (port : PortId)
  /-- PWR_RUN: A PWR request of run leaves retention (R455). -/
  | evPwrRun (port : PortId)
  /-- PWR_RETENTION: A PWR request enters retention if every partition is saved or empty, else is refused (R455). -/
  | evPwrRetention (port : PortId)
  /-- PWR_OFF: A PWR request by the SEMA holder turns the device off (R455). -/
  | evPwrOff (port : PortId)
  /-- PLIM: A write of the power limit stores the value clamped to 300–1,600 W (R442). -/
  | evPlim (port : PortId) (value : Word)
  /-- REGISTER_WRITE: A write to a register without behaviour of its own, performed only for the SEMA holder where shared, with W1C bits cleared (R442). -/
  | evRegisterWrite (port : PortId) (offset : Nat) (value : Word)
  /-- IDLE_ENTRY: After 4,096 cycles with no resident group or busy engine, clocks are gated (R455). -/
  | evIdleEntry
  /-- IDLE_EXIT: A port write, CXL access or Futas packet returns the device to run (R455). -/
  | evIdleExit
  /-- RETENTION_WAKE: An inbound access leaves retention and renews every budget count (R455). -/
  | evRetentionWake
  /-- POWER_INTERVAL: At the end of each measurement interval the power manager adjusts throttling (R456). -/
  | evPowerInterval (milliwatts : Nat)
  /-- POWER_ON: Applied power starts bring-up: firmware check, stack training, Futas, CXL and the command ports (R451). -/
  | evPowerOn (boot : BringUp)
  /-- POWER_LOSS: Loss of power turns the device off and everything is lost (R455). -/
  | evPowerLoss
  /-- DEBUG_STOP: The debugger stops a group as an entry without a handler (R382). -/
  | evDebugStop (core gslot : Nat)
  /-- DEBUG_RELEASE: The debugger releases a stopped group, performing its frame (R382). -/
  | evDebugRelease (core gslot : Nat)
  /-- DEBUG_REGISTER_WRITE: A debugger write sets a register full and supersedes its pending producer (R383). -/
  | evDebugRegisterWrite (core gslot : Nat) (reg : DebugReg) (lanes : Lanes) (value : Word)
  /-- DEBUG_REGISTER_READ: A debugger read returns a register with an empty indication (R382). -/
  | evDebugRegisterRead (core gslot : Nat) (reg : DebugReg) (lane : Nat)
  /-- DEBUG_LEVEL_REQUEST: Raises the debug level as the lifecycle allows (R454). -/
  | evDebugLevelRequest (port : PortId) (level : DebugLevel)
  /-- UNLOCK_TOKEN: A signed unlock token enables invasive debug in sealed state after zeroising keys (R454). -/
  | evUnlockToken (nonce signature : Nat)
  /-- FUSE_COMMAND: A signed fuse command moves the lifecycle forward (R454). -/
  | evFuseCommand (target : Lifecycle) (signature : Nat)
  /-- SPDM_REQUEST: An SPDM request over DOE is answered with signed measurements or an error (R453). -/
  | evSpdmRequest (nonce : Nat)
  /-- HOST_REPLY: The host's CXL.cache grant of a line, or its reply to a back-invalidate, arrives at the home slice, which then performs the waiting access (R437). -/
  | evHostReply (line : Nat)
  /-- DOUBLE_BIT_ERROR: An error arises in stored state: single-bit errors are corrected and counted, double-bit errors poison a word, drop an L1 line, or halt the group with SOFT where the state cannot carry poison (R380). -/
  | evDoubleBitError (site : ErrSite) (double : Bool)
  /-- GUESTINV: Drops every guest line of the issuing core's sector (R116). -/
  | cGuestinv
  /-- JOIN: Records the split's arrival at its innermost token and parks or resumes a deferred path (R128). -/
  | cJoin
  /-- EXIT: Ends the split's lanes after its runs have issued, updating tokens (R121). -/
  | cExit
  /-- YIELD: Makes the split ineligible for the control pipes for 8 core cycles (R122). -/
  | cYield
  /-- NOP: Does nothing (R122). -/
  | cNop
  /-- WAITF: Waits until the split's earlier runs have issued and their lane accesses are performed (R124). -/
  | cWaitf
  /-- TRIGGER: Marks the group triggered and releases its earlier writes to dependants (R140). -/
  | cTrigger
  /-- BARU: Counts the split's lanes as arrived at the unit barrier and waits for the instance (R142). -/
  | cBaru
  /-- BARG: Counts the split's lanes as arrived at the grid barrier of a persistent launch and waits (R142). -/
  | cBarg
  /-- RFT: Ends a handler, re-injects the frame, restores the mode and resumes at TPC (R160). -/
  | cRft
  /-- ACK: Ends a lane-fault handler by reissuing the faulted lanes and resuming the stalled run (R161). -/
  | cAck
  /-- TLBINV_ASID: Removes every translation of the address space (R163). -/
  | cTlbinvAsid
deriving DecidableEq, Repr

end Sys2Proof
end

