-- ==== Sys2Proof/Machine/State.lean ====
section
/-! DEFINITION. The state of one device as plain data, the reasons a step can stop, and the state after reset. -/

namespace Sys2Proof.Machine

/-- Who acts: a split's place in a group's slot on a core (R269). -/
structure Cur where
  core : Nat
  gslot : Nat
  place : Nat
deriving DecidableEq, Repr

/-- One move of the machine. The agenda lists the next moves (log entry 2). -/
inductive Turn where
  | control (core gslot place : Nat)
  | lane (core lslot : Nat)
  | event (i : Instr)
deriving DecidableEq, Repr

/-- An X register (R109). -/
structure XReg where
  lim : BitVec 32
  vb : Word
  pte : Word
deriving DecidableEq, Repr

/-- The X register that holds 0 in every bit (R109, R112). -/
def XReg.zero : XReg := ⟨0, 0, 0⟩

/-- A live token's record (R125). `tags` is the program order of the lanes that have arrived (R340),
`fenced` is the agent scope of the release FENCEs that stand in it, plus 1, or 0 for none (R346). -/
structure Token where
  call : Bool
  j : Word
  e : Lanes
  a : Lanes
  tags : List Nat
  fenced : Nat
deriving DecidableEq, Repr

/-- An entry of a split's stack; the list's head is the top (R125). A token reference keeps the lanes that arrived
there through a JOIN of this split that went on with a deferred path (R128). A deferred path may carry a call mark. -/
inductive StackEntry where
  | tok (id : Nat) (held : Lanes)
  | deferred (pc : Word) (mask : Lanes) (mark : Bool)
deriving DecidableEq, Repr

/-- One lane instruction of a run: its index, its bits, and the lanes a resumed run leaves it (R373). -/
structure RunInsn where
  idx : Nat
  bits : LBits
  mask : Lanes
deriving DecidableEq, Repr

/-- The operand latch of the matrix array for a run (R232): the a field, and register i of lane m at 32·i + m. -/
structure Latch where
  a : BitVec 8
  rows : FMap Word
deriving DecidableEq, Repr

/-- What a store of a dovetail run changed inside the core (R379): kind 0 a scratchpad byte, 1 a window byte, 2 a hod's
P, 3 the poison of a scratchpad word; its key and the value before. -/
structure Undo where
  kind : Nat
  key : Nat
  old : Nat
deriving DecidableEq, Repr

/-- The stores of a dovetail run (R379): the signature register, the packets held at the core, what to undo, and whether
both copies have agreed. -/
structure Dove where
  crc : BitVec 32
  pkts : List Nat
  undo : List Undo
  agreed : Bool
deriving DecidableEq, Repr

/-- A checked run with its active set and snapshot (R23, R30); `todo` holds what has not issued, `names` the register lines
that it names (R25, R293), `since` the cycle from which it has been a candidate (R273), `mate` the group slot and place of the run that it was suspended with as a pair (R278). `begun` tells of
a run in progress that came into the queue when its split merged into one with a run of its own (R131, R275). -/
structure Run where
  line : Nat
  slot : Nat
  active : Lanes
  q : FMap Word
  todo : List RunInsn
  names : List Nat
  qd : Bool
  np : Bool
  sup : Bool
  t : FMap Word
  suspended : Bool
  resumed : Bool
  charged : Bool
  latch : Option Latch
  since : Option Nat
  waited : Nat
  overdue : Option Nat
  dove : Option Dove
  mate : Option (Nat × Nat)
  begun : Bool
deriving DecidableEq, Repr

/-- What a split's issued word keeps while it waits (R366): `num` and `val` tell what it waits for, `src` holds the scalar
sources that it read at issue (R96). -/
structure Issued where
  num : Nat
  val : Word
  src : List Word
deriving DecidableEq, Repr

/-- What is kept aside of the trapping split while a handler runs (R368). -/
structure Aside where
  pc : Word
  seq : Bool
  mask : Lanes
  stack : List StackEntry
  parked : Option Nat
  issued : Option Issued
  fetched : Option (List Byte)
  runq : List Run
deriving DecidableEq, Repr

/-- A split (R125, R157). `yielding` names the core cycle from which one that has yielded is eligible again, else 0 (R122). `tag` names the split's own accesses, `tags` those that its program order holds: its own and those
of the splits from which it divided or that merged into it (R340). `next` is the earliest core cycle in which it issues its
next word, `ready` tells that it may take a control pipe in the present cycle (R98, R269), `fetched` holds the
code line of the program counter once it has been fetched (R11, R12), `since` the cycle from which it has been ready (R273). `fenced` is the
widest agent scope of the release FENCEs that stand before its later writes, plus 1, or 0 for none (R346). -/
structure Split where
  tag : Nat
  tags : List Nat
  next : Nat
  ready : Bool
  fenced : Nat
  pc : Word
  seq : Bool
  mask : Lanes
  s : FMap Word
  sEmpty : FMap Bool
  ks : FMap Word
  ksEmpty : FMap Bool
  stack : List StackEntry
  parked : Option Nat
  issued : Option Issued
  fetched : Option (List Byte)
  yielding : Nat
  marked : Option Word
  runq : List Run
  running : Option Run
  dslack : BitVec 12
  sm : Bool
  pm : Bool
  wr : Bool
  tpc : Word
  since : Option Nat
  waited : Nat
  overdue : Option Nat
deriving DecidableEq, Repr

/-- Trap classes (R365); `T` is the class P of TRAP, whose TPC is the word after it (R364). -/
inductive TrapClass where
  | P | A | F | D | S | R | H | T
deriving DecidableEq, Repr

/-- A trap that is due at the group's next boundary (R367, R369). `sup` tells that supervisor code raised it (R368). -/
structure Due where
  cls : TrapClass
  cause : Nat
  lane : Bool
  tval : Word
  tmask : Lanes
  place : Nat
  sup : Bool
deriving DecidableEq, Repr

/-- Where a producer's result goes. -/
inductive Dest where
  | scalar (n : Nat) (ks : Bool)
  | lanes (first count : Nat) (sup : Bool)
  | none
deriving DecidableEq, Repr

/-- What a producer in the replay queue waits for. -/
inductive ProdKind where
  | access
  | near
  | hpop (hod off : Nat) (hold : Bool)
  | ray
  | filter
  | query (net : Nat) (ver : Bool)
  | acc
deriving DecidableEq, Repr

/-- A replay-queue entry (R371, R372). `vals` holds results that have arrived, at key 32·i + lane; `errs` the lanes whose peer access
has failed, by cause (R381). -/
structure Producer where
  kind : ProdKind
  ctl : Bool
  place : Nat
  tag : Nat
  bits : LBits
  idx : Nat
  run : Nat
  dest : Dest
  mask : Lanes
  landed : Lanes
  sup : Lanes
  flt : Lanes
  fltCause : Nat
  sent : Bool
  opA : FMap Word
  opB : FMap Word
  opC : FMap Word
  vals : FMap Word
  ready : Lanes
  poison : Lanes
  late : Lanes
  errs : FMap Lanes
  um : Bool
deriving DecidableEq, Repr

/-- What the device keeps of a handler in progress (R368, R371): `held` tells that the instructions left in `run` are
the frame's entries of kind 0, `entries` names the frame's other entries in order, `replied` those that RPLY has re-injected
(R160). -/
structure Handler where
  place : Nat
  cause : Nat
  lane : Bool
  kept : Aside
  run : Option Run
  held : Bool
  entries : List Nat
  replied : List Nat
deriving DecidableEq, Repr

/-- State of a register line (R293). -/
inductive LineState where
  | clean
  | dirty
deriving DecidableEq, Repr

/-- The signal of a TRIGGER that has not left its core (R140): the place of its split and its mode, the runs of it that were enqueued
before and have not ended, the tags of the writes that it releases, and, once those runs have ended, the packet number
before which they issued them. -/
structure Signal where
  place : Nat
  sup : Bool
  runs : Nat
  tags : List Nat
  upto : Option Nat
deriving DecidableEq, Repr

/-- A group (R26, R157, R158). `triggered` tells that it has executed TRIGGER, `signal` what still holds its signal back. `dropped` tells of a group that ends
as soon as nothing of it is on its way: one whose CANCELLED handler has ended, or that JCAN has ended, saved or not (R141, R378, R441). V register r of lane l stands at 32·r + l, and so do P and K; `vBad` and `winBad` name the poisoned words of V registers
and of the windows in the pool, a window's word w of lane l at 256·l + w (R310). -/
structure Group where
  uid : Nat
  idx : Nat
  spawned : Bool
  s : FMap Word
  sEmpty : FMap Bool
  x : FMap XReg
  v : FMap Word
  vEmpty : FMap Bool
  vBad : FMap Bool
  k : FMap Word
  kEmpty : FMap Bool
  p : FMap Bool
  lstat : FMap (BitVec 5)
  helper : Lanes
  win : FMap Byte
  winBad : FMap Bool
  lines : FMap LineState
  written : FMap Bool
  tokens : FMap Token
  nextTok : Nat
  nextTag : Nat
  splits : FMap Split
  mode : BitVec 3
  slktab : BitVec 36
  latecnt : BitVec 32
  batch : Nat
  tvec : Word
  tcause : BitVec 9
  tval : Word
  tmask : Lanes
  ftpool : Word
  replay : FMap Producer
  nextPid : Nat
  due : List Due
  handler : Option Handler
  triggered : Bool
  signal : Option Signal
  cancelled : Bool
  dropped : Bool
  halted : Bool
  stopped : Bool
  stopFrame : List Nat
  pre : Option Bool
  preParked : Bool
  rays : FMap Nat
deriving DecidableEq, Repr

/-- An engine that can own a hod's side (R149, R421). -/
inductive Engine where
  | gather
  | raster
deriving DecidableEq, Repr

/-- A hod (R147): `bound` names the engine and whether the engine reads it as its input. -/
structure Hod where
  base : Nat
  n : Nat
  slotb : Nat
  p : BitVec 32
  c : BitVec 32
  bound : Option (Engine × Bool)
  fault : Option (Nat × Word)
deriving DecidableEq, Repr

/-- A unit's last WLD or WLDS to a bank (R228). -/
structure BankDesc where
  off : Nat
  ty : Nat
  sparse : Bool
  sc : Bool
deriving DecidableEq, Repr

/-- A unit (R259, R288 to R291, R151). Tile a's row m, column n stands at 4096·a + 128·m + n, and so does its poison. `lru` lists its resident
register lines as 128·group slot + line, most recently named first (R293). -/
structure UnitRec where
  launch : Nat
  index : Nat
  gen : BitVec 32
  groups : Nat
  vregs : Nat
  priv : Nat
  scr : Nat
  acc : Nat
  scratch : FMap Byte
  scrPoison : FMap Bool
  tiles : FMap (BitVec 40)
  tileBad : FMap Bool
  hods : FMap Hod
  counters : FMap (BitVec 32)
  puterr : BitVec 32
  banks : FMap BankDesc
  baru : Nat
  baruArr : FMap Lanes
  bargArr : FMap Lanes
  gslots : List Nat
  lru : List Nat
  twin : Option Nat
deriving DecidableEq, Repr

/-- One address range in one page that a copy or engine uses, with the translation taken at issue (R145). -/
structure Span where
  va : Nat
  len : Nat
  leaf : Word
deriving DecidableEq, Repr

/-- A copy in progress (R145): rows still to move, the first of them partly; `slack` is DSLACK as it stood at issue (R158).
`ahead` holds source bytes past the last piece, read with the word that they belong to, `behind` destination bytes that wait
for the rest of their word (R338); each byte has its poison. -/
structure Copy where
  gid : Nat
  slack : Nat
  batch : Nat
  srcScr : Bool
  dstScr : Bool
  rows : List (Nat × Nat × Nat)
  spans : List Span
  dspans : List Span
  asid : Nat
  ahead : List (Byte × Bool)
  behind : List (Byte × Bool)
deriving DecidableEq, Repr

/-- A gather binding (R149). -/
structure Gather where
  uid : Nat
  hin : Nat
  hout : Nat
  base : Word
  esz : Nat
  idx64 : Bool
  count : Nat
  slk : Nat
  um : Bool
  asid : Nat
deriving DecidableEq, Repr

/-- A block of pixels for which a firing creates a group (R426): S48, the mask, the helper lanes. -/
structure RasterBlock where
  origin : Word
  mask : Lanes
  helper : Lanes
deriving DecidableEq, Repr

/-- A raster binding (R421): `entry` is the address of the spawn entry, if there is one; `mode`, `slktab` and `dslack` are
those of the binding split (R426). A firing that waits for room keeps its record in `report`, its groups to come in
`blocks`. -/
structure Raster where
  uid : Nat
  hin : Nat
  hout : Nat
  vb : Word
  pitch : Nat
  height : Nat
  width : Nat
  cull : Nat
  zle : Bool
  count : Nat
  entry : Option Word
  um : Bool
  asid : Nat
  mode : BitVec 3
  slktab : BitVec 36
  dslack : BitVec 12
  report : Option (Word × Word)
  blocks : List RasterBlock
  slack : Nat
deriving DecidableEq, Repr

/-- A weight bank (R223). `w` holds weight k of column n at 128·k + n as FP40 value bits of its exact value,
`live` the chunks of each column, `kept` the kept positions of a sparse tile. -/
structure Bank where
  uid : Nat
  desc : BankDesc
  image : FMap Byte
  valid : Bool
  loading : Bool
deriving DecidableEq, Repr

/-- A matrix instruction for which the array re-latches a bank (R228, R233). -/
structure MmaWait where
  gid : Nat
  place : Nat
  bits : LBits
  sparse : Bool
deriving DecidableEq, Repr

/-- A brace a core holds (R154, R322): `id` numbers its set-up, `up` tells that the set-up has succeeded. -/
structure Brace where
  gid : Nat
  endpoint : Word
  left : Nat
  id : Nat
  up : Bool
deriving DecidableEq, Repr

/-- A brace's part at one hop (R322): `idle` counts the switch cycles without a braced flit. -/
structure Hop where
  gid : Nat
  endpoint : Word
  left : Nat
  id : Nat
  idle : Nat
deriving DecidableEq, Repr

/-- A line of an L1 (R303): its location line, whether a UO page brought it, its bytes. `rel` is the agent scope of the releases
whose words a prefetch has brought and no read has met yet, plus 1, or 0 for none (R354). -/
structure L1Line where
  line : Nat
  uo : Bool
  bytes : List Byte
  rel : Nat
deriving DecidableEq, Repr

/-- A translation held in a TLB (R302). -/
structure TlbEntry where
  asid : Nat
  page : Nat
  big : Bool
  leaf : Word
  at_ : Nat
deriving DecidableEq, Repr

/-- A lane slot of a core: the group slot and place whose run it holds, its partner in a pair, and the cycles that
the instruction in issue still holds it (R166, R275, R278). `ended` tells that the run's last instruction is the one that
holds it. -/
structure LaneSlot where
  gslot : Nat
  place : Nat
  pair : Option (Nat × Nat)
  hold : Nat
  ended : Bool
deriving DecidableEq, Repr

/-- A line of a core's UO write buffer (R304): its bytes, the words of them that a copy has poisoned (R310), and the splits
whose stores it holds as (group, tag) (R351). -/
structure UoLine where
  line : Nat
  bytes : FMap Byte
  bad : FMap Bool
  owners : List (Nat × Nat)
deriving DecidableEq, Repr

/-- A core (R1). `pipes` counts the words that its control pipes have issued in the present cycle (R274), `level` names the
job, phase and graph whose start it has seen (R303), `arrayBy` the cycle of the matrix array's last acceptance, with the group slot and
place of the run whose instruction it took (R233). -/
structure Core where
  ccyc : Nat
  pipes : Nat
  level : Option (Nat × Nat × Nat)
  lslots : FMap LaneSlot
  budget : Int
  l1 : List L1Line
  uo : List UoLine
  tlb : List TlbEntry
  gather : Option Gather
  banks : FMap Bank
  mmaBusy : Option MmaWait
  arrayFree : Nat
  arrayBy : Option (Nat × Nat × Nat)
  braces : List Brace
  copies : List Copy
  corrected : Nat
deriving DecidableEq, Repr

/-- A core after device reset. ALLOT of the issue budget resets to 0x4000 (R279). -/
def Core.reset : Core :=
  { ccyc := 0, pipes := 0, level := none, lslots := [], budget := 0x4000, l1 := [], uo := [], tlb := [], gather := none, banks := [],
    mmaBusy := none, arrayFree := 0, arrayBy := none, braces := [], copies := [], corrected := 0 }

/-- A launch (R137, R259). `job` is its job, `codeFrom` the store count at its start, from which its fetches may see a code
line (R12). -/
structure Launch where
  job : Nat
  phase : Nat
  graph : Nat
  cfbase : Word
  lcbase : Word
  args : Word
  cut : Word
  entry : BitVec 32
  gx : BitVec 32
  gy : BitVec 32
  gz : BitVec 32
  slack : BitVec 12
  prio : Nat
  pers : Bool
  dove : Bool
  pred : Option Nat
  order : Nat
  started : Bool
  placed : Nat
  live : Nat
  triggered : List Nat
  cancelled : Bool
  mark : Bool
  done : Bool
  barg : Nat
  reserved : List (Nat × Option Nat)
  codeFrom : Nat
deriving DecidableEq, Repr

/-- An address space as PTSYNC adopted it (R444). -/
structure Space where
  root : Nat
  pinq : Nat
  part : Nat
  ctxpool : Word
  tvec : Word
  ftpool : Word
  objb : Word
  objn : Nat
  psetb : Nat
deriving DecidableEq, Repr

/-- A job (R259, R262); `space` is its address space's entry as it stood when the job started (R445), `levels` the cancelled
(phase, graph) pairs, a whole phase as (phase, 2^32). -/
structure Job where
  port : PortId
  part : Nat
  asid : Nat
  space : Option Space
  phases : Nat
  graphs : FMap Nat
  phase : Nat
  graph : Nat
  cancelled : Bool
  mark : Bool
  levels : List (Nat × Nat)
deriving DecidableEq, Repr

/-- A layer of a network: rows of bfloat16 weights, and biases (R413). -/
structure Layer where
  w : List (List (BitVec 16))
  b : List (BitVec 16)
deriving DecidableEq, Repr

/-- A training sample (R248). -/
structure Sample where
  inputs : List (BitVec 16)
  targets : List (BitVec 32)
deriving DecidableEq, Repr

/-- The trainable parameters that a Sander keeps for a network, in layer order, weights then biases (R414, R419). -/
structure Master where
  w : List (BitVec 32)
  m : List (BitVec 32)
  v : List (BitVec 32)
  steps : Nat
deriving DecidableEq, Repr

/-- A network slot of a partition (R413, R414, R416, R417): `version` is the last version made, `published` the last that
every RCA has adopted, `switching` tells that they differ, `changed` that a step has changed the master since. -/
structure Net where
  image : Word
  asid : Nat
  die : Nat
  inputs : Nat
  widths : List Nat
  final : Nat
  auto : Nat
  qcap : Nat
  lr : BitVec 32
  b1 : BitVec 32
  b2 : BitVec 32
  eps : BitVec 32
  stat : Word
  version : Nat
  published : Nat
  weights : FMap (List Layer)
  master : Master
  changed : Bool
  pending : List Nat
  switching : Bool
  held : Option Nat
  skips : Nat
  drops : Nat
deriving DecidableEq, Repr

/-- A query waiting in an RCA (R247, R415): `train` tells that its sample has not been offered yet, `dropped` that it was
dropped, `age` when the query arrived, `cyc` the cycle of the RCA's clock in which it did. -/
structure Query where
  core : Nat
  gslot : Nat
  place : Nat
  pid : Nat
  lane : Nat
  net : Nat
  inputs : List (BitVec 16)
  targets : List (BitVec 32)
  train : Bool
  dropped : Bool
  ver : Bool
  slack : Nat
  late : Bool
  age : Nat
  cyc : Nat
deriving DecidableEq, Repr

/-- An RCA (R413 to R416): queries, adopted versions, sample queues and drop counters by slot, the cycles of its own clock
(R3). -/
structure Rca where
  queries : List Query
  version : FMap Nat
  incoming : FMap Nat
  samples : FMap (List Sample)
  drops : FMap Nat
  clock : Nat
deriving DecidableEq, Repr

/-- A point or a direction in space, binary32 (R238). -/
structure Vec3 where
  x : BitVec 32
  y : BitVec 32
  z : BitVec 32
deriving DecidableEq, Repr

/-- A hit (R239, R401). -/
structure Hit where
  t : BitVec 32
  b1 : BitVec 32
  b2 : BitVec 32
  prim : BitVec 32
  inst : BitVec 24
  geom : BitVec 8
  front : Bool
deriving DecidableEq, Repr

/-- A space in which traversal goes on (R397): its ray, the instance index, the nesting depth. -/
structure Space3 where
  org : Vec3
  dir : Vec3
  inst : BitVec 24
  depth : Nat
deriving DecidableEq, Repr

/-- One thing that traversal has still to visit (R397): a box node, a child reference with its box, triangles. -/
inductive Visit where
  | node (treelet slot : Nat) (sp : Space3)
  | ref (treelet : Nat) (word : BitVec 32) (box : List (BitVec 32)) (sp : Space3)
  | tris (treelet slot count : Nat) (sp : Space3)
deriving DecidableEq, Repr

/-- Where a ray stands: in a message, in a sill's queue, in a pipe, suspended at a kind-2 record, in a RESUME of a kind,
on its way to a continuation, its last record sent. In a pipe it is in one treelet, of which `tris` triangles have been tested
in this visit; `charged` tells that the visit's pipe-cycles are charged (R325, R405, R407). -/
inductive RayStage where
  | flying
  | queued
  | piped (pipe treelet tris : Nat) (charged : Bool)
  | suspended
  | resuming (op : Nat)
  | returning
  | reported
deriving DecidableEq, Repr

/-- A ray in flight (R238, R402, R408). `pid` is the producer that takes its next record, `unclaimed` the kind of a record
that has come before its HITGET, `ret` the continuations that wait for it, innermost first, `relay` those that the record
of its candidate has still to pass (R402), `ended` tells that traversal
has ended early, with a record of kind 3 where it is `some true`, `needsCont` that it waits for a free continuation, `poison`
the address of poisoned data that it met. -/
structure Ray where
  gid : Nat
  lane : Nat
  pid : Option Nat
  unclaimed : Option Nat
  block : Nat
  asid : Nat
  handle : Nat
  gen : Nat
  part : Nat
  flags : BitVec 4
  cull : BitVec 8
  tmin : BitVec 32
  tmax : BitVec 32
  held : Option Hit
  cand : Option Hit
  todo : List Visit
  stack : Nat
  stage : RayStage
  ret : List Nat
  relay : List Nat
  ended : Option Bool
  slack : Nat
  late : Bool
  exhausted : Option Nat
  um : Bool
  arrived : Nat
  resumed : Bool
  needsCont : Bool
  poison : Option Nat
deriving DecidableEq, Repr

/-- A continuation kept by a sill (R402). `State.conts` has it under the low 28 bits that RET then holds: 288 + its stack, and
the 19 bits that name it. -/
structure Cont where
  stack : Nat
  held : Option Hit
  tmax : BitVec 32
  todo : List Visit
deriving DecidableEq, Repr

/-- A request in a sill's HBM queue (R312); `old` and `oldBad` list the bytes, and the poison of the words, that DRAM holds
until a write is served (log entry 13). -/
structure HbmReq where
  line : Nat
  write : Bool
  sectors : BitVec 4
  slack : Nat
  part : Nat
  asid : Nat
  arrived : Nat
  old : FMap Byte
  oldBad : FMap Bool
deriving DecidableEq, Repr

/-- A line of a filter cache (R412): its location line and partition, its bytes and which of them are poisoned. -/
structure FilterLine where
  line : Nat
  part : Nat
  bytes : List Byte
  bad : List Bool
deriving DecidableEq, Repr

/-- An object entry that a sill keeps (R412): of a partition, an address space and a handle, read with the rights of a mode. -/
structure SillObject where
  part : Nat
  asid : Nat
  handle : Nat
  um : Bool
  bytes : List Byte
deriving DecidableEq, Repr

/-- An entry of a cluster's generation cache (R393, R394): CUR, ROOT and the home of the root treelet, none where the root's
table entry breaks its rules. -/
structure GenEntry where
  cur : Nat
  root : Nat
  home : Option Nat
deriving DecidableEq, Repr

/-- A sill (R309 to R315, R402 to R407, R412). `spilled` names the rays of spilled messages in order, each with its place in the
spill region (R404); `objs` are the object entries it keeps; `treelets` names the treelets in its cache as (structure, generation,
treelet), `xlats` its translations with the object each serves, `fcache` the filter cache's lines; each list has the most recently used first. `pipes` names the ray of each busy pipe. -/
structure Sill where
  queue : List HbmReq
  corr : List (Nat × BitVec 8)
  scrub : Nat
  scriv : BitVec 32
  spillBase : Word
  hot : Bool
  rayq : List Nat
  spilled : List (Nat × Nat)
  pipes : FMap Nat
  treelets : List (Nat × Nat × Nat)
  xlats : List (Nat × TlbEntry)
  fcache : List FilterLine
  objs : List SillObject
  corrected : Nat
deriving DecidableEq, Repr

/-- A line of an L2 slice (R305). Of a home line `old` lists the bytes that DRAM still holds where the line is dirty, and
`bad` the words whose poison DRAM has otherwise than the line (log entry 13); of a guest line `bytes` and `bad` hold its own
bytes and poisoned words. -/
structure L2Line where
  line : Nat
  valid : BitVec 4
  dirty : BitVec 4
  pin : Option Nat
  guest : Bool
  bytes : FMap Byte
  old : FMap Byte
  bad : FMap Bool
deriving DecidableEq, Repr

/-- What one access of a request does. A load of a UO page carries the bytes that the core's write buffer held at
issue, by place in the access (R351). `loadBad` is such a load of buffered bytes that are poisoned, `storeBad` a store of a
copy that carries poison (R310). -/
inductive AccOp where
  | load (held : List (Nat × Byte))
  | loadBad (held : List (Nat × Byte))
  | store (v : Word)
  | storeBad (v : Word)
  | atomic (op ty : Nat) (v cmp : Word)
deriving DecidableEq, Repr

/-- One access of a request: the lane (32 for a control stream), where it goes, its size, its register index. -/
structure Acc where
  lane : Nat
  loc : Nat
  size : Nat
  op : AccOp
  idx : Nat
deriving DecidableEq, Repr

/-- What the device sends to another one for a third party, or answers it (R448 to R450): the reply to a request, a replicated
store under TASID, a request in transit, the error completion of a put. -/
inductive PeerMsg where
  | reply (dev : Nat) (v : Word) (ok : Bool)
  | replica (dev tasid : Nat) (va : Word) (size : Nat) (v : Word)
  | transit (req : PeerReq)
  | putError (dev : Nat) (src : Word)
deriving DecidableEq, Repr

/-- What a packet carries. -/
inductive Body where
  | req (accs : List Acc) (pid : Option Nat) (so prom : Bool) (kind : Nat) (guest : Bool) (order scope : Nat)
  | reply (pid : Nat) (vals : List (Nat × Nat × Word)) (poison : Lanes) (err : Nat) (lanes : Lanes)
  | put (dst : Word) (roff off counter total : Nat) (bytes : List Byte) (bad : List Nat) (src : Word) (id : Nat)
  | ray (id : Nat)
  | record (id : Nat)
  | filter (pid : Nat) (lane : Nat) (um : Bool) (handle : Nat) (ops : List Word) (insn : LBits)
  | query (qs : List Query)
  | setup (endpoint : Word) (flits : Nat) (ok : Bool) (back : Bool)
  | unbrace (endpoint : Word)
  | peerMsg (m : PeerMsg)
deriving DecidableEq, Repr

/-- A packet in the network (R316 to R320). `tag` names the split whose access it is (0 for none), `owners` the splits whose
UO stores it carries as (group, tag) (R340, R351), `rel` is the agent scope of the
release that its writes are or follow, plus 1, or 0 for none (R346),
`batch` the batch of the copy whose piece it is, 0 for none (R145). `cyc` is the cycle of its switch
in which it arrived there (R318); `path` lists the places still to pass; `buf` is the virtual channel whose buffer
it stands in, `vc` that of its class; `missed` tells that its home has asked HBM for it; `braced` tells of a put that it uses its group's brace, of a set-up that it holds
the hop before it (R322). -/
structure Packet where
  gid : Nat
  place : Nat
  tag : Nat
  owners : List (Nat × Nat)
  rel : Nat
  batch : Nat
  at_ : Place
  inLink : Bool
  path : List Place
  port : Nat
  slack : Nat
  late : Bool
  missed : Bool
  exhausted : Option Nat
  arrived : Nat
  cyc : Nat
  vc : Nat
  buf : Nat
  part : Nat
  flits : Nat
  braced : Bool
  peer : Nat
  body : Body
deriving DecidableEq, Repr

/-- A switch (R318, R319, R322): its cycle count, the outputs that have arbitrated in the present cycle, its exhaustion stamp, the round-robin pointer of each
output, and the brace that holds the VC3 of an output. -/
structure Switch where
  cycle : Nat
  served : List Place
  stamp : Nat
  ptr : List (Place × Nat)
  brace : List (Place × Hop)
deriving DecidableEq, Repr

/-- Futas link states (R446). -/
inductive LinkState where
  | detect | laneLock | equalisation | deskew | exchange | active | down
deriving DecidableEq, Repr

/-- A Futas port (R446, R447). -/
structure FutasPort where
  state : LinkState
  fid : Nat
  unit : Nat
  replays : Nat
  budget : FMap Int
  depths : List Nat
deriving DecidableEq, Repr

/-- A command port (R438, R439). -/
structure Port where
  lrec : Word
  asid : BitVec 14
  part : BitVec 5
  pst : BitVec 4
  lst : BitVec 8
  pdone : Bool
  iflt : Bool
  halt : Bool
  canc : Bool
  done : Bool
  busy : Bool
  halti : Word
  haltv : Word
  pre : Option Nat
deriving DecidableEq, Repr

/-- A port after reset (R438, R439). -/
def Port.reset : Port := ⟨0, 0, 0, 0, 0, false, false, false, false, false, false, 0, 0, none⟩

/-- The shared registers (R442). -/
structure Shared where
  held : Bool
  owner : BitVec 2
  ptbase : Word
  astbase : Word
  ptsync : BitVec 2
  plim : BitVec 11
  hdmbase : Word
  hdmn : BitVec 9
  hdmso : Bool
  routeb : Word
deriving DecidableEq, Repr

/-- A partition as PTSYNC adopted it (R443, R445), with its pre-emption state (R375 to R378); a saved partition whose entry
has V = 0 stays, not valid. -/
structure Part where
  valid : Bool
  clusters : BitVec 24
  issue : Word
  net : Word
  hbm : Word
  ray : Word
  fut : Word
  saving : Bool
  saved : Bool
deriving DecidableEq, Repr

/-- An entry of the inbound fault log (R450). -/
structure LogEntry where
  va : Word
  fid : Nat
  tasid : Nat
  cause : Nat
  kind : Nat
deriving DecidableEq, Repr

/-- Power states (R455). -/
inductive PowerMode where
  | run | idle | retention | off
deriving DecidableEq, Repr

/-- State of the identity key (R454). -/
inductive KeyState where
  | absent | present | zeroised | destroyed
deriving DecidableEq, Repr

/-- Bring-up, lifecycle, debug and power (R451 to R456). -/
structure Mgmt where
  booted : Nat
  firmware : Firmware
  fid : BitVec 12
  life : Lifecycle
  debug : DebugLevel
  key : KeyState
  nonces : Nat
  mode : PowerMode
  req : BitVec 2
  res : BitVec 2
  throttle : Nat
  powers : List Nat
  linkUp : Bool
deriving DecidableEq, Repr

/-- What leaves the device: messages to the host, to peers and on the management path. -/
inductive Out where
  | msix (vector : Nat)
  | peer (port : Nat) (pkt : Packet)
  | hostReq (line : Nat) (own : Bool)
  | backInv (line : Nat)
  | snoopReply (line : Nat) (bytes : List Byte) (hit : Bool)
  | memReply (offset : Nat) (bytes : List Byte) (poison : Bool)
  | debugValue (v : BitVec 160) (empty : Bool)
  | spdm (nonce signature : Nat) (ok : Bool)
  | bootFailed (code : Nat)
  | linkLogged (port : Nat)
deriving DecidableEq, Repr

/-- The shadow of one core of a saved partition (R376): its groups and its units by key, their engine bindings, the core's
issue budget; with a cluster's first core, its array (R414). -/
structure Shadow where
  part : Nat
  groups : List (Nat × Group)
  units : List (Nat × UnitRec)
  gather : Option Gather
  rasters : List (Nat × Raster)
  budget : Int
  rca : Option Rca
deriving DecidableEq, Repr

/-- A code line before a store: the count of stores at it, and the bytes that it replaced (R12). -/
structure CodeOld where
  stamp : Nat
  bytes : List (Nat × Byte)
deriving DecidableEq, Repr

/-- The state of the device. `codeOld` keeps, by line, what stores have replaced while launches run, newest first, and
`stores` counts them (R12). `rel` names the 8-byte words last written by a release or in its release sequence: the group
that issued the release, the number of its packet, and its agent scope plus 1 (R346, R354, R356). -/
structure State where
  agenda : List Turn
  cur : Cur
  fresh : Nat
  beat : Nat
  mem : List Host.Cell
  poison : FMap Bool
  stores : Nat
  codeOld : FMap (List CodeOld)
  rel : FMap (Nat × Nat × Nat)
  symErr : FMap Nat
  groups : FMap Group
  units : FMap UnitRec
  gens : FMap (BitVec 32)
  cores : FMap Core
  launches : FMap Launch
  jobs : FMap Job
  nextJob : Nat
  parts : FMap Part
  spaces : FMap Space
  routes : FMap (Word × Word)
  tlbs : FMap (List TlbEntry)
  walkers : FMap (List TlbEntry)
  l2 : FMap (List L2Line)
  psel : FMap Nat
  pkts : FMap Packet
  nextPkt : Nat
  switches : FMap Switch
  netBudget : FMap Int
  hbmBudget : FMap Int
  rayBudget : FMap Int
  oldWords : FMap Word
  sills : FMap Sill
  structs : FMap (FMap Nat)
  rays : FMap Ray
  nextRay : Nat
  conts : FMap Cont
  curs : FMap GenEntry
  rasters : FMap Raster
  nets : FMap Net
  rcas : FMap Rca
  sanders : FMap Nat
  shadow : FMap Shadow
  puts : FMap Nat
  futas : FMap FutasPort
  portA : Port
  portB : Port
  portD : Port
  shared : Shared
  log : List LogEntry
  lost : Nat
  hostLines : FMap Bool
  hostHeld : FMap Bool
  hostWait : List Nat
  mgmt : Mgmt
  out : List Out
deriving DecidableEq, Repr

/-- Why the machine stops. -/
inductive Fault where
  /-- Raised by a C-code meaning run at a state whose current split does not exist (`State.cur`); safe: no step of
  the machine runs a word without a split. -/
  | noSplit
  /-- Raised by a lane meaning run at a state whose current split has no run in progress; safe: no step runs a lane
  instruction outside a run. -/
  | noRun
deriving DecidableEq, Repr

/-- Why an instruction has no meaning. -/
inductive Refusal where
  /-- Raised by an arm of `exec` whose instruction has no meaning yet; safe. -/
  | notModelled (mnemonic : String)
deriving DecidableEq, Repr

/-- The sill after device reset (R314, R404, R442). -/
def Sill.reset : Sill :=
  { queue := [], corr := [], scrub := 0, scriv := 0x40000,
    spillBase := BitVec.ofNat 64 (Config.stackBytes - 0x1000_0000), hot := false, rayq := [], spilled := [], pipes := [], treelets := [], xlats := [], fcache := [], objs := [], corrected := 0 }

/-- A switch after device reset: every pointer names port 0 (R319). -/
def Switch.reset : Switch := ⟨0, [], 0, [], []⟩

/-- An RCA after device reset. -/
def Rca.reset : Rca := ⟨[], [], [], [], [], 0⟩

/-- A Futas port after device reset: link training begins in Detect (R446). -/
def FutasPort.reset : FutasPort := ⟨.detect, 0, 10000, 0, [], []⟩

/-- The shared registers after device reset: SEMA free, no tables, PLIM at 1,600 W (R442). -/
def Shared.reset : Shared :=
  { held := false, owner := 0, ptbase := 0, astbase := 0, ptsync := 0, plim := 1600, hdmbase := 0, hdmn := 0,
    hdmso := false, routeb := 0 }

/-- Bring-up done in the open lifecycle state with the fused identity (R451, R454; log entry 4). -/
def Mgmt.reset : Mgmt :=
  { booted := 5, firmware := ⟨0, 0, 0, Config.fid⟩, fid := Config.fid, life := .opened,
    debug := .none, key := .present, nonces := 0, mode := .run, req := 0, res := 0, throttle := 0, powers := [],
    linkUp := true }

/-- The machine after device reset: bring-up done, ports open, SEMA free, no table loaded, nothing resident
(R438, R442, R451; log entries 3 and 4). -/
def State.reset : State :=
  { agenda := [], cur := ⟨0, 0, 0⟩, fresh := 0, beat := 0, mem := [], poison := [], stores := 0, codeOld := [], rel := [], symErr := [], groups := [], units := [],
    gens := [], cores := [], launches := [], jobs := [], nextJob := 0, parts := [], spaces := [], routes := [],
    tlbs := [], walkers := [], l2 := [], psel := [], pkts := [], nextPkt := 0, switches := [], netBudget := [],
    hbmBudget := [], rayBudget := [], oldWords := [], sills := [], structs := [], rays := [], nextRay := 0, conts := [],
    curs := [], rasters := [], nets := [], rcas := [], sanders := [], shadow := [], puts := [], futas := [],
    portA := Port.reset, portB := Port.reset, portD := Port.reset,
    shared := Shared.reset,
    log := [], lost := 0, hostLines := [], hostHeld := [], hostWait := [],
    mgmt := Mgmt.reset,
    out := [] }

end Sys2Proof.Machine
end

