-- ==== Sys2Proof/Machine/Mem.lean ====
section
/-! DEFINITION. Memory as a canonical list of cells, what running launches may still fetch of it (R12), the places of
R295 to R297, the lines of the L2 (R305 to R308), and a store at a home slice. -/

namespace Sys2Proof.Machine

/-- Memory: (location, byte) pairs, locations strictly rising, no entry equal to what an unlisted byte reads as. -/
abbrev Memory := List Host.Cell

/-- The byte at `a`: `Config.memDefault` where nothing is listed (log entry 1). -/
def Memory.rd : Memory → Nat → Byte
  | [], _ => Config.memDefault
  | (k, b) :: m, a => if a = k then b else Memory.rd m a

/-- The canonical form of a memory. -/
def Memory.wf (m : Memory) : Bool := FMap.wf m && m.all (fun c => decide (c.2 ≠ Config.memDefault))

/-- The cells that bytes from `a` up list. -/
def Memory.cells (a : Nat) : List Byte → Memory
  | [] => []
  | b :: bs => if b = Config.memDefault then Memory.cells (a + 1) bs else (a, b) :: Memory.cells (a + 1) bs

/-- Replace the bytes from `a` up, keeping the canonical form. -/
def Memory.wr (m : Memory) (a : Nat) (bs : List Byte) : Memory :=
  m.filter (fun c => decide (c.1 < a)) ++ Memory.cells a bs ++
    m.filter (fun c => decide (a + bs.length ≤ c.1))

/-- The `n` bytes from `a` up. -/
def Memory.bytes (m : Memory) (a n : Nat) : List Byte := (List.range n).map (fun i => Memory.rd m (a + i))

/-- The byte at a location as its home slice holds it. -/
def State.byteAt (s : State) (loc : Nat) : Byte := Memory.rd s.mem loc

/-- The little-endian number of `n` bytes at a location (R5). -/
def State.natAt (s : State) (loc n : Nat) : Nat := natOfBytes (Memory.bytes s.mem loc n)

/-- Some byte of the range lies in a poisoned 8-byte word (R305, R310). -/
def State.poisonedAt (s : State) (loc n : Nat) : Bool :=
  (List.range (ceilDiv (loc % 8 + n) 8)).any (fun i => FMap.rd false s.poison (loc / 8 + i))

/-- Poison, or clear, the word of a location. -/
def State.setPoison (s : State) (loc : Nat) (p : Bool) : State :=
  { s with poison := FMap.wr false s.poison (loc / 8) p }

/-- Words that a write of `n` bytes at `loc` covers whole lose their poison (R208). -/
def clearPoison (p : FMap Bool) (loc n : Nat) : FMap Bool :=
  (List.range (n / 8 + 1)).foldl (fun p i =>
    let w := ceilDiv loc 8 + i
    if 8 * w + 8 ≤ loc + n then FMap.del p w else p) p

/-- A fresh free value (log entry 5). -/
def State.free (s : State) : Word × State := (Config.freeWord s.fresh, { s with fresh := s.fresh + 1 })

/-- `n` fresh free values. -/
def State.frees (s : State) (n : Nat) : List Word × State :=
  ((List.range n).map (fun i => Config.freeWord (s.fresh + i)), { s with fresh := s.fresh + n })

/-- Something leaves the device. -/
def State.emit (s : State) (o : Out) : State := { s with out := s.out ++ [o] }

/-! ### What fetch may see (R12) -/

/-- Keep the bytes that a store replaces, for the fetches of launches that were running (R12). -/
def State.keepCode (s : State) (loc : Nat) (bs : List Byte) : State :=
  let was := (Memory.bytes s.mem loc bs.length).zip bs
  let gone := ((List.range bs.length).zip was).filterMap (fun e => if e.2.1 = e.2.2 then none else some (loc + e.1, e.2.1))
  let keep := !s.launches.isEmpty && !gone.isEmpty
  { s with stores := if keep then s.stores + 1 else s.stores,
           codeOld := if keep then FMap.put s.codeOld (loc / 128) (⟨s.stores, gone⟩ :: FMap.rd [] s.codeOld (loc / 128)) else s.codeOld }

/-- Replace the bytes from a location up. -/
def State.setBytes (s : State) (loc : Nat) (bs : List Byte) : State :=
  let s := s.keepCode loc bs
  { s with mem := Memory.wr s.mem loc bs }

/-- A code line as a fetch reads it for a launch that began when `from_` stores had been counted (R12): the line as it
stands, or, by a free value, as it stood before the latest of the stores since then (log entry 30). -/
def State.codeLine (s : State) (from_ loc : Nat) : State × List Byte :=
  let a := loc / 128 * 128
  let now := Memory.bytes s.mem a 128
  match (FMap.rd [] s.codeOld (loc / 128)).filter (fun o => decide (from_ ≤ o.stamp)) with
  | [] => (s, now)
  | olds =>
    let (w, s) := s.free
    let undo := fun (bs : List Byte) (o : CodeOld) => o.bytes.foldl (fun bs b => bs.set (b.1 - a) b.2) bs
    (s, (olds.take (w.toNat % (olds.length + 1))).foldl undo now)

/-- The location lies in HBM (R295). -/
def inHbm (loc : Nat) : Bool := decide (loc < Config.hbmBytes)

/-- The location lies in host memory (R295, R437). -/
def inHost (loc : Nat) : Bool := decide (Config.hostBase ≤ loc ∧ loc < Config.physEnd)

/-- The location is backed (R295). -/
def backed (loc : Nat) : Bool := inHbm loc || inHost loc

/-- σ of R296. -/
def stripe (p s0 n : Nat) : Nat :=
  let l := p / 128
  Config.stackBytes * (s0 + l % n) + 128 * (l / n) + p % 128

/-- The location of a physical address under a sill home (R296); none where the leaf faults. -/
def homeLoc (home p : Nat) : Option Nat :=
  if inHost p then some p
  else if !inHbm p then none
  else if home ≤ 11 then (if p / Config.stackBytes = home then some p else none)
  else if home = 12 then some (stripe p 0 12)
  else if home = 13 then (if p < 6 * Config.stackBytes then some (stripe p 0 6) else none)
  else if home = 14 then (if p < 6 * Config.stackBytes then some (stripe p 6 6) else none)
  else none

/-- The stack of an HBM location. -/
def stackOf (loc : Nat) : Nat := loc / Config.stackBytes

/-- The line index of a location in its stack (R297). -/
def lineIndex (loc : Nat) : Nat := loc % Config.stackBytes / 128

/-- The channel of a location in its stack (R297). -/
def channelOf (loc : Nat) : Nat :=
  let l := lineIndex loc
  (l % 32) ^^^ (l / 2 ^ 5 % 32) ^^^ (l / 2 ^ 10 % 32) ^^^ (l / 2 ^ 15 % 32) ^^^ (l / 2 ^ 20 % 32) ^^^
    (l / 2 ^ 25 % 16)

/-- The pseudo-channel of a location in its channel (R297). -/
def pseudoChannelOf (loc : Nat) : Nat := let l := lineIndex loc; (l / 2 ^ 5 % 2) ^^^ (l / 2 ^ 17 % 2)

/-- The home L2 slice of a location (R297; R437 for host memory). -/
def sliceOf (loc : Nat) : Nat :=
  if inHost loc then loc / 128 % 48 else 4 * stackOf loc + channelOf loc / 8

/-- The L2 set of a location (R297). -/
def setOf (loc : Nat) : Nat :=
  let l := if inHost loc then (loc - Config.hostBase) / 128 else lineIndex loc
  (l / 2 ^ 5 % 2 ^ 11) ^^^ (l / 2 ^ 16 % 2 ^ 11)

/-- The sector of a slice, and of a core (R157, R297). -/
def sectorOfSlice (sl : Nat) : Nat := sl / 8
def clusterOf (core : Nat) : Nat := core / 12
def sectorOf (core : Nat) : Nat := core / 48
def dieOf (core : Nat) : Nat := core / 144

/-- The key under which a slice's set stands in `State.l2`. -/
def l2Key (slice set : Nat) : Nat := slice * 2048 + set

/-- The lines of a set, most recently used first. -/
def State.l2Set (s : State) (slice set : Nat) : List L2Line := FMap.rd [] s.l2 (l2Key slice set)

/-- Put the lines of a set. -/
def State.putL2Set (s : State) (slice set : Nat) (ls : List L2Line) : State :=
  { s with l2 := FMap.wr [] s.l2 (l2Key slice set) ls }

/-- The selector of an address space (R306). -/
def State.pselOf (s : State) (asid : Nat) : Nat := FMap.rd 512 s.psel asid

/-- A miss moves the selector in a sample set (R306). -/
def State.duel (s : State) (asid set : Nat) : State :=
  if set % 64 = 0 then { s with psel := FMap.wr 512 s.psel asid (min (s.pselOf asid + 1) 1023) }
  else if set % 64 = 32 then { s with psel := FMap.wr 512 s.psel asid (s.pselOf asid - 1) }
  else s

/-- A miss inserts near (R306). -/
def State.insertsNear (s : State) (asid set : Nat) : Bool :=
  if set % 64 = 0 then true else if set % 64 = 32 then false else decide (s.pselOf asid < 512)

/-- Drop the least recently used line that is not pinned (R306, R307). The list is most recently used first. -/
def dropVictim (ls : List L2Line) : Option L2Line × List L2Line :=
  match ls.reverse.find? (fun l => l.pin.isNone) with
  | none => (none, ls)
  | some v => (some v, ls.filter (fun l => decide (l ≠ v)))

/-- A write of a dirty line that leaves a slice joins its sill's queue (R305, R312). -/
def State.queueHbm (s : State) (loc : Nat) (write : Bool) (sectors : BitVec 4) (slack part asid : Nat) (old : FMap Byte)
    (oldBad : FMap Bool) : State :=
  if inHbm loc then
    let k := stackOf loc
    let q := FMap.rd Sill.reset s.sills k
    let q := { q with queue := q.queue ++ [⟨loc / 128, write, sectors, slack, part, asid, s.nextPkt, old, oldBad⟩] }
    { s with sills := FMap.put s.sills k q }
  else s

/-- The word of a line lies in one of its dirty sectors. -/
def L2Line.dirtyWord (l : L2Line) (w : Nat) : Bool := l.dirty.getLsbD (w % 16 / 4)

/-- A line leaves its slice: what is dirty goes to its sill's queue, the words of its clean sectors are again as DRAM has
them, and a host line is given back (R305, R312, R437). DESIGN CHOICE: R312 serves by least slack and gives a write-back none; it has
0xFFF (log entry 102). -/
def State.evictL2 (s : State) (v : L2Line) (part asid : Nat) : State :=
  if v.guest then s
  else
    let s := if inHost (128 * v.line) then { s with hostLines := FMap.del s.hostLines v.line } else s
    let back := fun (m : FMap Bool) (e : Nat × Bool) => if v.dirtyWord e.1 then m else FMap.wr false m e.1 e.2
    let s := { s with poison := v.bad.foldl back s.poison }
    if v.dirty = 0 then s
    else s.queueHbm (128 * v.line) true v.dirty 0xFFF part asid v.old (v.bad.filter (fun e => v.dirtyWord e.1))

/-- Insert a line in a set of at most 12 ways (R305, R306). -/
def State.insertLine (s : State) (asid slice set : Nat) (l : L2Line) (part : Nat) : State :=
  let near := s.insertsNear asid set
  let ls := s.l2Set slice set
  let (v, ls) := if ls.length < 12 then (none, ls) else dropVictim ls
  let s := match v with
    | some v => s.evictL2 v part asid
    | none => s
  s.putL2Set slice set (if near then l :: ls else ls ++ [l])

/-- The home line of a location, if its slice holds it. -/
def State.homeLine (s : State) (loc : Nat) : Option L2Line :=
  (s.l2Set (sliceOf loc) (setOf loc)).find? (fun l => l.line = loc / 128 && !l.guest)

/-- Change the home line of a location in place. -/
def State.updHomeLine (s : State) (loc : Nat) (f : L2Line → L2Line) : State :=
  s.putL2Set (sliceOf loc) (setOf loc) ((s.l2Set (sliceOf loc) (setOf loc)).map
    (fun l => if l.line = loc / 128 && !l.guest then f l else l))

/-- A hit moves the line to the most recently used position (R306). -/
def State.touchHomeLine (s : State) (loc : Nat) : State :=
  let ls := s.l2Set (sliceOf loc) (setOf loc)
  let here := fun l : L2Line => l.line = loc / 128 && !l.guest
  s.putL2Set (sliceOf loc) (setOf loc) (ls.filter here ++ ls.filter (fun l => !here l))

/-- The 32-byte sectors that `n` bytes at `loc` touch in their line, as a mask (R209). -/
def sectorMask (loc n : Nat) : BitVec 4 :=
  BitVec.ofNat 4 ((List.range 4).foldl (fun a k =>
    if loc % 128 < 32 * (k + 1) ∧ 32 * k < loc % 128 + n then a + 2 ^ k else a) 0)

/-- Every sector that the access needs is valid at the home slice. -/
def State.sectorsHere (s : State) (loc n : Nat) : Bool :=
  match s.homeLine loc with
  | some l => decide (l.valid &&& sectorMask loc n = sectorMask loc n)
  | none => false

/-- The home slice takes the sectors in, inserting the line if it is absent (R305, R306). -/
def State.installSectors (s : State) (asid part loc : Nat) (m : BitVec 4) : State :=
  match s.homeLine loc with
  | some _ => s.updHomeLine loc (fun l => { l with valid := l.valid ||| m })
  | none => s.insertLine asid (sliceOf loc) (setOf loc) ⟨loc / 128, m, 0, none, false, [], [], []⟩ part

/-- Keep the bytes that DRAM holds for a range about to be written, where they are not kept yet (log entry 13). -/
def keepOld (s : State) (loc n : Nat) (old : FMap Byte) : FMap Byte :=
  (List.range n).foldl (fun o i =>
    match FMap.get o (loc + i) with
    | some _ => o
    | none => FMap.put o (loc + i) (s.byteAt (loc + i))) old

/-- Keep whether DRAM holds poison in the words of a range about to be written, where it is not kept yet (log entry 13). -/
def keepBad (s : State) (loc n : Nat) (bad : FMap Bool) : FMap Bool :=
  (List.range (ceilDiv (loc % 8 + n) 8)).foldl (fun m i =>
    let w := loc / 8 + i
    if (FMap.get m w).isNone then FMap.put m w (FMap.rd false s.poison w) else m) bad

/-- A window line that the host holds is invalidated there before the device writes it (R437). -/
def State.backInvalidate (s : State) (line : Nat) : State :=
  if FMap.rd false s.hostHeld line then
    { s with hostHeld := FMap.del s.hostHeld line, hostWait := s.hostWait.filter (fun l => decide (l ≠ line)),
             out := s.out ++ [.backInv line] }
  else s

/-- Store bytes at a home whose sectors are present: the line's sectors become dirty, poison of whole words clears
(R208, R305). -/
def State.storeHome (s : State) (loc : Nat) (bs : List Byte) : State :=
  let s := s.backInvalidate (loc / 128)
  let old := fun l : L2Line => if inHbm loc then keepOld s loc bs.length l.old else l.old
  let s1 := s.updHomeLine loc (fun l =>
    { l with dirty := l.dirty ||| sectorMask loc bs.length, old := old l, bad := keepBad s loc bs.length l.bad })
  { s1.setBytes loc bs with poison := clearPoison s1.poison loc bs.length }

/-- Split a range of locations at its 128-byte lines: each part's location and its bytes. -/
def lineParts (loc : Nat) (bs : List Byte) : List (Nat × List Byte) :=
  let first := 128 - loc % 128
  if bs.length ≤ first then [(loc, bs)]
  else (loc, bs.take first) ::
    (List.range (ceilDiv (bs.length - first) 128)).map
      (fun i => (loc + first + 128 * i, ((bs.drop first).drop (128 * i)).take 128))

/-- Drop every guest line of a crossbar sector (R116, R308). -/
def State.dropGuests (s : State) (sector : Nat) : State :=
  let keep := fun e : Nat × List L2Line =>
    if sectorOfSlice (e.1 / 2048) = sector then
      match e.2.filter (fun l => !l.guest) with
      | [] => none
      | ls => some (e.1, ls)
    else some e
  { s with l2 := s.l2.filterMap keep }

/-- A store issued from a core's sector drops that sector's guest copy (R308). -/
def State.dropGuest (s : State) (sector line : Nat) : State :=
  let sl := 8 * sector + channelOf (128 * line) % 8
  let set := setOf (128 * line)
  s.putL2Set sl set ((s.l2Set sl set).filter (fun l => !(l.guest && l.line = line)))

/-- Install a guest line in the reading sector: at most 2 ways of a set (R308). -/
def State.installGuest (s : State) (asid part sector line : Nat) (bs : FMap Byte) : State :=
  let sl := 8 * sector + channelOf (128 * line) % 8
  let set := setOf (128 * line)
  let ls := s.l2Set sl set
  let gs := ls.filter (fun l => l.guest)
  let keep := match gs.reverse with
    | g :: _ => if gs.length < 2 then ls else ls.filter (fun l => decide (l ≠ g))
    | [] => ls
  (s.putL2Set sl set keep).insertLine asid sl set ⟨line, 15, 0, none, true, bs, [], []⟩ part

/-- The sillwise state of a stack. -/
def State.sill (s : State) (k : Nat) : Sill := FMap.rd Sill.reset s.sills k
def State.setSill (s : State) (k : Nat) (q : Sill) : State := { s with sills := FMap.put s.sills k q }

end Sys2Proof.Machine
end

