-- ==== Sys2Proof/Machine/Hbm.lean ====
section
/-! DEFINITION. Budgets of a partition at a place (R279, R280, R324 to R326, R407), the sills' HBM controllers (R312 to
R314), and the reads and writes that the device makes at a home slice at once (R305, R306, R437). -/

namespace Sys2Proof.Machine

/-! ### Budget words -/

/-- A budget word of a partition; one that is not loaded is at its reset value (R279). -/
def State.budgetWord (s : State) (part : Nat) (f : Part → Word) : Word :=
  match FMap.get s.parts part with
  | some p => f p
  | none => 0x1_4000

/-- The budgets of a partition (R324). -/
inductive BudgetKind where
  | issue
  | net
  | hbm
  | ray
  | fut
deriving DecidableEq, Repr

/-- A partition's word for a budget, as its table entry gives it (R443). -/
def BudgetKind.of : BudgetKind → Part → Word
  | .issue => (·.issue)
  | .net => (·.net)
  | .hbm => (·.hbm)
  | .ray => (·.ray)
  | .fut => (·.fut)

/-- The key of a word that a place still works by: the core, up-link, sill or port, and the partition. -/
def wordKey (k : BudgetKind) (site part : Nat) : Nat :=
  let n := match k with | .issue => 0 | .net => 1 | .hbm => 2 | .ray => 3 | .fut => 4
  (n * 512 + site) * 32 + part

/-- The word that a place works by: the table's, but until its next period the one before a PTSYNC (R445). -/
def State.wordAt (s : State) (k : BudgetKind) (site part : Nat) : Word :=
  match FMap.get s.oldWords (wordKey k site part) with
  | some w => w
  | none => s.budgetWord part k.of

/-- A place's period begins: it works by the table's word (R445). -/
def State.newWord (s : State) (k : BudgetKind) (site part : Nat) : State :=
  { s with oldWords := FMap.del s.oldWords (wordKey k site part) }

/-- ALLOT and BRW (R279). -/
def allotOf (w : Word) : Nat := min (fld w 0 15) 16384
def borrows (w : Word) : Bool := bitOf w 16

/-- The key of a count: a place's number and a partition. -/
def siteKey (site part : Nat) : Nat := site * 32 + part

/-- A count is positive, or its budget is never exhausted. -/
def eligible (w : Word) (top : Nat) (count : Int) : Bool := decide (top ≤ allotOf w) || decide (0 < count)

/-- The counts before the first period ends: the largest ALLOT. HBM counts bytes, of which ALLOT names 1,024 each. -/
def netStart : Int := 0x4000
def hbmStart : Int := 0x4000 * 1024
def rayStart : Int := 4 * 0x4000

/-- A partition is eligible at a cluster's up-link, at a sill's HBM, at a sill's pipes. -/
def State.netOk (s : State) (cluster part : Nat) : Bool :=
  eligible (s.wordAt .net cluster part) 4096 (FMap.rd netStart s.netBudget (siteKey cluster part))
def State.hbmOk (s : State) (stack part : Nat) : Bool :=
  eligible (s.wordAt .hbm stack part) 9363 (FMap.rd hbmStart s.hbmBudget (siteKey stack part))
def State.rayOk (s : State) (stack part : Nat) : Bool :=
  eligible (s.wordAt .ray stack part) 16384 (FMap.rd rayStart s.rayBudget (siteKey stack part))

/-- Charge a count where it is positive (R325). -/
def chargeMap (start : Int) (m : FMap Int) (key n : Nat) : FMap Int :=
  let c := FMap.rd start m key
  if 0 < c then FMap.put m key (c - n) else m

/-- Charge flits to an up-link, bytes to a sill's HBM. -/
def State.chargeNet (s : State) (cluster part n : Nat) : State :=
  { s with netBudget := chargeMap netStart s.netBudget (siteKey cluster part) n }
def State.chargeHbm (s : State) (stack part n : Nat) : State :=
  { s with hbmBudget := chargeMap hbmStart s.hbmBudget (siteKey stack part) n }
/-- Pipe-cycles are charged in full for a visit whose ray was taken while the count was positive, and not at all for one that
was lent its pipe (R325, R407). -/
def State.chargeRay (s : State) (stack part n : Nat) (charged : Bool) : State :=
  if charged then { s with rayBudget := FMap.put s.rayBudget (siteKey stack part)
                                          (FMap.rd rayStart s.rayBudget (siteKey stack part) - (n : Int)) } else s

/-- A new period: the allotment and any overdraw (R325). -/
def renewed (allot : Nat) (count : Int) : Int := allot + min count 0

/-! ### HBM (R312 to R314) -/

/-- Bytes of a request's bursts (R312). -/
def burstBytes (r : HbmReq) : Nat :=
  let m := r.sectors.toNat
  let n := popNat 4 m
  if r.write then (if m = 15 then 128 else if m = 3 ∨ m = 12 then 64 else 32 * n)
  else if n = 1 then 32 else if m &&& 3 = m ∨ m &&& 12 = m then 64 else 128

/-- Sectors that a read's burst brings (R312). -/
def readSectors (m : BitVec 4) : BitVec 4 :=
  let n := popNat 4 m.toNat
  if n = 1 then m else if m &&& 3 = m then 3 else if m &&& 12 = m then 12 else 15

/-- The sectors that a request reads or writes in DRAM. -/
def HbmReq.touches (r : HbmReq) : BitVec 4 := if r.write then r.sectors else readSectors r.sectors

/-- A request may be served before the older ones: its burst touches no sector of theirs (R312). -/
def hbmFree (older : List HbmReq) (r : HbmReq) : Bool :=
  older.all (fun o => decide (o.line ≠ r.line ∨ o.touches &&& r.touches = 0))

/-- Requests of a queue that may be served, with their positions. -/
def hbmReady (q : List HbmReq) : List (Nat × HbmReq) :=
  ((List.range q.length).zip q).filter (fun e => hbmFree (q.take e.1) e.2)

/-- The sectors of a line as numbers of the device's sectors. -/
def sectorNos (line : Nat) (m : BitVec 4) : List Nat := ((List.range 4).filter (fun k => m.getLsbD k)).map (fun k => 4 * line + k)

/-- A line with a correctable sector enters the correction table, if it has room (R314). -/
def Sill.enterCorr (q : Sill) (line : Nat) : Sill :=
  if q.corr.any (fun e => decide (e.1 = line)) ∨ 16 ≤ q.corr.length then q else { q with corr := q.corr ++ [(line, 0)] }

/-- DRAM's words of a sector are poisoned (R313): what reads find where neither the home slice nor a write on its way holds
the sector; else only what DRAM itself has. -/
def State.poisonDram (s : State) (stack sector : Nat) : State :=
  let words := (List.range 4).map (fun i => 4 * sector + i)
  let mark := fun (m : FMap Bool) => words.foldl (fun m w => FMap.put m w true) m
  let m : BitVec 4 := BitVec.ofNat 4 (2 ^ (sector % 4))
  let q := s.sill stack
  let waits := q.queue.any (fun r => r.write && decide (r.line = sector / 4 ∧ r.sectors &&& m ≠ 0))
  if waits then
    s.setSill stack { q with queue := q.queue.map (fun r =>
      if r.write ∧ r.line = sector / 4 ∧ r.sectors &&& m ≠ 0 then { r with oldBad := mark r.oldBad } else r) }
  else if s.sectorsHere (32 * sector) 32 then s.updHomeLine (32 * sector) (fun l => { l with bad := mark l.bad })
  else { s with poison := words.foldl (fun m w => FMap.wr false m w true) s.poison }

/-- What the check symbols of a sector tell a reader (R313): one bad byte is corrected and counted, more than one poisons
the sector in DRAM, for good. -/
def State.checkSector (s : State) (stack sector : Nat) : State :=
  match FMap.get s.symErr sector with
  | none => s
  | some n =>
    let q := s.sill stack
    if n ≤ 1 then s.setSill stack { q.enterCorr (sector / 4) with corrected := q.corrected + 1 }
    else { s with symErr := FMap.del s.symErr sector }.poisonDram stack sector

/-- Serve one request (R312 to R314): a read installs its sectors valid and clean; a write replaces them in DRAM. -/
def State.serveHbm (s : State) (stack : Nat) (r : HbmReq) : State :=
  if r.write then
    let q := s.sill stack
    let bump := fun (e : Nat × BitVec 8) => if e.1 = r.line then (e.1, e.2 + 1) else e
    let s := s.setSill stack { q with corr := q.corr.map bump }
    { s with symErr := (sectorNos r.line r.sectors).foldl FMap.del s.symErr }
  else
    let m := readSectors r.sectors
    let s := (sectorNos r.line m).foldl (fun s k => s.checkSector stack k) s
    s.installSectors r.asid r.part (128 * r.line) m

/-- The requests of a line that wait in a sill's queue are served, oldest first, and charged (R312, R325). -/
def State.serveLine (s : State) (stack line : Nat) : State :=
  let mine := (s.sill stack).queue.filter (fun r => decide (r.line = line))
  let s := s.setSill stack { s.sill stack with queue := (s.sill stack).queue.filter (fun r => decide (r.line ≠ line)) }
  mine.foldl (fun s r => (s.chargeHbm stack r.part (burstBytes r)).serveHbm stack r) s

/-- A DRAM read of sectors at once: after what the line's queue holds, with their check symbols, and with the charge of the
burst, which register-line traffic does not pay (R309, R312, R313, R324). -/
def State.readDram (s : State) (part line : Nat) (m : BitVec 4) (paid : Bool) : State :=
  let stack := stackOf (128 * line)
  let s := s.serveLine stack line
  let s := if paid then s.chargeHbm stack part (burstBytes ⟨line, false, m, 0, part, 0, 0, [], []⟩) else s
  (sectorNos line (readSectors m)).foldl (fun s k => s.checkSector stack k) s

/-- A sill's engine reads a range of its stack (R309): line by line from the home slice, where that holds a dirty sector of
the line, else from DRAM. -/
def State.sillRead (s : State) (part loc n : Nat) : State :=
  (lineParts loc (List.replicate n 0)).foldl (fun s p =>
    if (s.homeLine p.1).any (fun l => decide (l.dirty ≠ 0)) then s
    else s.readDram part (p.1 / 128) (sectorMask p.1 p.2.length) true) s

/-- The word of a location is poisoned as a sill's engine reads it: by its home slice where that holds a dirty sector of the
line, else by DRAM (R309, R313). -/
def State.sillBad (s : State) (loc : Nat) : Bool :=
  let here := FMap.rd false s.poison (loc / 8)
  match s.homeLine loc with
  | some l => if l.dirty ≠ 0 then here else (FMap.get l.bad (loc / 8)).getD here
  | none => here

/-! ### Reads and writes of the device at a home (log entry 86) -/

/-- Replace a host line's bytes by free values: what the host has put there is not the device's to know (log entry 12). -/
def State.hostBytes (s : State) (line : Nat) : State :=
  let (ws, s) := s.frees 16
  s.setBytes (128 * line) ((ws.map (fun w => bytesOf 8 w.toNat)).flatten)

/-- The home slice of a host line obtains it from the host, owned for a write, where it does not hold it so (R437). -/
def State.obtainHost (s : State) (line : Nat) (own : Bool) : State :=
  match FMap.get s.hostLines line with
  | some has => if has || !own then s else { s.emit (.hostReq line own) with hostLines := FMap.put s.hostLines line true }
  | none =>
    let s := (s.emit (.hostReq line own)).hostBytes line
    { s with hostLines := FMap.put s.hostLines line own }

/-- A read at the home by the device itself: a hit becomes the most recently used line; a miss takes what the line's queue
holds first, then reads the missing sectors of HBM, or obtains the host's line (R305, R306, R312, R437). -/
def State.fillLineOf (s : State) (asid part loc n : Nat) (paid : Bool) : State :=
  if inHost loc then
    let s := s.obtainHost (loc / 128) false
    if s.sectorsHere loc n then s.touchHomeLine loc else (s.duel asid (setOf loc)).installSectors asid part loc 15
  else if s.sectorsHere loc n then s.touchHomeLine loc
  else
    let s := (s.duel asid (setOf loc)).serveLine (stackOf loc) (loc / 128)
    let have_ := match s.homeLine loc with | some l => l.valid | none => 0
    let m := sectorMask loc n &&& ~~~have_
    if m = 0 then s
    else (s.readDram part (loc / 128) m paid).installSectors asid part loc (readSectors m)

/-- A read of one line at its home that its partition pays for. -/
def State.fillHome (s : State) (asid part loc n : Nat) : State := s.fillLineOf asid part loc n true

/-- A write at the home by the walker, the device or a control-stream operation, performed at once line by line
(R305). -/
def State.writeLines (s : State) (asid part loc : Nat) (bs : List Byte) (paid : Bool) : State :=
  (lineParts loc bs).foldl (fun s p =>
    let s := if inHost p.1 then s.obtainHost (p.1 / 128) true else s
    (s.fillLineOf asid part p.1 p.2.length paid).storeHome p.1 p.2) s

/-- A write that its partition pays for. -/
def State.writeHome (s : State) (asid part loc : Nat) (bs : List Byte) : State := s.writeLines asid part loc bs true

/-- A read of a range by the device at the homes of its lines: the state after it, in which the bytes are what stands there. -/
def State.fillRange (s : State) (asid part loc n : Nat) (paid : Bool) : State :=
  (lineParts loc (List.replicate n 0)).foldl (fun s p => s.fillLineOf asid part p.1 p.2.length paid) s

end Sys2Proof.Machine
end

