-- ==== Sys2Proof/Machine/Translate.lean ====
section
/-! DEFINITION. Address spaces, leaves, the walker, the TLBs and their invalidation (R295 to R302, R110, R163). -/

namespace Sys2Proof.Machine

/-- Cause codes of R364. -/
def cILLEGAL : Nat := 0x01
def cBADTARGET : Nat := 0x02
def cBADRUN : Nat := 0x03
def cEMPTYREAD : Nat := 0x04
def cSHAREDWRITE : Nat := 0x05
def cBUDGET : Nat := 0x06
def cTOKENOVF : Nat := 0x07
def cPRIV : Nat := 0x08
def cPAGEFAULT : Nat := 0x10
def cFIRSTTOUCH : Nat := 0x11
def cPROTECT : Nat := 0x12
def cMISALIGN : Nat := 0x14
def cPEERFAULT : Nat := 0x15
def cPEERTIMEOUT : Nat := 0x16
def cPOISON : Nat := 0x17
def cARITH : Nat := 0x20
def cLATESLACK : Nat := 0x21
def cDOVETAIL : Nat := 0x22
def cPREEMPT : Nat := 0x30
def cDEBUG : Nat := 0x31
def cSOFT : Nat := 0x32
def cCANCELLED : Nat := 0x33
def cHODFAULT : Nat := 0x34
def cENGINE : Nat := 0x35

/-- Group and unit keys: 64 slots a core (R265, R270). -/
def gidOf (core gslot : Nat) : Nat := core * 64 + gslot
def coreOfGid (gid : Nat) : Nat := gid / 64

/-- The state of a core. -/
def State.core (s : State) (c : Nat) : Core := FMap.rd Core.reset s.cores c
def State.setCore (s : State) (c : Nat) (k : Core) : State := { s with cores := FMap.put s.cores c k }

/-- The launch and the job of a unit. -/
def State.launchOf (s : State) (u : UnitRec) : Option Launch := FMap.get s.launches u.launch
def State.jobOf (s : State) (u : UnitRec) : Option Job :=
  match s.launchOf u with
  | some l => FMap.get s.jobs l.job
  | none => none

/-- The unit of a group. -/
def State.unitOf (s : State) (g : Group) : Option UnitRec := FMap.get s.units g.uid

/-- The job of a group. -/
def State.jobOfGroup (s : State) (g : Group) : Option Job :=
  match s.unitOf g with
  | some u => s.jobOf u
  | none => none

/-- The address space and the partition of a group (R157). -/
def State.asidOf (s : State) (g : Group) : Nat := match s.jobOfGroup g with | some j => j.asid | none => 0
def State.partOf (s : State) (g : Group) : Nat := match s.jobOfGroup g with | some j => j.part | none => 0

/-- The address space and the partition of the group with a key. -/
def State.asidOfGid (s : State) (gid : Nat) : Nat := match FMap.get s.groups gid with | some g => s.asidOf g | none => 0
def State.partOfGid (s : State) (gid : Nat) : Nat := match FMap.get s.groups gid with | some g => s.partOf g | none => 0

/-- The address-space entry that governs a group's job (R445). -/
def State.spaceFor (s : State) (gid asid : Nat) : Option Space :=
  match ((FMap.get s.groups gid).bind (fun g => s.jobOfGroup g)).bind (·.space) with
  | some a => some a
  | none => FMap.get s.spaces asid

/-- Fields of a leaf (R299). -/
def leafV (e : Word) : Bool := bitOf e 63
def leafKind (e : Word) : Nat := fld e 61 2
def leafFT (e : Word) : Bool := bitOf e 60
def leafPeer (e : Word) : Nat := fld e 56 4
def leafHome (e : Word) : Nat := fld e 52 4
def leafG (e : Word) : Bool := bitOf e 51
def leafPE (e : Word) : Bool := bitOf e 50
def leafFrame (e : Word) : Nat := fld e 16 32
def leafD (e : Word) : Bool := bitOf e 7
def leafA (e : Word) : Bool := bitOf e 6
def leafX (e : Word) : Bool := bitOf e 5
def leafW (e : Word) : Bool := bitOf e 4
def leafU (e : Word) : Bool := bitOf e 3
def leafL (e : Word) : Bool := bitOf e 2
/-- A reserved bit of a leaf is set: bits 49:48, 15:8 and 1:0 (R299). -/
def leafRsv (e : Word) : Bool := decide (fld e 48 2 ≠ 0 ∨ fld e 8 8 ≠ 0 ∨ fld e 0 2 ≠ 0)
/-- A reserved bit of a non-leaf entry is set: bits 62:48, 14:3 and 1:0 (R298). -/
def entryRsv (e : Word) : Bool := decide (fld e 48 15 ≠ 0 ∨ fld e 3 12 ≠ 0 ∨ fld e 0 2 ≠ 0)
/-- The table that a non-leaf entry names (R298). -/
def entryTable (e : Word) : Nat := fld e 15 33 * 2 ^ 15

/-- Bytes of the page of a leaf: 256 MiB or 64 KiB (R110). -/
def pageBytes (e : Word) : Nat := if leafL e then 2 ^ 28 else 2 ^ 16

/-- The physical address that a leaf gives `va` (R110). -/
def leafPhys (e : Word) (va : Nat) : Nat := leafFrame e * 2 ^ 16 + va % pageBytes e

/-- The kind of the accesses through a leaf: 0 RC, 1 SO, 2 UO; UO acts as RC over host memory (R437). -/
def accessKind (e : Word) (va : Nat) : Nat :=
  if leafKind e = 2 ∧ leafPeer e = 0 ∧ inHost (leafPhys e va) then 0 else leafKind e

/-- The fault of a leaf found by the walker, rights left aside (R300). -/
def leafFault (e : Word) (va : Nat) : Option Nat :=
  if leafKind e = 3 ∨ leafRsv e then some cPAGEFAULT
  else if leafFT e then (if leafL e then some cPAGEFAULT else some cFIRSTTOUCH)
  else if leafPeer e = 0 ∧ ((homeLoc (leafHome e) (leafPhys e va)).isNone ∨
      (leafL e ∧ leafFrame e % 4096 ≠ 0)) then some cPAGEFAULT
  else none

/-- Mode and access against U, W and X (R11, R106, R206, R300). -/
def rightsFault (e : Word) (acc : AccKind) (user : Bool) : Option Nat :=
  if (user ∧ !leafU e) ∨ (acc = .write ∧ !leafW e) ∨ (acc = .exec ∧ !leafX e) then some cPROTECT else none

/-- The location of `va` through a leaf; 0 for a peer leaf, whose location is the peer's. -/
def leafLoc (e : Word) (va : Nat) : Nat := (homeLoc (leafHome e) (leafPhys e va)).getD 0

/-- A range cut at the 64 KiB pages. -/
def pageParts : Nat → Nat → Nat → List (Nat × Nat)
  | 0, _, _ => []
  | fuel + 1, va, n =>
    if n = 0 then []
    else
      let here := min n (2 ^ 16 - va % 2 ^ 16)
      (va, here) :: pageParts fuel ((va + here) % 2 ^ 64) (n - here)

/-- Bytes from `va` up, all in one page, line by line: where its leaf puts each part, and the part (R110, R296). -/
def leafParts (e : Word) (va : Nat) (bs : List Byte) : List (Nat × List Byte) :=
  (lineParts va bs).map (fun p => (leafLoc e p.1, p.2))

/-- The same for a range: the location and the length of each part. -/
def leafRanges (e : Word) (va n : Nat) : List (Nat × Nat) :=
  (lineParts va (List.replicate n 0)).map (fun p => (leafLoc e p.1, p.2.length))

/-- Where byte `off` of a range lies that is laid out in parts. -/
def locIn : List (Nat × Nat) → Nat → Nat
  | [], _ => 0
  | p :: ps, off => if off < p.2 then p.1 + off else locIn ps (off - p.2)

/-- The kind, the peer set and a byte's location of a span (R145). -/
def Span.kind (x : Span) : Nat := accessKind x.leaf x.va
def Span.peer (x : Span) : Nat := leafPeer x.leaf
def Span.loc (x : Span) (va : Nat) : Nat := leafLoc x.leaf va

/-- The parts of a span, line by line. -/
def Span.ranges (x : Span) : List (Nat × Nat) := leafRanges x.leaf x.va x.len

/-- Put an entry in front of a least-recently-used list of at most `cap`. -/
def lruPut (cap : Nat) (e : TlbEntry) (es : List TlbEntry) : List TlbEntry :=
  (e :: es.filter (fun x => !(x.asid = e.asid && x.page = e.page && x.big = e.big && x.at_ = e.at_))).take cap

/-- The entry for an address in a list of leaves. -/
def tlbFind (asid va : Nat) (es : List TlbEntry) : Option TlbEntry :=
  es.find? (fun e => e.asid = asid && e.page = (if e.big then va / 2 ^ 28 else va / 2 ^ 16))

/-- The entry of a non-leaf level in the walker cache (R302): `at_` names the level. -/
def walkerFind (asid lev va : Nat) (es : List TlbEntry) : Option TlbEntry :=
  es.find? (fun e => e.asid = asid && e.at_ = lev && e.page = va / 2 ^ (16 + 12 * (lev - 1)))

/-- The partition of an address space (R444). -/
def State.partOfAsid (s : State) (asid : Nat) : Nat := match FMap.get s.spaces asid with | some a => a.part | none => 0

/-- The walk of R300 from level `lev` with table `t`, whose entries are read at their home slices: the leaf and the address
of its entry, or the fault. -/
def walk (s : State) (cl asid va : Nat) : Nat → Nat → State × Except Nat (Word × Nat)
  | 0, _ => (s, .error cPAGEFAULT)
  | lev + 1, t =>
    let a := t + 8 * (va / 2 ^ (16 + 12 * lev) % 4096)
    let cache := FMap.rd [] s.walkers cl
    let hit := walkerFind asid (lev + 1) va cache
    if hit.isNone ∧ !backed a then (s, .error cPAGEFAULT)
    else
      let s := if hit.isSome then s else s.fillHome asid (s.partOfAsid asid) a 8
      let e : Word := match hit with | some h => h.leaf | none => BitVec.ofNat 64 (s.natAt a 8)
      if !leafV e then (s, .error cPAGEFAULT)
      else if lev = 0 ∧ leafL e then (s, .error cPAGEFAULT)
      else if lev = 0 ∨ (lev = 1 ∧ leafL e) then (s, .ok (e, a))
      else if leafL e ∨ entryRsv e then (s, .error cPAGEFAULT)
      else
        let c := lruPut Config.walkerCacheEntries ⟨asid, va / 2 ^ (16 + 12 * lev), false, e, lev + 1⟩ cache
        walk { s with walkers := FMap.wr [] s.walkers cl c } cl asid va lev (entryTable e)

/-- PTROOT of an address space (R157, R444). -/
def State.rootOf (s : State) (asid : Nat) : Option Nat := (FMap.get s.spaces asid).map (·.root)

/-- Set bits of a table entry at its home by an atomic OR (R301). -/
def State.orEntry (s : State) (asid a : Nat) (bits : Word) : State :=
  s.writeHome asid (s.partOfAsid asid) a (bytesOf 8 (BitVec.ofNat 64 (s.natAt a 8) ||| bits).toNat)

/-- Walk, check and mark one access (R300, R301, R331): A, then for a write D, each by an OR of its own; the leaf as updated and its
location, or the fault. -/
def walkAccess (s : State) (cl asid va : Nat) (acc : AccKind) (user : Bool) : State × Except Nat (Word × Nat) :=
  match s.rootOf asid with
  | none => (s, .error cPAGEFAULT)
  | some root =>
    match walk s cl asid va 4 root with
    | (s, .error c) => (s, .error c)
    | (s, .ok (e, a)) =>
      match leafFault e va with
      | some c => (s, .error c)
      | none =>
        match rightsFault e acc user with
        | some c => (s, .error c)
        | none =>
          let r := if leafA e then (s, e) else (s.orEntry asid a 0x40, e ||| 0x40)
          let r := if acc ≠ .write ∨ leafD e then r else (r.1.orEntry asid a 0x80, r.2 ||| 0x80)
          (r.1, .ok (r.2, leafLoc e va))

/-- The cluster TLB's set for a leaf (R302). -/
def tlbSet (big : Bool) (va : Nat) : Nat := if big then va / 2 ^ 28 % 512 else va / 2 ^ 16 % 512

/-- The key of a cluster TLB's set in `State.tlbs`. -/
def tlbKey (cl set : Nat) : Nat := cl * 512 + set

/-- Enter a leaf in a core's TLB and in its cluster's (R302). -/
def State.tlbFill (s : State) (core asid va : Nat) (e : Word) : State :=
  let big := leafL e
  let t : TlbEntry := ⟨asid, if big then va / 2 ^ 28 else va / 2 ^ 16, big, e, 0⟩
  let k := s.core core
  let key := tlbKey (clusterOf core) (tlbSet big va)
  let s := s.setCore core { k with tlb := lruPut Config.l1TlbEntries t k.tlb }
  { s with tlbs := FMap.wr [] s.tlbs key (lruPut Config.clTlbWays t (FMap.rd [] s.tlbs key)) }

/-- A hit in the core's TLB makes its entry the most recently used there; the cluster's TLB is not looked up (R302). -/
def State.tlbHit (s : State) (core : Nat) (t : TlbEntry) : State :=
  let k := s.core core
  s.setCore core { k with tlb := lruPut Config.l1TlbEntries t k.tlb }

/-- The entry for an address in a cluster's TLB: the set of a small page, then that of a big one (R302). -/
def State.clusterFind (s : State) (cl asid va : Nat) : Option TlbEntry :=
  match tlbFind asid va (FMap.rd [] s.tlbs (tlbKey cl (tlbSet false va))) with
  | some e => some e
  | none => tlbFind asid va (FMap.rd [] s.tlbs (tlbKey cl (tlbSet true va)))

/-- A lookup: the core's TLB, then the cluster's (R302). -/
def State.tlbLookup (s : State) (core asid va : Nat) : Option Word :=
  match tlbFind asid va (s.core core).tlb with
  | some e => some e.leaf
  | none => (s.clusterFind (clusterOf core) asid va).map (·.leaf)

/-- A lookup that hits: the structures after it. -/
def State.tlbTouch (s : State) (core asid va : Nat) (e : Word) : State :=
  match tlbFind asid va (s.core core).tlb with
  | some t => s.tlbHit core t
  | none => s.tlbFill core asid va e

/-- Translate one access of a core through the TLBs and the walker (R300 to R302): the leaf and the location, or
the fault. -/
def translate (s : State) (core asid va : Nat) (acc : AccKind) (user : Bool) : State × Except Nat (Word × Nat) :=
  let walked :=
    match walkAccess s (clusterOf core) asid va acc user with
    | (s, .ok (e, loc)) => (s.tlbFill core asid va e, Except.ok (e, loc))
    | (s, .error c) => (s, .error c)
  match s.tlbLookup core asid va with
  | none => walked
  | some e =>
    match rightsFault e acc user with
    | some c => (s, .error c)
    | none =>
      if acc = .write ∧ !leafD e then walked
      else (s.tlbTouch core asid va e, .ok (e, leafLoc e va))

/-- What a read would find, with nothing marked or filled: for prefetches and range checks (R113, R114). -/
def State.probe (s : State) (core asid va : Nat) (acc : AccKind) (user : Bool) : Except Nat (Word × Nat) :=
  let found : Except Nat Word := match s.tlbLookup core asid va with
    | some e => .ok e
    | none => match s.rootOf asid with
      | none => .error cPAGEFAULT
      | some root => match walk s (clusterOf core) asid va 4 root with
        | (_, .error c) => .error c
        | (_, .ok (e, _)) => match leafFault e va with
          | some c => .error c
          | none => .ok e
  match found with
  | .error c => .error c
  | .ok e => match rightsFault e acc user with
    | some c => .error c
    | none => .ok (e, leafLoc e va)

/-- The range of addresses of an entry: a page, or what a non-leaf entry covers. -/
def entrySpan (e : TlbEntry) : Nat × Nat :=
  let sh := if e.at_ = 0 then (if e.big then 28 else 16) else 16 + 12 * (e.at_ - 1)
  (e.page * 2 ^ sh, 2 ^ sh)

/-- Two ranges (start, length) share a byte. -/
def overlaps (a b : Nat × Nat) : Bool := decide (a.1 < b.1 + b.2 ∧ b.1 < a.1 + a.2)

/-- The 64 KiB that hold an address: the invalidation of a page covers every translation, of either size, that overlaps
them. -/
def pageSpan (va : Nat) : Nat × Nat := (va / 2 ^ 16 * 2 ^ 16, 2 ^ 16)

/-- Remove the translations of a range from every TLB, walker cache, sill and X register of an address space (R110,
R163). -/
def State.invalidate (s : State) (asid : Nat) (span : Nat × Nat) : State :=
  let gone := fun e : TlbEntry => e.asid = asid && overlaps (entrySpan e) span
  let prune := fun es : List TlbEntry => es.filter (fun e => !gone e)
  let pruneMap := fun m : FMap (List TlbEntry) =>
    m.filterMap (fun p => match prune p.2 with | [] => none | es => some (p.1, es))
  let page := fun x : XReg => (x.vb.toNat / pageBytes x.pte * pageBytes x.pte, pageBytes x.pte)
  let xreg := fun x : XReg => if x.lim ≠ 0 ∧ overlaps (page x) span then { x with lim := 0 } else x
  let cores := s.cores.map (fun p => (p.1, { p.2 with tlb := prune p.2.tlb }))
  let groups := s.groups.map (fun p =>
    if s.asidOf p.2 = asid then (p.1, { p.2 with x := p.2.x.map (fun q => (q.1, xreg q.2)) }) else p)
  let sills := s.sills.map (fun p => (p.1, { p.2 with xlats := p.2.xlats.filter (fun e => !gone e.2) }))
  { s with sills := sills, cores := cores, tlbs := pruneMap s.tlbs, walkers := pruneMap s.walkers, groups := groups }

/-- Every translation of an address space (R163). -/
def wholeSpan : Nat × Nat := (0, 2 ^ 64)

end Sys2Proof.Machine
end

