-- ==== Sys2Proof/Machine/Access.lean ====
section
/-! DEFINITION. Accesses as they issue: the L1 and the UO write buffer of a core (R303, R304), the packets of R209
and R316, the replay queue's producers (R372), and the accesses that are performed inside the core (R210, R211). -/

namespace Sys2Proof.Machine

/-! ### Packets -/

/-- The number under which a switch stands in `State.switches`; none for a place that is no switch. -/
def switchKey : Place → Option Nat
  | .cluster n => some (4 * n)
  | .sector n => some (4 * n + 1)
  | .stop n => some (4 * n + 2)
  | .hub n => some (4 * n + 3)
  | _ => none

/-- The stops between two sectors, and the sector at the end (R316; log entry 10). -/
def ringTo (a b : Nat) : List Place :=
  if a = b then [] else (Config.ringPath a b).map (fun n => Place.stop (n % Config.ringStops)) ++ [.sector b]

/-- The places from a core's cluster switch to a home slice, the switch itself left out. -/
def pathToSlice (core slice : Nat) : List Place :=
  [.sector (sectorOf core)] ++ ringTo (sectorOf core) (sectorOfSlice slice) ++ [.slice slice]

/-- The places from a slice back to a core. -/
def pathToCore (slice core : Nat) : List Place :=
  [.sector (sectorOfSlice slice)] ++ ringTo (sectorOfSlice slice) (sectorOf core) ++ [.cluster (clusterOf core), .core core]

/-- The live ports of a route entry, lowest first (R448). -/
def State.livePorts (s : State) (dev : Nat) : List Nat :=
  match FMap.get s.routes dev with
  | some (mask, word) =>
    if bitOf word 63 ∧ dev ≠ s.mgmt.fid.toNat then
      (List.range 64).filter (fun i => bitOf mask i && (match FMap.get s.futas i with
        | some p => decide (p.state = .active)
        | none => false))
    else []
  | none => []

/-- The places from a core's cluster switch to the port for a peer device (R448): up to the hub where no port is
live, and there the packet stays until its access times out. -/
def State.pathToPeer (s : State) (core dev line : Nat) : List Place :=
  let ports := s.livePorts dev
  let port := ports[line % ports.length]?
  let die := match port with | some p => p / 32 | none => dieOf core
  [.sector (sectorOf core)] ++ ringTo (sectorOf core) (3 * die) ++ [.hub die] ++
    (match port with | some p => [.futas p] | none => [])

/-- A packet comes to stand at a place (R318, R319): with slack 0 it is LATE, and at a switch it joins the exhausted
order. `arrived` orders the arrivals at a place; where that is no switch, a packet number is used up for it. -/
def State.arrive (s : State) (id : Nat) (p : Packet) (here : Place) (path : List Place) : State :=
  match switchKey here with
  | some k =>
    let sw := FMap.rd Switch.reset s.switches k
    let p := { p with at_ := here, inLink := false, path := path, arrived := sw.stamp, cyc := sw.cycle, late := p.late || p.slack = 0,
                      exhausted := if p.slack = 0 then some sw.stamp else none }
    { s with pkts := FMap.put s.pkts id p, switches := FMap.put s.switches k { sw with stamp := sw.stamp + 1 } }
  | none =>
    let p := { p with at_ := here, inLink := false, path := path, arrived := s.nextPkt, late := p.late || p.slack = 0,
                      exhausted := none }
    { s with pkts := FMap.put s.pkts id p, nextPkt := s.nextPkt + 1 }

/-- A split of a group. -/
def State.splitAt (s : State) (gid place : Nat) : Option Split := (FMap.get s.groups gid).bind (fun g => FMap.get g.splits place)

/-- The tag under which a split's accesses travel, and those that its program order holds (R340). -/
def State.tagOf (s : State) (gid place : Nat) : Nat := match s.splitAt gid place with | some p => p.tag | none => 0
def State.tagsOf (s : State) (gid place : Nat) : List Nat := match s.splitAt gid place with | some p => p.tags | none => []

/-- The widest release FENCE that stands before what the split now issues (R346). -/
def State.fencedAt (s : State) (gid place : Nat) : Nat := match s.splitAt gid place with | some p => p.fenced | none => 0

/-- A new packet, buffered at a place (R318). Unless it carries lines of the UO write buffer, it travels for its split (R340). -/
def State.send (s : State) (p : Packet) (here : Place) (path : List Place) : State :=
  let p := if p.owners.isEmpty then { p with tag := s.tagOf p.gid p.place, rel := max p.rel (s.fencedAt p.gid p.place) } else p
  { s with nextPkt := s.nextPkt + 1 }.arrive s.nextPkt p here path

/-- The port of a packet at a cluster switch: cores are 0 to 11, RCA 12, raster 13, walker 14, up-link 15 (R316). -/
def corePort (core : Nat) : Nat := core % 12

/-- A packet with the fields that every packet has. -/
def mkPacket (gid place port slack vc part flits : Nat) (body : Body) : Packet :=
  { gid := gid, place := place, tag := 0, owners := [], rel := 0, batch := 0, at_ := .host, inLink := false, path := [], port := port, slack := slack, late := false, missed := false,
    exhausted := none, arrived := 0, cyc := 0, vc := vc, buf := vc, part := part, flits := flits, braced := false, peer := 0, body := body }

/-! ### Producers -/

/-- A producer with nothing landed. -/
def mkProducer (kind : ProdKind) (ctl : Bool) (place : Nat) (bits : LBits) (idx : Nat) (dest : Dest) (mask : Lanes) :
    Producer :=
  { kind := kind, ctl := ctl, place := place, tag := 0, bits := bits, idx := idx, run := 0, dest := dest, mask := mask, landed := 0,
    sup := 0, flt := 0, fltCause := 0, sent := false, opA := [], opB := [], opC := [], vals := [], ready := 0,
    poison := 0, late := 0, errs := [], um := true }

/-- Change a producer of a group. -/
def State.updProducer (s : State) (gid pid : Nat) (f : Producer → Producer) : State :=
  { s with groups := FMap.upd s.groups gid (fun g => { g with replay := FMap.upd g.replay pid f }) }

/-- The results of some lanes have arrived: values at 32·i + lane. -/
def Producer.gain (p : Producer) (vals : List (Nat × Nat × Word)) (lanes : Lanes) : Producer :=
  { p with vals := vals.foldl (fun m v => FMap.put m (32 * v.2.1 + v.1) v.2.2) p.vals, ready := p.ready ||| lanes }

/-! ### L1 and the UO write buffer -/

/-- The line of a core's L1 (R303). -/
def Core.l1Find (k : Core) (line : Nat) : Option L1Line := k.l1.find? (fun l => l.line = line)

/-- A core drops a line of its L1. -/
def Core.l1Drop (k : Core) (line : Nat) : Core := { k with l1 := k.l1.filter (fun l => decide (l.line ≠ line)) }

/-- Make a line the most recently used. -/
def Core.l1Touch (k : Core) (line : Nat) : Core :=
  { k with l1 := k.l1.filter (fun l => decide (l.line = line)) ++ k.l1.filter (fun l => decide (l.line ≠ line)) }

/-- Bring a line in: 128 sets of 8 ways, least recently used first out (R303). -/
def Core.l1Put (k : Core) (l : L1Line) : Core :=
  let rest := k.l1.filter (fun x => decide (x.line ≠ l.line))
  let same := rest.filter (fun x => decide (x.line % 128 = l.line % 128))
  let rest := match same[7]? with
    | some v => rest.filter (fun x => decide (x.line ≠ v.line))
    | none => rest
  { k with l1 := l :: rest }

/-- Replace bytes of a line held by the L1. -/
def patch (bs : List Byte) (at_ : Nat) (new : List Byte) : List Byte := bs.take at_ ++ new ++ bs.drop (at_ + new.length)

/-- A store updates the L1 line if it is present (R303). -/
def Core.l1Store (k : Core) (loc : Nat) (bs : List Byte) : Core :=
  let upd := fun l : L1Line => if l.line = loc / 128 then { l with bytes := patch l.bytes (loc % 128) bs } else l
  { k with l1 := k.l1.map upd }

/-- What an acquire does at a core (R116, R303, R308): `g` where it covers storage g. -/
def State.acquireAt (s : State) (core scope : Nat) (g drain : Bool) : State :=
  let k := s.core core
  let l1 := if drain then [] else if g ∧ 2 ≤ scope then k.l1.filter (fun l => l.uo) else k.l1
  let s := s.setCore core { k with l1 := l1 }
  if 3 ≤ scope then s.dropGuests (sectorOf core) else s

/-- The agent scope, plus 1, of the release that a word reads from; 0 where it reads from none (R346, R354). -/
def State.relAt (s : State) (loc : Nat) : Nat := match FMap.get s.rel (loc / 8) with | some r => r.2.2 | none => 0

/-- The widest of them over a line. -/
def State.relOfLine (s : State) (line : Nat) : Nat := (List.range 16).foldl (fun n i => max n (s.relAt (128 * line + 8 * i))) 0

/-- A core reads from a release: the read acts as an acquire of that scope (R354; log entry 99). -/
def State.readRel (s : State) (core rel : Nat) : State := if rel = 0 then s else s.acquireAt core (rel - 1) true false

/-- A read meets a line of its core's L1: the line becomes the most recently used (R303), and a release that a prefetch has brought
is read (R354). -/
def State.l1Hit (s : State) (core : Nat) (l : L1Line) : State :=
  let s := s.readRel core l.rel
  s.setCore core ((s.core core).l1Put { l with rel := 0 })

/-- The line of a core's UO write buffer that holds a location. -/
def Core.uoLine (k : Core) (loc : Nat) : Option UoLine := k.uo.find? (fun e => e.line = loc / 128)

/-- The bytes that the UO write buffer holds of a range, by place in the range (R351). -/
def Core.uoOver (k : Core) (loc n : Nat) : List (Nat × Byte) :=
  match k.uoLine loc with
  | none => []
  | some e => (List.range n).filterMap (fun i => (FMap.get e.bytes (loc + i)).map (fun b => (i, b)))

/-- Some of them belong to a word that a copy has poisoned. -/
def Core.uoBad (k : Core) (loc n : Nat) : Bool :=
  match k.uoLine loc with
  | none => false
  | some e => (List.range n).any (fun i => FMap.rd false e.bad ((loc + i) / 8) && (FMap.get e.bytes (loc + i)).isSome)

/-- The bytes of a range as a core's own reads see them: the homes', under what its write buffer holds (R351). -/
def State.seen (s : State) (core loc n : Nat) : List Byte :=
  (List.range n).map (fun i =>
    match ((s.core core).uoLine (loc + i)).bind (fun e => FMap.get e.bytes (loc + i)) with
    | some b => b
    | none => s.byteAt (loc + i))

/-- Whether each byte of a range is poisoned as a core's own reads see it. -/
def State.seenBad (s : State) (core loc n : Nat) : List Bool :=
  (List.range n).map (fun i =>
    if ((s.core core).uoLine (loc + i)).any (fun e => (FMap.get e.bytes (loc + i)).isSome) then (s.core core).uoBad (loc + i) 1
    else FMap.rd false s.poison ((loc + i) / 8))

/-- Lay bytes over a number. -/
def layOver (n v : Nat) (held : List (Nat × Byte)) : Nat :=
  natOfBytes (held.foldl (fun bs o => patch bs o.1 [o.2]) (bytesOf n v))

/-- Bytes as stores, each with whether it is poisoned: a whole word as one, so that it loses the poison it had (R208), or
brings its own (R310). -/
def wordStores (m : FMap Byte) (bad : Nat → Bool) : List Acc :=
  let op := fun (w : Nat) (v : Word) => if bad w then AccOp.storeBad v else .store v
  (dedup (m.map (fun e => e.1 / 8))).flatMap (fun w =>
    let bs := m.filter (fun e => decide (e.1 / 8 = w))
    if bs.length = 8 then [⟨32, 8 * w, 8, op w (BitVec.ofNat 64 (natOfBytes (bs.map (·.2)))), 0⟩]
    else bs.map (fun e => ⟨32, e.1, 1, op w (BitVec.ofNat 64 e.2.toNat), 0⟩))

/-- The bytes of a buffered line as stores. -/
def uoStores (e : UoLine) : List Acc := wordStores e.bytes (FMap.rd false e.bad)

/-- The write buffer sends one line to its home, for every split whose stores it holds (R304, R351). -/
def State.uoWrite (s : State) (gid core slack : Nat) (e : UoLine) : State :=
  let p := mkPacket gid 9 (corePort core) slack 0 (s.partOfGid gid) 5 (.req (uoStores e) none false false 2 false 0 0)
  s.send { p with owners := e.owners } (.cluster (clusterOf core)) (pathToSlice core (sliceOf (128 * e.line)))

/-- A buffered line takes the bytes of a store. -/
def UoLine.put (e : UoLine) (owner : Nat × Nat) (loc : Nat) (bs : List Byte) (bad : Bool) : UoLine :=
  let bytes := (bs.zip (List.range bs.length)).foldl (fun m b => FMap.put m (loc + b.2) b.1) e.bytes
  let words := (List.range (ceilDiv (loc % 8 + bs.length) 8)).map (fun i => loc / 8 + i)
  let marks := if bad then words.foldl (fun m w => FMap.put m w true) e.bad else clearPoison e.bad loc bs.length
  { e with bytes := bytes, bad := marks, owners := dedup (owner :: e.owners) }

/-- A UO store enters the write buffer of 32 lines; a full buffer writes its oldest line first (R304). The sector's guest
copy of the line goes (R308). -/
def State.uoStore (s : State) (gid tag core slack loc : Nat) (bs : List Byte) (bad : Bool) : State :=
  let k := s.core core
  let held := (k.uoLine loc).isSome
  let s := if held ∨ k.uo.length < 32 then s
    else match k.uo with
      | e :: es => (s.setCore core { k with uo := es }).uoWrite gid core slack e
      | [] => s
  let k := s.core core
  let put := fun e : UoLine => e.put (gid, tag) loc bs bad
  let uo := if held then k.uo.map (fun e => if e.line = loc / 128 then put e else e)
    else k.uo ++ [put ⟨loc / 128, [], [], []⟩]
  (s.setCore core ({ k with uo := uo }.l1Store loc bs)).dropGuest (sectorOf core) (loc / 128)

/-- Every line leaves the write buffer of a core (R304), for the draining split too: its drain completes when every line
that it writes has been performed (R351). -/
def State.uoDrain (s : State) (gid tag core slack : Nat) : State :=
  let k := s.core core
  k.uo.foldl (fun s e => s.uoWrite gid core slack { e with owners := (gid, tag) :: e.owners }) (s.setCore core { k with uo := [] })

/-- One line leaves the write buffer of a core. -/
def State.uoFlushLine (s : State) (gid core slack line : Nat) : State :=
  let k := s.core core
  (k.uo.filter (fun e => decide (e.line = line))).foldl (fun s e => s.uoWrite gid core slack e)
    (s.setCore core { k with uo := k.uo.filter (fun e => decide (e.line ≠ line)) })

/-! ### Requests -/

/-- One lane's access, translated: lane 32 stands for a control stream. -/
structure Req where
  lane : Nat
  idx : Nat
  va : Nat
  loc : Nat
  leaf : Word
  size : Nat
  op : AccOp
deriving DecidableEq, Repr

/-- The access is a plain load. -/
def AccOp.isLoad : AccOp → Bool
  | .load _ | .loadBad _ => true
  | _ => false

/-- The access is a plain store. -/
def AccOp.isStore : AccOp → Bool
  | .store _ | .storeBad _ => true
  | _ => false

/-- The access reaches storage p: a peer or host memory (R344). -/
def Req.storageP (r : Req) : Bool := decide (leafPeer r.leaf ≠ 0) || inHost r.loc

/-- The kind of an access (R352). -/
def Req.kind (r : Req) : Nat := accessKind r.leaf r.va

/-- The byte address by which an access is known at its home: its location; at a peer its virtual address. -/
def Req.spot (r : Req) : Nat := if leafPeer r.leaf = 0 then r.loc else r.va

/-- The line by which the coalescer gathers an access, through whatever leaf it goes (R209, R337): peer accesses go by their virtual
line. -/
def Req.line (r : Req) : Nat × Nat := (leafPeer r.leaf, r.spot / 128)

/-- The store accesses of one lane: whole where every byte is its own, else byte by byte. -/
def storeReqs (lane loc va size mask : Nat) (leaf v : Word) : List Req :=
  if mask = 2 ^ size - 1 then [⟨lane, 0, va, loc, leaf, size, .store v⟩]
  else (List.range size).filterMap (fun i =>
    if (mask >>> i) % 2 = 1 then some ⟨lane, 0, va + i, loc + i, leaf, 1, .store (v >>> (8 * i))⟩ else none)

/-- The stores of some lanes to one line: where they go through several leaves, a lane keeps the bytes that no higher lane writes
(R208, R337). -/
def ownBytes (rs : List Req) : List Req :=
  if rs.all (fun r => r.op.isStore && decide (some r.leaf = rs.head?.map (·.leaf))) then rs
  else rs.flatMap (fun r => match r.op with
    | .store v =>
      let mask := (List.range r.size).foldl (fun m i =>
        if rs.any (fun q => decide (r.lane < q.lane ∧ q.spot ≤ r.spot + i ∧ r.spot + i < q.spot + q.size)) then m else m + 2 ^ i) 0
      storeReqs r.lane r.loc r.va r.size mask r.leaf v
    | _ => [r])

/-- How the requests of one instruction are ordered, and by what they travel. `dove` is 1 in a dovetail run that holds
nothing back yet and 2 in one that does (R379). -/
structure How where
  slack : Nat
  order : Nat
  scope : Nat
  prom : Bool
  dove : Nat
deriving DecidableEq, Repr

/-- An access of one request packet. -/
def Req.acc (core : Core) (r : Req) : Acc :=
  let op := match r.op with
    | .load _ =>
      if r.kind = 2 ∧ leafPeer r.leaf = 0 then
        (if core.uoBad r.loc r.size then AccOp.loadBad (core.uoOver r.loc r.size) else .load (core.uoOver r.loc r.size))
      else .load []
    | o => o
  ⟨r.lane, r.spot, r.size, op, r.idx⟩

/-- A peer set: its devices, the primary first, and its TASID (R449). -/
def State.peerSet (s : State) (gid asid peer : Nat) : Option (List Nat × Nat) :=
  (s.spaceFor gid asid).map (fun sp =>
    let w := s.natAt (sp.psetb + 16 * (peer - 1)) 8
    let n := w / 2 ^ 48 % 4 + 1
    (([0, 12, 24, 36].map (fun sh => w / 2 ^ sh % 4096)).take n, s.natAt (sp.psetb + 16 * (peer - 1) + 8) 8 % 2 ^ 14))

/-- The device of a peer set that serves an access: the primary; for a load the replica of least HOPS, ties to the lower
position (R449). -/
def State.peerTarget (s : State) (gid asid peer : Nat) (load : Bool) : Nat :=
  match s.peerSet gid asid peer with
  | none => 0
  | some (devs, _) =>
    let hops : Nat → Nat := fun d => if d = s.mgmt.fid.toNat then 0 else
      match FMap.get s.routes d with | some (_, r) => fld r 0 4 | none => 16
    if load then (minBy (fun a b => decide (hops a < hops b)) devs).getD 0 else devs.headD 0

/-- The lanes of a request. -/
def accLanes (accs : List Acc) : Lanes := accs.foldl (fun m a => m ||| laneBit (if a.lane < 32 then a.lane else 0)) 0

/-- The access is an atomic. -/
def AccOp.isAtomic : AccOp → Bool
  | .atomic _ _ _ _ => true
  | _ => false

/-- Data flits of some accesses to one line (R316): a store's sectors, an atomic's operands, a compare value beside them. -/
def dataFlits (accs : List Acc) : Nat :=
  let sectors := popNat 4 (accs.foldl (fun m a => if a.op.isStore then m ||| sectorMask a.loc a.size else m) (0 : BitVec 4)).toNat
  let words := (accs.map (fun a => match a.op with
    | .atomic op _ _ _ => if op = 7 then 2 * a.size else a.size
    | _ => 0)).sum
  sectors + ceilDiv words 32

/-- Cut the atomics of one line into packets of at most 4 data flits, in ascending order of lanes (R316; log entry 87). -/
def flitChunks (accs : List Acc) : List (List Acc) :=
  let add := fun (cs : List (List Acc)) (a : Acc) => match cs with
    | c :: rest => if dataFlits (c ++ [a]) ≤ 4 then (c ++ [a]) :: rest else [a] :: cs
    | [] => [[a]]
  if accs.any (fun a => a.op.isAtomic) then (accs.foldl add []).reverse else [accs]

/-- What a store's leaving the core does inside it: the L1 line takes its bytes if it is present; an atomic's line goes
(R303). -/
def Core.l1Leave (k : Core) (accs : List Acc) : Core :=
  accs.foldl (fun k a => match a.op with
    | .store v | .storeBad v => k.l1Store a.loc (bytesOf a.size v.toNat)
    | .atomic _ _ _ _ => k.l1Drop (a.loc / 128)
    | .load _ | .loadBad _ => k) k

/-- The packet is held back at its core by a dovetail run (R379). -/
def Packet.heldBack (p : Packet) : Bool :=
  !p.inLink && !p.path.isEmpty && (match p.at_ with | .core _ => true | _ => false)

/-- A request of the core that touches the line is on its way (R348). -/
def State.requestsToLine (s : State) (core line : Nat) : Bool :=
  s.pkts.any (fun p => decide (coreOfGid p.2.gid = core) && decide (p.2.peer = 0) && !p.2.heldBack && (match p.2.body with
    | .req accs _ _ _ _ _ _ _ => accs.any (fun a => a.loc / 128 = line)
    | _ => false))

/-- The kind by which a request packet goes: SO where one of its accesses is; RC before UO, but for atomics, which follow the bytes of a
UO write buffer where one of them is UO (R351, R352). -/
def packetKind (rs : List Req) : Nat :=
  let has := fun n => rs.any (fun r => decide (r.kind = n))
  if has 1 then 1 else if has 2 ∧ (!has 0 ∨ rs.any (fun r => r.op.isAtomic)) then 2 else 0

/-- A store that enters the UO write buffer of its core (R304). -/
def Req.buffered (r : Req) : Bool := decide (r.kind = 2) && r.op.isStore && decide (leafPeer r.leaf = 0)

/-- A UO store of a split enters the write buffer. -/
def State.uoReq (s : State) (gid tag core slack : Nat) (r : Acc) : State :=
  match r.op with
  | .store v => s.uoStore gid tag core slack r.loc (bytesOf r.size v.toNat) false
  | .storeBad v => s.uoStore gid tag core slack r.loc (bytesOf r.size v.toNat) true
  | _ => s

/-- A request to the L1 that the line of the L1 answers. -/
def State.hitLine (s : State) (gid pid : Nat) (l : L1Line) (rs : List Req) : State :=
  let core := coreOfGid gid
  let k := s.core core
  let bit := fun r : Req => laneBit (if r.lane < 32 then r.lane else 0)
  let vals := rs.map (fun r => (r.lane, r.idx, BitVec.ofNat 64 (natOfBytes ((l.bytes.drop (r.loc % 128)).take r.size))))
  let bad := rs.foldl (fun m r => if r.kind = 2 ∧ k.uoBad r.loc r.size then m ||| bit r else m) 0
  let lanes := rs.foldl (fun m r => m ||| bit r) 0
  (s.l1Hit core l).updProducer gid pid (fun p => { p.gain vals lanes with poison := p.poison ||| bad })

/-- Requests of one line leave the core in packets. What a dovetail run holds back (`heldBack`) reaches the L1, and the write buffer's
line its home, when it leaves (R379). -/
def State.sendLine (s : State) (gid place : Nat) (pid : Option Nat) (how : How) (heldBack : Bool) (rs : List Req) : State :=
  match rs with
  | [] => s
  | r :: _ =>
    let core := coreOfGid gid
    let kind := packetKind rs
    let line := r.loc / 128
    let loads := rs.all (fun r => r.op.isLoad)
    let accs := rs.map (Req.acc (s.core core))
    let near := decide (leafPeer r.leaf = 0)
    let s := if near && !heldBack then s.setCore core ((s.core core).l1Leave accs) else s
    let s := if kind = 2 ∧ !loads ∧ near ∧ !heldBack then s.uoFlushLine gid core how.slack line else s
    let s := if loads ∨ !near then s else s.dropGuest (sectorOf core) line
    let guest := loads && !r.storageP && decide (how.dove ≠ 2) && rs.all (fun r => decide (r.kind = 0) && leafG r.leaf)
    let sec := sectorOf core
    let gsl := 8 * sec + channelOf (128 * line) % 8
    let held := guest && (s.l2Set gsl (setOf (128 * line))).any (fun l => l.guest && l.line = line)
    let path := if near then pathToSlice core (if held then gsl else sliceOf r.loc)
      else s.pathToPeer core (s.peerTarget gid (s.asidOfGid gid) (leafPeer r.leaf) loads) (r.va / 128)
    (flitChunks accs).foldl (fun s accs =>
      let body := Body.req accs pid (decide (kind = 1)) how.prom kind guest how.order how.scope
      let p := mkPacket gid place (corePort core) how.slack 0 (s.partOfGid gid) (1 + dataFlits accs) body
      let p := { p with peer := leafPeer r.leaf, rel := if 2 ≤ how.order then how.scope + 1 else 0 }
      if heldBack then s.send p (.core core) (.cluster (clusterOf core) :: path) else s.send p (.cluster (clusterOf core)) path) s

/-- The requests of one line leave the core (R209): loads that the L1 holds are served at once, unless a request of the core to the line
is still on its way, which may read a newer write (R348); UO stores enter the write buffer; everything else goes in packets
toward the home. -/
def State.issueLine (s : State) (gid place : Nat) (pid : Option Nat) (how : How) (rs : List Req) : State :=
  match rs with
  | [] => s
  | r :: _ =>
    let core := coreOfGid gid
    let line := r.loc / 128
    let loads := rs.all (fun r => r.op.isLoad)
    let near := !r.storageP && decide (packetKind rs ≠ 1 ∧ how.dove ≠ 2) && !s.requestsToLine core line
    let heldBack := decide (how.dove = 2) || (decide (how.dove = 1) && !loads)
    match (if loads && near then (s.core core).l1Find line else none), pid with
    | some l, some pid => s.hitLine gid pid l rs
    | _, _ =>
      let k := s.core core
      let uo := rs.filter Req.buffered
      let s := if heldBack then s.sendLine gid place pid how true uo
        else uo.foldl (fun s r => s.uoReq gid (s.tagOf gid place) core how.slack (r.acc k)) s
      s.sendLine gid place pid how heldBack (rs.filter (fun r => !r.buffered))

/-- The accesses of one instruction leave in ascending order of the lowest lane that touches each line (R209). -/
def State.issueAll (s : State) (gid place : Nat) (pid : Option Nat) (how : How) (rs : List Req) : State :=
  (dedup (rs.map Req.line)).foldl (fun s l => s.issueLine gid place pid how (ownBytes (rs.filter (fun r => decide (r.line = l))))) s

/-! ### Outstanding accesses -/

/-- The packet carries a request that no home has performed. -/
def Packet.asks (p : Packet) : Bool :=
  !p.heldBack && (match p.body with
    | .req _ _ _ _ _ _ _ _ => true
    | .put _ _ _ _ _ _ _ _ _ => true
    | _ => false)

/-- The packet carries a request, which no home has performed, that the program order of a split with these tags holds
(R340). -/
def Packet.pending (gid : Nat) (tags : List Nat) (p : Packet) : Bool := decide (p.gid = gid) && tags.contains p.tag && p.asks

/-- Some access of a split has not been performed at its home. -/
def State.outstanding (s : State) (gid place : Nat) : Bool := s.pkts.any (fun p => p.2.pending gid (s.tagsOf gid place))

/-- Some access that a run of the split has made has not been performed (R124). -/
def State.lanesOutstanding (s : State) (gid place : Nat) : Bool :=
  s.pkts.any (fun p => p.2.pending gid (s.tagsOf gid place) && (match p.2.body with
    | .req accs _ _ _ _ _ _ _ => accs.any (fun a => decide (a.lane < 32))
    | _ => false))

/-- Some line with a UO store of the split, or with bytes of its group's copies, is on its way to its home (R144, R351). -/
def State.uoOutstanding (s : State) (gid place : Nat) : Bool :=
  s.pkts.any (fun p => p.2.asks && p.2.owners.any (fun o => decide (o.1 = gid) && (decide (o.2 = 0) || (s.tagsOf gid place).contains o.2)))

/-- A copy of a group has not ended whose batch obeys `b`: bytes to move, or on their way to their home (R146, R357). -/
def State.copying (s : State) (gid : Nat) (b : Nat → Bool) : Bool :=
  (s.core (coreOfGid gid)).copies.any (fun c => decide (c.gid = gid) && b c.batch) ||
    s.pkts.any (fun p => decide (p.2.gid = gid ∧ p.2.batch ≠ 0) && b p.2.batch && p.2.asks)

/-- Some SO access of a split has not been performed (R350). -/
def State.soOutstanding (s : State) (gid place : Nat) : Bool :=
  s.pkts.any (fun p => p.2.pending gid (s.tagsOf gid place) && (match p.2.body with | .req _ _ so _ _ _ _ _ => so | _ => false))

/-- The entry waits for the end of the handler in progress (R374): its words do not wait for it (log entry 21). -/
def Group.inFrame (g : Group) (pid : Nat) (p : Producer) : Bool :=
  match g.handler with
  | some h => !p.sent && h.entries.contains pid
  | none => false

/-- An HPOP of a split has not read its slot (R342, R349). -/
def State.popping (s : State) (gid place : Nat) : Bool :=
  match FMap.get s.groups gid with
  | none => false
  | some g => g.replay.any (fun e => (s.tagsOf gid place).contains e.2.tag && (match e.2.kind with | .hpop _ _ _ => true | _ => false) &&
      decide (e.2.ready = 0 ∧ e.2.landed ||| e.2.sup ≠ e.2.mask) && !g.inFrame e.1 e.2)

/-- An acquiring atomic of a split has not read yet (R345). -/
def State.asksAcquire (s : State) (gid place : Nat) : Bool :=
  s.pkts.any (fun p => p.2.pending gid (s.tagsOf gid place) && (match p.2.body with
    | .req _ _ _ _ _ _ o _ => decide (o = 1 ∨ o = 3)
    | _ => false))

/-- An acquiring SATOM of a split has not read yet. It is the one acquire that a later control word follows: a lane's acquire
comes before no control word but those of R341's second item, which wait for all of the split's accesses (R341, R347, R349). -/
def State.wordAcquires (s : State) (gid place : Nat) : Bool :=
  s.pkts.any (fun p => p.2.pending gid (s.tagsOf gid place) && (match p.2.body with
    | .req accs _ _ _ _ _ o _ => decide (o = 1 ∨ o = 3) && accs.any (fun a => decide (32 ≤ a.lane))
    | _ => false))

/-- An acquire of a split has not read yet: an acquiring atomic, or an HPOP (R345, R349). -/
def State.acquiring (s : State) (gid place : Nat) : Bool := s.popping gid place || s.asksAcquire gid place

/-- A request of the core that touches the line is on its way and writes it. -/
def State.storesToLine (s : State) (core line : Nat) : Bool :=
  s.pkts.any (fun p => decide (coreOfGid p.2.gid = core) && decide (p.2.peer = 0) && (match p.2.body with
    | .req accs _ _ _ _ _ _ _ => accs.any (fun a => a.loc / 128 = line && !a.op.isLoad)
    | _ => false))

/-- A request of a crossbar sector that touches the line is on its way and writes it (R308, R348). -/
def State.sectorStores (s : State) (sector line : Nat) : Bool :=
  s.pkts.any (fun p => decide (sectorOf (coreOfGid p.2.gid) = sector) && decide (p.2.peer = 0) && (match p.2.body with
    | .req accs _ _ _ _ _ _ _ => accs.any (fun a => a.loc / 128 = line && !a.op.isLoad)
    | _ => false))

/-! ### Inside the core -/

/-- Bytes of a unit's scratchpad; granules that nothing has written hold 0 (log entry 1). -/
def UnitRec.scrAt (u : UnitRec) (o n : Nat) : Nat := natOfBytes ((List.range n).map (fun i => FMap.rd 0 u.scratch (o + i)))

/-- Write bytes to a unit's scratchpad; a word written whole loses its poison (R208, R210). -/
def UnitRec.scrPut (u : UnitRec) (o : Nat) (bs : List Byte) : UnitRec :=
  { u with scratch := (bs.zip (List.range bs.length)).foldl (fun m b => FMap.wr 0 m (o + b.2) b.1) u.scratch,
           scrPoison := clearPoison u.scrPoison o bs.length }

/-- A poisoned word of the scratchpad in a range. -/
def UnitRec.scrBad (u : UnitRec) (o n : Nat) : Bool :=
  (List.range (ceilDiv (o % 8 + n) 8)).any (fun i => FMap.rd false u.scrPoison (o / 8 + i))

/-- Bytes of the unit's scratchpad (R291). -/
def UnitRec.scrSize (u : UnitRec) : Nat := 3072 * u.scr

/-- Bytes of a lane's private window (R211, R294). -/
def Group.winAt (g : Group) (lane o n : Nat) : Nat :=
  natOfBytes ((List.range n).map (fun i => FMap.rd 0 g.win (2048 * lane + o + i)))

/-- Write bytes of a lane's private window; a word written whole loses its poison (R208, R310). -/
def Group.winPut (g : Group) (lane o : Nat) (bs : List Byte) : Group :=
  { g with win := (bs.zip (List.range bs.length)).foldl (fun m b => FMap.wr 0 m (2048 * lane + o + b.2) b.1) g.win,
           winBad := clearPoison g.winBad (2048 * lane + o) bs.length }

/-- A poisoned word of a lane's window in a range. -/
def Group.winPoisoned (g : Group) (lane o n : Nat) : Bool :=
  (List.range (ceilDiv (o % 8 + n) 8)).any (fun i => FMap.rd false g.winBad ((2048 * lane + o) / 8 + i))

/-- Change a unit. -/
def State.updUnit (s : State) (uid : Nat) (f : UnitRec → UnitRec) : State := { s with units := FMap.upd s.units uid f }

/-- Change a group. -/
def State.updGroup (s : State) (gid : Nat) (f : Group → Group) : State := { s with groups := FMap.upd s.groups gid f }

/-- One byte of CRC-32C, reflected (R379). -/
def crcByte (c : BitVec 32) (b : Byte) : BitVec 32 :=
  (List.range 8).foldl (fun c _ => if c.getLsbD 0 then (c >>> 1) ^^^ 0x82F63B78 else c >>> 1) (c ^^^ b.zeroExtend 32)

/-- One store of a signature: its address or offset, its size, its data (R379). -/
def crcStore (c : BitVec 32) (addr size v : Nat) : BitVec 32 :=
  (bytesOf 8 addr ++ bytesOf 1 size ++ bytesOf size v).foldl crcByte c

/-- Two's-complement reading of the low w bits. -/
def asInt (w : Nat) (v : Nat) : Int := sextNat w v

/-- The new value of an atomic on `w` bits (R107, R213): `ty` is 0 for unsigned or raw, 1 for signed, 8 and 9 for the
float types. -/
def atomicNew (op ty w old v cmp : Nat) : Nat :=
  let f := if ty = 8 then fmt64 else fmt32
  let flt := ty = 8 ∨ ty = 9
  match op with
  | 0 => if flt then round f 0 (Flt.add 0 (Flt.ofBits f old) (Flt.ofBits f v)) else (old + v) % 2 ^ w
  | 1 => old &&& v
  | 2 => old ||| v
  | 3 => old ^^^ v
  | 4 => if flt then selectBits f false old v
         else if ty = 1 then (if asInt w v < asInt w old then v else old) else min old v
  | 5 => if flt then selectBits f true old v
         else if ty = 1 then (if asInt w old < asInt w v then v else old) else max old v
  | 6 => v
  | 7 => if old = cmp then v else old
  | _ => old

end Sys2Proof.Machine
end

