-- ==== Sys2Proof/Machine/Regs.lean ====
section
/-! DEFINITION. The register files of R26 to R33: where each register stands and how it is read and written. -/

namespace Sys2Proof.Machine

/-! ### Groups and splits -/

/-- Put a group in its slot. -/
def State.putGroup (s : State) (gid : Nat) (g : Group) : State := { s with groups := FMap.put s.groups gid g }

/-- Change one split of a group. -/
def Group.updSplit (g : Group) (place : Nat) (f : Split → Split) : Group := { g with splits := FMap.upd g.splits place f }

/-- Change one split. -/
def State.updSplit (s : State) (gid place : Nat) (f : Split → Split) : State :=
  s.updGroup gid (fun g => g.updSplit place f)

/-- The key of the group that acts. -/
def State.gid (s : State) : Nat := gidOf s.cur.core s.cur.gslot

/-- The group and the split that act. -/
def State.actor (s : State) : Option (Group × Split) :=
  match FMap.get s.groups s.gid with
  | none => none
  | some g => match FMap.get g.splits s.cur.place with
    | none => none
    | some p => some (g, p)

/-- The copy of a dovetail pair that stands for it: the one on the lower-numbered core (R267, R379). -/
def State.lead (s : State) (uid : Nat) : Nat :=
  match (FMap.get s.units uid).bind (·.twin) with
  | some t => if (FMap.get s.units t).isSome ∧ t < uid then t else uid
  | none => uid

/-- The other copy of a group, if it can still go on (R379). -/
def State.doveTwin (s : State) (gid : Nat) : Option Nat :=
  match FMap.get s.groups gid with
  | none => none
  | some g =>
    match (FMap.get s.units g.uid).bind (·.twin) with
    | none => none
    | some t => (s.groups.find? (fun e => decide (e.2.uid = t ∧ e.2.idx = g.idx) && !e.2.halted)).map (·.1)

/-- The group is the copy that performs atomics and sends puts (R267, R379). -/
def State.doveLeads (s : State) (gid : Nat) : Bool := (s.doveTwin gid).all (fun t => decide (gid < t))

/-- The endpoint of a unit; of a pair, that of its lead (R151, R267). -/
def State.endpoint (s : State) (uid : Nat) : Word :=
  let lead := s.lead uid
  let gen := match FMap.get s.units lead with | some u => u.gen.toNat | none => 0
  BitVec.ofNat 64 (s.mgmt.fid.toNat * 2 ^ 52 + coreOfGid lead * 2 ^ 43 + lead % 64 * 2 ^ 37 + gen)

/-! ### Scalar registers (R26 to R28) -/

/-- The number selects KS0 to KS7 (R28). -/
def selKs (p : Split) (n : Nat) : Bool := p.sm && decide (56 ≤ n)

/-- The value of a scalar register: S0 reads 0 (R27). -/
def getS (g : Group) (p : Split) (n : Nat) (ks : Bool) : Word :=
  if n = 0 then 0 else if n < 48 then FMap.rd 0 g.s n else if ks then FMap.rd 0 p.ks (n - 56) else FMap.rd 0 p.s n

/-- The empty state of a scalar register. -/
def getSEmpty (g : Group) (p : Split) (n : Nat) (ks : Bool) : Bool :=
  if n = 0 then false else if n < 48 then FMap.rd false g.sEmpty n
  else if ks then FMap.rd false p.ksEmpty (n - 56) else FMap.rd false p.sEmpty n

/-- Write one of a split's own scalar registers. -/
def Split.setOwn (p : Split) (n : Nat) (ks : Bool) (v : Word) : Split :=
  if ks then { p with ks := FMap.wr 0 p.ks (n - 56) v } else { p with s := FMap.wr 0 p.s n v }

/-- Set the empty state of one of a split's own scalar registers. -/
def Split.setOwnEmpty (p : Split) (n : Nat) (ks e : Bool) : Split :=
  if ks then { p with ksEmpty := FMap.wr false p.ksEmpty (n - 56) e } else { p with sEmpty := FMap.wr false p.sEmpty n e }

/-- Write a scalar register: a write to S0 is discarded (R27). -/
def Group.setS (g : Group) (place n : Nat) (ks : Bool) (v : Word) : Group :=
  if n = 0 then g else if n < 48 then { g with s := FMap.wr 0 g.s n v }
  else g.updSplit place (fun p => p.setOwn n ks v)

/-- Set a scalar register's empty state; S0 is never empty. -/
def Group.setSEmpty (g : Group) (place n : Nat) (ks e : Bool) : Group :=
  if n = 0 then g else if n < 48 then { g with sEmpty := FMap.wr false g.sEmpty n e }
  else g.updSplit place (fun p => p.setOwnEmpty n ks e)

/-- A source register of the acting split (R28, R96). -/
def readS (g : Group) (p : Split) (n : BitVec 6) : Word := getS g p n.toNat (selKs p n.toNat)

/-- The source or destination is empty (R37). -/
def emptyS (g : Group) (p : Split) (n : BitVec 6) : Bool := getSEmpty g p n.toNat (selKs p n.toNat)

/-- Write a destination register of the acting split. -/
def State.writeS (s : State) (p : Split) (n : BitVec 6) (v : Word) : State :=
  s.updGroup s.gid (fun g => g.setS s.cur.place n.toNat (selKs p n.toNat) v)

/-- A destination that a divided group may not write (R27). -/
def sharedS (g : Group) (n : BitVec 6) : Bool := decide (1 ≤ n.toNat ∧ n.toNat ≤ 47 ∧ 1 < g.splits.length)

/-- S48 to S63 and KS0 to KS7 are all full (R27). -/
def Split.allFull (p : Split) : Bool := p.sEmpty.isEmpty && p.ksEmpty.isEmpty

/-! ### Lane registers (R26, R28, R31 to R33) -/

/-- Number `r` of a run names a register of the K bank (R28). -/
def selK (sup : Bool) (r : Nat) : Bool := sup && decide (216 ≤ r ∧ r < 232)

/-- V or K register `r` of a lane. -/
def Group.getV (g : Group) (sup : Bool) (r lane : Nat) : Word :=
  if selK sup r then FMap.rd 0 g.k (32 * (r - 216) + lane) else FMap.rd 0 g.v (32 * r + lane)

/-- The empty state of V or K register `r` of a lane. -/
def Group.emptyV (g : Group) (sup : Bool) (r lane : Nat) : Bool :=
  if selK sup r then FMap.rd false g.kEmpty (32 * (r - 216) + lane) else FMap.rd false g.vEmpty (32 * r + lane)

/-- A write of a V register makes its line dirty and written (R293). -/
def Group.touchLine (g : Group) (r : Nat) : Group :=
  { g with lines := FMap.put g.lines (r / 4) .dirty, written := FMap.wr false g.written (r / 4) true }

/-- Write V or K register `r` of a lane. -/
def Group.setV (g : Group) (sup : Bool) (r lane : Nat) (v : Word) : Group :=
  if selK sup r then { g with k := FMap.wr 0 g.k (32 * (r - 216) + lane) v }
  else { g with v := FMap.wr 0 g.v (32 * r + lane) v, vBad := FMap.del g.vBad (32 * r + lane) }.touchLine r

/-- Set the empty state of V or K register `r` of a lane. -/
def Group.setVEmpty (g : Group) (sup : Bool) (r lane : Nat) (e : Bool) : Group :=
  if selK sup r then { g with kEmpty := FMap.wr false g.kEmpty (32 * (r - 216) + lane) e }
  else { g with vEmpty := FMap.wr false g.vEmpty (32 * r + lane) e }

/-- Set the empty state of a register in several lanes. -/
def Group.setVEmptys (g : Group) (sup : Bool) (r : Nat) (lanes : Lanes) (e : Bool) : Group :=
  (lanesIn lanes).foldl (fun g l => g.setVEmpty sup r l e) g

/-- Predicate n of a lane: P0 reads 1 (R26). -/
def Group.getP (g : Group) (n lane : Nat) : Bool := if n = 0 then true else FMap.rd false g.p (32 * n + lane)

/-- Write a predicate: a write to P0 is discarded (R26). -/
def Group.setP (g : Group) (n lane : Nat) (v : Bool) : Group :=
  if n = 0 then g else { g with p := FMap.wr false g.p (32 * n + lane) v }

/-- LSTAT of a lane (R33). -/
def Group.getLstat (g : Group) (lane : Nat) : BitVec 5 := FMap.rd 0 g.lstat lane

/-- Replace LSTAT of a lane. -/
def Group.setLstat (g : Group) (lane : Nat) (v : BitVec 5) : Group := { g with lstat := FMap.wr 0 g.lstat lane v }

/-- Set sticky bits of LSTAT (R33). -/
def Group.stick (g : Group) (lane : Nat) (bits : BitVec 5) : Group := g.setLstat lane (g.getLstat lane ||| bits)

/-- LSTAT bits (R33). -/
def lsDZ : BitVec 5 := 1
def lsOV : BitVec 5 := 2
def lsQI : BitVec 5 := 4
def lsSD : BitVec 5 := 8
def lsLT : BitVec 5 := 16

/-- LATECNT counts a LATE reply, saturating (R99, R158, R215, R250). -/
def Group.countLate (g : Group) (late : Bool) : Group :=
  if late ∧ g.latecnt ≠ 0xFFFF_FFFF then { g with latecnt := g.latecnt + 1 } else g

/-- X register n (R109). -/
def Group.getX (g : Group) (n : Nat) : XReg := FMap.rd XReg.zero g.x n

/-- Write an X register. -/
def Group.setX (g : Group) (n : Nat) (x : XReg) : Group := { g with x := FMap.wr XReg.zero g.x n x }

/-! ### Context area, register lines (R292, R293, R370) -/

/-- Register lines of V registers in a group's image. -/
def UnitRec.vLines (u : UnitRec) : Nat := u.vregs / 4

/-- Register lines per group, Lg of R290. -/
def UnitRec.groupLines (u : UnitRec) : Nat := u.vregs / 4 + ceilDiv u.priv 32

/-- Groups placed with the unit: the launch's groups per unit. -/
def State.launchGroups (s : State) (u : UnitRec) : Nat := match s.launchOf u with | some l => fld l.cut 14 4 + 1 | none => 1

/-- Lines of the unit's register region (R291). -/
def State.regionLines (s : State) (u : UnitRec) : Nat := 3 * ceilDiv (s.launchGroups u * u.groupLines) 3

/-- CTXB: the register image of a group (R292, R370). -/
def State.ctxb (s : State) (gid : Nat) (g : Group) : Word :=
  let pool := match s.spaceFor gid (s.asidOf g) with | some a => a.ctxpool | none => 0
  pool + BitVec.ofNat 64 (0x80_0000 * (64 * coreOfGid gid + g.uid % 64) + 0x4_0000 * g.idx)

/-- TFRAME: the replay-queue frame of a group (R370). -/
def State.tframe (s : State) (gid : Nat) (g : Group) : Word := s.ctxb gid g + 0x2_0000

/-- The line as the image holds it: register V4j + i of lane l at 32l + 8i, or the window bytes (R292). -/
def Group.lineBytes (g : Group) (vLines j : Nat) : List Byte :=
  (laneList.map (fun l =>
    if j < vLines then ((List.range 4).map (fun i => bytesOf 8 (g.getV false (4 * j + i) l).toNat)).flatten
    else (List.range 32).map (fun b => FMap.rd 0 g.win (2048 * l + 32 * (j - vLines) + b)))).flatten

/-- The words of a line that are poisoned in the pool, by their place in its 128 words (R292, R310). -/
def Group.lineBad (g : Group) (vLines j : Nat) : List Nat :=
  (List.range 128).filter (fun w =>
    if j < vLines then FMap.rd false g.vBad (32 * (4 * j + w % 4) + w / 4)
    else FMap.rd false g.winBad (256 * (w / 4) + 4 * (j - vLines) + w % 4))

/-- A line leaves the pool, and the poison of its words with it. -/
def Group.dropLine (g : Group) (vLines j : Nat) : Group :=
  let inV := fun (k : Nat) => decide (j < vLines ∧ k / 128 = j)
  let inW := fun (k : Nat) => decide (vLines ≤ j ∧ k % 256 / 4 = j - vLines)
  { g with lines := FMap.del g.lines j, vBad := g.vBad.filter (fun e => !inV e.1), winBad := g.winBad.filter (fun e => !inW e.1) }

/-- Take a line's 1,024 bytes from the image. -/
def Group.takeLine (g : Group) (vLines j : Nat) (bs : List Byte) : Group :=
  laneList.foldl (fun g l =>
    let part := (bs.drop (32 * l)).take 32
    if j < vLines then (List.range 4).foldl (fun g i =>
      let v := BitVec.ofNat 64 (natOfBytes ((part.drop (8 * i)).take 8))
      { g with v := FMap.wr 0 g.v (32 * (4 * j + i) + l) v }) g
    else g.winPut l (32 * (j - vLines)) part) g

/-- Some register of the line is empty in some lane (R38). -/
def Group.lineEmpty (g : Group) (j : Nat) : Bool := g.vEmpty.any (fun e => e.1 / 128 = j && e.2)

/-- The lane-register lines that an instruction's numbers name (R293). -/
def lineOfReg (sup : Bool) (r : Nat) : Option Nat := if r < 216 ∨ (r < 232 ∧ !sup) then some (r / 4) else none

end Sys2Proof.Machine
end

