-- ==== Sys2Proof/Machine/Flags.lean ====
section
/-! DEFINITION. Conditions (R54), and the sticky bits that division and quads set in LSTAT (R33, R170, R203, R204). -/

namespace Sys2Proof.Machine

/-- An integer condition on `w`-bit numbers (R54); codes 10 to 15 never decode. -/
def intCond (code w a b : Nat) : Bool :=
  let x := sextNat w a
  let y := sextNat w b
  match code with
  | 0 => decide (a = b)
  | 1 => decide (a ≠ b)
  | 2 => decide (x < y)
  | 3 => decide (y ≤ x)
  | 4 => decide (x ≤ y)
  | 5 => decide (y < x)
  | 6 => decide (a < b)
  | 7 => decide (b ≤ a)
  | 8 => decide (a ≤ b)
  | 9 => decide (b < a)
  | _ => false

/-- An integer condition on scalar registers (R54, R100, R117). -/
def scalarCond (code : Nat) (a b : Word) : Bool := intCond code 64 a.toNat b.toNat

/-- A float condition (R54). -/
def floatCond (code : Nat) (f : Fmt) (a b : Nat) : Bool :=
  let x := Flt.ofBits f a
  let y := Flt.ofBits f b
  let uno := isNanBits f a || isNanBits f b
  match code with
  | 0 => !uno && Flt.eq x y
  | 1 => uno || !Flt.eq x y
  | 2 => !uno && Flt.lt x y
  | 3 => !uno && !Flt.lt x y
  | 4 => !uno && !Flt.lt y x
  | 5 => !uno && Flt.lt y x
  | 6 => !uno
  | 7 => uno
  | _ => false

/-- The LSTAT bits of a division of `w`-bit elements (R33, R170): by zero, or the most negative by −1. -/
def divBits (signed : Bool) (w a b : Nat) : BitVec 5 :=
  if b = 0 then lsDZ else if signed ∧ a = 2 ^ (w - 1) ∧ b = 2 ^ w - 1 then lsOV else 0

end Sys2Proof.Machine
end

