-- ==== Sys2Proof/WellFormed.lean ====
section
/-! DEFINITION. Which field values the spec gives a meaning (R43 and the entries): everything else is ILLEGAL. -/

namespace Sys2Proof

/-- What a register field of a lane instruction holds. -/
inductive FieldUse where
  /-- Not used: holds 0 (R43). -/
  | zero
  /-- One lane register (R31). -/
  | lane
  /-- A block of `n` consecutive lane registers (R222). -/
  | block (n : Nat)
  /-- A predicate, X register, hod or tile number below `n` (R192, R222). -/
  | small (n : Nat)
  /-- ZERO or Q0 to Q3 (R226). -/
  | zeroQ
  /-- Q0 to Q3 (R229). -/
  | snap
deriving DecidableEq, Repr

/-- The field rules of one lane instruction: `imm` tells that the entry gives imm32 a meaning of its own,
`noImm` that no source may name IMM (R32). -/
structure LaneRule where
  tys : List Nat
  d : FieldUse
  prod : Bool := false
  a : FieldUse := .zero
  b : FieldUse := .zero
  c : FieldUse := .zero
  rm : Bool := false
  sk : Bool := false
  md : Nat := 0
  imm : Bool := false
  noImm : Bool := false
  ok : LF → Bool := fun _ => true

/-- Type sets of R165 and R192. -/
def tyINT : List Nat := [0, 1, 2, 3, 4, 5, 6, 7]
def tySINT : List Nat := [1, 3, 5, 7]
def tyBIT : List Nat := [0, 1, 2, 3, 4, 5, 6, 7, 17]
def tyFLT : List Nat := [8, 9, 10, 11]
def tyF32 : List Nat := [9, 10, 11]
def tyBX : List Nat := [14, 15, 16]
def tyMOVE : List Nat := [0, 1, 2, 3, 4, 5, 6, 7, 8, 9, 10, 11, 12, 13, 14, 15, 16, 17]
def tySHFL : List Nat := [0, 1, 2, 3, 4, 5, 6, 7, 8, 9, 10, 11, 12, 13, 17]
/-- Matrix formats of R223. -/
def tyMAT : List Nat := [10, 11, 12, 13, 14, 15, 16]

/-- Elements of a register for a type code (R69). -/
def tyCount (ty : Nat) : Nat :=
  if ty = 0 ∨ ty = 1 ∨ ty = 8 ∨ ty = 17 then 1
  else if ty = 2 ∨ ty = 3 ∨ ty = 9 then 2
  else if ty = 4 ∨ ty = 5 ∨ ty = 10 ∨ ty = 11 then 4
  else if ty = 6 ∨ ty = 7 ∨ ty = 12 ∨ ty = 13 then 8
  else 1

/-- The type code names a float type. -/
def tyFloat (ty : Nat) : Bool := decide (8 ≤ ty ∧ ty ≤ 13)

/-- Magnitude planes of a BX format (R81). -/
def bxBits (ty : Nat) : Nat := if ty = 14 then 2 else if ty = 15 then 4 else 7

/-- Registers of an A row (R223). -/
def matRegs (ty : Nat) : Nat := if ty = 16 then 18 else if ty = 15 then 24 else 16

/-- Type codes whose conversion is exact (R181). -/
def cvtExact (s t : Nat) : Bool :=
  if s < 8 ∧ t < 8 then true
  else ((s = 10 ∨ s = 11) ∧ (t = 9 ∨ t = 8)) || (s = 9 ∧ t = 8) ||
    ((s = 12 ∨ s = 13) ∧ (t = 10 ∨ t = 11 ∨ t = 9 ∨ t = 8))

/-- The extra rules of CVT (R179). -/
def cvtOk (f : LF) : Bool :=
  let s := f.md.toNat % 32
  let t := f.ty.toNat
  let ns := tyCount s
  let nt := tyCount t
  decide (s < 14 ∧ s ≠ t ∧ f.imm.toNat < max ns nt / min ns nt) &&
    !(f.md.getLsbD 5 && tyFloat s && !tyFloat t) && !(decide (f.rm ≠ 0) && cvtExact s t)

/-- Causes that the table of R364 defines. -/
def causes : List Nat :=
  [0x01, 0x02, 0x03, 0x04, 0x05, 0x06, 0x07, 0x08, 0x10, 0x11, 0x12, 0x14, 0x15, 0x16, 0x17, 0x20, 0x21, 0x22,
   0x30, 0x31, 0x32, 0x33, 0x34, 0x35]

/-- The size field and the type agree (R205). -/
def sizeOk (f : LF) : Bool :=
  f.md.toNat % 4 = 0 || f.ty = 0 || f.ty = 1 || f.ty = 17

/-- The rules of ATOM and ATOMS (R212, R213); `g` for ATOM. -/
def atomOk (g : Bool) (f : LF) : Bool :=
  let op := f.md.toNat % 16
  let ord := f.md.toNat / 16
  decide (op ≤ 8) && !(tyFloat f.ty.toNat && (op = 1 || op = 2 || op = 3)) &&
    decide (f.imm.toNat / 2 ^ 29 ≤ 5) && decide (f.imm.toNat / 2 ^ 16 % 2 ^ 9 = 0) &&
    (ord ≠ 0 || f.imm.toNat / 2 ^ 25 = 0) &&
    (!f.imm.getLsbD 25 || (g && (ord = 1 || ord = 3)))

/-- SWZ: every selector below 2n and no bit above them (R184). -/
def swzOk (f : LF) : Bool :=
  let n := tyCount f.ty.toNat
  decide (f.imm.toNat < 2 ^ (4 * n)) &&
    (List.range n).all (fun j => decide (f.imm.toNat / 2 ^ (4 * j) % 16 < 2 * n))

/-- The column window of ACCRD and ACCWR (R235). -/
def colOk (f : LF) : Bool :=
  let w := if f.ty = 9 then 2 else if f.ty = 17 then 1 else 4
  decide (f.imm.toNat < 128 ∧ f.imm.toNat % (8 * w) = 0)

/-- Registers of the feature block of HGRID (R245). -/
def hgridRegs (f : LF) : Nat := ((f.md.toNat % 4 + 1) * 2 ^ (f.md.toNat / 4 % 4 + 1) + 3) / 4

/-- The field rules of each lane instruction: R167 to R190, R193 to R219, R226 to R248. -/
def laneRule : Instr → Option (LaneRule × LF)
  | .lAdd f | .lSub f | .lMul f => some ({ tys := tyINT, d := .lane, a := .lane, b := .lane, md := 1 }, f)
  | .lMulhi f => some ({ tys := tyINT, d := .lane, a := .lane, b := .lane }, f)
  | .lMad f => some ({ tys := tyINT, d := .lane, a := .lane, b := .lane, c := .lane, md := 1 }, f)
  | .lDiv f | .lRem f | .lMin f | .lMax f => some ({ tys := tyINT, d := .lane, a := .lane, b := .lane }, f)
  | .lAbs f | .lNeg f => some ({ tys := tySINT, d := .lane, a := .lane, md := 1 }, f)
  | .lAnd f | .lOr f | .lXor f | .lAndn f | .lShl f | .lShr f | .lSra f | .lRotl f | .lBfx f =>
      some ({ tys := tyBIT, d := .lane, a := .lane, b := .lane }, f)
  | .lPopc f | .lClz f | .lBrev f => some ({ tys := tyBIT, d := .lane, a := .lane }, f)
  | .lBfi f => some ({ tys := tyBIT, d := .lane, a := .lane, b := .lane, c := .lane }, f)
  | .lDot4 f => some (
    { tys := [4, 5, 6, 7, 10, 11], d := .lane, a := .lane, b := .lane, c := .lane,
      md := if tyFloat f.ty.toNat then 1 else 0 }, f)
  | .lFadd f | .lFsub f | .lFmul f | .lFdiv f | .lFldexp f =>
      some ({ tys := tyFLT, d := .lane, a := .lane, b := .lane, rm := true }, f)
  | .lFfma f => some ({ tys := tyFLT, d := .lane, a := .lane, b := .lane, c := .lane, rm := true }, f)
  | .lFmin f | .lFmax f => some ({ tys := tyFLT, d := .lane, a := .lane, b := .lane }, f)
  | .lFrcp f | .lFsqrt f | .lFrnd f => some ({ tys := tyFLT, d := .lane, a := .lane, rm := true }, f)
  | .lFrsq f | .lFexp2 f | .lFlog2 f | .lFsin f | .lFcos f => some ({ tys := tyF32, d := .lane, a := .lane }, f)
  | .lFfrac f => some ({ tys := tyFLT, d := .lane, a := .lane }, f)
  | .lCvt f => some (
    { tys := [0, 1, 2, 3, 4, 5, 6, 7, 8, 9, 10, 11, 12, 13], d := .lane, a := .lane,
      b := if tyCount (f.md.toNat % 32) < tyCount f.ty.toNat then .lane else .zero, rm := true, md := 63, imm := true, ok := cvtOk }, f)
  | .lPack f => some ({ tys := [0, 1, 2, 3, 4, 5], d := .lane, a := .lane, b := .lane, md := 1 }, f)
  | .lUnpk f => some ({ tys := [2, 3, 4, 5, 6, 7], d := .lane, a := .lane, md := 1 }, f)
  | .lSwz f => some (
    { tys := [2, 3, 4, 5, 6, 7, 8, 9, 10, 11, 12, 13], d := .lane, a := .lane,
      b := .lane, imm := true, ok := swzOk }, f)
  | .lBxq f => some ({ tys := tyBX, d := .lane, a := .lane, noImm := true }, f)
  | .lBxdq f => some (
    { tys := tyBX, d := .lane, a := .lane, md := 15, noImm := true,
      ok := fun f => decide (f.md.toNat ≤ bxBits f.ty.toNat) }, f)
  | .lBxexp f => some ({ tys := tyBX, d := .lane, a := .lane, noImm := true }, f)
  | .lBxalign f | .lBxnorm f => some ({ tys := tyBX, d := .lane, a := .lane, b := .lane, noImm := true }, f)
  | .lCmp f => some (
    { tys := tyINT, d := .small 8, a := .lane, b := .lane, md := 31,
      ok := fun f => decide (f.md.toNat % 16 ≤ 9) }, f)
  | .lFcmp f => some (
    { tys := tyFLT, d := .small 8, a := .lane, b := .lane, md := 31,
      ok := fun f => decide (f.md.toNat % 16 ≤ 7) }, f)
  | .lSel f => some ({ tys := tyMOVE, d := .lane, a := .lane, b := .lane, c := .small 8 }, f)
  | .lMov f => some ({ tys := tyMOVE, d := .lane, a := .lane }, f)
  | .lPand f | .lPor f | .lPxor f => some ({ tys := [0], d := .small 8, a := .small 8, b := .small 8, md := 3 }, f)
  | .lPset f => some ({ tys := [0], d := .small 8, a := .lane }, f)
  | .lPget f => some ({ tys := [0], d := .lane, a := .small 8 }, f)
  | .lShfl f => some ({ tys := tySHFL, d := .lane, a := .lane, b := .lane }, f)
  | .lShflx f => some (
    { tys := tySHFL, d := .lane, a := .lane, imm := true,
      ok := fun f => decide (f.imm.toNat < 32 * tyCount f.ty.toNat) }, f)
  | .lBcast f => some (
    { tys := tySHFL, d := .lane, a := .lane, imm := true,
      ok := fun f => decide (f.imm.toNat < 32) }, f)
  | .lBcastFirst f => some (
    { tys := tySHFL, d := .lane, a := .lane, md := 1, noImm := true,
      ok := fun f => decide (f.md = 1) }, f)
  | .lVote f => some ({ tys := [0], d := .lane, a := .small 8, md := 7 }, f)
  | .lMatch f => some ({ tys := tySHFL, d := .lane, a := .lane }, f)
  | .lReds f | .lScan f => some (
    { tys := tyINT ++ tyFLT, d := .lane, a := .lane, b := .lane, md := 7,
      ok := fun f => decide (f.md.toNat ≤ (if tyFloat f.ty.toNat then 2 else 5)) }, f)
  | .lDdx f | .lDdy f => some ({ tys := tyFLT, d := .lane, a := .lane, rm := true, md := 1 }, f)
  | .lQswap f => some (
    { tys := tyMOVE, d := .lane, a := .lane, md := 3,
      ok := fun f => decide (f.md.toNat ≤ 2) }, f)
  | .lLd f => some (
    { tys := tyMOVE, d := .lane, prod := true, a := .lane, b := .small 8, sk := true, md := 3,
      imm := true, ok := sizeOk }, f)
  | .lLdPlanes f => some (
    { tys := tyBX, d := .lane, prod := true, a := .lane, b := .small 8, sk := true, md := 60,
      imm := true, ok := fun f => decide (f.md.toNat / 4 % 2 = 1 ∧ f.md.toNat / 8 ≤ bxBits f.ty.toNat) }, f)
  | .lSt f => some (
    { tys := tyMOVE, d := .zero, a := .lane, b := .small 8, c := .lane, sk := true, md := 3,
      imm := true, ok := sizeOk }, f)
  | .lLds f | .lLdp f => some (
    { tys := tyMOVE, d := .lane, prod := true, a := .lane, md := 3, imm := true,
      ok := sizeOk }, f)
  | .lSts f | .lStp f => some (
    { tys := tyMOVE, d := .zero, a := .lane, c := .lane, md := 3, imm := true,
      ok := sizeOk }, f)
  | .lAtom f => some (
    { tys := [0, 1, 17, 8, 2, 3, 9], d := .lane, prod := true, a := .lane, b := .small 8,
      c := .lane, sk := true, md := 63, imm := true, ok := atomOk true }, f)
  | .lAtoms f => some (
    { tys := [0, 1, 17, 8, 2, 3, 9], d := .lane, prod := true, a := .lane, c := .lane, md := 63,
      imm := true, ok := atomOk false }, f)
  | .lHpush f => some ({ tys := [0], d := .zero, b := .small 16, c := .lane, md := 1, imm := true }, f)
  | .lHpop f => some ({ tys := [0], d := .lane, prod := true, b := .small 16, md := 1, imm := true }, f)
  | .lTrapif f => some (
    { tys := [0], d := .zero, a := .lane, md := 1, imm := true,
      ok := fun f => causes.contains (f.imm.toNat % 256) && decide (f.imm.toNat % 256 ≠ 0x30 ∧
      f.imm.toNat % 256 ≠ 0x33 ∧ f.imm.toNat / 2 ^ 24 = 0) }, f)
  | .lLnop f => some ({ tys := [0], d := .zero, imm := true, ok := fun f => decide (f.imm.toNat < 16) }, f)
  | .lWld f | .lWlds f => some ({ tys := tyMAT, d := .zero, a := .zeroQ, md := 3, imm := true }, f)
  | .lMma f | .lMmas f => some (
    { tys := tyMAT, d := .small 16, a := .block (matRegs f.ty.toNat),
      c := if f.md.toNat / 4 % 4 = 2 then .snap else .zero, md := 31 }, f)
  | .lAccz f => some ({ tys := [0], d := .small 16 }, f)
  | .lAccrd f => some (
    { tys := [9, 10, 11, 17], d := .block 8, prod := true, a := .small 16, rm := true, imm := true,
      ok := colOk }, f)
  | .lAccwr f => some ({ tys := [9, 10, 11, 17], d := .small 16, a := .block 8, imm := true, ok := colOk }, f)
  | .lTrace f => some ({ tys := [17], d := .block 4, prod := true, a := .block 4, b := .lane, sk := true, md := 15 }, f)
  | .lResumeReject f => some ({ tys := [17], d := .zero, a := .block 4, sk := true }, f)
  | .lResumeAccept f => some (
    { tys := [17], d := .zero, a := .block 4, sk := true, md := 1,
      ok := fun f => decide (f.md = 1) }, f)
  | .lResumeEnd f => some (
    { tys := [17], d := .zero, a := .block 4, sk := true, md := 2,
      ok := fun f => decide (f.md = 2) }, f)
  | .lHitget f => some ({ tys := [17], d := .block 4, prod := true, a := .block 4 }, f)
  | .lSample f => some (
    { tys := [9], d := if f.md.getLsbD 3 then .block 2 else .lane, prod := true, a := .lane,
      b := .lane, c := .lane, sk := true, md := 15,
      ok := fun f => decide (f.md.toNat % 4 ≠ 3 ∧ f.a ≠ 255 ∧ f.b ≠ 255) }, f)
  | .lHgrid f => some (
    { tys := [11], d := .block (hgridRegs f), prod := true, a := .block 2, c := .lane, sk := true,
      md := 15, imm := true, ok := fun f => decide (f.md.toNat / 4 ≠ 3 ∧ f.imm.toNat < 16) }, f)
  | .lRcqt f => some (
    { tys := [11], d := .block (if f.imm.getLsbD 4 then 3 else 2), prod := true,
      a := .block (f.md.toNat / 4 + 1), c := .block 2, sk := true, md := 63, imm := true,
      ok := fun f => decide (f.imm.toNat < 32) }, f)
  | _ => none

/-- A block of `n` registers that begins at `r` stays within V and K, or within T (R222). -/
def blockOk (n r : Nat) : Bool :=
  if n ≤ 1 then decide (r < 251) else decide (r + n ≤ 232) || decide (232 ≤ r ∧ r + n ≤ 240)

/-- A destination field (R31, R222). A producer's number from 240 to 250 is left to BADRUN (R22). -/
def destOk (prod : Bool) : FieldUse → Nat → Bool
  | .zero, r => decide (r = 0)
  | .lane, r => if prod then decide (r < 251) else decide (r < 240 ∨ r = 244 ∨ r = 249)
  | .block n, r => blockOk n r
  | .small n, r => decide (r < n)
  | .zeroQ, r => decide (240 ≤ r ∧ r ≤ 244)
  | .snap, r => decide (240 ≤ r ∧ r ≤ 243)

/-- A source field with its fe bit; `imm` allows IMM (R31, R32, R36). -/
def srcOk (imm fe : Bool) : FieldUse → Nat → Bool
  | .zero, r => decide (r = 0) && !fe
  | .lane, r => (decide (r < 251) || (imm && decide (r = 255))) && (!fe || decide (r < 232))
  | .block n, r => blockOk n r && (!fe || decide (r < 232))
  | .small n, r => decide (r < n) && !fe
  | .zeroQ, r => decide (240 ≤ r ∧ r ≤ 244) && !fe
  | .snap, r => decide (240 ≤ r ∧ r ≤ 243) && !fe

/-- The field rules of R43 for a lane instruction. -/
def laneOk (u : LaneRule) (f : LF) : Bool :=
  let immOk := !u.imm && !u.noImm
  u.tys.contains f.ty.toNat && destOk u.prod u.d f.d.toNat &&
    srcOk immOk (f.fe.getLsbD 2) u.a f.a.toNat && srcOk immOk (f.fe.getLsbD 1) u.b f.b.toNat &&
    srcOk immOk (f.fe.getLsbD 0) u.c f.c.toNat &&
    (u.rm || decide (f.rm = 0)) && (u.sk || decide (f.sk = 0)) && decide (f.md.toNat &&& u.md = f.md.toNat) &&
    (u.imm || decide (f.imm = 0) || ((u.a = .lane && f.a = 255) || (u.b = .lane && f.b = 255) ||
      (u.c = .lane && f.c = 255))) &&
    u.ok f

/-- The field rules of R43 for a control-stream instruction: the limits of R40, R41, R100 to R164. -/
def controlOk : Instr → Bool
  | .cScmp _ _ _ c => decide (c.toNat ≤ 9)
  | .cSshli _ _ n | .cSshri _ _ n | .cSsrai _ _ n => decide (n.toNat < 64)
  | .cScmpi _ _ c _ => decide (c.toNat ≤ 9)
  | .cSatom _ _ _ _ o => decide (o.toNat ≤ 9)
  | .cXlat d _ _ | .cXlatW d _ _ | .cXfree d => decide (d.toNat ≤ 7)
  | .cBra _ c _ => decide (c.toNat ≤ 9)
  | .cBral _ c _ _ => decide (c.toNat ≤ 9)
  | .cFn _ p v => decide (p.toNat ≤ 256 ∧ v.toNat ≤ 25)
  | .cRunp p _ _ => decide (p ≠ 0)
  | .cFence r k p g l s => decide (s.toNat ≤ 5 ∧ k ≠ 3) && (p = 1 || g = 1 || l = 1) && (r = 0 || g = 1)
  | .cCpy _ _ b _ t => t = 0 || decide (b.toNat % 2 = 0 ∧ b.toNat < 62)
  | .cHinit _ _ h => decide (h.toNat < 16)
  | .cHbindOff i o _ | .cHbindGather i o _ | .cHbindRaster i o _ => decide (i.toNat < 16 ∧ o.toNat < 16)
  | .cRcstep b _ => decide (b ≠ 0)
  | _ => true

/-- A place of the device exists (R1, R316). -/
def placeOk : Place → Bool
  | .cluster n | .rca n | .raster n => decide (n < Config.nClusters)
  | .sector n => decide (n < 6)
  | .stop n => decide (n < Config.ringStops)
  | .hub n => decide (n < 2)
  | .slice n => decide (n < 48)
  | .sill n => decide (n < 12)
  | .core n => decide (n < Config.nCores)
  | .futas n => decide (n < 64)
  | .host => true

/-- A budgeted resource of a partition exists (R1, R324). -/
def budgetOk : BudgetSite → Bool
  | .net c p => decide (c < Config.nClusters ∧ p < 24)
  | .hbm k p => decide (k < 12 ∧ p < 24)

/-- A storage element that an error may hit exists (R1, R295, R310). -/
def errSiteOk : ErrSite → Bool
  | .scratch c u _ | .tile c u _ => decide (c < Config.nCores ∧ u < Config.slotsPerCore)
  | .l1 c _ => decide (c < Config.nCores)
  | .line c g l _ | .window c g l _ => decide (c < Config.nCores ∧ g < Config.slotsPerCore ∧ l < 32)
  | .guest k _ => decide (k < 48)
  | .control c g _ | .shadow c g _ => decide (c < Config.nCores ∧ g < Config.slotsPerCore)
  | .l2 w => decide (8 * w < Config.physEnd)
  | .hbm sector n => decide (32 * sector < Config.hbmBytes ∧ n ≤ 32)

/-- A request of a peer has identities, an address space and a slack that exist (R1, R318, R448). -/
def peerOk (r : PeerReq) : Bool := decide (r.fid < 4096 ∧ r.dev < 4096 ∧ r.tasid < 16384 ∧ r.slack < 4096)

/-- Core numbers, slots, stacks, banks, clusters, switches, ports and partitions of an event exist (R1, R265, R295, R442). -/
def eventOk : Instr → Bool
  | .evBankLoad c b | .evBankRelatch c b => decide (c < Config.nCores ∧ b < 2)
  | .evMatrixAccept c | .evLaneSlotSelect c | .evCopyPiece c | .evGatherFiring c | .evIssueBudgetPeriod c =>
      decide (c < Config.nCores)
  | .evProducerResultLands c g _ | .evRegisterLineFill c g _ | .evDeferredTrapEntry c g | .evCancelledEntry c g |
    .evPreemptEntry c g | .evDebugStop c g | .evDebugRelease c g |
    .evDebugRegisterWrite c g _ _ _ =>
      decide (c < Config.nCores ∧ g < Config.slotsPerCore)
  | .evDebugRegisterRead c g _ l => decide (c < Config.nCores ∧ g < Config.slotsPerCore ∧ l < 32)
  | .evCandidateOverdue c g p _ | .evYieldExpiry c g p => decide (c < Config.nCores ∧ g < Config.slotsPerCore ∧ p < 4)
  | .evUnitPlacement p | .evShadowSave p | .evPreSave _ p | .evPreRestore _ p => decide (p < 24)
  | .evPageWalk c a _ _ _ => decide (c < Config.nClusters ∧ a < 16384)
  | .evRasterFiring c => decide (c < Config.nClusters)
  | .evTraversalPipeSelect s p | .evTreeletVisit s p => decide (s < 12 ∧ p < 16)
  | .evFilterRequest s | .evHbmRequestServe s | .evPatrolScrub s | .evRefresh s _ | .evStackTemperatureReport s _ |
    .evRayStepBudgetPeriod s => decide (s < 12)
  | .evRcaBatch c n => decide (c < Config.nClusters ∧ n < 4)
  | .evSanderStep d => decide (d < 2)
  | .evSanderPublication p n => decide (p < 24 ∧ n < 4)
  | .evFutasPacketCross p _ | .evFutasDetect p | .evFutasLaneLock p | .evFutasLaneLockTimeout p |
    .evFutasEqualisation p _ | .evFutasDeskew p _ | .evFutasReplayLimit p |
    .evFutasBudgetPeriod p => decide (p < 64)
  | .evFutasExchange p f o _ => decide (p < 64 ∧ f < 4096 ∧ o.depths.length = 4)
  | .evSwitchArbitration sw out | .evBraceIdleTimeout sw out => placeOk sw && placeOk out
  | .evSlackTick at_ => placeOk at_
  | .evMemoryBudgetPeriod b => budgetOk b
  | .evDoubleBitError e _ => errSiteOk e
  | .evPeerRequest r => peerOk r
  | _ => true

/-- The instruction is a lane instruction. -/
def isLane (i : Instr) : Bool := (laneRule i).isSome

/-- Every field holds a value that the spec gives a meaning. -/
def wellFormed (i : Instr) : Bool :=
  match laneRule i with
  | some (u, f) => laneOk u f
  | none => controlOk i && eventOk i

/-- The instruction as one that the spec gives a meaning. -/
abbrev WellFormed (i : Instr) : Prop := wellFormed i = true

end Sys2Proof
end

