-- ==== Sys2Proof/Decode.lean ====
section
/-! DEFINITION. Decoding (R39 to R43, R65 to R68) and, after it, the encoder written from the same layouts. -/

namespace Sys2Proof

/-- The `n` bits of `w` from bit `lo` up, as a number (R5). -/
def fieldAt (w lo n : Nat) : Nat := w / 2 ^ lo % 2 ^ n

/-- The `n` bits of `w` from bit `lo` up, as a field. -/
def bits (w lo n : Nat) : BitVec n := BitVec.ofNat n (w / 2 ^ lo)

/-- The literal word of a long form (R39). -/
def lit32 (lit : Nat) : BitVec 32 := BitVec.ofNat 32 lit

/-- The C-code opcodes 0x00 to 0x2F of R65. -/
def rawArith (op w : Nat) : Option Instr :=
  match op with
  | 0x00 => if fieldAt w 0 6 = 0 then some (.cSadd (bits w 18 6) (bits w 12 6) (bits w 6 6))
    else none
  | 0x01 => if fieldAt w 0 6 = 0 then some (.cSsub (bits w 18 6) (bits w 12 6) (bits w 6 6))
    else none
  | 0x02 => if fieldAt w 0 6 = 0 then some (.cSmul (bits w 18 6) (bits w 12 6) (bits w 6 6))
    else none
  | 0x03 => if fieldAt w 0 6 = 0 then some (.cSmulhi (bits w 18 6) (bits w 12 6) (bits w 6 6))
    else none
  | 0x04 => if fieldAt w 0 6 = 0 then some (.cSmulhn (bits w 18 6) (bits w 12 6) (bits w 6 6))
    else none
  | 0x05 => if fieldAt w 0 6 = 0 then some (.cSdiv (bits w 18 6) (bits w 12 6) (bits w 6 6))
    else none
  | 0x06 => if fieldAt w 0 6 = 0 then some (.cSdivn (bits w 18 6) (bits w 12 6) (bits w 6 6))
    else none
  | 0x07 => if fieldAt w 0 6 = 0 then some (.cSrem (bits w 18 6) (bits w 12 6) (bits w 6 6))
    else none
  | 0x08 => if fieldAt w 0 6 = 0 then some (.cSremn (bits w 18 6) (bits w 12 6) (bits w 6 6))
    else none
  | 0x09 => if fieldAt w 0 6 = 0 then some (.cSand (bits w 18 6) (bits w 12 6) (bits w 6 6))
    else none
  | 0x0A => if fieldAt w 0 6 = 0 then some (.cSor (bits w 18 6) (bits w 12 6) (bits w 6 6))
    else none
  | 0x0B => if fieldAt w 0 6 = 0 then some (.cSxor (bits w 18 6) (bits w 12 6) (bits w 6 6))
    else none
  | 0x0C => if fieldAt w 0 6 = 0 then some (.cSandn (bits w 18 6) (bits w 12 6) (bits w 6 6))
    else none
  | 0x0D => if fieldAt w 0 6 = 0 then some (.cSshl (bits w 18 6) (bits w 12 6) (bits w 6 6))
    else none
  | 0x0E => if fieldAt w 0 6 = 0 then some (.cSshr (bits w 18 6) (bits w 12 6) (bits w 6 6))
    else none
  | 0x0F => if fieldAt w 0 6 = 0 then some (.cSsra (bits w 18 6) (bits w 12 6) (bits w 6 6))
    else none
  | 0x10 => if fieldAt w 0 6 = 0 then some (.cSmin (bits w 18 6) (bits w 12 6) (bits w 6 6))
    else none
  | 0x11 => if fieldAt w 0 6 = 0 then some (.cSmax (bits w 18 6) (bits w 12 6) (bits w 6 6))
    else none
  | 0x12 => if fieldAt w 0 6 = 0 then some (.cSminn (bits w 18 6) (bits w 12 6) (bits w 6 6))
    else none
  | 0x13 => if fieldAt w 0 6 = 0 then some (.cSmaxn (bits w 18 6) (bits w 12 6) (bits w 6 6))
    else none
  | 0x14 => some (.cScmp (bits w 18 6) (bits w 12 6) (bits w 6 6) (bits w 0 6))
  | 0x15 => some (.cSsel (bits w 18 6) (bits w 12 6) (bits w 6 6) (bits w 0 6))
  | 0x16 => if fieldAt w 0 12 = 0 then some (.cSmov (bits w 18 6) (bits w 12 6))
    else none
  | 0x17 => if fieldAt w 0 12 = 0 then some (.cSpopc (bits w 18 6) (bits w 12 6))
    else none
  | 0x18 => if fieldAt w 0 12 = 0 then some (.cSclz (bits w 18 6) (bits w 12 6))
    else none
  | 0x19 => some (.cSbfx (bits w 18 6) (bits w 12 6) (bits w 6 6) (bits w 0 6))
  | 0x1A => some (.cSbfi (bits w 18 6) (bits w 12 6) (bits w 6 6) (bits w 0 6))
  | 0x20 => some (.cSaddi (bits w 18 6) (bits w 12 6) (bits w 0 12))
  | 0x21 => some (.cSandi (bits w 18 6) (bits w 12 6) (bits w 0 12))
  | 0x22 => some (.cSori (bits w 18 6) (bits w 12 6) (bits w 0 12))
  | 0x23 => some (.cSxori (bits w 18 6) (bits w 12 6) (bits w 0 12))
  | 0x24 => some (.cSshli (bits w 18 6) (bits w 12 6) (bits w 0 12))
  | 0x25 => some (.cSshri (bits w 18 6) (bits w 12 6) (bits w 0 12))
  | 0x26 => some (.cSsrai (bits w 18 6) (bits w 12 6) (bits w 0 12))
  | 0x27 => some (.cScmpi (bits w 18 6) (bits w 12 6) (bits w 8 4) (bits w 0 8))
  | 0x28 => some (.cSmovi (bits w 18 6) (bits w 0 18))
  | _ => none

/-- The C-code opcodes 0x40 to 0x5F of R65. -/
def rawMem (op w : Nat) : Option Instr :=
  match op with
  | 0x40 => some (.cSld (bits w 18 6) (bits w 12 6) (bits w 0 12))
  | 0x41 => some (.cSst (bits w 18 6) (bits w 12 6) (bits w 0 12))
  | 0x42 => some (.cSatom (bits w 18 6) (bits w 12 6) (bits w 6 6) (bits w 4 2) (bits w 0 4))
  | 0x43 => if fieldAt w 0 6 = 0 then some (.cSfrom (bits w 18 6) (bits w 12 6) (bits w 6 6))
    else if fieldAt w 0 12 = 1 then some (.cSfromFirst (bits w 18 6) (bits w 12 6))
    else none
  | 0x50 => if fieldAt w 0 6 = 0 then some (.cXlat (bits w 18 6) (bits w 12 6) (bits w 6 6))
    else if fieldAt w 0 6 = 1 then some (.cXlatW (bits w 18 6) (bits w 12 6) (bits w 6 6))
    else none
  | 0x51 => if fieldAt w 0 18 = 0 then some (.cXfree (bits w 18 6))
    else none
  | 0x52 => if fieldAt w 18 6 = 0 then some (.cPrefL2 (bits w 12 6) (bits w 0 12))
    else if fieldAt w 18 6 = 1 then some (.cPrefL1 (bits w 12 6) (bits w 0 12))
    else none
  | 0x53 => if fieldAt w 0 6 = 0 then some (.cPin (bits w 18 6) (bits w 12 6) (bits w 6 6))
    else none
  | 0x54 => if fieldAt w 0 6 = 0 then some (.cUnpin (bits w 18 6) (bits w 12 6) (bits w 6 6))
    else none
  | 0x55 => if fieldAt w 0 24 = 0 then some (.cGuestinv)
    else none
  | _ => none

/-- The C-code opcodes 0x60 to 0x7F and 0xE0 to 0xEF of R65. -/
def rawFlow (op w lit : Nat) : Option Instr :=
  match op with
  | 0x60 => some (.cBra (bits w 18 6) (bits w 14 4) (bits w 0 14))
  | 0x61 => some (.cB (bits w 23 1) (bits w 0 23))
  | 0x62 => if fieldAt w 15 3 = 0 ∧ fieldAt w 22 2 = 0 then some (.cBdiv (bits w 21 1) (bits w 18 3) (bits w 14 1) (bits w 0 14))
    else none
  | 0x63 => if fieldAt w 14 10 = 0 then some (.cJset (bits w 0 14))
    else none
  | 0x64 => if fieldAt w 0 24 = 0 then some (.cJoin)
    else none
  | 0x65 => if fieldAt w 14 10 = 0 then some (.cJbrk (bits w 0 14))
    else none
  | 0x66 => some (.cCall (bits w 0 24))
  | 0x67 => if fieldAt w 0 12 = 0 ∧ fieldAt w 18 6 = 0 then some (.cCalli (bits w 12 6))
    else none
  | 0x68 => if fieldAt w 0 12 = 0 ∧ fieldAt w 18 6 = 0 then some (.cCallv (bits w 12 6))
    else none
  | 0x69 => if fieldAt w 0 12 = 0 ∧ fieldAt w 18 6 = 0 then some (.cRet (bits w 12 6))
    else none
  | 0x6A => if fieldAt w 5 9 = 0 then some (.cFn (bits w 23 1) (bits w 14 9) (bits w 0 5))
    else none
  | 0x6B => if fieldAt w 0 24 = 0 then some (.cExit)
    else none
  | 0x6C => if fieldAt w 0 24 = 0 then some (.cYield)
    else none
  | 0x6D => if fieldAt w 0 24 = 0 then some (.cNop)
    else none
  | 0x6E => if fieldAt w 22 2 = 0 then some (.cRun (bits w 4 18) (bits w 0 4))
    else none
  | 0x6F => some (.cRunp (bits w 21 3) (bits w 4 17) (bits w 0 4))
  | 0x70 => if fieldAt w 0 24 = 0 then some (.cWaitf)
    else if fieldAt w 0 12 = 1 ∧ fieldAt w 18 6 = 0 then some (.cWaitfV (bits w 12 6))
    else none
  | 0xE0 => if fieldAt w 12 6 = 0 ∧ fieldAt w 0 12 = 0 then some (.cSlit (bits w 18 6) (lit32 lit))
    else if fieldAt w 0 12 = 1 then some (.cSlitHi (bits w 18 6) (bits w 12 6) (lit32 lit))
    else none
  | 0xE1 => if fieldAt w 18 6 = 0 ∧ fieldAt w 5 7 = 0 then some (.cBral (bits w 12 6) (bits w 0 4) (bits w 4 1) (lit32 lit))
    else none
  | 0xE2 => if fieldAt w 0 24 = 0 then some (.cCalll (lit32 lit))
    else none
  | _ => none

/-- The C-code opcodes 0x80 to 0x8F of R65. -/
def rawWork (op w : Nat) : Option Instr :=
  match op with
  | 0x80 => some (.cSpawn (bits w 18 6) (bits w 12 6) (bits w 0 12))
  | 0x81 => if fieldAt w 0 6 = 0 then some (.cLaunch (bits w 18 6) (bits w 12 6) (bits w 6 6))
    else if fieldAt w 0 6 = 1 then some (.cLaunchGraph (bits w 18 6) (bits w 12 6) (bits w 6 6))
    else if fieldAt w 0 6 = 2 then some (.cLaunchPhase (bits w 18 6) (bits w 12 6) (bits w 6 6))
    else none
  | 0x82 => if fieldAt w 0 24 = 0 then some (.cTrigger)
    else none
  | 0x83 => if fieldAt w 0 12 = 0 then some (.cCancel (bits w 18 6) (bits w 12 6))
    else if fieldAt w 0 12 = 1 then some (.cCancelGraph (bits w 18 6) (bits w 12 6))
    else if fieldAt w 0 12 = 2 then some (.cCancelPhase (bits w 18 6) (bits w 12 6))
    else if fieldAt w 0 12 = 3 then some (.cCancelJob (bits w 18 6) (bits w 12 6))
    else none
  | 0x84 => if fieldAt w 0 24 = 0 then some (.cBaru)
    else none
  | 0x85 => if fieldAt w 0 24 = 0 then some (.cBarg)
    else none
  | 0x86 => if fieldAt w 0 6 = 0 then some (.cArrive (bits w 18 6) (bits w 12 6) (bits w 6 6))
    else none
  | 0x87 => if fieldAt w 0 6 = 0 ∧ fieldAt w 18 6 = 0 then some (.cAwait (bits w 12 6) (bits w 6 6))
    else none
  | 0x88 => if fieldAt w 9 15 = 0 then some (.cFence (bits w 8 1) (bits w 6 2) (bits w 5 1) (bits w 4 1) (bits w 3 1) (bits w 0 3))
    else none
  | 0x89 => if fieldAt w 3 3 = 0 then some (.cCpy (bits w 18 6) (bits w 12 6) (bits w 6 6) (bits w 1 2) (bits w 0 1))
    else none
  | 0x8A => if fieldAt w 0 18 = 0 then some (.cSeal (bits w 18 6))
    else none
  | 0x8B => if fieldAt w 0 12 = 0 then some (.cWaitb (bits w 18 6) (bits w 12 6))
    else none
  | 0x8C => if fieldAt w 18 6 = 0 then some (.cHinit (bits w 12 6) (bits w 6 6) (bits w 0 6))
    else none
  | 0x8D => if fieldAt w 0 6 = 0 then some (.cHbindOff (bits w 18 6) (bits w 12 6) (bits w 6 6))
    else if fieldAt w 0 6 = 1 then some (.cHbindGather (bits w 18 6) (bits w 12 6) (bits w 6 6))
    else if fieldAt w 0 6 = 2 then some (.cHbindRaster (bits w 18 6) (bits w 12 6) (bits w 6 6))
    else none
  | 0x8E => if fieldAt w 4 8 = 0 then some (.cHwaitRoom (bits w 18 6) (bits w 12 6) (bits w 0 4))
    else if fieldAt w 4 8 = 1 then some (.cHwaitData (bits w 18 6) (bits w 12 6) (bits w 0 4))
    else none
  | 0x8F => if fieldAt w 4 8 = 0 ∧ fieldAt w 18 6 = 0 then some (.cHadvP (bits w 12 6) (bits w 0 4))
    else if fieldAt w 4 8 = 1 ∧ fieldAt w 18 6 = 0 then some (.cHadvC (bits w 12 6) (bits w 0 4))
    else none
  | _ => none

/-- The C-code opcodes 0xA0 to 0xCF of R65. -/
def rawSystem (op w : Nat) : Option Instr :=
  match op with
  | 0xA0 => if fieldAt w 0 6 = 0 then some (.cPut (bits w 18 6) (bits w 12 6) (bits w 6 6))
    else none
  | 0xA1 => if fieldAt w 4 8 = 0 then some (.cCwait (bits w 18 6) (bits w 12 6) (bits w 0 4))
    else if fieldAt w 4 8 = 1 then some (.cCwaitSub (bits w 18 6) (bits w 12 6) (bits w 0 4))
    else none
  | 0xA2 => if fieldAt w 0 6 = 0 then some (.cBrace (bits w 18 6) (bits w 12 6) (bits w 6 6))
    else none
  | 0xA3 => if fieldAt w 0 12 = 0 then some (.cUnbrace (bits w 18 6) (bits w 12 6))
    else none
  | 0xB0 => if fieldAt w 0 12 = 0 then some (.cGenpub (bits w 18 6) (bits w 12 6))
    else none
  | 0xB1 => if fieldAt w 0 6 = 0 then some (.cGenwait (bits w 18 6) (bits w 12 6) (bits w 6 6))
    else if fieldAt w 0 6 = 1 then some (.cGenwaitTest (bits w 18 6) (bits w 12 6) (bits w 6 6))
    else none
  | 0xB2 => if fieldAt w 2 22 = 0 then some (.cRcpub (bits w 0 2))
    else none
  | 0xB3 => if fieldAt w 0 1 = 1 ∧ fieldAt w 3 21 = 0 then some (.cRchold (bits w 1 2))
    else if fieldAt w 0 1 = 0 ∧ fieldAt w 3 21 = 0 then some (.cRcholdOff (bits w 1 2))
    else none
  | 0xB4 => if fieldAt w 4 20 = 0 then some (.cRcstep (bits w 2 2) (bits w 0 2))
    else none
  | 0xC0 => if fieldAt w 12 6 = 0 then some (.cSget (bits w 18 6) (bits w 0 12))
    else none
  | 0xC1 => if fieldAt w 18 6 = 0 then some (.cSset (bits w 12 6) (bits w 0 12))
    else none
  | 0xC2 => some (.cTrap (bits w 8 16) (bits w 0 8))
  | 0xC3 => if fieldAt w 0 24 = 0 then some (.cRft)
    else none
  | 0xC4 => if fieldAt w 0 12 = 0 then some (.cRply (bits w 18 6) (bits w 12 6))
    else none
  | 0xC5 => if fieldAt w 0 24 = 0 then some (.cAck)
    else none
  | 0xC6 => if fieldAt w 0 6 = 0 then some (.cMap (bits w 18 6) (bits w 12 6) (bits w 6 6))
    else if fieldAt w 0 12 = 1 then some (.cMapFt (bits w 18 6) (bits w 12 6))
    else none
  | 0xC7 => if fieldAt w 0 12 = 0 then some (.cUnmap (bits w 18 6) (bits w 12 6))
    else none
  | 0xC8 => if fieldAt w 0 6 = 0 ∧ fieldAt w 18 6 = 0 then some (.cTlbinv (bits w 12 6) (bits w 6 6))
    else if fieldAt w 0 6 = 1 ∧ fieldAt w 18 6 = 0 then some (.cTlbinvRange (bits w 12 6) (bits w 6 6))
    else if fieldAt w 0 24 = 2 then some (.cTlbinvAsid)
    else none
  | 0xC9 => some (.cBkpt (bits w 0 24))
  | _ => none

/-- A C-code word `w` of opcode `op`, with the literal word after it, before the limits of its fields are checked
(R65). -/
def rawControl (op w lit : Nat) : Option Instr :=
  if op < 0x30 then rawArith op w
  else if op < 0x60 then rawMem op w
  else if op < 0x80 then rawFlow op w lit
  else if op < 0x90 then rawWork op w
  else if op < 0xE0 then rawSystem op w
  else rawFlow op w lit

/-- The fields of a lane word (R42). -/
def laneFields (w : Nat) : LF :=
  { d := bits w 78 8, a := bits w 70 8, b := bits w 62 8, c := bits w 54 8, ty := bits w 49 5, rm := bits w 47 2,
    neg := bits w 46 1, pg := bits w 43 3, fe := bits w 40 3, sk := bits w 38 2, md := bits w 32 6,
    imm := bits w 0 32 }

/-- The L-code opcodes 0x000 to 0x108 of R67. -/
def rawLaneLow (op : Nat) (f : LF) : Option Instr :=
  match op with
  | 0x000 => some (.lAdd f)
  | 0x001 => some (.lSub f)
  | 0x002 => some (.lMul f)
  | 0x003 => some (.lMulhi f)
  | 0x004 => some (.lMad f)
  | 0x005 => some (.lDiv f)
  | 0x006 => some (.lRem f)
  | 0x007 => some (.lAbs f)
  | 0x008 => some (.lNeg f)
  | 0x009 => some (.lMin f)
  | 0x00A => some (.lMax f)
  | 0x00B => some (.lAnd f)
  | 0x00C => some (.lOr f)
  | 0x00D => some (.lXor f)
  | 0x00E => some (.lAndn f)
  | 0x00F => some (.lShl f)
  | 0x010 => some (.lShr f)
  | 0x011 => some (.lSra f)
  | 0x012 => some (.lRotl f)
  | 0x013 => some (.lPopc f)
  | 0x014 => some (.lClz f)
  | 0x015 => some (.lBrev f)
  | 0x016 => some (.lBfx f)
  | 0x017 => some (.lBfi f)
  | 0x018 => some (.lDot4 f)
  | 0x080 => some (.lFadd f)
  | 0x081 => some (.lFsub f)
  | 0x082 => some (.lFmul f)
  | 0x083 => some (.lFfma f)
  | 0x084 => some (.lFmin f)
  | 0x085 => some (.lFmax f)
  | 0x086 => some (.lFdiv f)
  | 0x087 => some (.lFrcp f)
  | 0x088 => some (.lFrsq f)
  | 0x089 => some (.lFsqrt f)
  | 0x08A => some (.lFexp2 f)
  | 0x08B => some (.lFlog2 f)
  | 0x08C => some (.lFsin f)
  | 0x08D => some (.lFcos f)
  | 0x08E => some (.lFrnd f)
  | 0x08F => some (.lFfrac f)
  | 0x090 => some (.lFldexp f)
  | 0x100 => some (.lCvt f)
  | 0x101 => some (.lPack f)
  | 0x102 => some (.lUnpk f)
  | 0x103 => some (.lSwz f)
  | 0x104 => some (.lBxq f)
  | 0x105 => some (.lBxdq f)
  | 0x106 => some (.lBxexp f)
  | 0x107 => some (.lBxalign f)
  | 0x108 => some (.lBxnorm f)
  | _ => none

/-- The L-code opcodes 0x140 to 0x3C1 of R67. -/
def rawLaneHigh (op : Nat) (f : LF) : Option Instr :=
  match op with
  | 0x140 => some (.lCmp f)
  | 0x141 => some (.lFcmp f)
  | 0x142 => some (.lSel f)
  | 0x143 => some (.lMov f)
  | 0x144 => some (.lPand f)
  | 0x145 => some (.lPor f)
  | 0x146 => some (.lPxor f)
  | 0x147 => some (.lPset f)
  | 0x148 => some (.lPget f)
  | 0x180 => some (.lShfl f)
  | 0x181 => some (.lShflx f)
  | 0x182 => if f.md.getLsbD 0 then some (.lBcastFirst f) else some (.lBcast f)
  | 0x183 => some (.lVote f)
  | 0x184 => some (.lMatch f)
  | 0x185 => some (.lReds f)
  | 0x186 => some (.lScan f)
  | 0x187 => some (.lDdx f)
  | 0x188 => some (.lDdy f)
  | 0x189 => some (.lQswap f)
  | 0x1C0 => if f.md.getLsbD 2 then some (.lLdPlanes f) else some (.lLd f)
  | 0x1C1 => some (.lSt f)
  | 0x1C2 => some (.lLds f)
  | 0x1C3 => some (.lSts f)
  | 0x1C4 => some (.lLdp f)
  | 0x1C5 => some (.lStp f)
  | 0x1C6 => some (.lAtom f)
  | 0x1C7 => some (.lAtoms f)
  | 0x1C8 => some (.lHpush f)
  | 0x1C9 => some (.lHpop f)
  | 0x3C0 => some (.lTrapif f)
  | 0x3C1 => some (.lLnop f)
  | 0x240 => some (.lWld f)
  | 0x241 => some (.lWlds f)
  | 0x242 => some (.lMma f)
  | 0x243 => some (.lMmas f)
  | 0x244 => some (.lAccz f)
  | 0x245 => some (.lAccrd f)
  | 0x246 => some (.lAccwr f)
  | 0x280 => some (.lTrace f)
  | 0x281 => if f.md = 0 then some (.lResumeReject f) else if f.md = 1 then some (.lResumeAccept f)
    else if f.md = 2 then some (.lResumeEnd f) else none
  | 0x282 => some (.lHitget f)
  | 0x283 => some (.lSample f)
  | 0x284 => some (.lHgrid f)
  | 0x285 => some (.lRcqt f)
  | _ => none

/-- A lane word before the limits of its fields are checked (R67). -/
def rawLane (w : Nat) : Option Instr :=
  let op := fieldAt w 86 10
  if op < 0x140 then rawLaneLow op (laneFields w) else rawLaneHigh op (laneFields w)

/-- Keep an instruction only if every field has a meaning (R43). -/
def checked (i : Option Instr) : Option Instr :=
  match i with
  | some i => if wellFormed i then some i else none
  | none => none

/-- The C-code instruction of a word and its literal word (R43, R65): none where R43 traps ILLEGAL. -/
def decodeControl (w lit : Nat) : Option Instr := checked (rawControl (fieldAt w 24 8) (w % 2 ^ 32) lit)

/-- The lane instruction of a 96-bit word (R43, R67): none where R43 traps ILLEGAL. -/
def decodeLane (w : Nat) : Option Instr := checked (rawLane (w % 2 ^ 96))

/-- The opcode of a C-code word begins a long form (R14, R68). -/
def isLong (w : Nat) : Bool := decide (0xE0 ≤ fieldAt w 24 8 ∧ fieldAt w 24 8 < 0xF0)

/-- The instruction that a row of the opcode table encodes: 96 bits for L-code, else C-code with its literal word
above it. -/
def decodeTableWord (nbits w : Nat) : Option Instr :=
  if nbits = 96 then decodeLane w else decodeControl (w % 2 ^ 32) (fieldAt w 32 32)

/-- Why bytes are not an instruction. -/
inductive Reject where
  /-- Fewer bytes than the instruction has. -/
  | short
  /-- A word that R43 gives no meaning. -/
  | illegal
deriving DecidableEq, Repr

/-- The number that bytes in little-endian order spell (R5). -/
def ofBytes : List Byte → Nat
  | [] => 0
  | b :: bs => b.toNat + 256 * ofBytes bs

/-- Decode the bytes of one instruction of C-code (`lane` false) or L-code, total on any bytes: the instruction with
the bytes after it, or the reason there is none. -/
def decodeBytes (lane : Bool) (bs : List Byte) : Except Reject (Instr × List Byte) :=
  if lane then
    if bs.length < 12 then .error .short
    else match decodeLane (ofBytes (bs.take 12)) with
      | some i => .ok (i, bs.drop 12)
      | none => .error .illegal
  else
    let w := ofBytes (bs.take 4)
    let n := if isLong w then 8 else 4
    if bs.length < n then .error .short
    else match decodeControl w (ofBytes ((bs.drop 4).take 4)) with
      | some i => .ok (i, bs.drop n)
      | none => .error .illegal

/-- The word of a lane instruction of opcode `op` (R42). -/
def encodeFields (op : Nat) (f : LF) : Nat :=
  op * 2 ^ 86 + f.d.toNat * 2 ^ 78 + f.a.toNat * 2 ^ 70 + f.b.toNat * 2 ^ 62 + f.c.toNat * 2 ^ 54 +
    f.ty.toNat * 2 ^ 49 + f.rm.toNat * 2 ^ 47 + f.neg.toNat * 2 ^ 46 + f.pg.toNat * 2 ^ 43 + f.fe.toNat * 2 ^ 40 +
    f.sk.toNat * 2 ^ 38 + f.md.toNat * 2 ^ 32 + f.imm.toNat

/-- The opcode and fields of a lane instruction (R67). -/
def laneParts : Instr → Option (Nat × LF)
  | .lAdd f => some (0x000, f)
  | .lSub f => some (0x001, f)
  | .lMul f => some (0x002, f)
  | .lMulhi f => some (0x003, f)
  | .lMad f => some (0x004, f)
  | .lDiv f => some (0x005, f)
  | .lRem f => some (0x006, f)
  | .lAbs f => some (0x007, f)
  | .lNeg f => some (0x008, f)
  | .lMin f => some (0x009, f)
  | .lMax f => some (0x00A, f)
  | .lAnd f => some (0x00B, f)
  | .lOr f => some (0x00C, f)
  | .lXor f => some (0x00D, f)
  | .lAndn f => some (0x00E, f)
  | .lShl f => some (0x00F, f)
  | .lShr f => some (0x010, f)
  | .lSra f => some (0x011, f)
  | .lRotl f => some (0x012, f)
  | .lPopc f => some (0x013, f)
  | .lClz f => some (0x014, f)
  | .lBrev f => some (0x015, f)
  | .lBfx f => some (0x016, f)
  | .lBfi f => some (0x017, f)
  | .lDot4 f => some (0x018, f)
  | .lFadd f => some (0x080, f)
  | .lFsub f => some (0x081, f)
  | .lFmul f => some (0x082, f)
  | .lFfma f => some (0x083, f)
  | .lFmin f => some (0x084, f)
  | .lFmax f => some (0x085, f)
  | .lFdiv f => some (0x086, f)
  | .lFrcp f => some (0x087, f)
  | .lFrsq f => some (0x088, f)
  | .lFsqrt f => some (0x089, f)
  | .lFexp2 f => some (0x08A, f)
  | .lFlog2 f => some (0x08B, f)
  | .lFsin f => some (0x08C, f)
  | .lFcos f => some (0x08D, f)
  | .lFrnd f => some (0x08E, f)
  | .lFfrac f => some (0x08F, f)
  | .lFldexp f => some (0x090, f)
  | .lCvt f => some (0x100, f)
  | .lPack f => some (0x101, f)
  | .lUnpk f => some (0x102, f)
  | .lSwz f => some (0x103, f)
  | .lBxq f => some (0x104, f)
  | .lBxdq f => some (0x105, f)
  | .lBxexp f => some (0x106, f)
  | .lBxalign f => some (0x107, f)
  | .lBxnorm f => some (0x108, f)
  | .lCmp f => some (0x140, f)
  | .lFcmp f => some (0x141, f)
  | .lSel f => some (0x142, f)
  | .lMov f => some (0x143, f)
  | .lPand f => some (0x144, f)
  | .lPor f => some (0x145, f)
  | .lPxor f => some (0x146, f)
  | .lPset f => some (0x147, f)
  | .lPget f => some (0x148, f)
  | .lShfl f => some (0x180, f)
  | .lShflx f => some (0x181, f)
  | .lBcast f => some (0x182, f)
  | .lBcastFirst f => some (0x182, f)
  | .lVote f => some (0x183, f)
  | .lMatch f => some (0x184, f)
  | .lReds f => some (0x185, f)
  | .lScan f => some (0x186, f)
  | .lDdx f => some (0x187, f)
  | .lDdy f => some (0x188, f)
  | .lQswap f => some (0x189, f)
  | .lLd f => some (0x1C0, f)
  | .lLdPlanes f => some (0x1C0, f)
  | .lSt f => some (0x1C1, f)
  | .lLds f => some (0x1C2, f)
  | .lSts f => some (0x1C3, f)
  | .lLdp f => some (0x1C4, f)
  | .lStp f => some (0x1C5, f)
  | .lAtom f => some (0x1C6, f)
  | .lAtoms f => some (0x1C7, f)
  | .lHpush f => some (0x1C8, f)
  | .lHpop f => some (0x1C9, f)
  | .lTrapif f => some (0x3C0, f)
  | .lLnop f => some (0x3C1, f)
  | .lWld f => some (0x240, f)
  | .lWlds f => some (0x241, f)
  | .lMma f => some (0x242, f)
  | .lMmas f => some (0x243, f)
  | .lAccz f => some (0x244, f)
  | .lAccrd f => some (0x245, f)
  | .lAccwr f => some (0x246, f)
  | .lTrace f => some (0x280, f)
  | .lResumeReject f => some (0x281, f)
  | .lResumeAccept f => some (0x281, f)
  | .lResumeEnd f => some (0x281, f)
  | .lHitget f => some (0x282, f)
  | .lSample f => some (0x283, f)
  | .lHgrid f => some (0x284, f)
  | .lRcqt f => some (0x285, f)
  | _ => none

/-- Format CR of R39. -/
def crWord (op d a b fn : Nat) : Nat := op * 2 ^ 24 + d * 2 ^ 18 + a * 2 ^ 12 + b * 2 ^ 6 + fn

/-- Formats CI and CL of R39: 12 bits below d and a. -/
def crImm (op d a imm : Nat) : Nat := op * 2 ^ 24 + d * 2 ^ 18 + a * 2 ^ 12 + imm

/-- Formats CJ and CW of R39, and RUN and RUNP (R41): 24 bits below the opcode. -/
def cwWord (op imm : Nat) : Nat := op * 2 ^ 24 + imm

/-- The width and the bits of a control-stream instruction (R39, R65), a long form's literal above its word. -/
def encodeControl : Instr → Option (Nat × Nat)
  | .cSadd d a b => some (32, crWord 0x00 d.toNat a.toNat b.toNat 0)
  | .cSsub d a b => some (32, crWord 0x01 d.toNat a.toNat b.toNat 0)
  | .cSmul d a b => some (32, crWord 0x02 d.toNat a.toNat b.toNat 0)
  | .cSmulhi d a b => some (32, crWord 0x03 d.toNat a.toNat b.toNat 0)
  | .cSmulhn d a b => some (32, crWord 0x04 d.toNat a.toNat b.toNat 0)
  | .cSdiv d a b => some (32, crWord 0x05 d.toNat a.toNat b.toNat 0)
  | .cSdivn d a b => some (32, crWord 0x06 d.toNat a.toNat b.toNat 0)
  | .cSrem d a b => some (32, crWord 0x07 d.toNat a.toNat b.toNat 0)
  | .cSremn d a b => some (32, crWord 0x08 d.toNat a.toNat b.toNat 0)
  | .cSand d a b => some (32, crWord 0x09 d.toNat a.toNat b.toNat 0)
  | .cSor d a b => some (32, crWord 0x0A d.toNat a.toNat b.toNat 0)
  | .cSxor d a b => some (32, crWord 0x0B d.toNat a.toNat b.toNat 0)
  | .cSandn d a b => some (32, crWord 0x0C d.toNat a.toNat b.toNat 0)
  | .cSshl d a b => some (32, crWord 0x0D d.toNat a.toNat b.toNat 0)
  | .cSshr d a b => some (32, crWord 0x0E d.toNat a.toNat b.toNat 0)
  | .cSsra d a b => some (32, crWord 0x0F d.toNat a.toNat b.toNat 0)
  | .cSmin d a b => some (32, crWord 0x10 d.toNat a.toNat b.toNat 0)
  | .cSmax d a b => some (32, crWord 0x11 d.toNat a.toNat b.toNat 0)
  | .cSminn d a b => some (32, crWord 0x12 d.toNat a.toNat b.toNat 0)
  | .cSmaxn d a b => some (32, crWord 0x13 d.toNat a.toNat b.toNat 0)
  | .cScmp d a b c => some (32, crWord 0x14 d.toNat a.toNat b.toNat c.toNat)
  | .cSsel d a b c => some (32, crWord 0x15 d.toNat a.toNat b.toNat c.toNat)
  | .cSmov d a => some (32, crWord 0x16 d.toNat a.toNat 0 0)
  | .cSpopc d a => some (32, crWord 0x17 d.toNat a.toNat 0 0)
  | .cSclz d a => some (32, crWord 0x18 d.toNat a.toNat 0 0)
  | .cSbfx d a b w => some (32, crWord 0x19 d.toNat a.toNat b.toNat w.toNat)
  | .cSbfi d a b w => some (32, crWord 0x1A d.toNat a.toNat b.toNat w.toNat)
  | .cSaddi d a i => some (32, crImm 0x20 d.toNat a.toNat i.toNat)
  | .cSandi d a i => some (32, crImm 0x21 d.toNat a.toNat i.toNat)
  | .cSori d a i => some (32, crImm 0x22 d.toNat a.toNat i.toNat)
  | .cSxori d a i => some (32, crImm 0x23 d.toNat a.toNat i.toNat)
  | .cSshli d a n => some (32, crImm 0x24 d.toNat a.toNat n.toNat)
  | .cSshri d a n => some (32, crImm 0x25 d.toNat a.toNat n.toNat)
  | .cSsrai d a n => some (32, crImm 0x26 d.toNat a.toNat n.toNat)
  | .cScmpi d a c i => some (32, crImm 0x27 d.toNat a.toNat (c.toNat * 2 ^ 8 + i.toNat))
  | .cSmovi d i => some (32, cwWord 0x28 (d.toNat * 2 ^ 18 + i.toNat))
  | .cSld d a o => some (32, crImm 0x40 d.toNat a.toNat o.toNat)
  | .cSst d a o => some (32, crImm 0x41 d.toNat a.toNat o.toNat)
  | .cSatom d a b r o => some (32, crWord 0x42 d.toNat a.toNat b.toNat (r.toNat * 2 ^ 4 + o.toNat))
  | .cSfrom d a b => some (32, crWord 0x43 d.toNat a.toNat b.toNat 0)
  | .cSfromFirst d a => some (32, crWord 0x43 d.toNat a.toNat 0 1)
  | .cXlat d a b => some (32, crWord 0x50 d.toNat a.toNat b.toNat 0)
  | .cXlatW d a b => some (32, crWord 0x50 d.toNat a.toNat b.toNat 1)
  | .cXfree d => some (32, crWord 0x51 d.toNat 0 0 0)
  | .cPrefL2 a i => some (32, crImm 0x52 0 a.toNat i.toNat)
  | .cPrefL1 a i => some (32, crImm 0x52 1 a.toNat i.toNat)
  | .cPin d a b => some (32, crWord 0x53 d.toNat a.toNat b.toNat 0)
  | .cUnpin d a b => some (32, crWord 0x54 d.toNat a.toNat b.toNat 0)
  | .cGuestinv => some (32, cwWord 0x55 0)
  | .cBra a c o => some (32, cwWord 0x60 (a.toNat * 2 ^ 18 + c.toNat * 2 ^ 14 + o.toNat))
  | .cB m o => some (32, cwWord 0x61 (m.toNat * 2 ^ 23 + o.toNat))
  | .cBdiv n p m o => some (32, cwWord 0x62 (n.toNat * 2 ^ 21 + p.toNat * 2 ^ 18 + m.toNat * 2 ^ 14 + o.toNat))
  | .cJset o => some (32, cwWord 0x63 o.toNat)
  | .cJoin => some (32, cwWord 0x64 0)
  | .cJbrk o => some (32, cwWord 0x65 o.toNat)
  | .cCall o => some (32, cwWord 0x66 o.toNat)
  | .cCalli a => some (32, crWord 0x67 0 a.toNat 0 0)
  | .cCallv a => some (32, crWord 0x68 0 a.toNat 0 0)
  | .cRet a => some (32, crWord 0x69 0 a.toNat 0 0)
  | .cFn s p v => some (32, cwWord 0x6A (s.toNat * 2 ^ 23 + p.toNat * 2 ^ 14 + v.toNat))
  | .cExit => some (32, cwWord 0x6B 0)
  | .cYield => some (32, cwWord 0x6C 0)
  | .cNop => some (32, cwWord 0x6D 0)
  | .cRun l s => some (32, cwWord 0x6E (l.toNat * 2 ^ 4 + s.toNat))
  | .cRunp p l s => some (32, cwWord 0x6F (p.toNat * 2 ^ 21 + l.toNat * 2 ^ 4 + s.toNat))
  | .cWaitf => some (32, crWord 0x70 0 0 0 0)
  | .cWaitfV a => some (32, crWord 0x70 0 a.toNat 0 1)
  | .cSpawn d a i => some (32, crImm 0x80 d.toNat a.toNat i.toNat)
  | .cLaunch d a b => some (32, crWord 0x81 d.toNat a.toNat b.toNat 0)
  | .cLaunchGraph d a b => some (32, crWord 0x81 d.toNat a.toNat b.toNat 1)
  | .cLaunchPhase d a b => some (32, crWord 0x81 d.toNat a.toNat b.toNat 2)
  | .cTrigger => some (32, cwWord 0x82 0)
  | .cCancel d a => some (32, crWord 0x83 d.toNat a.toNat 0 0)
  | .cCancelGraph d a => some (32, crWord 0x83 d.toNat a.toNat 0 1)
  | .cCancelPhase d a => some (32, crWord 0x83 d.toNat a.toNat 0 2)
  | .cCancelJob d a => some (32, crWord 0x83 d.toNat a.toNat 0 3)
  | .cBaru => some (32, cwWord 0x84 0)
  | .cBarg => some (32, cwWord 0x85 0)
  | .cArrive d a b => some (32, crWord 0x86 d.toNat a.toNat b.toNat 0)
  | .cAwait a b => some (32, crWord 0x87 0 a.toNat b.toNat 0)
  | .cFence r k p g l s => some (32, cwWord 0x88 (r.toNat * 2 ^ 8 + k.toNat * 2 ^ 6 + p.toNat * 2 ^ 5 + g.toNat * 2 ^ 4 + l.toNat * 2 ^ 3 + s.toNat))
  | .cCpy d a b r t => some (32, crWord 0x89 d.toNat a.toNat b.toNat (r.toNat * 2 ^ 1 + t.toNat))
  | .cSeal d => some (32, crWord 0x8A d.toNat 0 0 0)
  | .cWaitb d a => some (32, crWord 0x8B d.toNat a.toNat 0 0)
  | .cHinit a b h => some (32, crWord 0x8C 0 a.toNat b.toNat h.toNat)
  | .cHbindOff i o b => some (32, crWord 0x8D i.toNat o.toNat b.toNat 0)
  | .cHbindGather i o b => some (32, crWord 0x8D i.toNat o.toNat b.toNat 1)
  | .cHbindRaster i o b => some (32, crWord 0x8D i.toNat o.toNat b.toNat 2)
  | .cHwaitRoom d a h => some (32, crWord 0x8E d.toNat a.toNat 0 h.toNat)
  | .cHwaitData d a h => some (32, crWord 0x8E d.toNat a.toNat 0 (16 + h.toNat))
  | .cHadvP a h => some (32, crWord 0x8F 0 a.toNat 0 h.toNat)
  | .cHadvC a h => some (32, crWord 0x8F 0 a.toNat 0 (16 + h.toNat))
  | .cPut d a b => some (32, crWord 0xA0 d.toNat a.toNat b.toNat 0)
  | .cCwait d a c => some (32, crWord 0xA1 d.toNat a.toNat 0 c.toNat)
  | .cCwaitSub d a c => some (32, crWord 0xA1 d.toNat a.toNat 0 (16 + c.toNat))
  | .cBrace d a b => some (32, crWord 0xA2 d.toNat a.toNat b.toNat 0)
  | .cUnbrace d a => some (32, crWord 0xA3 d.toNat a.toNat 0 0)
  | .cGenpub d a => some (32, crWord 0xB0 d.toNat a.toNat 0 0)
  | .cGenwait d a b => some (32, crWord 0xB1 d.toNat a.toNat b.toNat 0)
  | .cGenwaitTest d a b => some (32, crWord 0xB1 d.toNat a.toNat b.toNat 1)
  | .cRcpub n => some (32, cwWord 0xB2 n.toNat)
  | .cRchold n => some (32, cwWord 0xB3 (n.toNat * 2 ^ 1 + 1))
  | .cRcholdOff n => some (32, cwWord 0xB3 (n.toNat * 2 ^ 1))
  | .cRcstep b n => some (32, cwWord 0xB4 (b.toNat * 2 ^ 2 + n.toNat))
  | .cSget d r => some (32, crImm 0xC0 d.toNat 0 r.toNat)
  | .cSset a r => some (32, crImm 0xC1 0 a.toNat r.toNat)
  | .cTrap v c => some (32, cwWord 0xC2 (v.toNat * 2 ^ 8 + c.toNat))
  | .cRft => some (32, cwWord 0xC3 0)
  | .cRply d a => some (32, crWord 0xC4 d.toNat a.toNat 0 0)
  | .cAck => some (32, cwWord 0xC5 0)
  | .cMap d a b => some (32, crWord 0xC6 d.toNat a.toNat b.toNat 0)
  | .cMapFt d a => some (32, crWord 0xC6 d.toNat a.toNat 0 1)
  | .cUnmap d a => some (32, crWord 0xC7 d.toNat a.toNat 0 0)
  | .cTlbinv a b => some (32, crWord 0xC8 0 a.toNat b.toNat 0)
  | .cTlbinvRange a b => some (32, crWord 0xC8 0 a.toNat b.toNat 1)
  | .cTlbinvAsid => some (32, crWord 0xC8 0 0 0 2)
  | .cBkpt t => some (32, cwWord 0xC9 t.toNat)
  | .cSlit d lit => some (64, crImm 0xE0 d.toNat 0 0 + lit.toNat * 2 ^ 32)
  | .cSlitHi d a lit => some (64, crImm 0xE0 d.toNat a.toNat 1 + lit.toNat * 2 ^ 32)
  | .cBral a c m lit => some (64, crImm 0xE1 0 a.toNat (m.toNat * 2 ^ 4 + c.toNat) + lit.toNat * 2 ^ 32)
  | .cCalll lit => some (64, crImm 0xE2 0 0 0 + lit.toNat * 2 ^ 32)
  | _ => none

/-- The width and the bits of an instruction: none for an event, which no program word encodes. -/
def encode (i : Instr) : Option (Nat × Nat) :=
  match laneParts i with
  | some (op, f) => some (96, encodeFields op f)
  | none => encodeControl i

end Sys2Proof
end

