-- ==== Sys2Proof/Machine/Life.lean ====
section
/-! DEFINITION. The life of groups, units, launches and jobs (R259 to R268), barriers and triggers (R140, R142), and
what the command ports report (R438 to R441). -/

namespace Sys2Proof.Machine

/-! ### Ports and messages -/

/-- The registers of a port block (R438). -/
def State.port (s : State) : PortId → Port
  | .a => s.portA
  | .b => s.portB
  | .dbg => s.portD

/-- Replace the registers of a port block. -/
def State.setPort (s : State) (i : PortId) (p : Port) : State :=
  match i with
  | .a => { s with portA := p }
  | .b => { s with portB := p }
  | .dbg => { s with portD := p }

/-- One MSI-X message when an event's bit changes from 0 to 1 (R441): event 0 DONE, 1 HALT, 2 IFLT, 3 PDONE. The
debug port has no vector. -/
def State.message (s : State) (i : PortId) (event : Nat) (was : Bool) : State :=
  if was then s
  else match i with
    | .a => s.emit (.msix event)
    | .b => s.emit (.msix (4 + event))
    | .dbg => s

/-- The port that owns a group's job. -/
def State.portOf (s : State) (g : Group) : Option PortId := (s.jobOfGroup g).map (·.port)

/-- The group halts and is reported to its command port (R159, R441). -/
def State.haltGroup (s : State) (gid cause : Nat) (tval : Word) : State :=
  match FMap.get s.groups gid with
  | none => s
  | some g =>
    let s := s.putGroup gid { g with halted := true }
    match s.portOf g with
    | none => s
    | some i =>
      let p := s.port i
      let info := BitVec.ofNat 64 (coreOfGid gid + gid % 64 * 2 ^ 9 + cause % 256 * 2 ^ 15)
      let q := if p.halt then p else { p with halt := true, halti := info, haltv := tval }
      (s.setPort i q).message i 1 p.halt

/-! ### New groups -/

/-- A split at group start (R26, R158, R265). -/
def Split.start (pc : Word) (slack : BitVec 12) (since : Nat) : Split :=
  { tag := 1, tags := [1], next := since, ready := false, fenced := 0,
    pc := pc, seq := false, mask := 0xFFFF_FFFF, s := [], sEmpty := [], ks := [], ksEmpty := [], stack := [],
    parked := none, issued := none, fetched := none, yielding := 0, marked := none, runq := [], running := none, dslack := slack,
    sm := false, pm := false, wr := false, tpc := 0, since := none, waited := 0, overdue := none }

/-- A group at group start (R26, R109, R146, R158, R265): every register holds 0 and is full, user mode, one split. -/
def Group.start (uid idx : Nat) (spawned : Bool) (pc : Word) (slack : BitVec 12) (tvec ftpool : Word) (since : Nat) :
    Group :=
  { uid := uid, idx := idx, spawned := spawned, s := [], sEmpty := [], x := [], v := [], vEmpty := [], vBad := [], k := [],
    kEmpty := [], p := [], lstat := [], helper := 0, win := [], winBad := [], lines := [], written := [], tokens := [], nextTok := 0, nextTag := 2,
    splits := [(0, Split.start pc slack since)], mode := 0,
    slktab := BitVec.ofNat 36 (slack.toNat * (1 + 2 ^ 12 + 2 ^ 24)), latecnt := 0, batch := 0, tvec := tvec, tcause := 0,
    tval := 0, tmask := 0, ftpool := ftpool, replay := [], nextPid := 0, due := [], handler := none, triggered := false, signal := none,
    cancelled := false, dropped := false, halted := false, stopped := false, stopFrame := [], pre := none, preParked := false,
    rays := [] }

/-- A unit at its placement (R151, R265, R291). `vregs` and `priv` count registers and bytes per lane. -/
def UnitRec.start (launch index : Nat) (gen : BitVec 32) (cut : Word) (groups : Nat) (gslots : List Nat) : UnitRec :=
  { launch := launch, index := index, gen := gen, groups := groups, vregs := 32 + 8 * fld cut 0 5,
    priv := 8 * fld cut 5 9, scr := fld cut 18 8, acc := fld cut 26 5, scratch := [], scrPoison := [], tiles := [], tileBad := [],
    hods := [], counters := [], puterr := 0, banks := [], baru := 0, baruArr := [], bargArr := [], gslots := gslots,
    lru := [], twin := none }

/-- GEN of a unit slot (R151; log entry 7). -/
def State.genOf (s : State) (uid : Nat) : BitVec 32 :=
  match FMap.get s.gens uid with | some g => g | none => Config.genStart uid

/-- GEN advances: by an odd step, so that no value repeats within 2^32 residencies (R151, R268; log entry 7). -/
def State.genNext (s : State) (uid : Nat) : State :=
  let step : BitVec 32 := BitVec.ofNat 32 (2 * (Config.genStep uid).toNat + 1)
  { s with gens := FMap.put s.gens uid (s.genOf uid + step) }

/-! ### Barriers -/

/-- The live lanes of a group: those of its splits and of their deferred paths (R121). -/
def Split.lanes (p : Split) : Lanes :=
  p.stack.foldl (fun m e => match e with | .deferred _ d _ => m ||| d | .tok _ _ => m) p.mask

/-- Lanes of a group that have not exited. While a handler runs, the trapping split's lanes are those kept aside. -/
def Group.alive (g : Group) : Lanes :=
  let m := g.splits.foldl (fun m e => m ||| e.2.lanes) 0
  match g.handler with
  | none => m
  | some h => h.kept.stack.foldl (fun m e => match e with | .deferred _ d _ => m ||| d | .tok _ _ => m) (m ||| h.kept.mask)

/-- The groups of a unit. -/
def State.groupsOf (s : State) (uid : Nat) : List (Nat × Group) := s.groups.filter (fun e => decide (e.2.uid = uid))

/-- Every lane of every group of a unit has arrived (R142): lanes that have exited count as arrived. -/
def State.allArrived (s : State) (uid : Nat) (arr : FMap Lanes) : Bool :=
  (s.groupsOf uid).all (fun e => decide (e.2.alive &&& ~~~(FMap.rd 0 arr e.1) = 0))

/-- The other copy of a dovetail unit that is still resident (R267). -/
def State.twinOf (s : State) (u : UnitRec) : Option (Nat × UnitRec) :=
  u.twin.bind (fun t => (FMap.get s.units t).map (fun v => (t, v)))

/-- Complete the unit barrier's instance when every lane has arrived (R142): those of both copies of a pair, which is one
unit (R267). -/
def State.settleBaru (s : State) (uid : Nat) : State :=
  match FMap.get s.units uid with
  | none => s
  | some u =>
    let pass := fun u : UnitRec => { u with baru := u.baru + 1, baruArr := [] }
    match s.twinOf u with
    | none => if u.baruArr.isEmpty ∨ !s.allArrived uid u.baruArr then s else s.updUnit uid pass
    | some (t, v) =>
      if (u.baruArr.isEmpty ∧ v.baruArr.isEmpty) ∨ !s.allArrived uid u.baruArr ∨ !s.allArrived t v.baruArr then s
      else (s.updUnit uid pass).updUnit t pass

/-- The units of a launch. -/
def State.unitsOf (s : State) (lid : Nat) : List (Nat × UnitRec) := s.units.filter (fun e => decide (e.2.launch = lid))

/-- Complete the grid barrier's instance when every lane of every unit has arrived (R142). -/
def State.settleBarg (s : State) (lid : Nat) : State :=
  let us := s.unitsOf lid
  if us.all (fun e => e.2.bargArr.isEmpty) ∨ !us.all (fun e => s.allArrived e.1 e.2.bargArr) then s
  else
    let clear := fun (m : FMap UnitRec) (e : Nat × UnitRec) => FMap.upd m e.1 (fun u => { u with bargArr := [] })
    let up := fun l : Launch => { l with barg := l.barg + 1 }
    { s with units := us.foldl clear s.units, launches := FMap.upd s.launches lid up }

/-! ### Completion -/

/-- Units of a launch (R259). -/
def Launch.total (l : Launch) : Nat := l.gx.toNat * l.gy.toNat * l.gz.toNat

/-- The launch's counter is 0 (R259); of a cancelled launch the units that have not started never start (R141). -/
def Launch.finished (l : Launch) : Bool := decide (l.live = 0) && (l.cancelled || decide (l.placed = l.total))

/-- Every unit has triggered (R140). -/
def Launch.allTriggered (l : Launch) : Bool := decide (l.triggered.length = l.total)

/-- Cores of a set of clusters. -/
def coresOf (clusters : BitVec 24) : List Nat :=
  (List.range Config.nCores).filter (fun c => clusters.getLsbD (clusterOf c))

/-- The clusters of a partition. -/
def State.clustersOf (s : State) (part : Nat) : BitVec 24 := match FMap.get s.parts part with | some p => p.clusters | none => 0

/-- Perform stores at their homes at once, with the poison that they carry. -/
def State.storeAll (s : State) (asid part : Nat) (accs : List Acc) : State :=
  accs.foldl (fun s a => match a.op with
    | .store v => s.writeHome asid part a.loc (bytesOf a.size v.toNat)
    | .storeBad v => (s.writeHome asid part a.loc (bytesOf a.size v.toNat)).setPoison a.loc true
    | _ => s) s

/-- The UO lines of a partition that are on their way, then those in its cores' write buffers, are written to the homes
(R261, R304). -/
def State.flushUo (s : State) (asid part : Nat) : State :=
  let mine := s.pkts.filter (fun e => decide (e.2.part = part) && !e.2.owners.isEmpty)
  let s := mine.foldl (fun s e => match e.2.body with
    | .req accs _ _ _ _ _ _ _ => { s with pkts := FMap.del s.pkts e.1 }.storeAll asid part accs
    | _ => s) s
  let cl := s.clustersOf part
  s.cores.foldl (fun s e =>
    if cl.getLsbD (clusterOf e.1) ∧ !e.2.uo.isEmpty then
      (e.2.uo.foldl (fun s line => s.storeAll asid part (uoStores line)) s).setCore e.1 { (s.core e.1) with uo := [] }
    else s) s

/-- A graph or a phase starts: the sills drop the partition's filter-cache lines and object entries (R412). The caches of a core follow when it
gets a unit of the level (`State.enterLevel`). -/
def State.levelStart (s : State) (part : Nat) : State :=
  let drop := fun q : Sill =>
    { q with fcache := q.fcache.filter (fun l => decide (l.part ≠ part)), objs := q.objs.filter (fun o => decide (o.part ≠ part)) }
  { s with sills := s.sills.map (fun e => (e.1, drop e.2)) }

/-- A core gets a unit of a launch (R303, R345). The first one of a graph's start drops every line of its L1, and its
sector's guest lines, as an acquire at scope sys; that of a level-0 dependant acquires at scope dev. -/
def State.enterLevel (s : State) (core : Nat) (l : Launch) : State :=
  let level := some (l.job, l.phase, l.graph)
  let fresh := s.acquireAt core 5 true true
  let s := if (s.core core).level = level then s else fresh.setCore core { fresh.core core with level := level }
  if l.pred.isSome then s.acquireAt core 4 true false else s

/-- Start, cancel or complete one launch of a job by R138, R141 and R262. A launch that starts sees code from the present
count of stores on (R12). -/
def settleLaunch (stores : Nat) (j : Job) (ls : FMap Launch) (l : Launch) : Launch :=
  let pred := match l.pred with | some p => FMap.get ls p | none => none
  let gone := !l.started && (match pred with | some q => q.cancelled | none => false)
  let l := if gone then { l with cancelled := true, mark := true } else l
  let go := decide (l.phase = j.phase ∧ l.graph = j.graph) && (match l.pred, pred with
    | none, _ => true
    | some _, some q => q.allTriggered
    | some _, none => true)
  let l := if go && !l.cancelled && !l.started then { l with started := true, codeFrom := stores } else l
  if l.finished then { l with done := true } else l

/-- Settle every launch of a job, `n` times over. -/
def settleLaunches (stores : Nat) (j : Job) (jid : Nat) : Nat → FMap Launch → FMap Launch
  | 0, ls => ls
  | n + 1, ls =>
    settleLaunches stores j jid n
      (ls.foldl (fun m e => if e.2.job = jid then FMap.upd m e.1 (fun l => settleLaunch stores j m l) else m) ls)

/-- A phase ends: the holds of the partition's networks, and the sills' translations of its textures and grids (R156,
R406). -/
def State.endPhase (s : State) (asid part : Nat) : State :=
  let keep := fun e : Nat × TlbEntry => !(e.2.asid = asid && e.1 / 2 % 2 = 1)
  let sills := s.sills.map (fun e => (e.1, { e.2 with xlats := e.2.xlats.filter keep }))
  { s with sills := sills, nets := s.nets.map (fun e => if e.1 / 4 = part then (e.1, { e.2 with held := none }) else e) }

/-- A job completes: its release is performed, then the port is told (R261, R441). -/
def State.endJob (s : State) (jid : Nat) (j : Job) : State :=
  let p := s.port j.port
  let launches := s.launches.filter (fun e => decide (e.2.job ≠ jid))
  let s := { s with launches := launches, jobs := FMap.del s.jobs jid, codeOld := if launches.isEmpty then [] else s.codeOld }
  (s.setPort j.port { p with busy := false, done := true, canc := j.mark }).message j.port 0 p.done

/-- Advance a job over completed graphs and phases (R259, R260). -/
def State.advance : Nat → State → Nat → State
  | 0, s, _ => s
  | n + 1, s, jid =>
    match FMap.get s.jobs jid with
    | none => s
    | some j =>
      let mine := s.launches.filter (fun e => decide (e.2.job = jid))
      let j := { j with mark := j.mark || mine.any (fun e => e.2.done && e.2.mark) }
      let s := { s with jobs := FMap.put s.jobs jid j }
      if mine.any (fun e => decide (e.2.phase = j.phase ∧ e.2.graph = j.graph) && !e.2.done) then s
      else
        let lastGraph := decide (FMap.rd 1 j.graphs j.phase ≤ j.graph + 1)
        if lastGraph && decide (j.phases ≤ j.phase + 1) then (s.endPhase j.asid j.part).endJob jid j
        else
          let j := if lastGraph then { j with phase := j.phase + 1, graph := 0 } else { j with graph := j.graph + 1 }
          let s := if lastGraph then s.endPhase j.asid j.part else s
          let ls := settleLaunches s.stores j jid s.launches.length s.launches
          let s := { s with jobs := FMap.put s.jobs jid j, launches := ls }
          (s.levelStart j.part).advance n jid

/-- Bring a job's launches, graphs and phases up to date after any change to its counters. -/
def State.settleJob (s : State) (jid : Nat) : State :=
  match FMap.get s.jobs jid with
  | none => s
  | some j =>
    let was := (s.launches.filter (fun e => decide (e.2.job = jid) && e.2.done)).length
    let ls := settleLaunches s.stores j jid s.launches.length s.launches
    let now := (ls.filter (fun e => decide (e.2.job = jid) && e.2.done)).length
    let s := { s with launches := ls }
    let s := if was = now then s else s.flushUo j.asid j.part
    s.advance (s.launches.length + 1) jid

/-- The group's trigger counts: it has executed TRIGGER, and its signal has left the core (R140). -/
def Group.signalled (g : Group) : Bool := g.triggered && g.signal.isNone

/-- Mark a unit triggered when each of its groups has triggered or ended (R140, R263); a pair counts once (R267). -/
def State.settleTrigger (s : State) (uid : Nat) : State :=
  match FMap.get s.units uid with
  | none => s
  | some u =>
    let twin := match u.twin with | some t => s.groupsOf t | none => []
    if (s.groupsOf uid ++ twin).all (fun e => e.2.signalled) then
      let add := fun l : Launch => if l.triggered.contains u.index then l else { l with triggered := u.index :: l.triggered }
      let s := { s with launches := FMap.upd s.launches u.launch add }
      match FMap.get s.launches u.launch with
      | some l => s.settleJob l.job
      | none => s
    else s

/-- A unit has no group left and spawns none (R259). -/
def State.unitIdle (s : State) (uid : Nat) : Bool :=
  (FMap.get s.units uid).any (fun u => decide (u.groups = 0)) && !s.rasters.any (fun e => decide (e.2.uid = uid) && !e.2.blocks.isEmpty)

/-- What a unit held is free: its slot, its granules and banks; GEN advances (R268). -/
def State.freeUnit (s : State) (uid : Nat) : State :=
  let core := coreOfGid uid
  let k := s.core core
  let banks := k.banks.map (fun e => if e.2.uid = uid then (e.1, { e.2 with valid := false, loading := false }) else e)
  let gather := match k.gather with | some b => if b.uid = uid then none else some b | none => none
  let s := s.setCore core { k with banks := banks, gather := gather }
  ({ s with rasters := s.rasters.filter (fun e => decide (e.2.uid ≠ uid)), units := FMap.del s.units uid }).genNext uid

/-- A unit completes and its launch counts it (R268). The copies of a dovetail unit are one unit, which stays until both are done
(R267). -/
def State.endUnit (s : State) (uid : Nat) : State :=
  match FMap.get s.units uid with
  | none => s
  | some u =>
    let twin := u.twin.bind (fun t => if (FMap.get s.units t).any (fun v => decide (v.twin = some uid)) then some t else none)
    if twin.any (fun t => !s.unitIdle t) then s
    else
      let s := twin.toList.foldl State.freeUnit (s.freeUnit uid)
      let s := { s with launches := FMap.upd s.launches u.launch (fun l => { l with live := l.live - 1 }) }
      match FMap.get s.launches u.launch with
      | some l => s.settleJob l.job
      | none => s

/-- The key of a structure: its address space and handle. -/
def structKey (asid handle : Nat) : Nat := asid * 2 ^ 32 + handle

/-- What a sill's translation serves: a structure's generation, or a texture or grid; and the rights it was made with
(R406). -/
def xlatTag (handle gen : Nat) (obj um : Bool) : Nat := ((handle * 65536 + gen) * 2 + if obj then 1 else 0) * 2 + if um then 1 else 0

/-- Rays in flight of a generation (R408). -/
def State.inFlight (s : State) (asid handle gen : Nat) : Nat := FMap.rd 0 (FMap.rd [] s.structs (structKey asid handle)) gen

/-- Count the rays in flight of a generation; the sills' translations of a generation that has retired go (R406). -/
def State.countRay (s : State) (asid handle gen : Nat) (up : Bool) : State :=
  let n := if up then s.inFlight asid handle gen + 1 else s.inFlight asid handle gen - 1
  let m := FMap.wr 0 (FMap.rd [] s.structs (structKey asid handle)) gen n
  let s := { s with structs := FMap.wr [] s.structs (structKey asid handle) m }
  let keep := fun e : Nat × TlbEntry => !(e.2.asid = asid && e.1 / 4 = handle * 65536 + gen && e.1 / 2 % 2 = 0)
  if n ≠ 0 then s else { s with sills := s.sills.map (fun e => (e.1, { e.2 with xlats := e.2.xlats.filter keep })) }

/-- A ray retires (R408): nothing of it remains at a sill. -/
def State.retireRay (s : State) (id : Nat) : State :=
  match FMap.get s.rays id with
  | none => s
  | some r =>
    let s := s.countRay r.asid r.handle r.gen false
    { s with rays := FMap.del s.rays id, conts := r.ret.foldl FMap.del s.conts }

/-- The place of a lane's ray in its group's table, by its record block (R240). -/
def rayKey (lane block : Nat) : Nat := lane * 512 + block

/-- A ray's record is on its way. -/
def State.recordOut (s : State) (id : Nat) : Bool :=
  s.pkts.any (fun e => match e.2.body with | .record i => decide (i = id) | _ => false)

/-- The last record of a ray has come, and the lane's result has been discarded: nobody will write it (R121, R383). -/
def State.strayRay (s : State) (gid : Nat) (e : Nat × Ray) : Bool :=
  decide (e.2.gid = gid ∧ e.2.stage = .reported) && !s.recordOut e.1 &&
    (match e.2.pid with
     | none => false
     | some pid => match (FMap.get s.groups gid).bind (fun g => FMap.get g.replay pid) with
       | none => true
       | some p => inLanes p.sup e.2.lane)

/-- Rays whose last record is discarded retire (R408). -/
def State.retireStray (s : State) (gid : Nat) : State :=
  (s.rays.filter (s.strayRay gid)).foldl (fun s (e : Nat × Ray) =>
    (s.updGroup gid (fun g => { g with rays := FMap.del g.rays (rayKey e.2.lane e.2.block) })).retireRay e.1) s

/-- Rays of lanes that have exited: no record of theirs is written any more, and those whose last record has come retire
(R121, R408). -/
def State.exitRays (s : State) (gid : Nat) (lanes : Lanes) : State :=
  let mine := fun r : Ray => decide (r.gid = gid ∧ r.lane < 32) && inLanes lanes r.lane
  let out := (s.rays.filter (fun e => mine e.2 && decide (e.2.stage = .reported) && !s.recordOut e.1)).map (·.1)
  let s := { s with rays := s.rays.map (fun (e : Nat × Ray) => if mine e.2 then (e.1, { e.2 with lane := 32, pid := none }) else e) }
  let s := s.updGroup gid (fun g => { g with rays := g.rays.filter (fun e => !inLanes lanes (e.1 / 512)) })
  out.foldl State.retireRay s

/-- A record that nobody takes: a ray that stands suspended does so until its group ends (R242); any other retires. -/
def State.dropRecord (s : State) (id : Nat) : State :=
  match FMap.get s.rays id with
  | none => s
  | some r => if r.stage = .suspended ∧ (FMap.get s.groups r.gid).isSome then s else s.retireRay id

/-- A lane slot without the runs of a group: a partner of another group goes on alone; cycles that an ended run still holds
stay (R278). -/
def LaneSlot.withoutGroup (k : LaneSlot) (gslot : Nat) : Option LaneSlot :=
  if k.ended then some k
  else match k.pair with
    | none => if k.gslot = gslot then none else some k
    | some (g, p) =>
      if g = gslot then (if k.gslot = gslot then none else some { k with pair := none })
      else if k.gslot = gslot then some { k with gslot := g, place := p, pair := none }
      else some k

/-- A group has ended: barriers and triggers count it, its requests in flight answer nobody (R121, R140, R142, R259). A spawned
group's slot is free; a placed group's is its unit's until the unit completes (R268). -/
def State.endGroup (s : State) (gid : Nat) : State :=
  match FMap.get s.groups gid with
  | none => s
  | some g =>
    let orphan := fun p : Packet =>
      if p.gid = gid then
        let body := match p.body with
          | .req accs _ so prom kind guest order scope => Body.req accs none so prom kind guest order scope
          | b => b
        { p with place := 9, tag := 0, body := body }
      else p
    let drop := fun k : Core =>
      let lslots := k.lslots.filterMap (fun e => e.2.withoutGroup (gid % 64) |>.map (fun k => (e.1, k)))
      let mma := match k.mmaBusy with | some w => if w.gid = gid then none else some w | none => none
      { k with mmaBusy := mma, lslots := lslots, braces := k.braces.filter (fun b => decide (b.gid ≠ gid)), copies := k.copies.filter (fun c => decide (c.gid ≠ gid)) }
    let mine := s.pkts.filter (fun e => !(decide (e.2.gid = gid) && e.2.heldBack))
    let pkts := mine.map (fun e => (e.1, orphan e.2))
    let rays := s.rays.map (fun e => if e.2.gid = gid then (e.1, { e.2 with lane := 32, pid := none }) else e)
    let came := fun (e : Nat × Ray) => e.2.unclaimed.isSome || (decide (e.2.stage = .reported) && !s.recordOut e.1)
    let idle := (rays.filter (fun e => decide (e.2.gid = gid) && (decide (e.2.stage = .suspended) || came e))).map (·.1)
    let cores := FMap.upd s.cores (coreOfGid gid) drop
    let leave := fun q : Query => if gidOf q.core q.gslot = gid then { q with place := 9 } else q
    let rcas := s.rcas.map (fun e => (e.1, { e.2 with queries := e.2.queries.map leave }))
    let s := { s with groups := FMap.del s.groups gid, pkts := pkts, rays := rays, cores := cores, rcas := rcas }
    let s := idle.foldl State.retireRay s
    let clear := fun u : UnitRec =>
      let gslots := if g.spawned then u.gslots.filter (fun x => decide (x ≠ gid % 64)) else u.gslots
      let lru := u.lru.filter (fun x => decide (x / 128 ≠ gid % 64))
      let baru := FMap.del u.baruArr gid
      let barg := FMap.del u.bargArr gid
      { u with groups := u.groups - 1, gslots := gslots, lru := lru, baruArr := baru, bargArr := barg }
    let s := (s.updUnit g.uid clear).settleTrigger g.uid
    match FMap.get s.units g.uid with
    | none => s
    | some u =>
      if s.unitIdle g.uid then (s.endUnit g.uid).settleBarg u.launch
      else ((s.settleBaru g.uid)).settleBarg u.launch

/-- A group whose end does not wait for its splits ends once no access of it is on its way: what it has written is performed before its
launch completes (R141, R261, R441). -/
def State.finishGroup (s : State) (gid : Nat) : State :=
  if s.pkts.any (fun p => decide (p.2.gid = gid) && p.2.asks) then s.updGroup gid (fun g => { g with dropped := true })
  else s.endGroup gid

end Sys2Proof.Machine
end

