-- ==== Sys2Proof/Machine/Code.lean ====
section
/-! DEFINITION. Code lines and transfers of control (R11 to R16), function entries (R118, R120), and the reads of
records and descriptors by the control stream (R99). -/

namespace Sys2Proof.Machine

/-- The header of a code line (R13, R18). -/
def headerOf (line : List Byte) : Word := BitVec.ofNat 64 (natOfBytes (line.take 8))

/-- Word `w` of a C-code line. -/
def wordOf (line : List Byte) (w : Nat) : BitVec 32 := BitVec.ofNat 32 (natOfBytes ((line.drop (4 * w)).take 4))

/-- The store count from which a group's launch may see code lines (R12). -/
def State.codeFrom (s : State) (g : Group) : Nat := match (s.unitOf g).bind (s.launchOf ·) with | some l => l.codeFrom | none => 0

/-- Header bits of word `w` (R13). -/
def hdrEnt (h : Word) : Bool := bitOf h 60
def hdrCont (h : Word) (w : Nat) : Bool := decide (2 ≤ w) && bitOf h (30 + (w - 2))
def hdrTgt (h : Word) (w : Nat) : Bool := decide (2 ≤ w) && bitOf h (w - 2)

/-- The opcode of a C-code word. -/
def opOf (w : BitVec 32) : Nat := fld w 24 8

/-- The opcode of a long form (R14). -/
def longOp (w : BitVec 32) : Bool := decide (0xE0 ≤ opOf w ∧ opOf w ≤ 0xEF)

/-- The word is FN (R120). -/
def isFn (w : BitVec 32) : Bool := decide (opOf w = 0x6A)

/-- Word `w` of a line passes the checks 3, 4 and 6 of R14. -/
def wordOk (h : Word) (line : Nat → BitVec 32) (w : Nat) : Bool :=
  if hdrCont h w then !hdrCont h (w - 1) && decide (2 < w) && longOp (line (w - 1)) && !hdrTgt h w
  else (!longOp (line w) || (decide (w < 31) && hdrCont h (w + 1))) && (!isFn (line w) || (decide (w = 2) && hdrEnt h))

/-- The header agrees with the line (R14). -/
def lineOk (h : Word) (line : Nat → BitVec 32) : Bool :=
  decide (fld h 61 3 = 0) && !hdrCont h 2 && (!hdrEnt h || (hdrTgt h 2 && isFn (line 2))) &&
    (List.range 30).all (fun i => wordOk h line (i + 2))

/-- The index of a word in its line. -/
def wordIdx (pc : Word) : Nat := pc.toNat % 128 / 4

/-- The next word in sequential flow after an instruction of `n` words (R15). -/
def nextWord (pc : Word) (n : Nat) : Word :=
  if wordIdx pc + n = 32 then pc + BitVec.ofNat 64 (4 * n + 8) else pc + BitVec.ofNat 64 (4 * n)

/-- Translate an address that the device reads or fetches for a control stream; a peer leaf faults (log entry 16). -/
def State.reach (s : State) (core asid : Nat) (va : Word) (acc : AccKind) (user : Bool) : State × Except Nat Nat :=
  match translate s core asid va.toNat acc user with
  | (s, .ok (leaf, loc)) => if leafPeer leaf = 0 then (s, .ok loc) else (s, .error cPAGEFAULT)
  | (s, .error c) => (s, .error c)

/-- The same, answering the leaf. -/
def State.reachLeaf (s : State) (core asid : Nat) (va : Word) (acc : AccKind) (user : Bool) : State × Except Nat Word :=
  match translate s core asid va.toNat acc user with
  | (s, .ok (leaf, _)) => if leafPeer leaf = 0 then (s, .ok leaf) else (s, .error cPAGEFAULT)
  | (s, .error c) => (s, .error c)

/-- Bring a line into a core's L1 as the home holds it, with the core's own buffered bytes (R303, R304); not while a
store of the core to the line is on its way, and not with poison. `rel` is as in `L1Line`. -/
def State.fillL1 (s : State) (core loc : Nat) (uo : Bool) (rel : Nat) : State :=
  let line := loc / 128
  if s.storesToLine core line ∨ s.poisonedAt (128 * line) 128 then s
  else
    let k := s.core core
    let held := if uo then k.uoOver (128 * line) 128 else []
    let bytes := held.foldl (fun bs o => patch bs o.1 [o.2]) (Memory.bytes s.mem (128 * line) 128)
    s.setCore core (k.l1Put ⟨line, uo, bytes, rel⟩)

/-- A load of a control stream may be served by the core's L1 (R303, R344). -/
def loadsL1 (leaf : Word) (va loc : Nat) : Bool := decide (accessKind leaf va ≠ 1) && !inHost loc

/-- Read a part of a line as a load of a core (R303, R336): its L1 serves it where it holds the line, else the home does, for a
request flit on the up-link (R324), where it may read from a release (R354); and the L1 takes the line. Answers the bytes, and whether one of them is poisoned. -/
def State.readPart (s : State) (core asid : Nat) (leaf : Word) (va loc n : Nat) : State × (List Byte × Bool) :=
  let k := s.core core
  let uo := decide (accessKind leaf va = 2)
  let near := loadsL1 leaf va loc
  match (if near then k.l1Find (loc / 128) else none) with
  | some l => (s.l1Hit core l, ((l.bytes.drop (loc % 128)).take n, uo && k.uoBad loc n))
  | none =>
    let part := s.partOfAsid asid
    let s := (s.fillLineOf asid part loc n true).chargeNet (clusterOf core) part 1
    let bytes := if uo then s.seen core loc n else Memory.bytes s.mem loc n
    let bad := if uo then (s.seenBad core loc n).any (fun b => b) else s.poisonedAt loc n
    let s := s.readRel core (s.relOfLine (loc / 128))
    let s := if near then s.fillL1 core loc uo 0 else s
    (s, (bytes, bad))

/-- Read a page's part of a range, line by line. -/
def State.readParts (s : State) (core asid : Nat) (leaf : Word) (va n : Nat) : State × (List Byte × Bool) :=
  (lineParts va (List.replicate n 0)).foldl (fun (acc : State × (List Byte × Bool)) p =>
    let r := acc.1.readPart core asid leaf p.1 (leafLoc leaf p.1) p.2.length
    (r.1, (acc.2.1 ++ r.2.1, acc.2.2 || r.2.2))) (s, ([], false))

/-- Read `n` bytes page by page as a load of a control stream (R99, R336, R339): the bytes and whether one of them is poisoned, or
the fault with its address where one arises. -/
def State.readVa (s : State) (core asid : Nat) (user : Bool) :
    Nat → Nat → Nat → State × Except (Nat × Word) (List Byte × Bool)
  | 0, _, _ => (s, .ok ([], false))
  | fuel + 1, va, n =>
    if n = 0 then (s, .ok ([], false))
    else
      let here := min n (2 ^ 16 - va % 2 ^ 16)
      match s.reachLeaf core asid (BitVec.ofNat 64 va) .read user with
      | (s, .error c) => (s, .error (c, BitVec.ofNat 64 va))
      | (s, .ok leaf) =>
        let r := s.readParts core asid leaf va here
        match r.1.readVa core asid user fuel (va + here) (n - here) with
        | (s', .error e) => (s', .error e)
        | (s', .ok (bs, bad)) => (s', .ok (r.2.1 ++ bs, r.2.2 || bad))

/-- The acting core still has a request of its own on its way to a line of a range, or the split an SO access where the range lies on an
SO page: a read of a record or descriptor waits for them, as it does for an acquire of its control stream
that has not read (R336, R348, R349, R350). -/
def State.readWaits (s : State) (gid place asid : Nat) (user : Bool) (va n : Nat) : Bool :=
  let core := coreOfGid gid
  s.wordAcquires gid place || (pageParts 3 va n).any (fun x => match s.probe core asid x.1 .read user with
    | .error _ => false
    | .ok (leaf, _) =>
      (decide (accessKind leaf x.1 = 1) && s.soOutstanding gid place) ||
        (leafRanges leaf x.1 x.2).any (fun r => s.requestsToLine core (r.1 / 128)))

/-- Fetch the code line of an address (R11, R12): its bytes, or the cause. -/
def State.fetchLine (s : State) (core asid from_ : Nat) (user : Bool) (t : Word) : State × Except Nat (List Byte) :=
  match s.reach core asid t .exec user with
  | (s, .error c) => (s, .error c)
  | (s, .ok loc) => let (s, bs) := s.codeLine from_ loc; (s, .ok bs)

/-- The word of a line may be a target (R16): `entry` for a call. -/
def targetOk (line : List Byte) (entry : Bool) (w : Nat) : Bool :=
  let h := headerOf line
  if entry then decide (w = 2) && hdrEnt h else hdrTgt h w && !(decide (w = 2) && hdrEnt h)

/-- Check a word of code (R11, R16): nothing, or the cause and TVAL. -/
def State.checkWord (s : State) (core asid from_ : Nat) (user : Bool) (ok : List Byte → Nat → Bool) (t : Word) :
    State × Option (Nat × Word) :=
  if t.toNat % 4 ≠ 0 then (s, some (cBADTARGET, t))
  else match s.fetchLine core asid from_ user t with
    | (s, .error c) => (s, some (c, t))
    | (s, .ok line) => (s, if ok line (wordIdx t) then none else some (cBADTARGET, t))

/-- Check the target of a transfer (R11, R16): `entry` for a call. -/
def State.checkTarget (s : State) (core asid from_ : Nat) (user entry : Bool) (t : Word) : State × Option (Nat × Word) :=
  s.checkWord core asid from_ user (fun line w => targetOk line entry w) t

/-- Check the word after a call, to which the call returns, or the join address of JSET: a word with TGT = 1 (R16). -/
def State.checkReturn (s : State) (core asid from_ : Nat) (user : Bool) (t : Word) : State × Option (Nat × Word) :=
  s.checkWord core asid from_ user (fun line w => hdrTgt (headerOf line) w) t

/-- Check the fetch of a deferred path that resumes (R11): it is a transfer, to a word that no table of R16 names. -/
def State.checkFetch (s : State) (core asid from_ : Nat) (user : Bool) (t : Word) : State × Option (Nat × Word) :=
  s.checkWord core asid from_ user (fun _ _ => true) t

/-- Fields of an FN word (R120). -/
def fnSup (w : BitVec 32) : Bool := bitOf w 23
def fnPriv (w : BitVec 32) : Nat := fld w 14 9
def fnVreg (w : BitVec 32) : Nat := fld w 0 5

/-- The field check of an FN word (R118 step 3). -/
def fnOk (w : BitVec 32) : Bool := decide (fnVreg w ≤ 25 ∧ fnPriv w ≤ 256 ∧ fld w 5 9 = 0)

/-- The FN's budget exceeds an allocation of V registers and window bytes (R120). -/
def fnOver (w : BitVec 32) (vregs priv : Nat) : Bool := decide (vregs < 32 + 8 * fnVreg w ∨ priv < 8 * fnPriv w)

/-- Step 3 to 5 of R118 on an FN word: the cause, if one of them fails. -/
def fnFault (fn : BitVec 32) (vregs priv : Nat) (noSup : Bool) : Option Nat :=
  if !fnOk fn then some cILLEGAL else if fnSup fn && noSup then some cPRIV else if fnOver fn vregs priv then some cBUDGET else none

/-- Steps 1 to 5 of R118 for one target: nothing, or the cause and TVAL. `ret` is the return address; `noSup` refuses a
supervisor function. -/
def State.checkCall (s : State) (core asid from_ vregs priv : Nat) (user noSup : Bool) (ret : Option Word) (t : Word) :
    State × Option (Nat × Word) :=
  if t.toNat % 4 ≠ 0 then (s, some (cBADTARGET, t))
  else match s.fetchLine core asid from_ user t with
    | (s, .error c) => (s, some (c, t))
    | (s, .ok line) =>
      if !targetOk line true (wordIdx t) then (s, some (cBADTARGET, t))
      else
        let (s, bad) := match ret with | some r => s.checkReturn core asid from_ user r | none => (s, none)
        match bad with
        | some e => (s, some e)
        | none => (s, (fnFault (wordOf line (wordIdx t)) vregs priv noSup).map (fun c => (c, 0)))

end Sys2Proof.Machine
end

