-- ==== Sys2Proof/Machine/Lines.lean ====
section
/-! DEFINITION. The device's own accesses for a group, to its context area (R370), and the register lines of the pool (R293). -/

namespace Sys2Proof.Machine

/-! ### Device accesses on behalf of a group (R293, R370): RC, supervisor rights -/

/-- Write bytes, each part within a line, for the device itself: the core's L1 takes them where it holds their lines (R303), and
the sector's guest copies go (R308). Register-line traffic is not charged (R324). -/
def State.deviceStore (s : State) (gid : Nat) (parts : List (Nat × List Byte)) (paid : Bool) : State :=
  let core := coreOfGid gid
  let s := s.setCore core (parts.foldl (fun k e => k.l1Store e.1 e.2) (s.core core))
  let s := parts.foldl (fun s e => s.dropGuest (sectorOf core) (e.1 / 128)) s
  parts.foldl (fun s e => s.writeLines (s.asidOfGid gid) (s.partOfGid gid) e.1 e.2 paid) s

/-- A write of the device that the partition pays for. -/
def State.deviceWrite (s : State) (gid loc : Nat) (bs : List Byte) : State := s.deviceStore gid (lineParts loc bs) true

/-- The location of an address of the context area. -/
def State.ctxLoc (s : State) (gid : Nat) (va : Word) (acc : AccKind) : State × Except Nat Nat :=
  s.reach (coreOfGid gid) (s.asidOfGid gid) va acc false

/-- Where `n` bytes of the context area from `va` up lie, page by page and line by line, each part with its length (R296, R370);
or the cause of a fault with its address. -/
def State.ctxParts (s : State) (gid va n : Nat) (acc : AccKind) : State × Except (Nat × Word) (List (Nat × Nat)) :=
  (pageParts (n / 2 ^ 16 + 2) va n).foldl (fun (a : State × Except (Nat × Word) (List (Nat × Nat))) p =>
    match a with
    | (s, .error e) => (s, .error e)
    | (s, .ok ls) => match s.reachLeaf (coreOfGid gid) (s.asidOfGid gid) (BitVec.ofNat 64 p.1) acc false with
      | (s, .error c) => (s, .error (c, BitVec.ofNat 64 p.1))
      | (s, .ok leaf) => (s, .ok (ls ++ leafRanges leaf p.1 p.2))) (s, .ok [])

/-- The parts of `n` bytes from byte `off` of a range on. -/
def cutParts : List (Nat × Nat) → Nat → Nat → List (Nat × Nat)
  | [], _, _ => []
  | p :: ps, off, n =>
    if n = 0 then []
    else if p.2 ≤ off then cutParts ps (off - p.2) n
    else (p.1 + off, min n (p.2 - off)) :: cutParts ps 0 (n - (p.2 - off))

/-- Lay bytes out over parts. -/
def layParts : List (Nat × Nat) → List Byte → List (Nat × List Byte)
  | [], _ => []
  | p :: ps, bs => (p.1, bs.take p.2) :: layParts ps (bs.drop p.2)

/-- The bytes of parts, and a number that stands in them. -/
def State.partBytes (s : State) (ps : List (Nat × Nat)) : List Byte := ps.flatMap (fun p => Memory.bytes s.mem p.1 p.2)
def State.partNat (s : State) (ps : List (Nat × Nat)) (off n : Nat) : Nat := natOfBytes (s.partBytes (cutParts ps off n))

/-- Write bytes from byte `off` of a range on, for the device itself. -/
def State.partWrite (s : State) (gid : Nat) (ps : List (Nat × Nat)) (off : Nat) (bs : List Byte) : State :=
  s.deviceStore gid (layParts (cutParts ps off bs.length) bs) true

/-- Bring parts into their home slices, at which the device reads them (R370). -/
def State.partFill (s : State) (gid : Nat) (ps : List (Nat × Nat)) (paid : Bool) : State :=
  ps.foldl (fun s p => s.fillLineOf (s.asidOfGid gid) (s.partOfGid gid) p.1 p.2 paid) s

/-! ### Register lines (R293) -/

/-- The group halts for a fault of the device's own access (R293, R370). -/
def State.deviceFault (s : State) (gid cause : Nat) (va : Word) : State :=
  (s.updGroup gid (fun g => { g with tcause := BitVec.ofNat 9 cause, tval := va, tmask := g.alive })).haltGroup gid cause va

/-- Write one dirty line to the image with the poison of its words, and drop it. -/
def State.evictLine (s : State) (gid j : Nat) : State :=
  match FMap.get s.groups gid with
  | none => s
  | some g =>
    match s.unitOf g, FMap.get g.lines j with
    | some u, some st =>
      let va := s.ctxb gid g + BitVec.ofNat 64 (1024 * j)
      let s := s.updGroup gid (fun g => g.dropLine u.vLines j)
      let s := s.updUnit g.uid (fun u => { u with lru := u.lru.filter (fun x => decide (x ≠ 128 * (gid % 64) + j)) })
      if st = .clean then s
      else match s.ctxParts gid va.toNat 1024 .write with
        | (s, .ok ps) =>
          (g.lineBad u.vLines j).foldl (fun s w => s.setPoison (locIn ps (8 * w)) true)
            (s.deviceStore gid (layParts ps (g.lineBytes u.vLines j)) false)
        | (s, .error (c, _)) => s.deviceFault gid c va
    | _, _ => s

/-- A line of the unit that some run in progress names, suspended or not (R25, R293). -/
def Group.busyLine (g : Group) (j : Nat) : Bool :=
  g.splits.any (fun e => e.2.running.any (fun r => r.names.contains j) || e.2.runq.any (fun r => r.resumed && r.names.contains j)) ||
    g.handler.any (fun h => h.run.any (fun r => r.names.contains j))

/-- The least recently named line of the unit that may be evicted (R293). -/
def State.victimLine (s : State) (core : Nat) (u : UnitRec) : Option (Nat × Nat) :=
  (u.lru.reverse.find? (fun x => match FMap.get s.groups (gidOf core (x / 128)) with
    | some g => !g.lineEmpty (x % 128) && !g.busyLine (x % 128)
    | none => true)).map (fun x => (gidOf core (x / 128), x % 128))

/-- Take a line in from the image, with zeros where nothing has been written since group start; a full region evicts
first, and where no line may be evicted nothing happens (R293). -/
def State.fillLine (s : State) (gid j : Nat) : State :=
  match FMap.get s.groups gid with
  | none => s
  | some g =>
    match s.unitOf g, FMap.get g.lines j with
    | some u, none =>
      let full := decide (s.regionLines u ≤ u.lru.length)
      let victim := s.victimLine (coreOfGid gid) u
      if full ∧ victim.isNone then s
      else
        let s := match full, victim with
          | true, some (vg, vj) => s.evictLine vg vj
          | _, _ => s
        let take := fun s : State =>
          (s.updGroup gid (fun g => { g with lines := FMap.put g.lines j .clean })).updUnit g.uid
            (fun u => { u with lru := (128 * (gid % 64) + j) :: u.lru })
        if !FMap.rd false g.written j then take s
        else
          let va := s.ctxb gid g + BitVec.ofNat 64 (1024 * j)
          match s.ctxParts gid va.toNat 1024 .read with
          | (s, .ok ps) =>
            let s := s.partFill gid ps false
            if ps.any (fun p => s.poisonedAt p.1 p.2) then s.deviceFault gid cSOFT va
            else take (s.updGroup gid (fun g => g.takeLine u.vLines j (s.partBytes ps)))
          | (s, .error (c, _)) => s.deviceFault gid c va
    | _, _ => s

/-- Name a line: it becomes the most recently used of its unit. -/
def State.nameLine (s : State) (gid uid j : Nat) : State :=
  let x := 128 * (gid % 64) + j
  s.updUnit uid (fun u => if u.lru.contains x then { u with lru := x :: u.lru.filter (fun y => decide (y ≠ x)) } else u)

/-- An access to a window reaches its line: an absent one is filled first (R293, R294). -/
def State.reachLine (s : State) (gid uid j : Nat) : State :=
  if (FMap.get s.groups gid).any (fun g => (FMap.get g.lines j).isSome) then s.nameLine gid uid j else s.fillLine gid j

/-- None of a unit's lines may be evicted for another (R293). -/
def State.linesFull (s : State) (core : Nat) (u : UnitRec) : Bool :=
  decide (s.regionLines u ≤ u.lru.length) && (s.victimLine core u).isNone

end Sys2Proof.Machine
end

