-- ==== Sys2Proof/Machine/LaneAccess.lean ====
section
/-! DEFINITION. The accesses of the lane memory instructions (R205 to R214): their shape, their translation, the bytes
that R208 leaves to each lane, and their issue and reissue (R374). -/

namespace Sys2Proof.Machine

/-- Where a lane access goes: memory through an X register, the unit's scratchpad, the lane's window. -/
inductive Room where
  | memory | scratchpad | window
deriving DecidableEq, Repr

/-- What a lane access does. -/
inductive Deed where
  | load | store | atomic
deriving DecidableEq, Repr

/-- The shape of a lane memory instruction (R205, R212). -/
structure Shape where
  room : Room
  deed : Deed
  size : Nat
  off : Int
  x : Nat
  signed : Bool
  planes : Nat
  op : Nat
  aty : Nat
  order : Nat
  scope : Nat
  stor : Nat
  prom : Bool
  fields : LF
deriving DecidableEq, Repr

/-- Bytes of an access by SZ (R205). -/
def szBytes (md : BitVec 6) : Nat := 8 / 2 ^ (md.toNat % 4)

/-- The shape of LD, ST, LDS, STS, LDP and STP. -/
def plainShape (room : Room) (deed : Deed) (f : LF) : Shape :=
  ⟨room, deed, szBytes f.md, f.imm.toInt, f.b.toNat % 8, decide (f.ty = 1), 0, 0, 0, 0, 0, 0, false, f⟩

/-- The type of an atomic: 0 unsigned or raw, 1 signed, 8 or 9 float (R213). -/
def atomTy (ty : Nat) : Nat := if ty = 1 ∨ ty = 3 then 1 else if ty = 8 ∨ ty = 9 then ty else 0

/-- The shape of ATOM and ATOMS (R212). -/
def atomShape (room : Room) (f : LF) : Shape :=
  let size := if f.ty = 2 ∨ f.ty = 3 ∨ f.ty = 9 then 4 else 8
  let ord := f.md.toNat / 16
  let scope := if fld f.imm 25 7 = 0 ∧ ord = 0 then 4 else fld f.imm 29 3
  ⟨room, .atomic, size, sextNat 16 (f.imm.toNat % 2 ^ 16), f.b.toNat % 8, false, 0, f.md.toNat % 16, atomTy f.ty.toNat,
    ord, scope, fld f.imm 26 3, f.imm.getLsbD 25, f⟩

/-- Lanes that load a word under PL = 1: 2 + k (R207). -/
def planeLanes (f : LF) : Nat := 2 + (if f.md.toNat / 8 = 0 then bxBits f.ty.toNat else f.md.toNat / 8)

/-- The shape of a lane memory instruction; none for any other instruction. -/
def shapeOf : Instr → Option Shape
  | .lLd f => some (plainShape .memory .load f)
  | .lLdPlanes f => some { plainShape .memory .load f with size := 8, signed := false, planes := planeLanes f }
  | .lSt f => some (plainShape .memory .store f)
  | .lLds f => some (plainShape .scratchpad .load f)
  | .lSts f => some (plainShape .scratchpad .store f)
  | .lLdp f => some (plainShape .window .load f)
  | .lStp f => some (plainShape .window .store f)
  | .lAtom f => some (atomShape .memory f)
  | .lAtoms f => some (atomShape .scratchpad f)
  | _ => none

/-- The shape of the instruction with these bits. -/
def shapeOfBits (b : LBits) : Option Shape := match decodeLane b.toNat with | some i => shapeOf i | none => none

/-- The access needs write permission (R206, R213). -/
def Shape.writes (sh : Shape) : Bool :=
  match sh.deed with
  | .load => false
  | .store => true
  | .atomic => decide (sh.op ≠ 8)

/-- The order's acquire and release parts (R214). -/
def Shape.acquires (sh : Shape) : Bool := decide (sh.order = 1 ∨ sh.order = 3)
def Shape.releases (sh : Shape) : Bool := decide (sh.order = 2 ∨ sh.order = 3)

/-- What a landed access writes into D (R205, R213). -/
def Shape.landed (sh : Shape) (v : Word) : Word :=
  if sh.signed then BitVec.ofInt 64 (sextNat (8 * sh.size) v.toNat) else BitVec.ofNat 64 (v.toNat % 2 ^ (8 * sh.size))

/-- The packet slack of sk: the split's default or an SLKTAB entry (R42, R158). -/
def slackOf (g : Group) (p : Split) (sk : BitVec 2) : Nat :=
  if sk = 0 then p.dslack.toNat else fld g.slktab (12 * (sk.toNat - 1)) 12

/-- Translate one lane's access: the fast path of an X register, else the TLB path (R110, R206). -/
def laneTranslate (s : State) (core asid : Nat) (user : Bool) (x : Option XReg) (va : Word) (size : Nat) (write : Bool) :
    State × Except Nat (Word × Nat) :=
  let acc := if write then AccKind.write else AccKind.read
  if va.toNat % size ≠ 0 then (s, .error cMISALIGN)
  else match x with
    | none => translate s core asid va.toNat acc user
    | some x =>
      let o := (va - x.vb).toInt
      if 0 ≤ o ∧ o + size ≤ x.lim.toNat ∧ (!write ∨ leafD x.pte) ∧ (rightsFault x.pte acc user).isNone then
        (s, .ok (x.pte, leafLoc x.pte va.toNat))
      else translate s core asid va.toNat acc user

/-- The bytes of lane `l`'s store that no higher acting lane writes, as a mask (R208). -/
def bytesLeft (opA : FMap Word) (lanes : List Nat) (size l : Nat) : Nat :=
  let a := (FMap.rd 0 opA l).toNat
  (List.range size).foldl (fun m i =>
    if lanes.any (fun k => decide (l < k) && decide ((FMap.rd 0 opA k).toNat ≤ a + i ∧
      a + i < (FMap.rd 0 opA k).toNat + size)) then m else m + 2 ^ i) 0

/-- The accesses of one lane once translated. -/
def Shape.reqs (sh : Shape) (p : Producer) (lane loc : Nat) (leaf : Word) : List Req :=
  let va := (FMap.rd 0 p.opA lane).toNat
  match sh.deed with
  | .load => [⟨lane, 0, va, loc, leaf, sh.size, .load []⟩]
  | .store => storeReqs lane loc va sh.size (FMap.rd 0 p.vals lane).toNat leaf (FMap.rd 0 p.opB lane)
  | .atomic => [⟨lane, 0, va, loc, leaf, sh.size, .atomic sh.op sh.aty (FMap.rd 0 p.opC lane) (FMap.rd 0 p.opB lane)⟩]

/-- Translate the accesses of some lanes: the requests, and the lanes that fault with their causes. -/
def translateLanes (s : State) (core asid : Nat) (sh : Shape) (p : Producer) (x : Option XReg) (lanes : List Nat) :
    State × List Req × List (Nat × Nat) :=
  lanes.foldl (fun (acc : State × List Req × List (Nat × Nat)) l =>
    match laneTranslate acc.1 core asid p.um x (FMap.rd 0 p.opA l) sh.size sh.writes with
    | (s, .ok (leaf, loc)) => (s, acc.2.1 ++ sh.reqs p l loc leaf, acc.2.2)
    | (s, .error c) => (s, acc.2.1, acc.2.2 ++ [(l, c)])) (s, [], [])

/-- A scratchpad or window access of size `n` at offset `o` within `bytes` faults (R210, R211). -/
def localFault (o : Int) (n bytes : Nat) : Option Nat :=
  if o % n ≠ 0 then some cMISALIGN else if o < 0 ∨ o + n > bytes then some cPROTECT else none

/-- Write the bytes of a mask into the scratchpad. -/
def UnitRec.scrMask (u : UnitRec) (o size mask : Nat) (v : Word) : UnitRec :=
  if mask = 2 ^ size - 1 then u.scrPut o (bytesOf size v.toNat)
  else (List.range size).foldl (fun u i =>
    if (mask >>> i) % 2 = 1 then u.scrPut (o + i) [BitVec.ofNat 8 (v.toNat >>> (8 * i))] else u) u

/-- Perform the scratchpad access of one lane at once (R210, R213, R342). An atomic leaves a poisoned word poisoned. -/
def scratchAccess (s : State) (gid pid uid : Nat) (sh : Shape) (p : Producer) (l : Nat) : State :=
  match FMap.get s.units uid with
  | none => s
  | some u =>
    let o := (FMap.rd 0 p.opA l).toNat
    let old := u.scrAt o sh.size
    let bad := if u.scrBad o sh.size then laneBit l else 0
    let gain := fun p : Producer =>
      { p.gain [(l, 0, BitVec.ofNat 64 old)] (laneBit l) with poison := p.poison ||| bad }
    match sh.deed with
    | .load => s.updProducer gid pid gain
    | .store => s.updUnit uid (fun u => u.scrMask o sh.size (FMap.rd 0 p.vals l).toNat (FMap.rd 0 p.opB l))
    | .atomic =>
      let w := 8 * sh.size
      let new := atomicNew sh.op sh.aty w old ((FMap.rd 0 p.opC l).toNat % 2 ^ w) ((FMap.rd 0 p.opB l).toNat % 2 ^ w)
      let put := fun u : UnitRec => { u.scrPut o (bytesOf sh.size new) with scrPoison := u.scrPoison }
      (if sh.op = 8 then s else s.updUnit uid put).updProducer gid pid gain

/-- The register line of a window byte (R292). -/
def UnitRec.windowLine (u : UnitRec) (o : Nat) : Nat := u.vLines + o / 32

/-- Perform the window access of one lane at once (R211), in its register line (R293, R294). -/
def windowAccess (s : State) (gid pid uid : Nat) (sh : Shape) (p : Producer) (l : Nat) : State :=
  let o := (FMap.rd 0 p.opA l).toNat
  let j := match FMap.get s.units uid with | some u => u.windowLine o | none => 0
  let s := s.reachLine gid uid j
  match sh.deed with
  | .store =>
    let v := bytesOf sh.size (FMap.rd 0 p.opB l).toNat
    s.updGroup gid (fun g => { g.winPut l o v with lines := FMap.put g.lines j .dirty, written := FMap.wr false g.written j true })
  | _ =>
    match FMap.get s.groups gid with
    | none => s
    | some g =>
      let bad := if g.winPoisoned l o sh.size then laneBit l else 0
      s.updProducer gid pid (fun p =>
        { p.gain [(l, 0, BitVec.ofNat 64 (g.winAt l o sh.size))] (laneBit l) with poison := p.poison ||| bad })

/-- The lanes that fault, as a set. -/
def faultLanes (fs : List (Nat × Nat)) : Lanes := lanesOf (fun l => fs.any (fun f => f.1 = l))

/-- Issue the accesses of some lanes of a producer, whose operands are captured: the lanes that fault, with their
causes, stay in the replay buffer (R206, R210, R211, R374). `dove` is as in `How`. -/
def issueLanes (s : State) (gid place pid : Nat) (sh : Shape) (fast : Bool) (dove : Nat) (lanes : List Nat) : State × List (Nat × Nat) :=
  match FMap.get s.groups gid with
  | none => (s, [])
  | some g =>
    match FMap.get g.replay pid, FMap.get g.splits place with
    | some p, some sp =>
      let u := s.unitOf g
      let mark := fun (s : State) (fs : List (Nat × Nat)) =>
        s.updProducer gid pid (fun p => { p with sent := true, flt := faultLanes fs, fltCause := (fs.map (·.2)).headD 0 })
      let check := fun bytes : Nat => lanes.filterMap (fun l =>
        (localFault (FMap.rd 0 p.opA l).toInt sh.size bytes).map (fun c => (l, c)))
      match sh.room with
      | .memory =>
        let x := if fast then some (g.getX sh.x) else none
        let (s, rs, fs) := translateLanes s (coreOfGid gid) (s.asidOf g) sh p x lanes
        let how : How := ⟨slackOf g sp sh.fields.sk, sh.order, sh.scope, sh.prom, dove⟩
        let s := mark s fs
        (s.issueAll gid place (if sh.deed = .store then none else some pid) how rs, fs)
      | .scratchpad =>
        let fs := check (match u with | some u => u.scrSize | none => 0)
        let go := lanes.filter (fun l => !(fs.any (fun f => f.1 = l)))
        (go.foldl (fun s l => scratchAccess s gid pid g.uid sh p l) (mark s fs), fs)
      | .window =>
        let fs := check (match u with | some u => u.priv | none => 0)
        let go := lanes.filter (fun l => !(fs.any (fun f => f.1 = l)))
        (go.foldl (fun s l => windowAccess s gid pid g.uid sh p l) (mark s fs), fs)
    | _, _ => (s, [])

/-- The trap value of a faulting access: the address of its lowest faulting lane (R206, R364). -/
def faultValue (p : Producer) (fs : List (Nat × Nat)) : Word :=
  match fs with
  | [] => 0
  | f :: _ => FMap.rd 0 p.opA f.1

end Sys2Proof.Machine
end

