-- ==== Sys2Proof/Machine/Ops.lean ====
section
/-! DEFINITION. The program counter, taking a trap and returning from one (R364 to R374), and the skeleton of a control-stream
meaning (R37, R96). -/

namespace Sys2Proof.Machine

/-- What a meaning answers. -/
abbrev Answer := Host.Outcome State Fault Refusal

/-! ### The acting split -/

/-- Change the acting split. -/
def State.onSplit (s : State) (f : Split → Split) : State := s.updSplit s.gid s.cur.place f

/-- The split has issued and stands at a new word, which issues at cycle `next` at the earliest (R98): its waiting count
starts afresh (R276). A step within its line needs no fetch (R11). -/
def Split.movedTo (p : Split) (pc : Word) (seq : Bool) (next : Nat) : Split :=
  let stays := seq && decide (pc.toNat / 128 = p.pc.toNat / 128)
  { p with pc := pc, seq := seq, issued := none, fetched := if stays then p.fetched else none, marked := none, next := next,
           ready := false, since := none, waited := 0, overdue := none }

/-- The core cycle of the acting split. -/
def State.now (s : State) : Nat := (s.core s.cur.core).ccyc

/-- Go on at the next word after an instruction of `n` words (R15), in the next cycle (R98). -/
def State.goOn (s : State) (n : Nat) : State := s.onSplit (fun p => p.movedTo (nextWord p.pc n) true (s.now + 1))

/-- The fetch that a transfer makes: each split of the group that has just been transferred to a line holds it (R11, R12). A fetch
that fails here is made again for the word itself. -/
def State.preload (s : State) (gid : Nat) : State :=
  match FMap.get s.groups gid with
  | none => s
  | some g => g.splits.foldl (fun s e =>
      if e.2.fetched.isSome ∨ e.2.seq ∨ e.2.parked.isSome then s
      else match s.fetchLine (coreOfGid gid) (s.asidOf g) (s.codeFrom g) (!e.2.sm) e.2.pc with
        | (t, .ok line) => t.updSplit gid e.1 (fun p => { p with fetched := some line })
        | (_, .error _) => s) s

/-- Go on at a target, two cycles after the transfer (R98). -/
def State.goTo (s : State) (t : Word) : State := (s.onSplit (fun p => p.movedTo t false (s.now + 2))).preload s.gid

/-- Keep what the issued word needs while it waits (R366): `src` holds the sources that it read at issue (R96). -/
def State.holdWith (s : State) (num : Nat) (val : Word) (src : List Word) : State :=
  s.onSplit (fun p => { p with issued := some ⟨num, val, src⟩ })

/-- Keep what the issued word needs while it waits, beside its sources. -/
def State.hold (s : State) (num : Nat) (val : Word) : State := s.holdWith num val []

/-- Source `i` of the acting word: as it was read when the word issued, else as the register now holds it (R96, R366). -/
def sourceAt (g : Group) (p : Split) (i : Nat) (n : BitVec 6) : Word :=
  match p.issued with
  | some w => w.src.getD i (readS g p n)
  | none => readS g p n

/-! ### The frame (R371) -/

/-- The state of a replay-queue entry: 0 HELD, 1 PENDING, 2 DONE, 3 SUPERSEDED (R371, R372). One that has an access still to perform is
HELD, whatever of it a debugger has superseded (R383). -/
def Producer.state (p : Producer) : Nat :=
  if p.flt ≠ 0 ∨ !p.sent then 0
  else if p.mask ≠ 0 ∧ p.sup = p.mask then 3
  else if p.landed ||| p.sup = p.mask then 2
  else 1

/-- A producer that no request has left the core for is withdrawn at entry (R372); `inCore` tells that its requests are all
held back at the core by a dovetail run (R379). -/
def Producer.withdraw (p : Producer) (inCore : Bool) : Producer :=
  match p.kind with
  | .near | .hpop _ _ _ | .acc => if p.ready = 0 then { p with sent := false } else p
  | _ => if inCore then { p with sent := false } else p

/-- The packet carries requests of a producer. -/
def Packet.serves (gid pid : Nat) (p : Packet) : Bool :=
  decide (p.gid = gid) && (match p.body with | .req _ q _ _ _ _ _ _ => decide (q = some pid) | _ => false)

/-- The producers of a group as the frame records them (R372). -/
def State.withdrawn (s : State) (gid : Nat) (g : Group) : FMap Producer :=
  g.replay.map (fun e =>
    let mine := s.pkts.filter (fun q => q.2.serves gid e.1)
    (e.1, e.2.withdraw (!mine.isEmpty && mine.all (fun q => q.2.heldBack))))

/-- The kind of a replay-queue entry (R371). -/
def Producer.kindNo (p : Producer) : Nat := if p.ctl then 3 else if p.flt ≠ 0 then 2 else 1

/-- The 32 lanes of a captured operand. -/
def laneWords (m : FMap Word) : List Byte := (laneList.map (fun l => bytesOf 8 (FMap.rd 0 m l).toNat)).flatten

/-- An entry of the frame (R371). -/
def frameEntry (idx kind st insn : Nat) (mask landed sup flt : Lanes) (a b c : FMap Word) : List Byte :=
  bytesOf 8 (256 * idx + 4 * kind + st) ++ bytesOf 12 insn ++ bytesOf 4 mask.toNat ++ bytesOf 4 landed.toNat ++
    bytesOf 4 sup.toNat ++ bytesOf 4 flt.toNat ++ bytesOf 28 0 ++ laneWords a ++ laneWords b ++ laneWords c ++ bytesOf 192 0

/-- Operand a as an entry shows it: the address of a faulted access, else the operand as captured, which a lane access
keeps from key 1024 of its values on (R371). -/
def Producer.frameA (p : Producer) : FMap Word :=
  match p.kind, p.ctl with
  | .access, false => if p.flt ≠ 0 then p.opA else laneList.foldl (fun m l => FMap.wr 0 m l (FMap.rd 0 p.vals (1024 + l))) []
  | _, _ => p.opA

/-- The addresses of an entry whose operand a the handler left as `a`: those of a faulted access themselves, else the
captured addresses moved by the change of the operand (R371, R373). -/
def Producer.addrA (p : Producer) (a : FMap Word) : FMap Word :=
  match p.kind, p.ctl with
  | .access, false =>
    if p.flt ≠ 0 then a
    else laneList.foldl (fun m l => FMap.wr 0 m l (FMap.rd 0 p.opA l + (FMap.rd 0 a l - FMap.rd 0 p.vals (1024 + l)))) []
  | _, _ => a

/-- The entry of a producer. -/
def Producer.entry (p : Producer) : List Byte :=
  frameEntry (if p.ctl then 0 else p.idx) p.kindNo p.state p.bits.toNat p.mask p.landed p.sup p.flt p.frameA p.opB p.opC

/-- The entry of an instruction held (R371): MASK is the run's active set. -/
def heldEntry (r : Run) (i : RunInsn) : List Byte := frameEntry i.idx 0 0 i.bits.toNat r.active 0 0 0 [] [] []

/-- The words of the header from 0x00 to 0x37, and TSAVE from 0x40 (R371). -/
def frameHeader (next count run active : Nat) (q : List Word) : List Byte :=
  bytesOf 8 (count + 256 * next) ++ bytesOf 8 run ++ bytesOf 8 active ++ (q.map (fun w => bytesOf 8 w.toNat)).flatten

/-- The T registers of a run, register by register, lane by lane (R371). -/
def runT (r : Run) : List Word :=
  ((List.range 8).map (fun i => laneList.map (fun l => FMap.rd 0 r.t (32 * i + l)))).flatten

/-- Where a frame of `n` entries lies (R370, R371). -/
def State.frameParts (s : State) (gid : Nat) (g : Group) (n : Nat) (acc : AccKind) : State × Except (Nat × Word) (List (Nat × Nat)) :=
  s.ctxParts gid (s.tframe gid g).toNat (0x840 + 0x400 * n) acc

/-- Write the frame of a group at TFRAME. `run` is the trapping run, `held` tells that its instructions are held.
Without a trapping run the header's RUN, ACTIVE, Q and TSAVE are free values (log entry 17). Nothing where the access
faults. -/
def State.writeFrame (s : State) (gid : Nat) (g : Group) (run : Option Run) (held : Bool) : Option State :=
  let todo := match run with | some r => if held then r.todo else [] | none => []
  let next := match todo with | [] => 0xFF | i :: _ => i.idx
  let count := g.replay.length + todo.length
  match s.frameParts gid g count .write with
  | (_, .error _) => none
  | (s, .ok ps) =>
    let (ws, s) := match run with
      | some r => ([BitVec.ofNat 64 (16 * r.line + r.slot), r.active.zeroExtend 64] ++
          (List.range 4).map (fun i => FMap.rd 0 r.q i) ++ runT r, s)
      | none => s.frees 262
    let head := frameHeader next count ((ws.headD 0).toNat % 2 ^ 22) ((ws.getD 1 0).toNat % 2 ^ 32) ((ws.drop 2).take 4)
    let s := s.partWrite gid ps 0 head
    let s := s.partWrite gid ps 0x40 (((ws.drop 6).map (fun w => bytesOf 8 w.toNat)).flatten)
    let entries := (g.replay.map (fun e => e.2.entry)) ++
      (match run with | some r => todo.map (heldEntry r) | none => [])
    some (s.partWrite gid ps 0x840 entries.flatten)

/-! ### Traps -/

/-- A run of the group is issuing (R367). -/
def Group.issuing (g : Group) : Bool :=
  g.splits.any (fun e => match e.2.running with | some r => !r.suspended | none => false)

/-- The class is taken at the trapping instruction (R367). -/
def TrapClass.precise : TrapClass → Bool
  | .P | .A | .F | .R | .T => true
  | .D | .S | .H => false

/-- TVEC names word 2 of a line with ENT = 1 that holds an FN with SUP = 1 (R368). -/
def State.vectorOk (s : State) (gid : Nat) (g : Group) : Bool :=
  match s.fetchLine (coreOfGid gid) (s.asidOf g) (s.codeFrom g) false g.tvec with
  | (_, .ok line) =>
    decide (g.tvec.toNat % 128 = 8) && hdrEnt (headerOf line) && isFn (wordOf line 2) && fnSup (wordOf line 2)
  | (_, .error _) => false

/-- What is kept of the trapping split (R368). -/
def Split.aside (p : Split) : Aside := ⟨p.pc, p.seq, p.mask, p.stack, p.parked, p.issued, p.fetched, p.runq⟩

/-- The trapping split in its handler (R366, R368). -/
def Split.trapped (p : Split) (tvec : Word) (tmask : Lanes) (tpc : Word) : Split :=
  { p with pc := tvec, seq := false, mask := tmask, stack := [], parked := none, issued := none, fetched := none, yielding := 0,
           ready := false, since := none, waited := 0, overdue := none, marked := none, runq := [], running := none, pm := p.sm, sm := true,
           wr := p.issued.isSome || p.parked.isSome, tpc := tpc }

/-- The trapping run of a due trap, and whether its instructions are held (R365). -/
def Due.runOf (d : Due) (p : Split) : Option Run × Bool :=
  if d.lane ∧ d.cls.precise then (p.running, decide (d.cls ≠ .F)) else (none, false)

/-- TAKE A TRAP (R368, R369): `d` is taken, `rest` stays due. -/
def State.enterTrap (s : State) (gid : Nat) (d : Due) (rest : List Due) : State :=
  match FMap.get s.groups gid with
  | none => s
  | some g =>
    match FMap.get g.splits d.place with
    | none => s.putGroup gid { g with due := rest }
    | some p =>
      let code := BitVec.ofNat 9 (d.cause + if d.lane then 0x100 else 0)
      let replay := s.withdrawn gid g
      let g := { g with due := rest, tcause := code, tval := d.tval, tmask := d.tmask, replay := replay }
      let s := s.putGroup gid g
      let (run, held) := d.runOf p
      if p.sm ∨ d.cls = .H ∨ (d.cls.precise ∧ d.sup) then s.haltGroup gid d.cause d.tval
      else
        let ok := s.vectorOk gid g
        match s.writeFrame gid g run held with
        | none => s.haltGroup gid d.cause d.tval
        | some s =>
          let h : Handler := ⟨d.place, d.cause, d.lane, p.aside, p.running, held, g.replay.map (·.1), []⟩
          if !ok then s.haltGroup gid d.cause d.tval
          else s.updGroup gid (fun g =>
            { g with handler := some h }.updSplit d.place (fun p => p.trapped g.tvec d.tmask (if d.cls = TrapClass.T then nextWord p.pc 1 else p.pc)))

/-- The precise trap that a boundary takes first: the lowest place, a run's before a word's (R369). -/
def firstDue (ds : List Due) : Option Due :=
  minBy (fun a b => decide (a.place < b.place) || (decide (a.place = b.place) && a.lane && !b.lane))
    (ds.filter (fun d => d.cls.precise))

/-- Runs of other splits that stopped at a class P trap issue that instruction again (R369). -/
def Group.retry (g : Group) (ds : List Due) : Group :=
  ds.foldl (fun g d => if d.cls = .P ∧ d.lane then
    g.updSplit d.place (fun p => { p with running := p.running.map (fun r => { r with suspended := true, resumed := true }) })
    else g) g

/-- A debugger's stop is asked for: cause 0, which no trap has (R382). -/
def Group.stopAsked (g : Group) : Bool := g.due.any (fun d => decide (d.cause = 0 ∧ d.cls = .S))

/-- STOP for the debugger (R382): as an entry, with no handler and the trap registers unchanged. Inside a handler the
frame stays the handler's. -/
def State.stopNow (s : State) (gid : Nat) : State :=
  match FMap.get s.groups gid with
  | none => s
  | some g =>
    let due := g.due.filter (fun d => decide (d.cause ≠ 0))
    if g.handler.isSome then s.putGroup gid { g with due := due, stopped := true, stopFrame := [] }
    else
      let g := { g with due := due, replay := s.withdrawn gid g }
      match (s.putGroup gid g).writeFrame gid g none false with
      | none => (s.putGroup gid g).haltGroup gid (g.tcause.toNat % 256) g.tval
      | some s => s.putGroup gid { g with stopped := true, stopFrame := g.replay.map (·.1) }

/-- What a boundary may take: all that is due, but within a handler only the precise trap of its own code (R368, R369). -/
def Group.takeable (g : Group) : List Due := if g.handler.isSome then g.due.filter (·.sup) else g.due

/-- A stop that is asked for, once the precise traps have been taken (R369, R382). -/
def State.settleStop (s : State) (gid : Nat) : State :=
  if (FMap.get s.groups gid).any (fun g => !g.halted && g.stopAsked) then s.stopNow gid else s

/-- Take the precise trap that is due, if the group is at a boundary (R367, R369), and after it a debugger's stop. The traps of other
splits' words, and their faulted accesses, which stand in the frame, arise again after the handler. -/
def State.settle (s : State) (gid : Nat) : State :=
  match FMap.get s.groups gid with
  | none => s
  | some g =>
    if g.halted ∨ g.stopped ∨ g.issuing then s
    else match firstDue g.takeable with
      | none => s.settleStop gid
      | some d =>
        let others := g.due.filter (fun e => decide (e ≠ d))
        ((s.putGroup gid (g.retry others)).enterTrap gid d
          (others.filter (fun e => decide (e.cls ≠ .P ∧ e.cls ≠ .T ∧ e.cls ≠ .F)))).settleStop gid

/-- A trap arises. One that is precise and raised by supervisor code halts the group at the boundary (R368). -/
def State.addDue (s : State) (gid : Nat) (d : Due) (sup : Bool) : State :=
  (s.updGroup gid (fun g => { g with due := g.due ++ [{ d with sup := sup }] })).settle gid

/-- A trap of class P at the acting word, which issues afresh after the handler (R365, R366). -/
def State.trap (s : State) (cause : Nat) (tval : Word) : State :=
  match s.actor with
  | none => s
  | some (_, p) =>
    (s.onSplit (fun p => { p with issued := none })).addDue s.gid ⟨.P, cause, false, tval, p.mask, s.cur.place, p.sm⟩ p.sm

/-- The deferred events that a boundary takes: the least cause, its lanes that live, the lowest lane's value and the
split that holds that lane (R368, R369). -/
def Group.deferred (g : Group) : Option (Due × List Due) :=
  let ds := g.due.filter (fun d => !d.cls.precise)
  match minBy (fun a b => decide (a.cause < b.cause)) ds with
  | none => none
  | some m =>
    let same := ds.filter (fun d => decide (d.cause = m.cause))
    let all := same.foldl (fun t d => t ||| d.tmask) 0 &&& g.alive
    let low := lowLane all
    let first := (same.find? (fun d => inLanes d.tmask low)).getD m
    let place := ((g.splits.find? (fun e => inLanes e.2.lanes low)).map (·.1)).getD ((g.splits.map (·.1)).headD 0)
    some (⟨m.cls, m.cause, same.any (·.lane), first.tval, all, place, false⟩, g.due.filter (fun d => !same.contains d))

/-- What a split waits for in a CANCEL that has issued (R141). -/
def cancelWait : Nat := 40

/-- A split of the group waits in its CANCEL: the group does not take CANCELLED before that has completed (R141). -/
def Group.cancelling (g : Group) : Bool := g.splits.any (fun e => e.2.issued.any (fun i => decide (i.num = cancelWait)))

/-- Take the deferred event with one of these causes, if it is the next and the group is at a boundary (R367). -/
def State.enterDeferred (s : State) (gid : Nat) (causes : List Nat) : State :=
  match FMap.get s.groups gid with
  | none => s
  | some g =>
    if g.halted ∨ g.stopped ∨ g.handler.isSome ∨ g.issuing ∨ (firstDue g.due).isSome then s
    else match g.deferred with
      | none => s
      | some (d, rest) =>
        if causes.contains d.cause && !(decide (d.cause = cCANCELLED) && g.cancelling) then s.enterTrap gid d rest else s

/-! ### Landing and the frame -/

/-- Later updates of LANDED, SUP and STATE reach the frame of a handler in progress, or of a stop (R372, R382); a frame
access that faults halts the group with the trap registers as they are (R370). -/
def State.syncFrame (s : State) (gid pid : Nat) : State :=
  match FMap.get s.groups gid with
  | none => s
  | some g =>
    let entries := match g.handler with | some h => h.entries | none => g.stopFrame
    match FMap.get g.replay pid with
    | some p =>
      match entries.findIdx? (fun x => x = pid) with
      | none => s
      | some i =>
        let va := s.tframe gid g + BitVec.ofNat 64 (0x840 + 0x400 * i)
        match s.ctxLoc gid va .write with
        | (s, .error _) => s.haltGroup gid (g.tcause.toNat % 256) g.tval
        | (s, .ok loc) =>
          (s.deviceWrite gid loc (bytesOf 1 (4 * p.kindNo + p.state))).deviceWrite gid (loc + 0x18) (bytesOf 4 p.landed.toNat ++ bytesOf 4 p.sup.toNat)
    | none => s

/-- Set the destination of a producer full in some lanes, with the value it holds. -/
def Group.fillDest (g : Group) (p : Producer) (lanes : Lanes) : Group :=
  match p.dest with
  | .scalar n ks => if lanes = 0 then g else g.setSEmpty p.place n ks false
  | .lanes first count sup => (List.range count).foldl (fun g i => g.setVEmptys sup (first + i) lanes false) g
  | .none => g

/-- Drop a producer that has finished: one that has its access still to perform stays (R383). -/
def Group.retire (g : Group) (pid : Nat) : Group :=
  match FMap.get g.replay pid with
  | some p => if p.landed ||| p.sup = p.mask ∧ p.flt = 0 ∧ (p.sent ∨ p.sup = 0) then { g with replay := FMap.del g.replay pid } else g
  | none => g

/-! ### Return from a trap (R160, R161, R373) -/

/-- Entry `i` of a frame. -/
def entryOff (i : Nat) : Nat := 0x840 + 0x400 * i

/-- The words of a range from byte `off` on, by their number. -/
def State.partWords (s : State) (ps : List (Nat × Nat)) (off n : Nat) : FMap Word :=
  (List.range n).foldl (fun m i => FMap.wr 0 m i (BitVec.ofNat 64 (s.partNat ps (off + 8 * i) 8))) []

/-- STATE and MASK of a frame entry as the handler left them. -/
def State.frameState (s : State) (ps : List (Nat × Nat)) (i : Nat) : Nat := s.partNat ps (entryOff i) 1 % 4
def State.frameMask (s : State) (ps : List (Nat × Nat)) (i : Nat) : Lanes := BitVec.ofNat 32 (s.partNat ps (entryOff i + 0x14) 4)

/-- The fields of a frame entry as the handler left them: STATE, MASK, OPA to OPC. -/
def State.frameRead (s : State) (ps : List (Nat × Nat)) (i : Nat) : Nat × Lanes × FMap Word × FMap Word × FMap Word :=
  let ops := fun o => s.partWords ps (entryOff i + o) 32
  (s.frameState ps i, s.frameMask ps i, ops 0x40, ops 0x140, ops 0x240)

/-- Packets held back since a number. -/
def State.heldSince (s : State) (next : Nat) : List Nat :=
  (s.pkts.filter (fun e => decide (next ≤ e.1) && e.2.heldBack)).map (·.1)

/-- In the packets that a run holds back, put new ones where old ones stand: `keep` tells that the old ones stay before them. -/
def Dove.replace (d : Dove) (old new : List Nat) (keep : Bool) : Dove :=
  let mine := d.pkts.filter (fun x => old.contains x)
  match mine with
  | [] => d
  | first :: _ => { d with pkts := d.pkts.flatMap (fun x =>
      if x = first then (if keep then mine else []) ++ new else if old.contains x then [] else [x]) }

/-- Change what a run keeps of its stores. -/
def Run.onDove (r : Run) (f : Dove → Dove) : Run := { r with dove := r.dove.map f }

/-- Send an access anew from its entry: what the core holds back of it is held back anew in its place; after a fault only its faulted
lanes go anew, and the requests of the others stay (R373, R374, R379). -/
def State.resend (s : State) (gid pid : Nat) (p : Producer) (sh : Shape) (lanes : Lanes) (dove : Nat) :
    State × List (Nat × Nat) :=
  let old := (s.pkts.filter (fun e => e.2.serves gid pid && e.2.heldBack)).map (·.1)
  let next := s.nextPkt
  let keep := decide (p.flt ≠ 0)
  let s := if keep then s else { s with pkts := s.pkts.filter (fun e => !old.contains e.1) }
  let (s, fs) := issueLanes s gid p.place pid sh false (if old.isEmpty then dove else 2) (lanesIn lanes)
  let new := s.heldSince next
  let fix := fun r : Run => r.onDove (fun d => d.replace old new keep)
  let s := s.updGroup gid (fun g =>
    { g with splits := g.splits.map (fun e => (e.1, { e.2 with running := e.2.running.map fix })),
             handler := g.handler.map (fun h => { h with run := h.run.map fix }) })
  (s, fs)

/-- A waiting SFROM: the runs before it counted by `run`, the lane by `idx`, the register in the word's a field (R108). -/
def Producer.sfrom (p : Producer) : Bool := p.ctl && decide (p.kind = .near)

/-- The lane of an SFROM whose entry the handler left with operand b: that operand's, but of SFROM.first the lane that it chose at
issue (R108, R373). -/
def Producer.sfromLane (p : Producer) (b : FMap Word) : Nat :=
  match decodeControl (p.bits.toNat % 2 ^ 32) 0 with
  | some (.cSfrom _ _ _) => (FMap.rd 0 b 0).toNat % 32
  | _ => p.idx

/-- Re-inject, settle or skip the producer of entry i (R373): lanes that the handler removed become full unperformed; an
entry that it marked PENDING or SUPERSEDED is skipped, and nothing of it is performed (log entry 88). A dovetail run's
reissued lanes stay held back with its other stores (R379). -/
def State.reinject (s : State) (gid : Nat) (ps : List (Nat × Nat)) (i pid : Nat) : State :=
  match FMap.get s.groups gid with
  | none => s
  | some g =>
    match FMap.get g.replay pid with
    | none => s
    | some p =>
      if p.state ≠ 0 then s
      else
        let (st, mask, a, b, c) := s.frameRead ps i
        let dove := if (g.handler.bind (·.run)).any (fun r => r.dove.isSome) then 2 else 0
        let sh := shapeOfBits p.bits
        let store := sh.any (fun sh => decide (sh.deed = .store))
        let drop := fun s : State => s.updGroup gid (fun g => { g with replay := FMap.del g.replay pid })
        let cut := if st = 2 then p.mask else p.mask &&& ~~~mask
        let gone := if p.flt ≠ 0 then cut &&& p.flt else cut
        let g := g.fillDest p gone
        if st = 1 ∨ st = 3 then
          drop ({ s with pkts := s.pkts.filter (fun e => !(e.2.serves gid pid && e.2.heldBack)) }.putGroup gid g)
        else
          let lanes := (if p.flt ≠ 0 then p.flt else p.mask) &&& ~~~gone
          let q := { p with mask := p.mask &&& ~~~gone, flt := p.flt &&& ~~~gone, opA := p.addrA a, opB := b, opC := c,
                            idx := if p.sfrom then p.sfromLane b else p.idx, sent := true }
          let s := s.putGroup gid { g with replay := FMap.put g.replay pid q }
          let unsent := fun s : State => { s with pkts := s.pkts.filter (fun e => !(e.2.serves gid pid && e.2.heldBack)) }
          let s := if lanes = 0 ∧ p.flt = 0 then unsent s else s
          if lanes = 0 then (if store then drop s else s.updGroup gid (fun g => g.retire pid))
          else match sh, p.kind with
            | some sh, .access =>
              let (s, fs) := s.resend gid pid q sh lanes dove
              if fs.isEmpty then (if store then drop s else s)
              else
                let d : Due := ⟨.F, (fs.map (·.2)).headD 0, true, faultValue q fs, faultLanes fs, p.place, !p.um⟩
                s.updGroup gid (fun g => { g with due := g.due ++ [d] })
            | _, _ => s.updGroup gid (fun g => g.retire pid)

/-- The run that the held instructions form (R373): T, Q and each MASK as the handler left them. -/
def State.resumedRun (s : State) (ps : List (Nat × Nat)) (from_ : Nat) (r : Run) (held : Bool) : Run :=
  let q := s.partWords ps 0x18 4
  let t := s.partWords ps 0x40 256
  let keep := fun (e : Nat × RunInsn) =>
    if s.frameState ps (from_ + e.1) = 0 then some { e.2 with mask := e.2.mask &&& s.frameMask ps (from_ + e.1) } else none
  let todo := if held then ((List.range r.todo.length).zip r.todo).filterMap keep else r.todo
  { r with q := q, t := t, todo := todo, suspended := true, resumed := true }

/-- The trapping split after its handler (R366, R369): the kept mask and stack, TPC, the mode of PM; a wait or a parked
state resumes where WR is 1 and TPC is unchanged. DESIGN CHOICE (log entry 102): R366 does not tell whether a kept wait applies at a
TPC that the handler has changed; the word there issues afresh. -/
def Split.restored (p : Split) (k : Aside) (running : Option Run) (runq : List Run) : Split :=
  let same := decide (p.tpc = k.pc)
  { p with pc := p.tpc, seq := k.seq && same, mask := k.mask, stack := k.stack,
           parked := if p.wr && same then k.parked else none, issued := if p.wr && same then k.issued else none,
           fetched := if p.wr && same then k.fetched else none, ready := false, since := none, waited := 0, overdue := none, runq := runq, running := running, sm := p.pm, wr := false }

/-- The causes of a fault at an access (R364). -/
def accessCause (c : Nat) : Bool := decide (c = cPAGEFAULT ∨ c = cFIRSTTOUCH ∨ c = cPROTECT ∨ c = cMISALIGN)

/-- The entry is held by a frame in progress: it acts no more until that frame is performed (R372, R382). -/
def Group.frameHolds (g : Group) (pid : Nat) (p : Producer) : Bool :=
  !p.sent && ((match g.handler with | some h => h.entries.contains pid | none => false) || g.stopFrame.contains pid)

/-- Each SFROM whose wait of R97 has ended takes its value. -/
def Group.sample (g : Group) : Group :=
  let look := fun (e : Nat × Producer) =>
    let r := fld e.2.bits 12 6
    if e.2.sfrom && !g.frameHolds e.1 e.2 && decide (e.2.run = 0) && decide (e.2.ready = 0) && !g.emptyV false r e.2.idx &&
        (FMap.get g.lines (r / 4)).isSome then
      (e.1, { e.2.gain [(32, 0, g.getV false r e.2.idx)] 1 with
                sent := true, poison := if FMap.rd false g.vBad (32 * r + e.2.idx) then 1 else 0 })
    else e
  { g with replay := g.replay.map look }

/-- A run of the signal's split has ended (R140): one of its own mode, since a handler's runs are not among those that it counts. -/
def Signal.runEnded (w : Signal) (place : Nat) (sup : Bool) : Signal :=
  if w.place = place ∧ w.sup = sup then { w with runs := w.runs - 1 } else w

/-- A run of a split has ended: the SFROMs after it that were issued in its mode, and the group's signal, count one run less (R97,
R108, R140). -/
def Group.runEnded (g : Group) (place : Nat) (sup : Bool) : Group :=
  let g := { g with signal := g.signal.map (fun w : Signal => w.runEnded place sup) }
  let less := fun (e : Nat × Producer) => if e.2.sfrom && decide (e.2.place = place ∧ e.2.um = !sup) && decide (e.2.run ≠ 0)
    then (e.1, { e.2 with run := e.2.run - 1 }) else e
  { g with replay := g.replay.map less }.sample

/-- Entries of a handler's frame. -/
def Handler.frameEntries (h : Handler) : Nat := h.entries.length + if h.held then (h.run.map (·.todo.length)).getD 0 else 0

/-- END A HANDLER (R160, R161, R369, R373): the frame is performed, the split restored, the other splits released. A
group that took CANCELLED ends (R141). -/
def State.endHandler (s : State) (gid : Nat) : State :=
  match FMap.get s.groups gid with
  | none => s
  | some g =>
    match g.handler with
    | none => s
    | some h =>
      if h.cause = cCANCELLED then s.finishGroup gid
      else
        match s.frameParts gid g h.frameEntries .read with
        | (s, .error _) => s.haltGroup gid (g.tcause.toNat % 256) g.tval
        | (s, .ok ps) =>
          let pairs := ((List.range h.entries.length).zip h.entries).filter (fun e => !h.replied.contains e.2)
          let trapping := h.held || (h.lane && accessCause h.cause)
          let s := s.partFill gid ps true
          let run := h.run.map (fun r => if trapping then s.resumedRun ps h.entries.length r h.held else r)
          let next := s.nextPkt
          let s := pairs.foldl (fun s e => s.reinject gid ps e.1 e.2) s
          let held := s.heldSince next
          let now := (FMap.get s.groups gid).bind (fun g => g.handler.bind (fun h => h.run.bind (·.dove)))
          let run := run.map (fun r => { r with dove := (if r.dove.isSome then now else none).map (fun d =>
            { d with pkts := d.pkts ++ held.filter (fun x => !d.pkts.contains x) }) })
          let back := fun g : Group =>
            let fix := fun p : Split =>
              match run with
              | some r => if r.todo.isEmpty ∧ r.dove.isNone then p.restored h.kept none h.kept.runq
                          else if h.held ∧ !r.todo.isEmpty then p.restored h.kept none ({ r with suspended := false } :: h.kept.runq)
                          else p.restored h.kept (some r) h.kept.runq
              | none => p.restored h.kept none h.kept.runq
            let ended := run.filter (fun r => r.todo.isEmpty && r.dove.isNone)
            let g := { g with handler := none }.updSplit h.place fix
            match ended with
            | some r => g.runEnded h.place r.sup
            | none => g.sample
          (s.updGroup gid back).settle gid

/-! ### The skeleton of a control-stream meaning -/

/-- Run a meaning on the acting split. -/
def control (f : Group → Split → State) (s : State) : Answer :=
  match s.actor with
  | none => .fault .noSplit
  | some (g, p) => .next (f g p)

/-- A word with scalar sources `srcs` and destination `d`: it waits while one of them is empty, and may not write a
shared register of a divided group (R27, R37, R96). Destination 0 is S0, which every group may name. A word that has issued
has read its sources and passed the check (R366). -/
def scalarWord (srcs : List (BitVec 6)) (d : BitVec 6) (f : Group → Split → State) (s : State) : Answer :=
  control (fun g p =>
    if (p.issued.isNone && srcs.any (emptyS g p)) ∨ emptyS g p d then s
    else if p.issued.isNone ∧ sharedS g d then s.trap cSHAREDWRITE 0
    else f g p) s

/-- A word whose result is one value. -/
def scalarResult (srcs : List (BitVec 6)) (d : BitVec 6) (words : Nat) (f : Group → Split → Word) (s : State) : Answer :=
  scalarWord srcs d (fun g p => (s.writeS p d (f g p)).goOn words) s

/-- POISON of a control-stream result, taken at a later boundary (R365, R380). -/
def State.poisonDue (s : State) (bad : Bool) (tval : Word) (mask : Lanes) : State :=
  if bad then s.addDue s.gid ⟨.D, cPOISON, false, tval, mask, s.cur.place, false⟩ false else s

/-- The acting split's mode is user mode. -/
def Split.user (p : Split) : Bool := !p.sm

/-- A word that user mode may not issue (R136): PRIV before anything else is checked. -/
def privileged (f : Group → Split → State) (s : State) : Answer :=
  control (fun g p => if p.sm then f g p else s.trap cPRIV 0) s

end Sys2Proof.Machine
end

