-- ==== Sys2Proof/Machine/Operands.lean ====
section
/-! DEFINITION. The operands of a lane instruction (R31, R32, R34, R69), its waits and traps, and the skeleton by which
its result reaches the destination. -/

namespace Sys2Proof.Machine

/-! ### Elements (R69) -/

/-- Width of the elements of a type. -/
def tyWidth (ty : Nat) : Nat := 64 / tyCount ty

/-- Element j of `w` bits. -/
def elem (w : Nat) (v : Word) (j : Nat) : Nat := fld v (w * j) w

/-- A register from its elements. -/
def packElems (w : Nat) (es : List Nat) : Word :=
  BitVec.ofNat 64 (es.foldr (fun e acc => e % 2 ^ w + 2 ^ w * acc) 0)

/-- The type is signed (R69). -/
def tySigned (ty : Nat) : Bool := decide (ty = 1 ∨ ty = 3 ∨ ty = 5 ∨ ty = 7)

/-- `n` copies of the low `w` bits. -/
def spread (w n v : Nat) : Word := packElems w (List.replicate n (v % 2 ^ w))

/-- A binary32 widened to binary64 exactly: a NaN keeps its sign and payload in the high fraction bits (R32). -/
def widen32 (v : Nat) : Nat :=
  if isNanBits fmt32 v then v / 2 ^ 31 % 2 * 2 ^ 63 + 0x7FF * 2 ^ 52 + v % 2 ^ 23 * 2 ^ 29
  else round fmt64 0 (Flt.ofBits fmt32 v)

/-- IMM by type (R32). -/
def widenImm (ty : Nat) (imm : BitVec 32) : Word :=
  if ty = 1 then sext64 imm
  else if ty = 8 then BitVec.ofNat 64 (widen32 imm.toNat)
  else if ty = 2 ∨ ty = 3 ∨ ty = 9 then spread 32 2 imm.toNat
  else if ty = 4 ∨ ty = 5 ∨ ty = 10 ∨ ty = 11 then spread 16 4 imm.toNat
  else if ty = 6 ∨ ty = 7 ∨ ty = 12 ∨ ty = 13 then spread 8 8 imm.toNat
  else zext64 imm

/-! ### The acting run -/

/-- What a lane instruction sees: its group, split and run, its place in the run, the lanes in which it acts (R34). -/
structure LaneCtx where
  g : Group
  p : Split
  r : Run
  i : RunInsn
  act : Lanes
  unitIdx : Nat
  vregs : Nat
deriving DecidableEq, Repr

/-- The lanes in which an instruction acts (R34, R373). -/
def actingLanes (g : Group) (r : Run) (i : RunInsn) (f : LF) : Lanes :=
  r.active &&& i.mask &&& lanesOf (fun l => g.getP f.pg.toNat l != decide (f.neg = 1))

/-- The run in progress of the acting split with its next instruction. -/
def State.laneActor (s : State) (f : LF) : Option LaneCtx :=
  match s.actor with
  | none => none
  | some (g, p) => match p.running with
    | none => none
    | some r => match r.todo with
      | [] => none
      | i :: _ =>
        let u := s.unitOf g
        some ⟨g, p, r, i, actingLanes g r i f, (u.map (·.index)).getD 0, (u.map (·.vregs)).getD 0⟩

/-- The lanes that act and are no helper lanes (R196, R208). -/
def LaneCtx.real (c : LaneCtx) : Lanes := c.act &&& ~~~c.g.helper

/-- A source register in a lane (R31). -/
def LaneCtx.reg (c : LaneCtx) (f : LF) (n lane : Nat) : Word :=
  if n < 232 then c.g.getV c.r.sup n lane
  else if n < 240 then FMap.rd 0 c.r.t (32 * (n - 232) + lane)
  else if n < 244 then FMap.rd 0 c.r.q (n - 240)
  else if n = 245 then BitVec.ofNat 64 lane
  else if n = 246 then BitVec.ofNat 64 c.g.idx
  else if n = 247 then BitVec.ofNat 64 (c.unitIdx % 2 ^ 32)
  else if n = 248 then c.r.active.zeroExtend 64
  else if n = 249 then (c.g.getLstat lane).zeroExtend 64
  else if n = 250 then (if inLanes c.g.helper lane then 1 else 0)
  else if n = 255 then widenImm f.ty.toNat f.imm
  else 0

/-- Source operands. -/
def LaneCtx.a (c : LaneCtx) (f : LF) (lane : Nat) : Word := c.reg f f.a.toNat lane
def LaneCtx.b (c : LaneCtx) (f : LF) (lane : Nat) : Word := c.reg f f.b.toNat lane
def LaneCtx.c (c : LaneCtx) (f : LF) (lane : Nat) : Word := c.reg f f.c.toNat lane

/-- Some register of a source block named with its fe bit is empty in one of some lanes (R36). -/
def LaneCtx.emptyBlock (c : LaneCtx) (lanes : Lanes) (fe : Bool) (first count : Nat) : Bool :=
  fe && (List.range count).any (fun k => (lanesIn lanes).any (fun l => c.g.emptyV c.r.sup (first + k) l))

/-- EMPTYREAD (R36) for sources of `na`, `nb` and `nc` registers, in lanes in which the instruction acts. -/
def LaneCtx.emptyIn (c : LaneCtx) (lanes : Lanes) (f : LF) (na nb nc : Nat) : Bool :=
  c.emptyBlock lanes (f.fe.getLsbD 2) f.a.toNat na || c.emptyBlock lanes (f.fe.getLsbD 1) f.b.toNat nb ||
    c.emptyBlock lanes (f.fe.getLsbD 0) f.c.toNat nc

/-- EMPTYREAD of an instruction that acts in every acting lane. -/
def LaneCtx.emptyRead (c : LaneCtx) (f : LF) (na nb nc : Nat) : Bool := c.emptyIn c.act f na nb nc

/-! ### Registers that an instruction names (R22, R24, R36) -/

/-- The registers of a field: a lane register or a block. -/
def regsOf : FieldUse → Nat → List Nat
  | .lane, r => [r]
  | .block n, r => (List.range n).map (r + ·)
  | _, _ => []

/-- One lane instruction's registers: sources with their fe bits, destinations, and whether it is a long-latency
producer (R35). -/
structure Uses where
  srcs : List (Nat × Bool)
  dsts : List Nat
  prod : Bool
  first : Nat
deriving DecidableEq, Repr

/-- The registers of an instruction; `latched` tells that block a comes from the operand latch (R232). -/
def usesOf (latched : Bool) (i : Instr) : Uses :=
  match laneRule i with
  | none => ⟨[], [], false, 0⟩
  | some (u, f) =>
    let src := fun (k : FieldUse) (r : BitVec 8) (fe : Bool) => (regsOf k r.toNat).map (fun n => (n, fe))
    let a := if latched then [] else src u.a f.a (f.fe.getLsbD 2)
    ⟨a ++ src u.b f.b (f.fe.getLsbD 1) ++ src u.c f.c (f.fe.getLsbD 0), regsOf u.d f.d.toNat, u.prod, f.d.toNat⟩

/-- An MMA or MMAS, and its RU bit (R231, R232). -/
def mmaReuse : Instr → Option Bool
  | .lMma f | .lMmas f => some (decide (f.md.toNat / 2 % 2 = 1))
  | _ => none

/-- The registers of instructions that issue one after another; `latched` tells that the operand latch is set at the
start. -/
def usesIn (latched : Bool) : List Instr → List Uses
  | [] => []
  | i :: is => match mmaReuse i with
    | some ru => usesOf latched i :: usesIn ru is
    | none => usesOf false i :: usesIn latched is

/-- The lines that instructions name, those of its sources with fe bit 1 included (R293). -/
def lineSet (sup : Bool) (us : List Uses) : List Nat :=
  dedup ((us.map (fun u => (u.srcs.map (·.1) ++ u.dsts).filterMap (lineOfReg sup))).flatten)

/-- The lanes in which an instruction of a run reads a poisoned register (R380). -/
def poisonMet (g : Group) (r : Run) (i : Instr) (act : Lanes) : Lanes :=
  let srcs := (usesOf (r.latch.isSome && (mmaReuse i).isSome) i).srcs
  act &&& lanesOf (fun l => srcs.any (fun x => decide (x.1 < 216 ∨ (x.1 < 232 ∧ !r.sup)) && FMap.rd false g.vBad (32 * x.1 + l)))

/-! ### Writing results -/

/-- Write a result into a lane of the group, or of the run for a T register (R31, R33). -/
def writeLane (g : Group) (r : Run) (d lane : Nat) (v : Word) : Group × Run :=
  if d < 232 then (g.setV r.sup d lane v, r)
  else if d < 240 then (g, { r with t := FMap.wr 0 r.t (32 * (d - 232) + lane) v })
  else if d = 249 then (g.setLstat lane (v.truncate 5), r)
  else (g, r)

/-- Replace the acting group and the run in progress. -/
def State.putLane (s : State) (g : Group) (r : Run) : State :=
  s.putGroup s.gid (g.updSplit s.cur.place (fun p => { p with running := some r }))

/-- Runs of a split that have not issued their last instruction. -/
def Split.runsLeft (p : Split) : Nat := p.runq.length + (if p.running.isSome then 1 else 0)

/-- The slot holds the run of a split alone, or as the first of a pair. -/
def LaneSlot.leads (k : LaneSlot) (gslot place : Nat) : Bool := !k.ended && decide (k.gslot = gslot ∧ k.place = place)

/-- The run of a split gives its lane slot up; a partner goes on alone (R278). -/
def Core.releaseSlot (k : Core) (gslot place : Nat) : Core :=
  { k with lslots := k.lslots.filterMap (fun e =>
      if e.2.pair = some (gslot, place) then some (e.1, { e.2 with pair := none })
      else if e.2.leads gslot place then
        match e.2.pair with
        | some (g, p) => some (e.1, { e.2 with gslot := g, place := p, pair := none })
        | none => none
      else some e) }

/-- The instruction in issue of a split's run holds its slot for some core cycles (R166, R220). After the run's last
instruction, or one at which it stops, the slot stays held so long and is free then; a partner goes on alone (R278). -/
def Core.occupy (k : Core) (gslot place hold : Nat) (last : Bool) : Core :=
  { k with lslots := k.lslots.map (fun e =>
      if e.2.pair = some (gslot, place) then (e.1, { e.2 with hold := hold, pair := if last then none else e.2.pair })
      else if e.2.leads gslot place then
        match last, e.2.pair with
        | true, some (g, p) => (e.1, { e.2 with gslot := g, place := p, pair := none, hold := hold })
        | true, none => (e.1, { e.2 with hold := hold, ended := true })
        | false, _ => (e.1, { e.2 with hold := hold })
      else e) }

/-- The acting run holds its slot for the instruction that issues. -/
def State.occupy (s : State) (hold : Nat) (last : Bool) : State :=
  s.setCore s.cur.core ((s.core s.cur.core).occupy s.cur.gslot s.cur.place hold last)

/-! ### Dovetail runs (R379) -/

/-- The signature register at its start. -/
def Dove.start : Dove := ⟨0xFFFF_FFFF, [], [], false⟩

/-- The split's run in progress has ended. One that a merge has put at the head of the queue while it was in progress goes on (R131). -/
def Split.nextBegun (p : Split) : Split :=
  match p.runq with
  | r :: rest => if r.begun then { p with running := some { r with begun := false }, runq := rest } else { p with running := none }
  | [] => { p with running := none }

/-- The last instruction of a split's run in progress has issued: the run ends, its T registers with it (R25). -/
def State.endRun (s : State) (gid place : Nat) : State :=
  let s := s.updGroup gid (fun g => match (FMap.get g.splits place).bind (·.running) with
    | some r => (g.updSplit place Split.nextBegun).runEnded place r.sup
    | none => g)
  s.settle gid

/-- A split's run whose last instruction has issued and whose stores are held. -/
def State.doveRun (s : State) (gid place : Nat) : Option (Run × Dove) :=
  match ((FMap.get s.groups gid).bind (fun g => FMap.get g.splits place)).bind (·.running) with
  | some r => match r.dove with
    | some d => if r.todo.isEmpty then some (r, d) else none
    | none => none
  | none => none

/-- The other copy's run that a run is compared with: the same instructions for the same lanes, at whatever place it stands, as the
splits of one copy may have merged where those of the other have not (R131). -/
def State.doveMate (s : State) (t : Nat) (r : Run) : Option (Nat × Run × Dove) :=
  (((FMap.get s.groups t).map (·.splits)).getD []).findSome? (fun e => match s.doveRun t e.1 with
    | some (q, d) => if q.line = r.line ∧ q.slot = r.slot ∧ q.active = r.active then some (e.1, q, d) else none
    | none => none)

/-- Change what a split's run keeps of its stores. -/
def State.setDove (s : State) (gid place : Nat) (f : Dove → Option Dove) : State :=
  s.updSplit gid place (fun p => { p with running := p.running.map (fun r => { r with dove := r.dove.bind f }) })

/-- The packet is an atomic. -/
def Packet.isAtomic (p : Packet) : Bool :=
  match p.body with
  | .req accs _ _ _ _ _ _ _ => accs.any (fun a => match a.op with | .atomic _ _ _ _ => true | _ => false)
  | _ => false

/-- Release the held packets of an agreed run in order, as far as the order of R349 and R350 lets them; what leaves reaches
the core's L1 (R303), UO stores enter the write buffer (R304), and an atomic to a UO page follows its line of the buffer (R351). Atomics
of the copy that does not perform them are dropped. -/
def State.doveRelease (s : State) (gid place : Nat) (lead : Bool) : List Nat → State × List Nat
  | [] => (s, [])
  | id :: ids =>
    match FMap.get s.pkts id with
    | none => s.doveRelease gid place lead ids
    | some p =>
      let (so, order) := match p.body with | .req _ _ so _ _ _ o _ => (so, o) | _ => (false, 0)
      if s.acquiring gid place ∨ (so ∧ s.soOutstanding gid place) ∨ (2 ≤ order ∧ s.outstanding gid place) then (s, id :: ids)
      else
        let core := coreOfGid gid
        let gone := { s with pkts := FMap.del s.pkts id }
        let (accs, uo) := match p.body with | .req accs _ _ _ kind _ _ _ => (accs, decide (kind = 2 ∧ p.peer = 0)) | _ => ([], false)
        if uo ∧ accs.all (fun a => a.op.isStore) then
          (accs.foldl (fun s a => s.uoReq gid p.tag core p.slack a) gone).doveRelease gid place lead ids
        else if p.isAtomic ∧ !lead then gone.doveRelease gid place lead ids
        else
          let s := if p.peer = 0 then s.setCore core ((s.core core).l1Leave accs) else s
          let s := if uo ∧ p.isAtomic then s.uoFlushLine gid core p.slack ((accs.map (·.loc)).headD 0 / 128) else s
          let s := match p.path with | here :: rest => s.arrive id p here rest | [] => s
          s.doveRelease gid place lead ids

/-- Undo what the stores of a run changed inside the core, newest first. -/
def State.doveUndo (s : State) (gid uid : Nat) (us : List Undo) : State :=
  us.foldl (fun s u =>
    match u.kind with
    | 0 => s.updUnit uid (fun x => { x with scratch := FMap.wr 0 x.scratch u.key (BitVec.ofNat 8 u.old) })
    | 1 => s.updGroup gid (fun g => { g with win := FMap.wr 0 g.win u.key (BitVec.ofNat 8 u.old) })
    | 2 => s.updUnit uid (fun x => { x with hods := FMap.upd x.hods u.key (fun h => { h with p := BitVec.ofNat 32 u.old }) })
    | 3 => s.updUnit uid (fun x => { x with scrPoison := FMap.wr false x.scrPoison u.key (decide (u.old = 1)) })
    | _ => s.updGroup gid (fun g => { g with winBad := FMap.wr false g.winBad u.key (decide (u.old = 1)) })) s

/-- Accesses that are not performed: their destinations become full with the values they held, and their entries go. -/
def Group.unperform (g : Group) (pids : List Nat) : Group :=
  pids.foldl (fun g pid => match FMap.get g.replay pid with
    | none => g
    | some p => { g.fillDest p (p.mask &&& ~~~p.landed) with replay := FMap.del g.replay pid }) g

/-- The packet carries a plain load. -/
def Packet.isLoad (p : Packet) : Bool :=
  match p.body with
  | .req accs _ _ _ _ _ _ _ => accs.all (fun a => a.op.isLoad)
  | _ => false

/-- A run whose signature differs from the other copy's: no store or atomic of it is performed, and the loads that stood behind them
leave (R365): the state, and whether all of them have left. -/
def State.doveDrop (s : State) (gid place : Nat) (d : Dove) : State × Bool :=
  match FMap.get s.groups gid with
  | none => (s, true)
  | some g =>
    let gone := s.pkts.filter (fun e => d.pkts.contains e.1 && !e.2.isLoad)
    let pids := gone.filterMap (fun e => match e.2.body with | .req _ pid _ _ _ _ _ _ => pid | _ => none)
    let s := ({ s with pkts := s.pkts.filter (fun e => !(d.pkts.contains e.1 && !e.2.isLoad)) }).updGroup gid (fun g => g.unperform pids)
    let (s, rest) := (s.doveUndo gid g.uid d.undo).doveRelease gid place true d.pkts
    (s.setDove gid place (fun d => some { d with pkts := rest, undo := [] }), rest.isEmpty)

/-- Such a run's DOVETAIL becomes due: every register write has been done (R365). -/
def State.doveFail (s : State) (gid place : Nat) (r : Run) : State :=
  let sup := r.sup || ((FMap.get s.groups gid).bind (fun g => FMap.get g.splits place)).any (·.sm)
  (s.setDove gid place (fun _ => none)).addDue gid ⟨.R, cDOVETAIL, true, 0, r.active, place, sup⟩ sup

/-- A dovetail run has issued its last instruction: it waits for the other copy's, then its stores leave or both copies
trap (R379). A copy whose other has ended or halted goes on alone; one in a handler waits for its end. -/
def State.settleDove (s : State) (gid place : Nat) : State :=
  match (if (FMap.get s.groups gid).any (fun g => g.handler.isSome) then none else s.doveRun gid place) with
  | none => s
  | some (r, d) =>
    let go := fun s : State =>
      let (s, rest) := s.doveRelease gid place (s.doveLeads gid) d.pkts
      if rest.isEmpty then s.endRun gid place else s.setDove gid place (fun d => some { d with agreed := true, pkts := rest })
    if d.agreed then go s
    else match s.doveTwin gid with
      | none => go s
      | some t => match s.doveMate t r with
        | none => s
        | some (q, r', d') =>
          if d.crc = d'.crc then go (s.setDove t q (fun d => some { d with agreed := true }))
          else
            let (s, mine) := s.doveDrop gid place d
            let (s, its) := s.doveDrop t q d'
            if mine && its then (s.doveFail gid place r).doveFail t q r' else s

/-- What a split waits for in a dovetail comparison: its word's signature; that the other copy has agreed. -/
def doveWait : Nat := 7
def doveAgreed : Nat := 8

/-- A store of a control stream in dovetail mode: both copies compare it word by word before it is performed. Copies that
differ do not perform it; both stand at their next word and trap (R365). A copy that waits keeps the sources `src` that it has read
(R96, R366). -/
def State.doveWord (s : State) (p : Split) (crc : BitVec 32) (src : List Word) (f : State → State) : State :=
  match s.doveTwin s.gid, p.issued.map (·.num) with
  | none, _ => f s
  | some t, waits =>
    if waits = some doveAgreed then f s
    else
      let place := s.cur.place
      let other := s.splitAt t place
      match other.bind (·.issued) with
      | some w =>
        if w.num ≠ doveWait then s.holdWith doveWait (crc.zeroExtend 64) src
        else if w.val = crc.zeroExtend 64 then f (s.updSplit t place (fun p => { p with issued := some ⟨doveAgreed, 0, (p.issued.map (·.src)).getD []⟩ }))
        else
          let fail := fun (s : State) (gid : Nat) (m : Lanes) (sup : Bool) =>
            (s.updSplit gid place (fun p => p.movedTo (nextWord p.pc 1) true (s.now + 1))).addDue gid ⟨.R, cDOVETAIL, false, 0, m, place, sup⟩ sup
          fail (fail s s.gid p.mask p.sm) t ((other.map (·.mask)).getD 0) (other.any (·.sm))
      | none => s.holdWith doveWait (crc.zeroExtend 64) src

/-- The instruction has issued: it leaves the run and holds the slot for its core cycles (R166, R220). After the last
instruction the run ends, its T registers with it (R25). The charge of R280 is the lane slot's (`State.laneTurn`). -/
def State.issued (s : State) (hold : Nat) : State :=
  match s.actor with
  | none => s
  | some (g, p) =>
    match p.running with
    | none => s
    | some r =>
      match r.todo.drop 1 with
      | [] =>
        let s := s.occupy hold true
        if r.dove.isNone then s.endRun s.gid s.cur.place
        else (s.putLane g { r with todo := [], suspended := true }).settleDove s.gid s.cur.place
      | rest => (s.occupy hold false).putLane g { r with todo := rest }

/-- The run stops at its next instruction and gives its slot up (R216, R275). -/
def State.suspend (s : State) : State :=
  let s := s.onSplit (fun p => { p with running := p.running.map (fun r => { r with suspended := true, resumed := true }) })
  (s.setCore s.cur.core ((s.core s.cur.core).releaseSlot s.cur.gslot s.cur.place)).settle s.gid

/-- A lane trap of the acting run (R365): the run stops. Its slot is free, but for the cycles that an instruction which has
issued still holds it. -/
def State.laneTrap (s : State) (cls : TrapClass) (cause : Nat) (tval : Word) (lanes : Lanes) : State :=
  match s.actor with
  | none => s
  | some (_, p) =>
    let sup := p.sm || (match p.running with | some r => r.sup | none => false)
    let s := s.onSplit (fun p => { p with running := p.running.map (fun r => { r with suspended := true, resumed := true }) })
    let s := s.setCore s.cur.core ((s.core s.cur.core).releaseSlot s.cur.gslot s.cur.place)
    s.addDue s.gid ⟨cls, cause, true, tval, lanes, s.cur.place, sup⟩ sup

/-- The acting run's next instruction has issued and leaves it, as the last one for now. -/
def State.stopAfter (s : State) (hold : Nat) : State :=
  (s.occupy hold true).onSplit (fun p => { p with running := p.running.map (fun r => { r with todo := r.todo.drop 1 }) })

/-- A lane trap after the instruction has written every acting lane (class A of R365): later instructions are held. -/
def State.laneTrapAfter (s : State) (hold cause : Nat) (tval : Word) (lanes : Lanes) : State :=
  (s.stopAfter hold).laneTrap .A cause tval lanes

/-! ### The skeleton of a lane meaning -/

/-- Run a meaning on the acting run. -/
def laneInsn (f : LF) (m : LaneCtx → State) (s : State) : Answer :=
  match s.laneActor f with
  | none => .fault .noRun
  | some c => .next (m c)

/-- EMPTYREAD before anything else (R36). -/
def guarded (na nb nc : Nat) (f : LF) (m : LaneCtx → State) (s : State) : Answer :=
  laneInsn f (fun c => if c.emptyRead f na nb nc then s.laneTrap .P cEMPTYREAD 0 c.act else m c) s

/-- The same for an instruction that does not act in helper lanes (R196). -/
def guardedReal (na nb nc : Nat) (f : LF) (m : LaneCtx → State) (s : State) : Answer :=
  laneInsn f (fun c => if c.emptyIn c.real f na nb nc then s.laneTrap .P cEMPTYREAD 0 c.real else m c) s

/-- Write one value per lane of a set into register d, every source having been read (R34). -/
def LaneCtx.write (c : LaneCtx) (d : Nat) (lanes : Lanes) (v : Nat → Word) : Group × Run :=
  (lanesIn lanes).foldl (fun (acc : Group × Run) l => writeLane acc.1 acc.2 d l (v l)) (c.g, c.r)

/-- Set sticky bits in the acting lanes (R33). -/
def stickLanes (g : Group) (lanes : Lanes) (bits : Nat → BitVec 5) : Group :=
  (lanesIn lanes).foldl (fun g l => if bits l = 0 then g else g.stick l (bits l)) g

/-- A register-only instruction that writes register d in the lanes of a set and holds its slot for `hold` cycles. -/
def State.laneResult (s : State) (c : LaneCtx) (f : LF) (hold : Nat) (lanes : Lanes) (v : Nat → Word) : State :=
  let w := c.write f.d.toNat lanes v
  (s.putLane w.1 w.2).issued hold

/-- A lane-wise instruction over its three sources (R34). -/
def laneWise (hold : Nat) (v : LaneCtx → Word → Word → Word → Nat → Word) (f : LF) (s : State) : Answer :=
  guarded 1 1 1 f (fun c => s.laneResult c f hold c.act (fun l => v c (c.a f l) (c.b f l) (c.c f l) l)) s

/-- An instruction that writes predicate d in its acting lanes. -/
def lanePred (hold : Nat) (v : LaneCtx → Nat → Bool) (f : LF) (s : State) : Answer :=
  guarded 1 1 1 f (fun c =>
    let g := (lanesIn c.act).foldl (fun g l => g.setP f.d.toNat l (v c l)) c.g
    (s.putLane g c.r).issued hold) s

/-- The operands of a producer as its lanes captured them (R371). -/
def captured (lanes : Lanes) (f : Nat → Word) : FMap Word := (lanesIn lanes).foldl (fun m l => FMap.wr 0 m l (f l)) []

end Sys2Proof.Machine
end

