-- ==== Sys2Proof/Machine/Fetch.lean ====
section
/-! DEFINITION. Fetching and issuing: a control stream's next word (R11 to R15, R367), a lane slot's next instruction
(R25, R278), an event, and how a word is placed where the next step fetches it (log entry 3). -/

namespace Sys2Proof.Machine

/-- A split of the group may issue a word now (R269, R366, R367, R382). -/
def canIssue (g : Group) (place : Nat) (p : Split) : Bool :=
  !g.halted && !g.stopped && !g.preParked && !g.dropped && p.parked.isNone && decide (p.yielding = 0) &&
    (match g.handler with
      | none => g.due.isEmpty
      | some h => decide (h.place = place) && !g.stopAsked && !g.due.any (fun d => d.sup && d.cls.precise))

/-- The code line of the program counter: as it was fetched when the split came to it, else as it is fetched now (R11, R12). -/
def State.lineAt (s : State) (g : Group) (p : Split) (place : Nat) : State × Except Nat (List Byte) :=
  match p.fetched with
  | some line => (s, .ok line)
  | none => match s.fetchLine s.cur.core (s.asidOf g) (s.codeFrom g) p.user p.pc with
    | (s, .error c) => (s, .error c)
    | (s, .ok line) => (s.updSplit s.gid place (fun p => { p with fetched := some line }), .ok line)

/-- Fetch the word at the program counter and its literal; or the trap has been taken (R11, R12, R14, R15). A sequential step
that traps BADTARGET is over. DESIGN CHOICE: R15 does not tell what RFT at the same TPC does then; it enters the function
(log entry 89). DESIGN CHOICE: of a step into a line with ENT = 1 whose header fails R14 too, the spec does not tell which trap is
reported; ILLEGAL is, before BADTARGET (log entry 102). -/
def State.fetchControl (s : State) (g : Group) (p : Split) : State × Option (Nat × Nat) :=
  match s.lineAt g p s.cur.place with
  | (s, .error c) => (s.trap c p.pc, none)
  | (s, .ok line) =>
    let h := headerOf line
    let w := wordIdx p.pc
    if !lineOk h (wordOf line) then (s.trap cILLEGAL 0, none)
    else if p.seq ∧ w = 2 ∧ hdrEnt h then ((s.onSplit (fun p => { p with seq := false })).trap cBADTARGET p.pc, none)
    else (s, some ((wordOf line w).toNat, (wordOf line (w + 1)).toNat))

/-- The instruction of a fetched word: an undefined encoding is an instruction of its own (R43). -/
def instrOf (w lit : Nat) : Instr :=
  match decodeControl w lit with
  | some i => i
  | none => .evUndefinedEncoding (BitVec.ofNat 32 w)

/-! ### A word of a split -/

/-- Fetch a split's next word and run it, or poll the word that it has issued. -/
def State.tryWord (run : Instr → State → Answer) (s : State) (core gslot place : Nat) : Answer :=
  let s := { s with cur := ⟨core, gslot, place⟩ }
  match s.actor with
  | none => .next s
  | some (g, p) =>
    match s.fetchControl g p with
    | (s, none) => .next s
    | (s, some (w, lit)) => run (instrOf w lit) s

/-- What tells that a split has issued, or has gone on from a wait: its own record, and what its group does about traps. -/
def State.issueMark (s : State) (gid place : Nat) : Option (Option Split × List Due × Option Handler × Bool) :=
  (FMap.get s.groups gid).map (fun g =>
    ((FMap.get g.splits place).map (fun p => { p with ready := false, fetched := none }), g.due, g.handler, g.halted))

/-- The split's next word can issue now, or what its issued word waits for has come (R269). -/
def State.wordActs (run : Instr → State → Answer) (s : State) (core gslot place : Nat) : Bool :=
  match s.tryWord run core gslot place with
  | .next t => decide (t.issueMark (gidOf core gslot) place ≠ s.issueMark (gidOf core gslot) place)
  | _ => true

/-- Lexicographic order on four numbers. -/
def before4 (a b : Nat × Nat × Nat × Nat) : Bool :=
  decide (a.1 < b.1 ∨ (a.1 = b.1 ∧ (a.2.1 < b.2.1 ∨ (a.2.1 = b.2.1 ∧
    (a.2.2.1 < b.2.2.1 ∨ (a.2.2.1 = b.2.2.1 ∧ a.2.2.2 < b.2.2.2))))))

/-- The priority class of a group's launch (R273). -/
def State.prioOf (s : State) (g : Group) : Nat := match (s.unitOf g).bind (s.launchOf ·) with | some l => l.prio | none => 0

/-- A candidate as R273 ranks it. -/
structure Rank where
  gslot : Nat
  place : Nat
  overdue : Option Nat
  prio : Nat
  since : Nat
  lane : Nat
deriving DecidableEq, Repr

/-- The order of R273: the later keys rank also those that became overdue in one cycle. -/
def Rank.before (a b : Rank) : Bool :=
  let keys := before4 (3 - a.prio, a.since, a.gslot, a.lane) (3 - b.prio, b.since, b.gslot, b.lane)
  match a.overdue, b.overdue with
  | some x, some y => decide (x < y) || (decide (x = y) && keys)
  | some _, none => true
  | none, some _ => false
  | none, none => keys

/-- The ready splits of a core (R269). -/
def State.readySplits (s : State) (core : Nat) : List Rank :=
  (s.groups.filter (fun e => decide (coreOfGid e.1 = core))).flatMap (fun e => e.2.splits.filterMap (fun q =>
    if q.2.ready && canIssue e.2 q.1 q.2 then
      some ⟨e.1 % 64, q.1, q.2.overdue, s.prioOf e.2, q.2.since.getD (s.core core).ccyc, lowLane q.2.mask⟩
    else none))

/-- The split that takes the next free control pipe of a core in this cycle (R273, R274). -/
def State.nextSplit (s : State) (core : Nat) : Option Rank :=
  if 2 ≤ (s.core core).pipes then none else minBy Rank.before (s.readySplits core)

/-- The attempt of a ready split: a split takes at most one pipe in a cycle (R274). -/
def State.unready (s : State) (core gslot place : Nat) : State :=
  s.updSplit (gidOf core gslot) place (fun p => { p with ready := false })

/-- A control pipe issues the word of a split: of the one that R273 puts first (R274). A pipe whose split has found that it must
wait after all is free for another. -/
def State.controlTurn (run : Instr → State → Answer) (s : State) (core gslot place : Nat) : Answer :=
  match s.nextSplit core with
  | none => .next s
  | some r =>
    if r.gslot ≠ gslot ∨ r.place ≠ place then .next s
    else match (s.unready core gslot place).tryWord run core gslot place with
      | .next t =>
        if t.issueMark (gidOf core gslot) place = s.issueMark (gidOf core gslot) place then .next t
        else .next (t.setCore core { t.core core with pipes := (t.core core).pipes + 1 })
      | o => o

/-- Which splits of a core may take a pipe in the cycle that begins (R269): one that waits becomes ready in the cycle after its
wait has ended (R37). The waiting count of one that is no candidate starts afresh, that of a halted group stands still
(R276). -/
def State.readyPass (run : Instr → State → Answer) (s : State) (core : Nat) : State :=
  let now := (s.core core).ccyc
  (s.groups.filter (fun e => decide (coreOfGid e.1 = core))).foldl (fun t e => e.2.splits.foldl (fun t q =>
    let r := canIssue e.2 q.1 q.2 && decide (q.2.next ≤ now) && s.wordActs run core (e.1 % 64) q.1
    t.updSplit e.1 q.1 (fun p =>
      if e.2.halted || e.2.stopped || e.2.preParked then { p with ready := false }
      else { p with ready := r, since := if r then some (p.since.getD now) else none, waited := if r then p.waited else 0,
                    overdue := if r then p.overdue else none })) t) s

/-! ### An instruction of a lane slot -/

/-- The instruction that the run of a split issues next. The issuing runs of a group that has halted finish (R367). -/
def State.nextLane (s : State) (core gslot place : Nat) : Option Instr :=
  match { s with cur := ⟨core, gslot, place⟩ }.actor with
  | none => none
  | some (g, p) =>
    if g.stopped then none
    else match p.running with
      | none => none
      | some r => if r.suspended then none else match r.todo with
        | [] => none
        | i :: _ => decodeLane i.bits.toNat

/-- Instructions that some runs have still to issue. -/
def leftOf (rs : List Run) : Nat := (rs.map (fun r => r.todo.length)).sum

/-- Instructions that a split's runs have still to issue, those that its handler keeps among them. -/
def State.lanesLeft (s : State) (gid place : Nat) : Nat :=
  match FMap.get s.groups gid with
  | none => 0
  | some g =>
    ((FMap.get g.splits place).map (fun p => leftOf (p.running.toList ++ p.runq))).getD 0 +
      (match g.handler with
       | some h => if h.place = place then leftOf (h.run.toList ++ h.kept.runq) else 0
       | none => 0)

/-- What the issue of an instruction brings beside its effect, found before it acts: the lanes that read a poisoned register
(R380), and the register lines that it names (R293). -/
def State.readings (s : State) (i : Instr) : Lanes × List Nat :=
  match s.actor, laneRule i with
  | some (g, p), some (_, f) =>
    match p.running with
    | none => (0, [])
    | some r => match r.todo with
      | [] => (0, [])
      | x :: _ => (poisonMet g r i (actingLanes g r x f),
                   lineSet r.sup [usesOf (r.latch.isSome && (mmaReuse i).isSome) i])
  | _, _ => (0, [])

/-- The instruction has issued: its lines become the most recently named, and POISON is due in the lanes that met it. DESIGN CHOICE:
poison in a register has no address and R364 gives its TVAL no value; TVAL is 0 (log entry 102). -/
def State.afterIssue (s : State) (gid place : Nat) (rs : Lanes × List Nat) : State :=
  match FMap.get s.groups gid with
  | none => s
  | some g =>
    let s := rs.2.foldl (fun s j => s.nameLine gid g.uid j) s
    if rs.1 = 0 then s else s.addDue gid ⟨.D, cPOISON, true, 0, rs.1, place, false⟩ false

/-- Issue the next instruction of one run. -/
def State.laneIssue (run : Instr → State → Answer) (s : State) (core gslot place : Nat) : Answer :=
  match s.nextLane core gslot place with
  | none => .next s
  | some i =>
    let s := { s with cur := ⟨core, gslot, place⟩ }
    match run i s with
    | .next t =>
      .next (if t.lanesLeft s.gid place < s.lanesLeft s.gid place then t.afterIssue s.gid place (s.readings i) else t)
    | o => o

/-- Two runs that were suspended together resume together (R278). -/
def State.setMate (s : State) (core gslot place : Nat) (m : Nat × Nat) : State :=
  s.updSplit (gidOf core gslot) place (fun p => { p with running := p.running.map (fun r => { r with mate := some m }) })

/-- The run in progress of a split is charged (R280). -/
def State.runCharged (s : State) (gid place : Nat) : Bool :=
  (((FMap.get s.groups gid).bind (fun g => FMap.get g.splits place)).bind (·.running)).any (fun r => r.charged)

/-- After an instruction has issued on a slot: a pair holds it for the lanes of both groups (R278), and the hold is charged
once (R280). -/
def State.chargeSlot (s : State) (core lslot joint : Nat) (charged : Bool) : State :=
  let k := s.core core
  match FMap.get k.lslots lslot with
  | none => s
  | some e =>
    let hold := if joint = 0 then e.hold else joint
    s.setCore core { k with lslots := FMap.put k.lslots lslot { e with hold := hold },
                            budget := if charged then k.budget - hold else k.budget }

/-- One instruction of a lane slot that no instruction holds. A pair issues it for both groups or, where a part must wait, for
neither (R278). -/
def State.laneTurn (run : Instr → State → Answer) (waits : Instr → State → Bool) (joint : Instr → List State → Nat) (s : State)
    (core lslot : Nat) : Answer :=
  match FMap.get (s.core core).lslots lslot with
  | none => .next s
  | some k =>
    if k.ended ∨ k.hold ≠ 0 then .next s
    else
      let at_ := fun g p => { s with cur := ⟨core, g, p⟩ }
      let went := fun (t : State) g p => decide (t.lanesLeft (gidOf core g) p < s.lanesLeft (gidOf core g) p)
      let charged := s.runCharged (gidOf core k.gslot) k.place
      match k.pair with
      | none => match s.laneIssue run core k.gslot k.place with
        | .next t => .next (if went t k.gslot k.place then t.chargeSlot core lslot 0 charged else t)
        | o => o
      | some (g2, p2) =>
        let wait := fun g p => (s.nextLane core g p).any (fun i => waits i (at_ g p))
        if wait k.gslot k.place || wait g2 p2 then
          let s := { (at_ k.gslot k.place).suspend with cur := ⟨core, g2, p2⟩ }.suspend
          .next ((s.setMate core k.gslot k.place (g2, p2)).setMate core g2 p2 (k.gslot, k.place))
        else
          let both := match s.nextLane core k.gslot k.place with
            | some i => joint i [at_ k.gslot k.place, at_ g2 p2]
            | none => 0
          match s.laneIssue run core k.gslot k.place with
          | .next t => match t.laneIssue run core g2 p2 with
            | .next t =>
              let lead := went t k.gslot k.place
              let mate := went t g2 p2
              .next (if lead || mate then t.chargeSlot core lslot (if lead && mate then both else 0) charged else t)
            | o => o
          | o => o

/-! ### Core cycles and events -/

/-- A core has still something to issue in its present cycle: a ready split and a free pipe, or a slot that no instruction
holds and whose run can issue (R166, R274). -/
def State.cycleBusy (s : State) (core : Nat) : Bool :=
  (s.nextSplit core).isSome ||
    (s.core core).lslots.any (fun e => decide (e.2.hold = 0) && !e.2.ended && (s.nextLane core e.2.gslot e.2.place).isSome)

/-- A core's cycle ends once all that issues in it has issued: the next one begins (R273 to R276). -/
def State.cycleTurn (run : Instr → State → Answer) (s : State) (core : Nat) : Answer :=
  if s.cycleBusy core then .next s
  else match run (.evLaneSlotSelect core) s with
    | .next t => .next (t.readyPass run core)
    | o => o

/-- An event of the device: what no program word encodes. -/
def isEvent (i : Instr) : Bool :=
  match i with
  | .evUndefinedEncoding _ => false
  | i => (encode i).isNone

/-- An event acts where it has a meaning for this device (R1). A core's cycle has its own turn, and its issue budget's period
ends with a cycle only (R280). -/
def State.eventTurn (run : Instr → State → Answer) (s : State) (i : Instr) : Answer :=
  if isEvent i && wellFormed i then
    match i with
    | .evLaneSlotSelect core => s.cycleTurn run core
    | .evIssueBudgetPeriod _ => .next s
    | i => run i s
  else .next s

/-! ### Placing a word (log entry 3) -/

/-- The page at which a word is placed, its leaf, and the word's address. -/
def loadPage : Nat := 0x1_0000
def loadLeaf : Word := 0x8000_0000_0001_00E8
def loadPc : Word := 0x1_0008

/-- A launch and a unit to hold the placed word, where the machine has none. -/
def loadLaunch : Launch :=
  { job := 1, phase := 0, graph := 0, cfbase := 0x1_0000, lcbase := 0x1_0000, args := 0, cut := 0, entry := 8, gx := 1,
    gy := 1, gz := 1, slack := 0, prio := 0, pers := false, dove := false, pred := none, order := 0, started := true,
    placed := 1, live := 1, triggered := [], cancelled := false, mark := false, done := false, barg := 0, reserved := [], codeFrom := 0 }

/-- Its job. -/
def loadJob : Job := ⟨.a, 0, 0, none, 1, [(0, 1)], 0, 0, false, false, []⟩

/-- A group in slot 0 of core 0, with the launch, job and unit that hold it, where there is none. -/
def State.loadGroup (s : State) : State :=
  match FMap.get s.groups 0 with
  | some _ => s
  | none =>
    let g := Group.start 0 0 false loadPc 0 0 0 0
    match FMap.get s.units 0 with
    | some _ => s.putGroup 0 g
    | none =>
      let u := UnitRec.start 1 0 0 0 1 [0]
      let ls := match FMap.get s.launches 1 with | some _ => s.launches | none => FMap.put s.launches 1 loadLaunch
      let js := match FMap.get s.jobs 1 with | some _ => s.jobs | none => FMap.put s.jobs 1 loadJob
      { s with groups := FMap.put s.groups 0 g, units := FMap.put s.units 0 u, launches := ls, jobs := js }

/-- Place a C-code word, with its literal, as the next word of split 0 of that group. -/
def State.placeControl (s : State) (w lit : Nat) : State :=
  let s := s.loadGroup
  let asid := s.asidOfGid 0
  let word := BitVec.ofNat 32 w
  let hdr := 1 + (if longOp word then 2 ^ 31 else 0) + (if isFn word then 2 ^ 60 else 0)
  let mem := Memory.wr s.mem loadPage (bytesOf 8 hdr ++ bytesOf 4 w ++ bytesOf 4 (if longOp word then lit else 0) ++ bytesOf 112 0)
  let s := (s.tlbFill 0 asid loadPage loadLeaf).updSplit 0 0 (fun p => { p with pc := loadPc, seq := false, fetched := none, issued := none, ready := true, overdue := some 0 })
  { s.setCore 0 { s.core 0 with pipes := 0 } with mem := mem, agenda := [.control 0 0 0] }

/-- Place a lane instruction as the next of a run of split 0 of that group. -/
def State.placeLane (s : State) (w : Nat) : State :=
  let s := s.loadGroup
  let r : Run := ⟨0, 0, 0xFFFF_FFFF, [], [⟨0, BitVec.ofNat 96 w, 0xFFFF_FFFF⟩], [], false, false, false, [], false, false, false,
    none, none, 0, none, none, none, false⟩
  let s := s.updSplit 0 0 (fun p => { p with running := some r })
  let k := s.core 0
  { s.setCore 0 { k with lslots := FMap.put k.lslots 0 ⟨0, 0, none, 0, false⟩ } with agenda := [.lane 0 0] }

/-- The word of `nbits` bits where the next step fetches it. -/
def State.placeWord (s : State) (nbits w : Nat) : State :=
  if nbits = 96 then s.placeLane w else s.placeControl (w % 2 ^ 32) (w / 2 ^ 32 % 2 ^ 32)

end Sys2Proof.Machine
end

