-- ==== Sys2Proof/Machine/ScalarMem.lean ====
section
/-! DEFINITION. Scalar memory access, translation registers and cache controls: C-code 0x40 to 0x43 and 0x50 to 0x55
(R99, R106 to R116). -/

namespace Sys2Proof.Machine

/-- The bits of a control-stream word, as a frame entry shows them. -/
def wordBits (i : Instr) : LBits := match encode i with | some (_, w) => BitVec.ofNat 96 (w % 2 ^ 32) | none => 0

/-- A scalar register as a producer's destination: S0 takes nothing (R27). -/
def scalarDest (p : Split) (d : BitVec 6) : Dest := if d = 0 then .none else .scalar d.toNat (selKs p d.toNat)

/-- Put a producer in the replay queue; a scalar destination becomes empty (R35, R372). -/
def State.addProducer (s : State) (q : Producer) : State × Nat :=
  match FMap.get s.groups s.gid with
  | none => (s, 0)
  | some g =>
    let pid := g.nextPid
    let q := { q with tag := s.tagOf s.gid s.cur.place }
    let g := match q.dest with
      | .scalar n ks => g.setSEmpty s.cur.place n ks true
      | .lanes first count sup => (List.range count).foldl (fun g i => g.setVEmptys sup (first + i) q.mask true) g
      | .none => g
    (s.putGroup s.gid { g with replay := FMap.put g.replay pid q, nextPid := pid + 1 }, pid)

/-- The replay queue is full (R372). -/
def Group.replayFull (g : Group) : Bool := decide (Config.replayEntries ≤ g.replay.length)

/-- The waits of a scalar access before it issues: an acquire of its control stream that has not read (R349), a previous SO access (R350). -/
def State.scalarWait (s : State) (leaf : Word) (va : Nat) : Bool :=
  s.wordAcquires s.gid s.cur.place || (decide (accessKind leaf va = 1) && s.soOutstanding s.gid s.cur.place)

/-- A lane producer under one of these tags whose accesses have not all been performed (R124, R336, R340); those of a store
are its packets. -/
def Producer.unperformed (p : Producer) (tags : List Nat) : Bool :=
  !p.ctl && !(shapeOfBits p.bits).any (fun sh => decide (sh.deed = .store)) && tags.contains p.tag && decide (p.ready ||| p.landed ||| p.sup ||| p.flt ≠ p.mask)

/-- A ray of some lanes traverses: TRACE's reads go on (R336). -/
def State.traversing (s : State) (gid : Nat) (lanes : Lanes) : Bool :=
  s.rays.any (fun e => decide (e.2.gid = gid) && decide (e.2.lane < 32) && inLanes lanes e.2.lane &&
    decide (e.2.stage ≠ .suspended ∧ e.2.stage ≠ .reported))

/-- Every lane access of the split has been performed, but what waits for a handler's end. -/
def State.lanesPerformed (s : State) (g : Group) : Bool :=
  !s.lanesOutstanding s.gid s.cur.place && !(s.splitAt s.gid s.cur.place).any (fun p => s.traversing s.gid p.mask) &&
    !g.replay.any (fun e => e.2.unperformed (s.tagsOf s.gid s.cur.place) && !g.inFrame e.1 e.2)

/-- Earlier runs have issued and their lane accesses have been performed (R124). -/
def State.lanesDrained (s : State) (g : Group) (p : Split) : Bool := decide (p.runsLeft = 0) && s.lanesPerformed g

/-- Earlier runs have issued, and every access of the split, those of its control stream too, has been performed (R341,
R347). -/
def State.drained (s : State) (g : Group) (p : Split) : Bool :=
  s.lanesDrained g p && !s.outstanding s.gid s.cur.place

/-- Translate a scalar access and go on with it, or trap (R99, R106). -/
def scalarAccess (s : State) (g : Group) (p : Split) (va : Word) (acc : AccKind) (f : State → Word → Nat → State) : State :=
  if va.toNat % 8 ≠ 0 then s.trap cMISALIGN va
  else match translate s s.cur.core (s.asidOf g) va.toNat acc p.user with
    | (s, .error c) => s.trap c va
    | (s, .ok (leaf, loc)) => if s.scalarWait leaf va.toNat then s else f s leaf loc

/-- How a scalar packet travels (R99). -/
def scalarHow (p : Split) (order : Nat) : How := ⟨p.dslack.toNat, order, if order = 0 then 0 else 4, false, 0⟩

/-- The address of SLD and SST (R106). -/
def sldAddr (base : Word) (o : BitVec 12) : Word := base + 8 * sext64 o

/-- Send one scalar access that answers into d. Its entry keeps the operands as captured, and its address where a trap looks
for it. -/
def scalarSend (i : Instr) (d : BitVec 6) (order : Nat) (va a b : Word) (op : AccOp) (p : Split) (s : State) (leaf : Word)
    (loc : Nat) : State :=
  let q := mkProducer .access true s.cur.place (wordBits i) 0 (scalarDest p d) p.mask
  let q := { q with sent := true, opA := FMap.wr 0 [] 0 a, opB := FMap.wr 0 [] 0 b, vals := [(32 * 31, va)] }
  let (s, pid) := s.addProducer q
  (s.issueAll s.gid s.cur.place (some pid) (scalarHow p order) [⟨32, 0, va.toNat, loc, leaf, 8, op⟩]).goOn 1

/-- SLD (R106). -/
def execCSld (d a : BitVec 6) (o : BitVec 12) (s : State) : Answer :=
  scalarWord [a] d (fun g p =>
    if g.replayFull then s
    else
      let va := sldAddr (readS g p a) o
      scalarAccess s g p va .read (scalarSend (.cSld d a o) d 0 va (readS g p a) 0 (.load []) p)) s

/-- SST (R106). -/
def execCSst (d a : BitVec 6) (o : BitVec 12) (s : State) : Answer :=
  scalarWord [a, d] 0 (fun g p =>
    let b := sourceAt g p 0 a
    let v := sourceAt g p 1 d
    let va := sldAddr b o
    scalarAccess s g p va .write (fun s leaf loc =>
      s.doveWord p (crcStore 0xFFFF_FFFF va.toNat 8 v.toNat) [b, v] (fun s =>
        (s.issueAll s.gid s.cur.place none (scalarHow p 0) [⟨32, 0, va.toNat, loc, leaf, 8, .store v⟩]).goOn 1))) s

/-- The operation of SATOM as an atomic's operation and type (R107). -/
def satomOp (o : Nat) : Nat × Nat :=
  match o with
  | 4 => (4, 1)
  | 5 => (5, 1)
  | 6 => (4, 0)
  | 7 => (5, 0)
  | 8 => (6, 0)
  | 9 => (7, 0)
  | o => (o, 0)

/-- SATOM (R107): a release waits for the split's earlier accesses (R341). -/
def execCSatom (d a b : BitVec 6) (r : BitVec 2) (o : BitVec 4) (s : State) : Answer :=
  scalarWord [a, b] d (fun g p =>
    if g.replayFull ∨ (2 ≤ r.toNat ∧ !s.drained g p) then s
    else
      let va := sourceAt g p 0 a
      let v := sourceAt g p 1 b
      let old := sourceAt g p 2 d
      let op := satomOp o.toNat
      scalarAccess s g p va .write (fun s leaf loc =>
        s.doveWord p (crcStore 0xFFFF_FFFF va.toNat 8 v.toNat) [va, v, old] (fun s =>
          let next := s.nextPkt
          let s' := scalarSend (.cSatom d a b r o) d r.toNat va va v (.atomic op.1 op.2 v old) p s leaf loc
          if s.doveLeads s.gid then s' else { s' with pkts := s'.pkts.filter (fun e => decide (e.1 < next)) }))) s

/-- V registers of the acting group's cut. -/
def State.vregsOf (s : State) (g : Group) : Nat := match s.unitOf g with | some u => u.vregs | none => 0

/-- SFROM of a lane (R97, R108): d is empty until the earlier runs have issued and the register is full. -/
def sfrom (i : Instr) (d va : BitVec 6) (lane : Nat) (b : Word) (s : State) (g : Group) (p : Split) : State :=
  if s.vregsOf g ≤ va.toNat then s.trap cILLEGAL 0
  else if g.replayFull then s
  else
    let q := mkProducer .near true s.cur.place (wordBits i) lane (scalarDest p d) p.mask
    let q := { q with run := p.runsLeft, opB := FMap.wr 0 [] 0 b, um := p.user }
    let s := (s.addProducer q).1
    (s.updGroup s.gid Group.sample).goOn 1

/-- SFROM (R108). -/
def execCSfrom (d a b : BitVec 6) (s : State) : Answer :=
  scalarWord [b] d (fun g p => sfrom (.cSfrom d a b) d a ((readS g p b).toNat % 32) (readS g p b) s g p) s

/-- SFROM.first (R108): the lowest-numbered lane of the split's mask. -/
def execCSfromFirst (d a : BitVec 6) (s : State) : Answer :=
  scalarWord [] d (fun g p => sfrom (.cSfromFirst d a) d a (lowLane p.mask % 32) 0 s g p) s

/-- A divided group may not write an X register (R27). -/
def sharedX (g : Group) : Bool := decide (1 < g.splits.length)

/-- XLAT (R111). It never faults: where a read in the current mode would, or a write for .w, LIM is 0. -/
def xlat (d a b : BitVec 6) (w : Bool) (s : State) : Answer :=
  scalarWord [a, b] 0 (fun g p =>
    if sharedX g then s.trap cSHAREDWRITE 0
    else
      let va := readS g p a
      match translate s s.cur.core (s.asidOf g) va.toNat (if w then .write else .read) p.user with
      | (_, .error _) => (s.updGroup s.gid (fun g => g.setX d.toNat ⟨0, va, 0⟩)).goOn 1
      | (s, .ok (leaf, _)) =>
        let rest := pageBytes leaf - va.toNat % pageBytes leaf
        let n := (readS g p b).toNat
        let lim := if n = 0 then rest else min n rest
        (s.updGroup s.gid (fun g => g.setX d.toNat ⟨BitVec.ofNat 32 lim, va, leaf⟩)).goOn 1) s

/-- XLAT (R111). -/
def execCXlat (d a b : BitVec 6) (s : State) : Answer := xlat d a b false s
/-- XLAT.w (R111). -/
def execCXlatW (d a b : BitVec 6) (s : State) : Answer := xlat d a b true s

/-- XFREE (R112). -/
def execCXfree (d : BitVec 6) (s : State) : Answer :=
  control (fun g _ =>
    if sharedX g then s.trap cSHAREDWRITE 0
    else (s.updGroup s.gid (fun g => g.setX d.toNat XReg.zero)).goOn 1) s

/-- Bring a whole line into its home slice. -/
def State.prefetchL2 (s : State) (asid part loc : Nat) : State := s.fillHome asid part (loc / 128 * 128) 128

/-- PREF (R113): it writes no register, raises no fault and orders nothing. -/
def pref (a : BitVec 6) (i : BitVec 12) (l1 : Bool) (s : State) : Answer :=
  scalarWord [a] 0 (fun g p =>
    let va := (readS g p a + sext64 i).toNat
    match s.probe s.cur.core (s.asidOf g) va .read p.user with
    | .error _ => s.goOn 1
    | .ok (leaf, loc) =>
      if leafPeer leaf ≠ 0 ∨ !backed loc then s.goOn 1
      else
        let s := s.prefetchL2 (s.asidOf g) (s.partOf g) loc
        let near := l1 && decide (accessKind leaf va ≠ 1) && inHbm loc
        (if near then s.fillL1 s.cur.core loc (decide (accessKind leaf va = 2)) (s.relOfLine (loc / 128)) else s).goOn 1) s

/-- PREF.l2 (R113). -/
def execCPrefL2 (a : BitVec 6) (i : BitVec 12) (s : State) : Answer := pref a i false s
/-- PREF.l1 (R113). -/
def execCPrefL1 (a : BitVec 6) (i : BitVec 12) (s : State) : Answer := pref a i true s

/-- The addresses of the lines that hold a byte of a range (R114). -/
def rangeLines (a n : Nat) : List Nat := (List.range ((a + n - 1) / 128 + 1 - a / 128)).map (fun i => 128 * (a / 128 + i) % 2 ^ 64)

/-- A line of L2 is pinned, and by whom. -/
def State.pinOf (s : State) (loc : Nat) : Option Nat := (s.homeLine loc).bind (·.pin)

/-- Lines pinned in a set, and by an address space (R307). -/
def pinsIn (ls : List L2Line) : Nat := (ls.filter (fun l => l.pin.isSome)).length
def State.pinsOf (s : State) (asid : Nat) : Nat :=
  (s.l2.map (fun e => (e.2.filter (fun l => decide (l.pin = some asid))).length)).sum

/-- PIN's status and the locations of its lines (R114), checked in the order of the table. -/
def pinStatus (s : State) (core asid a n : Nat) (user : Bool) : Nat × List Nat :=
  if n = 0 ∨ 2 ^ 24 < n then (5, [])
  else
    let found := (rangeLines a n).map (fun va => s.probe core asid va .read user)
    if found.any (fun r => match r with | .error _ => true | .ok _ => false) then (4, [])
    else if found.any (fun r => match r with | .ok (e, _) => !leafPE e || decide (leafPeer e ≠ 0) | .error _ => true) then (3, [])
    else
      let locs := dedup (found.filterMap (fun r => match r with | .ok (_, loc) => some loc | .error _ => none))
      let fresh := locs.filter (fun l => (s.pinOf l).isNone)
      let crowd := fresh.any (fun l =>
        let same := fresh.filter (fun m => sliceOf m = sliceOf l && setOf m = setOf l)
        decide (10 < pinsIn (s.l2Set (sliceOf l) (setOf l)) + same.length))
      let quota := match s.spaceFor s.gid asid with | some x => x.pinq | none => 0
      if crowd then (1, []) else if quota < s.pinsOf asid + fresh.length then (2, []) else (0, fresh)

/-- PIN (R114): the lines become resident and pinned. -/
def execCPin (d a b : BitVec 6) (s : State) : Answer :=
  scalarWord [a, b] d (fun g p =>
    let asid := s.asidOf g
    let (st, locs) := pinStatus s s.cur.core asid (readS g p a).toNat (readS g p b).toNat p.user
    let pin := fun (s : State) loc => (s.prefetchL2 asid (s.partOf g) loc).updHomeLine loc (fun l => { l with pin := some asid })
    ((locs.foldl pin s).writeS p d (BitVec.ofNat 64 st)).goOn 1) s

/-- UNPIN (R115): the issuer's pins of the range are cleared and counted. -/
def execCUnpin (d a b : BitVec 6) (s : State) : Answer :=
  scalarWord [a, b] d (fun g p =>
    let asid := s.asidOf g
    let n := (readS g p b).toNat
    if 2 ^ 24 < n then (s.writeS p d (BitVec.allOnes 64)).goOn 1
    else if n = 0 then (s.writeS p d 0).goOn 1
    else
      let locs := dedup ((rangeLines (readS g p a).toNat n).filterMap (fun va =>
        match s.probe s.cur.core asid va .read false with
        | .ok (_, loc) => if s.pinOf loc = some asid then some loc else none
        | .error _ => none))
      let s := locs.foldl (fun s loc => s.updHomeLine loc (fun l => { l with pin := none })) s
      (s.writeS p d (BitVec.ofNat 64 locs.length)).goOn 1) s

/-- GUESTINV (R116). -/
def execCGuestinv (s : State) : Answer := control (fun _ _ => (s.dropGuests (sectorOf s.cur.core)).goOn 1) s

end Sys2Proof.Machine
end

