-- ==== Sys2Proof/Machine/Flow.lean ====
section
/-! DEFINITION. Branches, calls, tokens, splits and deferred paths: C-code 0x60 to 0x6D, BRAL and CALLL (R117 to R122,
R125 to R133). -/

namespace Sys2Proof.Machine

/-! ### Splits that merge -/

/-- What a split that vanishes has in flight belongs to the split it merged into (R340): `count` gives a wait for some of its runs
anew, as they stand in that split's queue. -/
def State.movePlace (s : State) (gid old new : Nat) (count : Nat → Nat) : State :=
  let prod := fun e : Nat × Producer => if e.2.place = old then (e.1, { e.2 with place := new, run := count e.2.run }) else e
  let sig := fun w : Signal => if w.place = old then { w with place := new, runs := count w.runs } else w
  let pkt := fun e : Nat × Packet => if e.2.gid = gid ∧ e.2.place = old then (e.1, { e.2 with place := new }) else e
  let s := s.updGroup gid (fun g => { g with replay := g.replay.map prod, signal := g.signal.map sig })
  { s with pkts := s.pkts.map pkt }

/-- The token references of a stack, top first. -/
def tokenRefs (st : List StackEntry) : List Nat := st.filterMap (fun e => match e with | .tok id _ => some id | .deferred _ _ _ => none)

/-- A deferred path stands on the stack. -/
def hasDeferred (st : List StackEntry) : Bool := st.any (fun e => match e with | .deferred _ _ _ => true | .tok _ _ => false)

/-- The lanes that a stack holds at token t. -/
def heldAt (t : Nat) (st : List StackEntry) : Lanes :=
  st.foldl (fun m e => match e with | .tok id h => if id = t then m ||| h else m | .deferred _ _ _ => m) 0

/-- Lanes that other stacks hold at the tokens of a stack pass to it. -/
def gatherHeld (others : List Split) (st : List StackEntry) : List StackEntry :=
  st.map (fun e => match e with
    | .tok id h => .tok id (others.foldl (fun m o => m ||| heldAt id o.stack) h)
    | d => d)

/-- The splits of a group that may merge with a split that has completed a marked branch to `w` (R131). -/
def mergePartner (g : Group) (place : Nat) (p : Split) (w : Word) : Option (Nat × Split) :=
  g.splits.find? (fun e => decide (e.1 ≠ place) && decide (e.2.marked = some w) && decide (e.2.pc = w) &&
    decide (tokenRefs e.2.stack = tokenRefs p.stack) && !hasDeferred e.2.stack && !hasDeferred p.stack &&
    e.2.issued.isNone && e.2.parked.isNone && g.handler.isNone)

/-- A split takes in one that merges into it (R131, R340): its lanes, what it holds at tokens, its program order, and its runs after
the runs that it has. A run of it in progress stays in progress: at once where the split has none, else next. -/
def Split.absorb (p q : Split) : Split :=
  let begun := q.running.map (fun r => { r with suspended := true, resumed := true, mate := none, begun := true })
  let runs := match p.running, q.running with
    | none, some r => (some r, p.runq ++ q.runq)
    | r, _ => (r, begun.toList ++ p.runq ++ q.runq)
  { p with mask := p.mask ||| q.mask, stack := gatherHeld [q] p.stack, running := runs.1, runq := runs.2,
           tags := dedup (p.tags ++ q.tags), fenced := max p.fenced q.fenced }

/-- A wait for `n` runs of the split that goes on, and of the one that vanishes, when `q` has merged into `p` (R97, R131). -/
def keptCount (p q : Split) (n : Nat) : Nat :=
  if q.running.isSome ∧ (if p.running.isSome then 1 else 0) < n then n + 1 else n
def goneCount (p q : Split) (n : Nat) : Nat :=
  if n = 0 then 0
  else if q.running.isSome ∧ n = 1 then 1 + (if p.running.isSome then 1 else 0)
  else n + p.runsLeft

/-- The lane slot of a run in progress, and what the matrix array keeps for it, follow its split's place (R131). -/
def Core.movePlace (k : Core) (gid gslot old new : Nat) : Core :=
  let at_ := fun (x : Nat × Nat) => if x = (gslot, old) then (gslot, new) else x
  { k with lslots := k.lslots.map (fun e =>
             (e.1, { e.2 with place := (at_ (e.2.gslot, e.2.place)).2, pair := e.2.pair.map at_ })),
           mmaBusy := k.mmaBusy.map (fun w => if w.gid = gid ∧ w.place = old then { w with place := new } else w) }

/-- The split at `place` has completed a marked branch to `w`: it merges with a partner, if there is one (R131). Where both have a
run in progress, that of the vanishing split gives its slot up and goes on after the other's (log entry 18). -/
def State.mark (s : State) (gid place : Nat) (w : Word) : State :=
  let s := s.updSplit gid place (fun p => { p with marked := some w })
  match FMap.get s.groups gid with
  | none => s
  | some g =>
    match FMap.get g.splits place with
    | none => s
    | some p =>
      match mergePartner g place p w with
      | none => s
      | some (o, q) =>
        let low := decide (lowLane q.mask < lowLane p.mask)
        let (keep, kept) := if low then (o, q) else (place, p)
        let (gone, left) := if low then (place, p) else (o, q)
        let k := s.core (coreOfGid gid)
        let k := if kept.running.isSome then k.releaseSlot (gid % 64) gone else k
        let s := s.setCore (coreOfGid gid) (k.movePlace gid (gid % 64) gone keep)
        let g := { g with splits := FMap.del (FMap.put g.splits keep (kept.absorb left)) gone }
        ((s.putGroup gid g).movePlace gid keep keep (keptCount kept left)).movePlace gid gone keep (goneCount kept left)

/-! ### Branches and calls -/

/-- Transfer to a target that obeys R16, or trap; `m` marks it as a merge point, for which the split's own registers
must be full (R131). -/
def branchTo (s : State) (g : Group) (p : Split) (t : Word) (m : Bool) : State :=
  match s.checkTarget s.cur.core (s.asidOf g) (s.codeFrom g) p.user false t with
  | (s, some (c, v)) => s.trap c v
  | (s, none) =>
    if m then (if p.allFull then (s.goTo t).mark s.gid s.cur.place t else s)
    else s.goTo t

/-- The target at a word offset from the branch word (R40, R117). -/
def relTarget {n : Nat} (p : Split) (o : BitVec n) : Word := p.pc + 4 * sext64 o

/-- BRA (R117): taken when S[a] meets the condition against 0. -/
def execCBra (a : BitVec 6) (c : BitVec 4) (o : BitVec 14) (s : State) : Answer :=
  scalarWord [a] 0 (fun g p => if scalarCond c.toNat (readS g p a) 0 then branchTo s g p (relTarget p o) false else s.goOn 1) s

/-- B (R117, R131). -/
def execCB (m : BitVec 1) (o : BitVec 23) (s : State) : Answer :=
  control (fun g p => branchTo s g p (relTarget p o) (decide (m = 1))) s

/-- BRAL (R117, R131). -/
def execCBral (a : BitVec 6) (c : BitVec 4) (m : BitVec 1) (lit : BitVec 32) (s : State) : Answer :=
  scalarWord [a] 0 (fun g p =>
    if scalarCond c.toNat (readS g p a) 0 then branchTo s g p (relTarget p lit) (decide (m = 1)) else s.goOn 2) s

/-- The link register: S63, or KS7 in supervisor mode (R28, R118). -/
def link : BitVec 6 := 63

/-- The steps of R118 for a call of `n` words. -/
def callTo (s : State) (g : Group) (p : Split) (t : Word) (n : Nat) : State :=
  let ret := nextWord p.pc n
  let u := s.unitOf g
  match s.checkCall s.cur.core (s.asidOf g) (s.codeFrom g) ((u.map (·.vregs)).getD 0) ((u.map (·.priv)).getD 0) p.user p.user (some ret) t with
  | (s, some (c, v)) => s.trap c v
  | (s, none) => (s.writeS p link ret).goTo t

/-- CALL (R118). -/
def execCCall (o : BitVec 24) (s : State) : Answer := scalarWord [] link (fun g p => callTo s g p (relTarget p o) 1) s
/-- CALLI (R118). -/
def execCCalli (a : BitVec 6) (s : State) : Answer := scalarWord [a] link (fun g p => callTo s g p (readS g p a) 1) s
/-- CALLL (R118). -/
def execCCalll (lit : BitVec 32) (s : State) : Answer := scalarWord [] link (fun g p => callTo s g p (relTarget p lit) 2) s

/-- FN does nothing when executed (R120). -/
def execCFn (_ : BitVec 1) (_ : BitVec 9) (_ : BitVec 5) (s : State) : Answer := control (fun _ _ => s.goOn 1) s
/-- NOP (R122). -/
def execCNop (s : State) : Answer := control (fun _ _ => s.goOn 1) s
/-- YIELD (R122): ineligible for the control pipes for 8 core cycles. -/
def execCYield (s : State) : Answer := control (fun _ _ => (s.onSplit (fun p => { p with yielding := s.now + 9 })).goOn 1) s

/-! ### Tokens (R125, R128 to R130) -/

/-- The innermost real token: the deferred paths above it, its number, the lanes held there, the entries below. -/
def innermost : List StackEntry → Option (List StackEntry × Nat × Lanes × List StackEntry)
  | [] => none
  | .tok id h :: rest => some ([], id, h, rest)
  | .deferred a m k :: rest =>
    match innermost rest with
    | none => none
    | some (up, id, h, low) => some (.deferred a m k :: up, id, h, low)

/-- The entries below token t. -/
def belowToken (t : Nat) : List StackEntry → List StackEntry
  | [] => []
  | .tok id _ :: rest => if id = t then rest else belowToken t rest
  | .deferred _ _ _ :: rest => belowToken t rest

/-- The deferred paths that stand directly below token t. -/
def directlyBelow (t : Nat) (st : List StackEntry) : List StackEntry :=
  (belowToken t st).takeWhile (fun e => match e with | .deferred _ _ _ => true | .tok _ _ => false)

/-- Remove the references to token t. -/
def dropRef (t : Nat) (st : List StackEntry) : List StackEntry :=
  st.filter (fun e => match e with | .tok id _ => decide (id ≠ t) | .deferred _ _ _ => true)

/-- Put a path in token t's place. -/
def pathFor (t : Nat) (path : StackEntry) (st : List StackEntry) : List StackEntry :=
  st.map (fun e => match e with | .tok id h => if id = t then path else .tok id h | d => d)

/-- A split takes over the program order of the lanes that have arrived at a token (R340). -/
def Split.joined (p : Split) (k : Token) : Split := { p with tags := dedup (p.tags ++ k.tags), fenced := max p.fenced k.fenced }

/-- A split with another stack. -/
def Split.withStack (p : Split) (st : List StackEntry) : Split := { p with stack := st }

/-- What R130 makes of token t at a state in which its record has just changed: the group and the places that merged
away with the place that keeps them; none where a stack would pass 16 entries. `place` completed the token, in core cycle
`now`; `seq` makes the merged split's next word a sequential step. DESIGN CHOICE (log entry 102): where no split is parked and the one
that held the lowest-numbered lane of E at the token has gone, R130 does not tell which stack takes the deferred path; the first split
that still holds a reference to the token does. -/
def settleToken (now : Nat) (seq : Bool) (g : Group) (place t : Nat) : Option (Group × List (Nat × Nat)) :=
  match FMap.get g.tokens t with
  | none => some (g, [])
  | some k =>
    if k.a ≠ k.e then some (g, [])
    else
      let g := { g with tokens := FMap.del g.tokens t }
      let forget := fun (g : Group) => { g with splits := g.splits.map (fun e => (e.1, { e.2 with stack := dropRef t e.2.stack })) }
      if k.e = 0 then some (forget g, [])
      else
        let parked := g.splits.filter (fun e => decide (e.2.parked = some t))
        match minBy (fun a b : Nat × Split => decide (lowLane a.2.mask < lowLane b.2.mask)) parked with
        | some keep =>
          let others := (sortBy (fun a b : Nat × Split => decide (lowLane a.2.mask < lowLane b.2.mask)) parked).filter
            (fun e => decide (e.1 ≠ keep.1))
          let low := gatherHeld (others.map (·.2)) (belowToken t keep.2.stack)
          let stack := others.foldl (fun st o => directlyBelow t o.2.stack ++ st) low
          if 16 < stack.length then none
          else
            let g := others.foldl (fun g o => { g with splits := FMap.del g.splits o.1 }) g
            let merged := fun p : Split =>
              { p with pc := k.j, seq := seq, mask := k.e, stack := dropRef t stack, parked := none, issued := none, next := now + 2,
                       tags := dedup (others.foldl (fun ts o => ts ++ o.2.tags) (p.tags ++ k.tags)), fetched := none, since := none,
                       fenced := others.foldl (fun n o => max n o.2.fenced) (max p.fenced k.fenced) }
            some ((forget g).updSplit keep.1 merged, others.map (fun o => (o.1, keep.1)))
        | none =>
          let holders := g.splits.filter (fun e => (tokenRefs e.2.stack).contains t)
          let path := StackEntry.deferred k.j k.e false
          let holder := match holders.find? (fun e => inLanes (heldAt t e.2.stack) (lowLane k.e)) with
            | some h => some h
            | none => holders.head?
          match holder with
          | some h => some (forget (g.updSplit h.1 (fun p => (p.joined k).withStack (pathFor t path p.stack))), [])
          | none =>
            match FMap.get g.splits place with
            | none => some (g, [])
            | some p =>
              if 16 ≤ p.stack.length then none
              else some (g.updSplit place (fun p => (p.joined k).withStack (path :: p.stack)), [])

/-- Settle several tokens in order. -/
def settleTokens (now : Nat) (seq : Bool) (place : Nat) : List Nat → Group → Option (Group × List (Nat × Nat))
  | [], g => some (g, [])
  | t :: ts, g =>
    match settleToken now seq g place t with
    | none => none
    | some (g, m) => match settleTokens now seq place ts g with
      | none => none
      | some (g, m') => some (g, m ++ m')

/-- The token completes, and splits parked at it go on at its join address: their mode, and the address (R130). -/
def joinTarget (g : Group) (t : Nat) : Option (Bool × Word) :=
  match FMap.get g.tokens t, minBy (fun a b : Nat × Split => decide (lowLane a.2.mask < lowLane b.2.mask))
      (g.splits.filter (fun e => decide (e.2.parked = some t))) with
  | some k, some e => if k.a = k.e ∧ k.e ≠ 0 then some (e.2.user, k.j) else none
  | _, _ => none

/-- Check the words at which splits go on (R11, R16): a merged split at its join address, a deferred path at its own. -/
def State.checkOn (s : State) (g : Group) (check : State → Bool → Word → State × Option (Nat × Word)) :
    List (Bool × Word) → State × Option (Nat × Word)
  | [] => (s, none)
  | t :: ts => match check s t.1 t.2 with
    | (s, some e) => (s, some e)
    | (s, none) => s.checkOn g check ts

/-- The check of a join address at the word that completes its token (R16). -/
def State.joinCheck (g : Group) (s : State) (user : Bool) (t : Word) : State × Option (Nat × Word) :=
  s.checkTarget s.cur.core (s.asidOf g) (s.codeFrom g) user false t

/-- The check of a word at which a path resumes (R11). -/
def State.pathCheck (g : Group) (s : State) (user : Bool) (t : Word) : State × Option (Nat × Word) :=
  s.checkFetch s.cur.core (s.asidOf g) (s.codeFrom g) user t

/-- Put the group that R130 makes of `g`, in which the record of token t has changed, once the words at which splits go on
have passed their checks; or trap with nothing changed. `path` is the deferred path that resumes. -/
def State.putSettled (s : State) (g : Group) (t : Nat) (path : Option (Bool × Word)) : State :=
  match s.checkOn g (State.pathCheck g) path.toList with
  | (s, some (c, v)) => s.trap c v
  | (s, none) => match s.checkOn g (State.joinCheck g) (joinTarget g t).toList with
    | (s, some (c, v)) => s.trap c v
    | (s, none) => match settleToken s.now false g s.cur.place t with
      | none => s.trap cTOKENOVF 0
      | some (g, moves) => (moves.foldl (fun s m => s.movePlace s.gid m.1 m.2 id) (s.putGroup s.gid g)).preload s.gid

/-- Go on with a deferred path in core cycle `next` at the earliest: a call mark writes the link register first (R128).
DESIGN CHOICE (log entry 90): the path resumes by a transfer, so word 2 of a line with ENT = 1 does not trap BADTARGET. -/
def Split.resumePath (p : Split) (next : Nat) (pc : Word) (mask : Lanes) (j : Option Word) (stack : List StackEntry) : Split :=
  let p := match j with | some j => p.setOwn 63 p.sm j | none => p
  { p.movedTo pc false next with mask := mask, stack := stack }

/-- The join address of the innermost token below a path that carries a call mark (R128, R133). -/
def markLink (g : Group) (mark : Bool) (below : List StackEntry) : Option Word :=
  if mark then match tokenRefs below with
    | t :: _ => (FMap.get g.tokens t).map (·.j)
    | [] => none
  else none

/-- Arrive at the innermost token (R128). -/
def arriveAt (s : State) (g : Group) (p : Split) (up : List StackEntry) (t : Nat) (h : Lanes) (low : List StackEntry) : State :=
  let g := { g with tokens := FMap.upd g.tokens t (fun k => { k with a := k.a ||| p.mask, tags := dedup (k.tags ++ p.tags), fenced := max k.fenced p.fenced }) }
  match up with
  | .deferred pc m mark :: rest =>
    let stack := rest ++ .tok t (h ||| p.mask) :: low
    let g := g.updSplit s.cur.place (fun p => p.resumePath (s.now + 2) pc m (markLink g mark stack) stack)
    s.putSettled g t (some (p.user, pc))
  | _ => s.putSettled (g.updSplit s.cur.place (fun p => { p with parked := some t, issued := none, marked := none, ready := false })) t none

/-- The token is a call token. -/
def isCall (g : Group) (t : Nat) : Bool := match FMap.get g.tokens t with | some k => k.call | none => false

/-- JOIN (R128): it waits for the split's runs, and for its own registers to be full (R27). -/
def execCJoin (s : State) : Answer :=
  control (fun g p =>
    if p.runsLeft ≠ 0 ∨ !p.allFull then s
    else match innermost p.stack with
      | none => s.trap cILLEGAL 0
      | some (up, t, h, low) => if isCall g t then s.trap cILLEGAL 0 else arriveAt s g p up t h low) s

/-- JBRK (R129). -/
def execCJbrk (o : BitVec 14) (s : State) : Answer :=
  control (fun g p =>
    if p.runsLeft ≠ 0 then s
    else
      let w := relTarget p o
      match s.checkTarget s.cur.core (s.asidOf g) (s.codeFrom g) p.user false w with
      | (s, some (c, v)) => s.trap c v
      | (s, none) =>
        match innermost p.stack with
        | none => s.trap cILLEGAL 0
        | some (up, t, h, low) =>
          if isCall g t then s.trap cILLEGAL 0
          else
            let g := { g with tokens := FMap.upd g.tokens t (fun k => { k with e := k.e &&& ~~~p.mask }) }
            match up with
            | .deferred pc m mark :: rest =>
              let stack := rest ++ .tok t h :: .deferred w p.mask false :: low
              let g := g.updSplit s.cur.place (fun p => p.resumePath (s.now + 2) pc m (markLink g mark stack) stack)
              s.putSettled g t (some (p.user, pc))
            | _ => s.putSettled (g.updSplit s.cur.place (fun p => p.resumePath (s.now + 2) w p.mask none low)) t none) s

/-- JSET (R126). -/
def execCJset (o : BitVec 14) (s : State) : Answer :=
  control (fun g p =>
    let w := relTarget p o
    match s.checkReturn s.cur.core (s.asidOf g) (s.codeFrom g) p.user w with
    | (s, some (c, v)) => s.trap c v
    | (s, none) =>
      if Config.stackEntries ≤ p.stack.length then s.trap cTOKENOVF 0
      else
        let push := fun g : Group =>
          let g := { g with tokens := FMap.put g.tokens g.nextTok ⟨false, w, p.mask, 0, [], 0⟩, nextTok := g.nextTok + 1 }
          g.updSplit s.cur.place (fun p => { p with stack := .tok (g.nextTok - 1) 0 :: p.stack })
        (s.updGroup s.gid push).goOn 1) s

/-- RET (R119): JOIN on a call token whose join address it names, else a plain branch (R133). -/
def execCRet (a : BitVec 6) (s : State) : Answer :=
  scalarWord [a] 0 (fun g p =>
    let w := readS g p a
    let call := match innermost p.stack with
      | some (up, t, h, low) => match FMap.get g.tokens t with
        | some k => if k.call ∧ k.j = w then some (up, t, h, low) else none
        | none => none
      | none => none
    match call with
    | some (up, t, h, low) => if p.runsLeft ≠ 0 ∨ !p.allFull then s else arriveAt s g p up t h low
    | none => branchTo s g p w false) s

/-! ### Dividing (R127, R133) -/

/-- The stack that a new split copies (R127). Lanes that have arrived at a token stay with the split that holds them there
(log entry 18). -/
def copyStack (st : List StackEntry) : List StackEntry :=
  st.map (fun e => match e with | .tok id _ => .tok id 0 | .deferred a m k => .deferred a m k)

/-- The tags among `tags` under which something of the group is still on its way. -/
def State.liveTags (s : State) (gid : Nat) (g : Group) (tags : List Nat) : List Nat :=
  let own := (s.core (coreOfGid gid)).uo.flatMap (·.owners) ++ s.pkts.flatMap (fun e => (e.2.gid, e.2.tag) :: e.2.owners)
  tags.filter (fun t => own.contains (gid, t) || g.replay.any (fun e => decide (e.2.tag = t)))

/-- The split travels under a tag of its own from here on, and still waits for what was issued under the others (R340). -/
def Split.retag (p : Split) (tag : Nat) (live : List Nat) : Split := { p with tag := tag, tags := tag :: live }

/-- A new split beside `p` (R27, R127): copies of its own registers and of its stack, no runs. -/
def Split.beside (p : Split) (next : Nat) (pc : Word) (mask : Lanes) : Split :=
  { p.movedTo pc false next with mask := mask, stack := copyStack p.stack, runq := [], running := none, yielding := 0 }

/-- Splits that the group may still add: none inside a handler (R368). -/
def freePlaces (g : Group) : Nat := if g.handler.isSome then 0 else 4 - g.splits.length

/-- BDIV (R127). -/
def execCBdiv (n : BitVec 1) (pn : BitVec 3) (m : BitVec 1) (o : BitVec 14) (s : State) : Answer :=
  control (fun g p =>
    if p.runsLeft ≠ 0 ∨ !p.allFull then s
    else
      let w := relTarget p o
      let t := p.mask &&& lanesOf (fun l => g.getP pn.toNat l != decide (n = 1))
      let f := p.mask &&& ~~~t
      if t = 0 then s.goOn 1
      else if f = 0 then branchTo s g p w (decide (m = 1))
      else
        match s.checkTarget s.cur.core (s.asidOf g) (s.codeFrom g) p.user false w with
        | (s, some (c, v)) => s.trap c v
        | (s, none) =>
          if freePlaces g = 0 then
            if Config.stackEntries ≤ p.stack.length then s.trap cTOKENOVF 0
            else
              let stack := StackEntry.deferred (nextWord p.pc 1) f false :: p.stack
              (s.onSplit (fun p => { p with stack := stack, mask := t })).goTo w
          else
            let place := FMap.free g.splits 4 0
            let live := s.liveTags s.gid g p.tags
            let new := (p.beside (s.now + 2) w t).retag g.nextTag live
            let s := s.updGroup s.gid (fun g => { g with splits := FMap.put g.splits place new, nextTag := g.nextTag + 2 })
            let s := s.onSplit (fun p => { (p.movedTo (nextWord p.pc 1) true (s.now + 2)).retag (g.nextTag + 1) live with mask := f })
            (if m = 1 then s.mark s.gid place w else s).preload s.gid) s

/-- The distinct targets of CALLV with their lanes, by the lowest-numbered lane that holds each (R133). -/
def callTargets (g : Group) (p : Split) (va : Nat) : List (Word × Lanes) :=
  let ts := dedup ((lanesIn p.mask).map (fun l => g.getV false va l))
  ts.map (fun t => (t, p.mask &&& lanesOf (fun l => decide (g.getV false va l = t))))

/-- Check every target of CALLV in order (R118, R133). -/
def checkCalls (core asid from_ vregs priv : Nat) (user : Bool) (ret : Word) : List (Word × Lanes) → State → State × Option (Nat × Word)
  | [], s => (s, none)
  | t :: ts, s =>
    match s.checkCall core asid from_ vregs priv user user (some ret) t.1 with
    | (s, some e) => (s, some e)
    | (s, none) => checkCalls core asid from_ vregs priv user ret ts s

/-- V[a] is full and in the pool in every lane that is read (R97, R293). -/
def vReady (g : Group) (va : Nat) (lanes : Lanes) : Bool :=
  (FMap.get g.lines (va / 4)).isSome && (lanesIn lanes).all (fun l => !g.emptyV false va l)

/-- Start the fill of the line of V[a], if it is absent (R293). -/
def State.wantLine (s : State) (g : Group) (va : Nat) : State :=
  match FMap.get g.lines (va / 4) with
  | some _ => s
  | none => s.fillLine s.gid (va / 4)

/-- CALLV (R133). -/
def execCCallv (a : BitVec 6) (s : State) : Answer :=
  scalarWord [] link (fun g p =>
    let va := a.toNat
    let u := s.unitOf g
    let vregs := (u.map (·.vregs)).getD 0
    if vregs ≤ va then s.trap cILLEGAL 0
    else if p.runsLeft ≠ 0 ∨ !p.allFull then s
    else if !vReady g va p.mask then s.wantLine g va
    else
      let ts := callTargets g p va
      let ret := nextWord p.pc 1
      match checkCalls s.cur.core (s.asidOf g) (s.codeFrom g) vregs ((u.map (·.priv)).getD 0) p.user ret ts s with
      | (s, some (c, v)) => s.trap c v
      | (s, none) =>
        let news := (ts.drop 1).take (freePlaces g)
        let later := (ts.drop 1).drop (freePlaces g)
        if Config.stackEntries < p.stack.length + 1 + later.length then s.trap cTOKENOVF 0
        else
          let c := g.nextTok
          let g := { g with tokens := FMap.put g.tokens c ⟨true, ret, p.mask, 0, [], 0⟩, nextTok := c + 1 }
          let live := s.liveTags s.gid g p.tags
          let base := { p.setOwn 63 p.sm ret with stack := .tok c 0 :: p.stack }
          let first := ts.headD (0, 0)
          let defer := later.map (fun t => StackEntry.deferred t.1 t.2 true)
          let mine := { base.movedTo first.1 false (s.now + 2) with mask := first.2, stack := defer ++ base.stack }
          let g := { g.updSplit s.cur.place (fun _ => mine.retag g.nextTag live) with nextTag := g.nextTag + 1 }
          let add := fun (g : Group) (t : Word × Lanes) =>
            let new := (base.beside (s.now + 2) t.1 t.2).retag g.nextTag live
            { g with splits := FMap.put g.splits (FMap.free g.splits 4 0) new, nextTag := g.nextTag + 1 }
          let bad := (lanesIn p.mask).any (fun l => FMap.rd false g.vBad (32 * va + l))
          ((s.putGroup s.gid (news.foldl add g)).preload s.gid).poisonDue bad 0 p.mask) s

/-! ### EXIT (R121, R129) -/

/-- The split's lanes leave: with a handler in progress, those kept aside leave too. -/
def leaving (g : Group) (place : Nat) (p : Split) : Lanes × List StackEntry :=
  match g.handler with
  | some h => if h.place = place then (h.kept.mask ||| { p with mask := p.mask, stack := h.kept.stack }.lanes ||| p.lanes, p.stack ++ h.kept.stack)
              else (p.mask, p.stack)
  | none => (p.mask, p.stack)

/-- Entries from the topmost deferred path down, if there is one. -/
def toDeferred : List StackEntry → Option (Word × Lanes × Bool × List StackEntry)
  | [] => none
  | .tok _ _ :: rest => toDeferred rest
  | .deferred a m k :: rest => some (a, m, k, rest)

/-- A result that goes to a split's own registers, those of place `place` (R27). -/
def Producer.ownOf (p : Producer) (place : Nat) : Bool :=
  p.ctl && decide (p.place = place) && (match p.dest with | .scalar n ks => ks || decide (48 ≤ n) | _ => false)

/-- After its lanes have left every token, a split goes on with its topmost deferred path, or ends, and what is on its way to
its own registers is discarded (R121, R129). -/
def Group.leave (g : Group) (now place : Nat) : Group :=
  match FMap.get g.splits place with
  | none => g
  | some p =>
    match toDeferred p.stack with
    | some (a, m, k, rest) => g.updSplit place (fun p => p.resumePath (now + 2) a m (markLink g k rest) rest)
    | none => { g with splits := FMap.del g.splits place, replay := g.replay.filter (fun e => !e.2.ownOf place) }

/-- Results still in flight for lanes that have exited are discarded (R121): the destinations keep what they hold and
are full (log entry 19). -/
def Group.discard (g : Group) (lanes : Lanes) : Group :=
  g.replay.foldl (fun g e =>
    let cut := lanes &&& e.2.mask &&& ~~~e.2.landed
    if e.2.ctl ∨ cut = 0 then g
    else ({ g.fillDest e.2 cut with replay := FMap.put g.replay e.1 { e.2 with sup := e.2.sup ||| cut } }).retire e.1) g

/-- The deferred path with which a split goes on at EXIT: its mode, its address. -/
def exitPath (g : Group) (place : Nat) : Option (Bool × Word) :=
  (FMap.get g.splits place).bind (fun p => (toDeferred p.stack).map (fun e => (p.user, e.1)))

/-- EXIT's effect once its waits have ended. DESIGN CHOICE (log entry 91): the tokens whose E changed are settled before the
stack is popped to a deferred path. What goes on passes its fetch check first (R11); a merged split enters its join address
by a sequential step, so word 2 of a line with ENT = 1 traps BADTARGET there. -/
def exitNow (s : State) (g : Group) (p : Split) : State :=
  let (lanes, stack) := leaving g s.cur.place p
  let toks := tokenRefs stack
  let g := toks.foldl (fun g t => { g with tokens := FMap.upd g.tokens t (fun k => { k with e := k.e &&& ~~~lanes }) }) g
  let inHandler := match g.handler with | some h => decide (h.place = s.cur.place) | none => false
  let g := if inHandler then { g with handler := none }.updSplit s.cur.place (fun p => { p with stack := [] }) else g
  match settleTokens s.now true s.cur.place toks (g.discard lanes) with
  | none => s.trap cTOKENOVF 0
  | some (g', moves) =>
    match s.checkOn g (State.pathCheck g) ((exitPath g' s.cur.place).toList ++ toks.filterMap (joinTarget g)) with
    | (s, some (c, v)) => s.trap c v
    | (s, none) =>
      let s := moves.foldl (fun s m => s.movePlace s.gid m.1 m.2 id) (s.putGroup s.gid g')
      let s := s.exitRays s.gid lanes
      let s := (s.updGroup s.gid (fun g => g.leave s.now s.cur.place)).preload s.gid
      match FMap.get s.groups s.gid with
      | none => s
      | some g =>
        if g.splits.isEmpty then s.endGroup s.gid
        else
          let s := (s.settleBaru g.uid).settle s.gid
          match s.unitOf g with
          | some u => s.settleBarg u.launch
          | none => s

/-- EXIT (R121): it waits for the split's runs, for its accesses and for the group's copies (log entry 19). -/
def execCExit (s : State) : Answer :=
  control (fun g p =>
    let last := decide (g.splits.length = 1) && s.copying s.gid (fun _ => true)
    if p.runsLeft ≠ 0 ∨ s.outstanding s.gid s.cur.place ∨ last then s.hold 0 0 else exitNow s g p) s

end Sys2Proof.Machine
end

