-- ==== Sys2Proof/Machine/Sync.lean ====
section
/-! DEFINITION. Barriers, barrier objects, fences, copies and batches: C-code 0x84 to 0x8B (R142 to R146, R303, R304,
R341, R345, R357). -/

namespace Sys2Proof.Machine

/-! ### Acquires -/

/-- What an acquire does at the issuing core: `g` where it covers storage g. -/
def State.acquire (s : State) (scope : Nat) (g drain : Bool) : State := s.acquireAt s.cur.core scope g drain

/-! ### Barriers (R142) -/

/-- The instance number that a barrier's split waits to pass. -/
def State.instance_ (s : State) (grid : Bool) (g : Group) : Word :=
  match s.unitOf g with
  | none => 0
  | some u => BitVec.ofNat 64 (if grid then (match s.launchOf u with | some l => l.barg | none => 0) else u.baru)

/-- The split's lanes arrive. -/
def State.arriveBarrier (s : State) (grid : Bool) (g : Group) (mask : Lanes) : State :=
  let add := fun m : FMap Lanes => FMap.put m s.gid (FMap.rd 0 m s.gid ||| mask)
  let s := s.updUnit g.uid (fun u => if grid then { u with bargArr := add u.bargArr } else { u with baruArr := add u.baruArr })
  match grid, s.unitOf g with
  | true, some u => s.settleBarg u.launch
  | _, _ => s.settleBaru g.uid

/-- BARU and BARG: the arrival follows the accesses of the split's earlier runs; the split goes on when the instance
has completed. -/
def barrier (grid : Bool) (s : State) : Answer :=
  control (fun g p =>
    let pers := ((s.unitOf g).bind (s.launchOf ·)).any (fun l => l.pers)
    let pass := fun s : State => (if grid then s.acquire 4 true false else s.acquire 1 true false).goOn 1
    match p.issued with
    | some ⟨1, val, _⟩ => if s.instance_ grid g = val then s else pass s
    | _ =>
      if hasDeferred p.stack ∨ (grid ∧ !pers) then s.trap cILLEGAL 0
      else if !s.drained g p then s.hold 0 0
      else
        let was := s.instance_ grid g
        let s := s.arriveBarrier grid g p.mask
        if s.instance_ grid g = was then s.hold 1 was else pass s) s

/-- BARU (R142). -/
def execCBaru (s : State) : Answer := barrier false s
/-- BARG (R142). -/
def execCBarg (s : State) : Answer := barrier true s

/-! ### Barrier objects (R143) -/

/-- The object's place: nothing, or the trap. -/
def objectFault (u : UnitRec) (o : Nat) : Option Nat :=
  if o % 8 ≠ 0 then some cMISALIGN else if u.scrSize < o + 8 then some cPROTECT else none

/-- The object after `n` arrivals: COUNT keeps 24 bits (R7). -/
def arrived (old : Word) (n : Nat) : Word :=
  let count := (fld old 24 24 + n) % 2 ^ 24
  if fld old 0 24 ≤ count then setFld (setFld old 24 24 0) 48 16 (fld old 48 16 + 1) else setFld old 24 24 count

/-- The unit's scratchpad word at an offset. -/
def UnitRec.scrWord (u : UnitRec) (o : Nat) : Word := BitVec.ofNat 64 (u.scrAt o 8)

/-- ARRIVE (R143): a release at scope unit, one atomic step on the object. -/
def execCArrive (d a b : BitVec 6) (s : State) : Answer :=
  scalarWord [a, b] d (fun g p =>
    let o := sourceAt g p 0 a
    let n := (sourceAt g p 1 b).toNat
    match s.unitOf g with
    | none => s.trap cPROTECT o
    | some u =>
      match objectFault u o.toNat with
      | some c => s.trap c o
      | none =>
        if n = 0 ∨ 2 ^ 24 ≤ n then s.trap cILLEGAL 0
        else if !s.drained g p then s.holdWith 0 0 [o, sourceAt g p 1 b]
        else
          let old := u.scrWord o.toNat
          if fld old 0 24 = 0 then s.trap cILLEGAL 0
          else
            let put := fun u : UnitRec => { u.scrPut o.toNat (bytesOf 8 (arrived old n).toNat) with scrPoison := u.scrPoison }
            let s := (s.updUnit g.uid put).poisonDue (u.scrBad o.toNat 8) o p.mask
            (s.writeS p d (BitVec.ofNat 64 (fld old 48 16))).goOn 1) s

/-- AWAIT (R143): an acquire at scope unit. It reads after an acquire of its control stream has read (R349); a poisoned object is reported
(R380). -/
def execCAwait (a b : BitVec 6) (s : State) : Answer :=
  scalarWord [a, b] 0 (fun g p =>
    let o := sourceAt g p 0 a
    let b := sourceAt g p 1 b
    match s.unitOf g with
    | none => s.trap cPROTECT o
    | some u =>
      match objectFault u o.toNat with
      | some c => s.trap c o
      | none =>
        if s.wordAcquires s.gid s.cur.place ∨ fld (u.scrWord o.toNat) 48 16 = fld b 0 16 then s.holdWith 0 0 [o, b]
        else ((s.acquire 1 true false).poisonDue (u.scrBad o.toNat 8) o p.mask).goOn 1) s

/-! ### Fences (R144) -/

/-- FENCE (R144): it waits for the split's runs and accesses; .drain then writes the core's buffered UO lines and waits
for them, and for those of the split that have left before (R304, R351); an acquire drops what R303 and R308 name; a release
that covers storage g or p stands before the split's later writes (R346). -/
def execCFence (r : BitVec 1) (k : BitVec 2) (pe g _ : BitVec 1) (sc : BitVec 3) (s : State) : Answer :=
  control (fun gr p =>
    let drain := decide (r = 1)
    let finish := fun s : State =>
      let s := if k = 2 then s else s.acquire sc.toNat (decide (g = 1)) drain
      let n := if g = 1 then sc.toNat + 1 else 1
      let s := if k ≠ 1 ∧ (g = 1 ∨ pe = 1) then s.onSplit (fun p => { p with fenced := max p.fenced n }) else s
      s.goOn 1
    match p.issued with
    | some ⟨1, _, _⟩ => if s.drained gr p && !s.uoOutstanding s.gid s.cur.place then finish s else s
    | _ =>
      if !s.drained gr p then s.hold 0 0
      else if !drain then finish s
      else
        let s := s.uoDrain s.gid p.tag s.cur.core p.dslack.toNat
        if s.uoOutstanding s.gid s.cur.place then s.hold 1 0 else finish s) s

/-! ### What the runs of a split have still to do in the scratchpad -/

/-- Some instruction of a kind has still to issue in a run of the split. -/
def Split.willIssue (p : Split) (kind : Instr → Bool) : Bool :=
  (p.runq ++ p.running.toList).any (fun r => r.todo.any (fun i => (decodeLane i.bits.toNat).any kind))

/-- Scratchpad stores, and scratchpad loads (R145, R150). -/
def scratchStore : Instr → Bool
  | .lSts _ | .lAtoms _ | .lHpush _ => true
  | _ => false
def scratchLoad : Instr → Bool
  | .lLds _ | .lAtoms _ | .lHpop _ => true
  | _ => false

/-! ### Copies (R145) -/

/-- Translate ranges page by page: their spans, or the cause and the address. -/
def translateSpans (s : State) (core asid : Nat) (acc : AccKind) (user : Bool) :
    List (Nat × Nat) → State × Except (Nat × Word) (List Span)
  | [] => (s, .ok [])
  | (va, n) :: rest =>
    match translate s core asid va acc user with
    | (s, .error c) => (s, .error (c, BitVec.ofNat 64 va))
    | (s, .ok (leaf, _)) =>
      match translateSpans s core asid acc user rest with
      | (s, .error e) => (s, .error e)
      | (s, .ok ss) => (s, .ok (⟨va, n, leaf⟩ :: ss))

/-- The rows of a copy: source, destination and length of each; none for a shape outside R145. DESIGN CHOICE (log entry 92):
R145 gives a 1D count above 2^30 and a 2D length or count of 0 or above 2^20 no outcome; CPY traps ILLEGAL. -/
def copyRows (two : Bool) (src dst shape strides : Word) : Option (List (Int × Int × Nat)) :=
  if two then
    let len := fld shape 0 32
    let count := fld shape 32 32
    if len = 0 ∨ 2 ^ 20 < len ∨ count = 0 ∨ 2 ^ 20 < count then none
    else some ((List.range count).map (fun (r : Nat) =>
      ((src.toNat : Int) + r * sextNat 32 (fld strides 32 32), (dst.toNat : Int) + r * sextNat 32 (fld strides 0 32), len)))
  else if 2 ^ 30 < shape.toNat then none
  else if shape = 0 then some []
  else some [((src.toNat : Int), (dst.toNat : Int), shape.toNat)]

/-- An address of virtual memory from an exact sum. -/
def vaOf (x : Int) : Nat := (x % 2 ^ 64).toNat

/-- Check one side of a copy: spans in memory, or nothing but the check in the scratchpad. -/
def copySide (s : State) (g : Group) (p : Split) (scr : Bool) (acc : AccKind) (rows : List (Int × Nat)) :
    State × Except (Nat × Word) (List Span) :=
  if scr then
    let size := match s.unitOf g with | some u => u.scrSize | none => 0
    match rows.find? (fun r => decide (r.1 < 0 ∨ (size : Int) < r.1 + r.2)) with
    | some r => (s, .error (cPROTECT, BitVec.ofInt 64 r.1))
    | none => (s, .ok [])
  else
    let parts := (rows.map (fun r => pageParts (r.2 / 2 ^ 16 + 2) (vaOf r.1) r.2)).flatten
    translateSpans s s.cur.core (s.asidOf g) acc p.user parts

/-- A copy waits for the split's earlier work (R145, R349, R357): an acquire of its control stream that has not read; for a source in the
scratchpad its stores there, for a destination there its loads and stores. -/
def copyWaits (s : State) (p : Split) (srcScr dstScr : Bool) : Bool :=
  s.wordAcquires s.gid s.cur.place || (srcScr && p.willIssue scratchStore) ||
    (dstScr && (p.willIssue scratchLoad || p.willIssue scratchStore || s.popping s.gid s.cur.place))

/-- CPY (R145): both ranges are checked and translated, and the copy joins the open batch. -/
def execCCpy (d a b : BitVec 6) (r : BitVec 2) (t : BitVec 1) (s : State) : Answer :=
  let two := decide (t = 1)
  scalarWord ([d, a, b] ++ if two then [b + 1] else []) 0 (fun g p =>
    let srcScr := decide (2 ≤ r.toNat)
    let dstScr := decide (r.toNat % 2 = 1)
    let src := [sourceAt g p 0 a, sourceAt g p 1 d, sourceAt g p 2 b, sourceAt g p 3 (b + 1)]
    match copyRows two (src.getD 0 0) (src.getD 1 0) (src.getD 2 0) (src.getD 3 0) with
    | none => s.trap cILLEGAL 0
    | some rows =>
      match copySide s g p srcScr .read (rows.map (fun r => (r.1, r.2.2))) with
      | (s, .error (c, v)) => s.trap c v
      | (s, .ok spans) =>
        match copySide s g p dstScr .write (rows.map (fun r => (r.2.1, r.2.2))) with
        | (s, .error (c, v)) => s.trap c v
        | (s, .ok dspans) =>
          if copyWaits s p srcScr dstScr then s.holdWith 0 0 src
          else
            let moves := rows.map (fun r => (vaOf r.1, vaOf r.2.1, r.2.2))
            let c : Copy := ⟨s.gid, p.dslack.toNat, g.batch + 1, srcScr, dstScr, moves, spans, dspans, s.asidOf g, [], []⟩
            let k := s.core s.cur.core
            let s := if moves.isEmpty then s else s.setCore s.cur.core { k with copies := k.copies ++ [c] }
            s.goOn 1) s

/-- SEAL (R146). -/
def execCSeal (d : BitVec 6) (s : State) : Answer :=
  scalarWord [] d (fun g p =>
    let s := s.updGroup s.gid (fun g => { g with batch := g.batch + 1 })
    (s.writeS p d (BitVec.ofNat 64 (g.batch + 1))).goOn 1) s

/-- WAITB (R146): every byte of the batches stands at its home, or in the write buffer of the group's core. -/
def execCWaitb (d a : BitVec 6) (s : State) : Answer :=
  scalarWord [a] d (fun g p =>
    let n := match p.issued with
      | some i => i.val.toNat
      | none => min (readS g p a).toNat g.batch
    if s.copying s.gid (fun b => decide (b ≤ n)) then s.hold 0 (BitVec.ofNat 64 n)
    else (s.writeS p d (BitVec.ofNat 64 n)).goOn 1) s

/-! ### The copy engine (R145, R357) -/

/-- The span that holds an address. -/
def spanAt (ss : List Span) (va : Nat) : Option Span := ss.find? (fun x => decide (x.va ≤ va ∧ va < x.va + x.len))

/-- One byte of a copy's source with its poison; a peer's byte is a free value (log entry 12). -/
def State.copyByte (s : State) (core : Nat) (u : UnitRec) (c : Copy) (a : Nat) : Byte × Bool :=
  if c.srcScr then (FMap.rd 0 u.scratch a, FMap.rd false u.scrPoison (a / 8))
  else match spanAt c.spans (a % 2 ^ 64) with
    | none => (0, false)
    | some x =>
      let loc := x.loc (a % 2 ^ 64)
      if x.peer ≠ 0 then ((Config.freeWord (s.fresh + a % 64)).truncate 8, false)
      else ((s.seen core loc 1).headD 0, (s.seenBad core loc 1).headD false)

/-- Where a byte of a copy's source or destination lies in the scratchpad, or in this device's memory. -/
def copyPlace (scr : Bool) (ss : List Span) (a : Nat) : Option Nat :=
  if scr then some a
  else (spanAt ss (a % 2 ^ 64)).bind (fun x => if x.peer = 0 then some (x.loc (a % 2 ^ 64)) else none)

/-- The packet of a copy's bytes that lie in one line (R317, R323): it has the slack of its CPY (R158) and counts for its
batch (R146). -/
def copyPacket (s : State) (core : Nat) (c : Copy) (accs : List Acc) (so : Bool) (peer : Nat) : Packet :=
  let body := Body.req accs none so false (if so then 1 else 0) false 0 0
  { mkPacket c.gid 9 (corePort core) c.slack 3 (s.partOfGid c.gid) (1 + dataFlits accs) body with peer := peer, batch := c.batch }

/-- Write bytes that follow one another in memory through one span, with their poison: they leave on VC3, or enter the
core's write buffer; the core's L1 takes them, and the sector's guest copy goes (R303, R304, R308). -/
def State.copyPut (s : State) (core : Nat) (c : Copy) (x : Span) (va : Nat) (bs : List (Byte × Bool)) : State :=
  let at_ := ((List.range bs.length).zip bs).map (fun e => (if x.peer = 0 then x.loc (va + e.1) else va + e.1, e.2))
  let bytes : FMap Byte := at_.map (fun e => (e.1, e.2.1))
  let bad := fun w => at_.any (fun e => e.2.2 && decide (e.1 / 8 = w))
  if x.peer = 0 ∧ x.kind = 2 then
    bytes.foldl (fun s e => s.uoStore c.gid 0 core c.slack e.1 [e.2] (bad (e.1 / 8))) s
  else
    (dedup (bytes.map (fun e => e.1 / 128))).foldl (fun s line =>
      let accs := wordStores (bytes.filter (fun e => decide (e.1 / 128 = line))) bad
      let p := copyPacket s core c accs (decide (x.kind = 1)) x.peer
      if x.peer ≠ 0 then
        s.send p (.cluster (clusterOf core)) (s.pathToPeer core (s.peerTarget c.gid c.asid x.peer false) line)
      else
        let s := (s.setCore core ((s.core core).l1Leave accs)).dropGuest (sectorOf core) line
        s.send p (.cluster (clusterOf core)) (pathToSlice core (sliceOf (128 * line)))) s

/-- Write a piece whose destination is memory, cut at its spans. -/
def State.copyOut (s : State) (core : Nat) (c : Copy) : Nat → Nat → List (Byte × Bool) → State
  | 0, _, _ => s
  | fuel + 1, va, bs =>
    match bs, spanAt c.dspans va with
    | [], _ => s
    | _, none => s
    | _, some x =>
      let n := min bs.length (x.va + x.len - va)
      (s.copyPut core c x va (bs.take n)).copyOut core c fuel ((va + n) % 2 ^ 64) (bs.drop n)

/-- Write a piece whose destination is the scratchpad, with its poison. -/
def UnitRec.copyIn (u : UnitRec) (dst : Nat) (bs : List (Byte × Bool)) : UnitRec :=
  let u := u.scrPut dst (bs.map (·.1))
  { u with scrPoison := ((List.range bs.length).zip bs).foldl (fun m e => if e.2.2 then FMap.wr false m ((dst + e.1) / 8) true else m) u.scrPoison }

/-- Bytes of the row from `src` that one move of at most 32 bytes reads: those of its piece, and the rest of the word in
which it ends (R145, R338). -/
def pieceReads (src n len : Nat) : Nat := min len (n + (8 - (src + n) % 8) % 8)

/-- The bytes of a row that stand ready and are sent: up to the last whole word of the destination, or all at the row's
end. -/
def pieceSends (dst n len : Nat) : Nat := if n = len then n else n - (dst + n) % 8

/-- Of `k` bytes that stand ready, those that one move sends to a destination: an SO access ends with its line, as the next one
issues when it has been performed (R350). -/
def soSends (scr : Bool) (ss : List Span) (from_ k : Nat) : Nat :=
  if !scr && (spanAt ss (from_ % 2 ^ 64)).any (fun x => decide (x.kind = 1)) then min k (128 - from_ % 128) else k

/-- Read the lines of some locations at their homes, and charge the requests to the up-link (R324). -/
def State.readLines (s : State) (core : Nat) (c : Copy) (locs : List Nat) : State :=
  let part := s.partOfGid c.gid
  (dedup (locs.map (· / 128))).foldl (fun s line =>
    let mine := locs.filter (fun x => decide (x / 128 = line))
    (s.fillLineOf c.asid part (mine.foldl min (128 * line + 127)) mine.length true).chargeNet (clusterOf core) part 1) s

/-- Move one piece of a copy, of `n` bytes of a row with `len` left (R145, R338): the copy as it goes on. A byte that the copy
itself has just written is read as written. -/
def State.copyPiece (s : State) (core : Nat) (c : Copy) (uid : Nat) (u : UnitRec) (src dst n len : Nat) : State × Copy :=
  let past := (List.range (pieceReads src n len)).drop c.ahead.length
  let s := if c.srcScr then s else s.readLines core c (past.filterMap (fun i => copyPlace false c.spans (src + i)))
  let was := (List.range c.behind.length).zip c.behind
  let own := fun (a : Nat) (new : List (Byte × Bool)) (b : Byte × Bool) =>
    match copyPlace c.srcScr c.spans a with
    | none => b
    | some x =>
      if c.srcScr ≠ c.dstScr then b
      else match (was.map (fun e => (dst - c.behind.length + e.1, e.2)) ++ ((List.range new.length).zip new).map (fun e => (dst + e.1, e.2))).reverse.find?
          (fun e => decide (copyPlace c.dstScr c.dspans e.1 = some x)) with
        | some e => e.2
        | none => b
  let all := c.ahead ++ past.map (fun i => own (src + i) [] (s.copyByte core u c (src + i)))
  let piece := all.take n
  let ahead := ((List.range all.length).zip all).drop n |>.map (fun e => own (src + e.1) piece e.2)
  let held := c.behind ++ piece
  let from_ := dst - c.behind.length
  let k := soSends c.dstScr c.dspans from_ (c.behind.length + pieceSends dst n len)
  let s := { s with fresh := s.fresh + 64 }
  let s := if c.dstScr then s.updUnit uid (fun u => u.copyIn from_ (held.take k)) else s.copyOut core c 50 (from_ % 2 ^ 64) (held.take k)
  (s, { c with ahead := ahead, behind := held.drop k })

/-- The copy's next move must wait: for writes of the core on their way to the lines that it reads, and for its SO writes
on their way (R145, R350). -/
def State.copyBlocked (s : State) (core : Nat) (c : Copy) (src n len : Nat) : Bool :=
  (!c.srcScr && (List.range (pieceReads src n len)).any (fun i =>
    (copyPlace false c.spans (src + i)).any (fun loc => s.storesToLine core (loc / 128)))) ||
    (c.dspans.any (fun x => decide (x.kind = 1)) && s.pkts.any (fun p => decide (p.2.gid = c.gid ∧ p.2.batch ≠ 0) && p.2.asks))

/-- COPY_PIECE: the core's copy engine moves the next piece of at most 32 bytes (R145). -/
def execEvCopyPiece (core : Nat) (s : State) : Answer :=
  let k := s.core core
  match k.copies with
  | [] => .next s
  | c :: rest =>
    let put := fun (s : State) (c : Option Copy) => s.setCore core { s.core core with copies := c.toList ++ rest }
    match c.rows, (FMap.get s.groups c.gid).bind (fun g => (s.unitOf g).map (fun u => (g.uid, u))) with
    | (src, dst, len) :: rows, some (uid, u) =>
      let n := min 32 len
      if s.copyBlocked core c src n len then .next s
      else
        let (s, c) := s.copyPiece core c uid u src dst n len
        let left := if len ≤ 32 ∧ c.behind.isEmpty then rows else (src + n, dst + n, len - n) :: rows
        .next (put s (if left.isEmpty then none else some { c with rows := left }))
    | _, _ => .next (put s none)

end Sys2Proof.Machine
end

