-- ==== Sys2Proof/Machine/Hods.lean ====
section
/-! DEFINITION. Hods, the gather engine, puts, put counters and braces: C-code 0x8C to 0x8F and 0xA0 to 0xA3
(R147 to R154). -/

namespace Sys2Proof.Machine

/-! ### Hods (R147) -/

/-- Slots between the pointers: P − C modulo 2^32. -/
def Hod.fill (h : Hod) : Nat := (h.p - h.c).toNat

/-- Room for more slots. -/
def Hod.room (h : Hod) : Nat := h.n - h.fill

/-- Offset of a slot in the scratchpad. -/
def Hod.slotAt (h : Hod) (i : BitVec 32) : Nat := h.base + h.slotb * (i.toNat % h.n)

/-- A bound engine owns the consumer side of its input hod and the producer side of its output hod. -/
def Hod.owned (h : Hod) (producer : Bool) : Bool :=
  match h.bound with
  | some (_, input) => if producer then !input else input
  | none => false

/-- Change a hod of a unit. -/
def State.updHod (s : State) (uid n : Nat) (f : Hod → Hod) : State :=
  s.updUnit uid (fun u => { u with hods := FMap.upd u.hods n f })

/-- A descriptor of `n` bytes at an aligned address, or the trap (R99, R148, R149): it is read as a load of the control stream (R336),
and poison in it is reported (R380). -/
def readDesc (s : State) (g : Group) (p : Split) (va : Word) (n align : Nat) (f : State → List Byte → State) : State :=
  if va.toNat % align ≠ 0 then s.trap cMISALIGN va
  else if s.readWaits s.gid s.cur.place (s.asidOf g) p.user va.toNat n then s
  else match s.readVa s.cur.core (s.asidOf g) p.user 3 va.toNat n with
    | (s, .error (c, v)) => s.trap c v
    | (s, .ok (bs, bad)) => f (s.poisonDue bad va p.mask) bs

/-- HINIT (R148). -/
def execCHinit (a b hn : BitVec 6) (s : State) : Answer :=
  scalarWord [a, b] 0 (fun g p =>
    readDesc s g p (readS g p a) 16 16 (fun s bs =>
      let w0 := natOfBytes (bs.take 4)
      let slotb := natOfBytes ((bs.drop 4).take 4)
      let base := (readS g p b).toNat
      let n := 2 ^ (w0 % 16)
      match s.unitOf g with
      | none => s.trap cHODFAULT 0
      | some u =>
        let busy := (FMap.get u.hods hn.toNat).any (fun h => h.bound.isSome || decide (h.p ≠ h.c))
        if w0 % 16 = 0 ∨ 12 < w0 % 16 ∨ w0 / 16 ≠ 0 ∨ slotb % 16 ≠ 0 ∨ slotb < 16 ∨ 4096 < slotb ∨
            natOfBytes (bs.drop 8) ≠ 0 ∨ base % 16 ≠ 0 ∨ u.scrSize < base + slotb * n ∨ busy then s.trap cHODFAULT 0
        else (s.updUnit g.uid (fun u => { u with hods := FMap.put u.hods hn.toNat ⟨base, n, slotb, 0, 0, none, none⟩ })).goOn 1)) s

/-- Unbind two hods, leaving their pointers. -/
def State.unbind (s : State) (uid i o : Nat) : State :=
  (s.updHod uid i (fun h => { h with bound := none })).updHod uid o (fun h => { h with bound := none })

/-- The core's gather engine serves these hods of the unit. -/
def State.gatherServes (s : State) (core uid i o : Nat) : Bool :=
  (s.core core).gather.any (fun b => decide (b.uid = uid ∧ b.hin = i ∧ b.hout = o))

/-- HBIND .off (R149): it waits for a raster firing that waits for room; a gather firing is indivisible here. -/
def execCHbindOff (i o b : BitVec 6) (s : State) : Answer :=
  scalarWord [b] 0 (fun g p =>
    if readS g p b ≠ 0 then s.trap cILLEGAL 0
    else match (s.unitOf g).bind (fun u => FMap.get u.hods i.toNat), (s.unitOf g).bind (fun u => FMap.get u.hods o.toNat) with
      | some _, some _ =>
        let cl := clusterOf s.cur.core
        let rasters := (FMap.get s.rasters cl).any (fun r => decide (r.uid = g.uid ∧ r.hin = i.toNat ∧ r.hout = o.toNat))
        let current := (FMap.get s.rasters cl).any (fun r => r.report.isSome)
        let gathers := s.gatherServes s.cur.core g.uid i.toNat o.toNat
        if rasters && current then s.hold 0 0 else
        let s := if gathers then s.setCore s.cur.core { s.core s.cur.core with gather := none } else s
        let s := if rasters then { s with rasters := FMap.del s.rasters cl } else s
        let s := if gathers || rasters then s.unbind g.uid i.toNat o.toNat else s
        (s.updHod g.uid o.toNat (fun h => { h with fault := none })).goOn 1
      | _, _ => s.trap cHODFAULT 0) s

/-- Two different hods that are initialised and unbound (R149, R421). -/
def bindable (u : UnitRec) (i o : Nat) : Option (Hod × Hod) :=
  match FMap.get u.hods i, FMap.get u.hods o with
  | some hi, some ho => if i ≠ o ∧ hi.bound.isNone ∧ ho.bound.isNone then some (hi, ho) else none
  | _, _ => none

/-- Mark two hods as bound; a new binding clears the output hod's fault record (R149). -/
def State.bindHods (s : State) (uid i o : Nat) (e : Engine) : State :=
  (s.updHod uid i (fun h => { h with bound := some (e, true) })).updHod uid o
    (fun h => { h with bound := some (e, false), fault := none })

/-- HBIND .gather (R149). -/
def execCHbindGather (i o b : BitVec 6) (s : State) : Answer :=
  scalarWord [b] 0 (fun g p =>
    readDesc s g p (readS g p b) 32 32 (fun s bs =>
      let w : Nat → Word := fun k => BitVec.ofNat 64 (natOfBytes ((bs.drop (8 * k)).take 8))
      let esz := 2 ^ fld (w 1) 0 2
      let idx64 := bitOf (w 1) 2
      let count := fld (w 1) 16 16
      match (s.unitOf g).bind (fun u => bindable u i.toNat o.toNat) with
      | none => s.trap cHODFAULT 0
      | some (hi, ho) =>
        if fld (w 1) 3 13 ≠ 0 ∨ fld (w 1) 44 20 ≠ 0 ∨ w 2 ≠ 0 ∨ w 3 ≠ 0 ∨ count = 0 ∨ 4096 < count ∨
            hi.slotb < count * (if idx64 then 8 else 4) ∨ ho.slotb < count * esz ∨ (s.core s.cur.core).gather.isSome
        then s.trap cHODFAULT 0
        else
          let e : Gather := ⟨g.uid, i.toNat, o.toNat, w 0, esz, idx64, count, fld (w 1) 32 12, p.user, s.asidOf g⟩
          let s := s.setCore s.cur.core { s.core s.cur.core with gather := some e }
          (s.bindHods g.uid i.toNat o.toNat .gather).goOn 1)) s

/-- A side's common checks (R150): nothing, or the trap's value. -/
def hodCheck (u : UnitRec) (hn n : Nat) (data : Bool) : Except Word Hod :=
  match FMap.get u.hods hn with
  | none => .error 0
  | some h =>
    match data, h.fault with
    | true, some (_, va) => .error va
    | _, _ => if n = 0 ∨ h.n < n then .error 0 else .ok h

/-- HWAIT (R150): `data` waits for slots and acquires at scope unit, else it waits for room. -/
def hwait (data : Bool) (d a : BitVec 6) (hn : BitVec 4) (s : State) : Answer :=
  scalarWord [a] d (fun g p =>
    let v := sourceAt g p 0 a
    let n := v.toNat
    match s.unitOf g with
    | none => s.trap cHODFAULT 0
    | some u =>
      match hodCheck u hn.toNat n data with
      | .error va => s.trap cHODFAULT va
      | .ok h =>
        if data then
          (if h.fill < n then s.holdWith 0 0 [v] else (((s.acquire 1 false false).writeS p d (zext64 h.c))).goOn 1)
        else if h.room < n then s.holdWith 0 0 [v]
        else (s.writeS p d (zext64 h.p)).goOn 1) s

/-- HWAIT .room (R150). -/
def execCHwaitRoom (d a : BitVec 6) (h : BitVec 4) (s : State) : Answer := hwait false d a h s
/-- HWAIT .data (R150). -/
def execCHwaitData (d a : BitVec 6) (h : BitVec 4) (s : State) : Answer := hwait true d a h s

/-- HADV (R150): the producer side releases at scope unit, so it waits as R341 states; the consumer side waits for the
split's earlier scratchpad loads. -/
def hadv (producer : Bool) (a : BitVec 6) (hn : BitVec 4) (s : State) : Answer :=
  scalarWord [a] 0 (fun g p =>
    let v := sourceAt g p 0 a
    let n := v.toNat
    match s.unitOf g with
    | none => s.trap cHODFAULT 0
    | some u =>
      match hodCheck u hn.toNat n false with
      | .error va => s.trap cHODFAULT va
      | .ok h =>
        if h.owned producer then s.trap cHODFAULT 0
        else if (if producer then !s.drained g p else p.willIssue scratchLoad || s.popping s.gid s.cur.place) then s.holdWith 0 0 [v]
        else if (if producer then h.n < h.fill + n else h.fill < n) then s.trap cHODFAULT 0
        else
          let by_ := BitVec.ofNat 32 n
          (s.updHod g.uid hn.toNat (fun h => if producer then { h with p := h.p + by_ } else { h with c := h.c + by_ })).goOn 1) s

/-- HADV .p (R150). -/
def execCHadvP (a : BitVec 6) (h : BitVec 4) (s : State) : Answer := hadv true a h s
/-- HADV .c (R150). -/
def execCHadvC (a : BitVec 6) (h : BitVec 4) (s : State) : Answer := hadv false a h s

/-! ### The gather engine (R149) -/

/-- A fault of an engine's load ends its binding; the output hod keeps the fault, and each HPOP that waits on that hod
traps (R149). -/
def State.engineFault (s : State) (uid i o cause : Nat) (va : Word) : State :=
  let s := (s.unbind uid i o).updHod uid o (fun h => { h with fault := some (cause, va) })
  s.groups.foldl (fun s e =>
    if e.2.uid ≠ uid then s
    else e.2.replay.foldl (fun s q =>
      match q.2.kind with
      | .hpop hn _ _ =>
        if hn = o ∧ q.2.ready = 0 then
          s.addDue e.1 ⟨.P, cHODFAULT, true, va, q.2.mask, q.2.place, !q.2.um⟩ (!q.2.um)
        else s
      | _ => s) s) s

/-- An engine reads spans of its partition at their homes; its requests are charged to the cluster's up-link (R324; log entry
86). -/
def State.readSpans (s : State) (core asid part : Nat) (ss : List Span) : State :=
  (ss.flatMap Span.ranges).foldl (fun s x => (s.fillLineOf asid part x.1 x.2 true).chargeNet (clusterOf core) part 1) s

/-- The bytes of spans with their poison, as an engine of a core reads them; a peer leaf faults (log entry 16). -/
def State.spanBytes (s : State) (core : Nat) (ss : List Span) : List (Byte × Bool) :=
  (ss.flatMap Span.ranges).flatMap (fun x => (s.seen core x.1 x.2).zip (s.seenBad core x.1 x.2))

/-- Poison the scratchpad words of bytes that were poisoned where they came from. -/
def UnitRec.scrTaint (u : UnitRec) (o : Nat) (bad : List Bool) : UnitRec :=
  ((List.range bad.length).zip bad).foldl (fun u e =>
    if e.2 then { u with scrPoison := FMap.wr false u.scrPoison ((o + e.1) / 8) true } else u) u

/-- GATHER_FIRING: with an input slot and room, the engine gathers COUNT elements and advances both hods (R149). -/
def execEvGatherFiring (core : Nat) (s : State) : Answer :=
  match (s.core core).gather with
  | none => .next s
  | some e =>
    match FMap.get s.units e.uid with
    | none => .next s
    | some u =>
      match FMap.get u.hods e.hin, FMap.get u.hods e.hout with
      | some hi, some ho =>
        if hi.fill = 0 ∨ ho.room = 0 then .next s
        else
          let w := if e.idx64 then 8 else 4
          let idx := (List.range e.count).map (fun k => u.scrAt (hi.slotAt hi.c + w * k) w)
          let vas := idx.map (fun i => (e.base + BitVec.ofNat 64 (e.esz * i)).toNat)
          let parts := (vas.map (fun va => pageParts 2 va e.esz)).flatten
          let fault := fun (s : State) (c : Nat) (va : Word) =>
            (s.setCore core { s.core core with gather := none }).engineFault e.uid e.hin e.hout c va
          match translateSpans s core e.asid .read e.um parts with
          | (s, .error (c, va)) => .next (fault s c va)
          | (s, .ok spans) =>
            match spans.find? (fun x => decide (x.peer ≠ 0)) with
            | some x => .next (fault s cPAGEFAULT (BitVec.ofNat 64 x.va))
            | none =>
              let s := s.readSpans core e.asid (s.partOfAsid e.asid) spans
              let bytes := s.spanBytes core spans
              let out := ho.slotAt ho.p
              let s := s.updUnit e.uid (fun u => (u.scrPut out (bytes.map (·.1))).scrTaint out (bytes.map (·.2)))
              .next ((s.updHod e.uid e.hout (fun h => { h with p := h.p + 1 })).updHod e.uid e.hin (fun h => { h with c := h.c + 1 }))
      | _, _ => .next s

/-! ### Puts (R151, R152) -/

/-- Fields of an endpoint. -/
def epDev (e : Word) : Nat := fld e 52 12
def epCore (e : Word) : Nat := fld e 43 9
def epSlot (e : Word) : Nat := fld e 37 6
def epGen (e : Word) : BitVec 32 := BitVec.ofNat 32 (fld e 0 32)

/-- The unit that an endpoint names; none for a stale one (R152). -/
def State.epUnit (s : State) (e : Word) : Option Nat :=
  let uid := gidOf (epCore e) (epSlot e)
  match FMap.get s.units uid with
  | some u => if epCore e < Config.nCores ∧ u.gen = epGen e then some uid else none
  | none => none

/-- PUTERR counts a failed put of the unit that sent it (R152, R157). -/
def State.putError (s : State) (src : Word) : State :=
  match s.epUnit src with
  | some uid => s.updUnit uid (fun u => { u with puterr := if u.puterr = 0xFFFF_FFFF then u.puterr else u.puterr + 1 })
  | none => s

/-- The places from a core's cluster switch to an endpoint's core, or to the port of its device (R316, R448); an
endpoint that names no core is found stale at the sender's own. -/
def State.pathToCoreOf (s : State) (core : Nat) (e : Word) : List Place :=
  if epDev e ≠ s.mgmt.fid.toNat then s.pathToPeer core (epDev e) 0
  else if Config.nCores ≤ epCore e then [.core core]
  else if clusterOf core = clusterOf (epCore e) then [.core (epCore e)]
  else [.sector (sectorOf core)] ++ ringTo (sectorOf core) (sectorOf (epCore e)) ++ [.cluster (clusterOf (epCore e)), .core (epCore e)]

/-- The group's brace to an endpoint's core, if it has one with flits left (R154). -/
def State.braceTo (s : State) (e : Word) : Bool :=
  (s.core s.cur.core).braces.any (fun b => decide (b.gid = s.gid ∧ epDev b.endpoint = epDev e ∧ epCore b.endpoint = epCore e ∧ 0 < b.left) && b.up)

/-- Flits leave a group's brace. -/
def State.useBrace (s : State) (e : Word) (flits : Nat) : State :=
  let k := s.core s.cur.core
  let mine := fun b : Brace => decide (b.gid = s.gid ∧ epDev b.endpoint = epDev e ∧ epCore b.endpoint = epCore e) && b.up
  let use := k.braces.map (fun b => if mine b then { b with left := b.left - flits } else b)
  s.setCore s.cur.core { k with braces := use.filter (fun b => decide (0 < b.left)) }

/-- Send a put as packets of at most 128 bytes in ascending local offset (R323). -/
def State.sendPut (s : State) (p : Split) (u : UnitRec) (dst src : Word) (off len roff counter id : Nat) : State :=
  (List.range (ceilDiv len 128)).foldl (fun s i =>
    let o := off + 128 * i
    let n := min 128 (len - 128 * i)
    let bytes := (List.range n).map (fun k => FMap.rd 0 u.scratch (o + k))
    let bad := (List.range (n / 8)).filter (fun k => FMap.rd false u.scrPoison (o / 8 + k))
    let flits := 1 + ceilDiv n 32
    let braced := s.braceTo dst
    let body := Body.put dst roff (128 * i) counter len bytes bad src id
    let q := { mkPacket s.gid s.cur.place (corePort s.cur.core) p.dslack.toNat 3 (s.partOfGid s.gid) flits body with braced := braced }
    let s := if braced then s.useBrace dst flits else s
    s.send q (.cluster (clusterOf s.cur.core)) (s.pathToCoreOf s.cur.core dst)) s

/-- The signature of a put: its operands and its bytes (R379). -/
def crcPut (l r e : Word) (data len : Nat) : BitVec 32 :=
  (bytesOf 8 l.toNat ++ bytesOf 8 r.toNat ++ bytesOf 8 e.toNat ++ bytesOf len data).foldl crcByte 0xFFFF_FFFF

/-- PUT (R152): it reads its bytes once the split's earlier scratchpad stores are performed, then sends them; it waits for an
acquire that has not read (R349). -/
def execCPut (d a b : BitVec 6) (s : State) : Answer :=
  scalarWord [d, a, b] 0 (fun g p =>
    let l := sourceAt g p 0 a
    let r := sourceAt g p 1 d
    let e := sourceAt g p 2 b
    let off := fld l 0 24
    let len := fld l 24 24
    match s.unitOf g with
    | none => s.trap cPROTECT 0
    | some u =>
      if fld l 48 16 ≠ 0 ∨ fld r 28 36 ≠ 0 ∨ len = 0 ∨ 65536 < len then s.trap cILLEGAL 0
      else if off % 8 ≠ 0 ∨ len % 8 ≠ 0 then s.trap cMISALIGN (BitVec.ofNat 64 off)
      else if u.scrSize < off + len then s.trap cPROTECT (BitVec.ofNat 64 off)
      else if p.willIssue scratchStore ∨ s.wordAcquires s.gid s.cur.place then s.holdWith 0 0 [l, r, e]
      else
        let src := s.endpoint g.uid
        let crc := crcPut l r e (u.scrAt off len) len
        s.doveWord p crc [l, r, e] (fun s =>
          if s.doveLeads s.gid then (s.sendPut p u e src off len (fld r 0 24) (fld r 24 4) s.nextPkt).goOn 1
          else s.goOn 1)) s

/-! ### Put counters (R153) -/

/-- CWAIT (R153): an acquire at scope sys over the scratchpad. -/
def cwait (sub : Bool) (d a : BitVec 6) (c : BitVec 4) (s : State) : Answer :=
  scalarWord [a] d (fun g p =>
    let v := sourceAt g p 0 a
    match s.unitOf g with
    | none => s.holdWith 0 0 [v]
    | some u =>
      let n := FMap.rd 0 u.counters c.toNat
      let target : BitVec 32 := v.truncate 32
      if (n - target).toInt < 0 then s.holdWith 0 0 [v]
      else
        let s := if sub then s.updUnit g.uid (fun u => { u with counters := FMap.wr 0 u.counters c.toNat (n - target) }) else s
        ((s.acquire 5 false false).writeS p d (zext64 n)).goOn 1) s

/-- CWAIT (R153). -/
def execCCwait (d a : BitVec 6) (c : BitVec 4) (s : State) : Answer := cwait false d a c s
/-- CWAIT .sub (R153). -/
def execCCwaitSub (d a : BitVec 6) (c : BitVec 4) (s : State) : Answer := cwait true d a c s

/-! ### Braces (R154, R322) -/

/-- Drop the braces of a core that obey `which`. -/
def State.dropBrace (s : State) (core : Nat) (which : Brace → Bool) : State :=
  let k := s.core core
  s.setCore core { k with braces := k.braces.filter (fun b => !which b) }

/-- The brace of a group to an endpoint that stands. -/
def Brace.goesTo (b : Brace) (gid : Nat) (e : Word) : Bool := decide (b.gid = gid ∧ b.endpoint = e) && b.up

/-- The hops of a switch that obey `which` become free (R322). -/
def State.freeHops (s : State) (sw : Place) (which : Hop → Bool) : State :=
  match switchKey sw with
  | none => s
  | some k => { s with switches := FMap.upd s.switches k (fun w => { w with brace := w.brace.filter (fun b => !which b.2) }) }

/-- A hop of a group's brace to an endpoint. -/
def Hop.goesTo (b : Hop) (gid : Nat) (e : Word) : Bool := decide (b.gid = gid ∧ b.endpoint = e)

/-- BRACE (R154): it completes when the set-up's reply returns. -/
def execCBrace (d a b : BitVec 6) (s : State) : Answer :=
  scalarWord [a, b] d (fun g p =>
    let e := readS g p a
    let flits := (readS g p b).toNat
    let k := s.core s.cur.core
    let answer := fun (s : State) (v : Word) => (s.writeS p d v).goOn 1
    match p.issued with
    | some ⟨2, _, _⟩ => answer s 0
    | some ⟨3, _, _⟩ => answer s 1
    | some _ => s
    | none =>
      let id := BitVec.ofNat 64 s.nextPkt
      if flits = 0 ∨ 4096 < flits then answer s 3
      else if 4 ≤ k.braces.length then answer s 2
      else if epDev e = s.mgmt.fid.toNat ∧ Config.nCores ≤ epCore e then answer s 1
      else
        let s := s.setCore s.cur.core { k with braces := k.braces ++ [⟨s.gid, e, flits, s.nextPkt, false⟩] }
        let q := mkPacket s.gid s.cur.place (corePort s.cur.core) p.dslack.toNat 0 (s.partOfGid s.gid) 1 (.setup e flits true false)
        (s.send q (.cluster (clusterOf s.cur.core)) (s.pathToCoreOf s.cur.core e)).hold 1 id) s

/-- UNBRACE (R154): the hops are freed as its packet passes them. -/
def execCUnbrace (d a : BitVec 6) (s : State) : Answer :=
  scalarWord [a] d (fun g p =>
    let e := readS g p a
    match (s.core s.cur.core).braces.find? (fun b => b.goesTo s.gid e) with
    | none => (s.writeS p d 0).goOn 1
    | some b =>
      let s := s.dropBrace s.cur.core (fun b => b.goesTo s.gid e)
      let q := mkPacket s.gid s.cur.place (corePort s.cur.core) p.dslack.toNat 0 (s.partOfGid s.gid) 1 (.unbrace e)
      let s := s.freeHops (.cluster (clusterOf s.cur.core)) (fun h => h.goesTo s.gid e)
      let s := s.send q (.cluster (clusterOf s.cur.core)) (s.pathToCoreOf s.cur.core e)
      (s.writeS p d (BitVec.ofNat 64 b.left)).goOn 1) s

end Sys2Proof.Machine
end

