-- ==== Sys2Proof/Machine/Budget.lean ====
section
/-! DEFINITION. The sills' places in the network, and the reads that engines make for a group. -/

namespace Sys2Proof.Machine

/-! ### Paths to and from the sills (R316; log entry 10) -/

/-- From a core's cluster switch to a sill, from a sill to a core, from a sill to a sill. -/
def pathToSill (core stack : Nat) : List Place :=
  .sector (sectorOf core) :: (Config.ringPath (sectorOf core) (100 + stack)).map Place.stop ++ [.sill stack]
def pathFromSill (stack core : Nat) : List Place :=
  (Config.ringPath (100 + stack) (sectorOf core)).map Place.stop ++ [.sector (sectorOf core), .cluster (clusterOf core), .core core]
def sillToSill (a b : Nat) : List Place := (Config.ringPath (100 + a) (100 + b)).map Place.stop ++ [.sill b]

/-- A packet leaves an end of the network: it is on its way to the head of its path, or at its place where the path is
empty. -/
def State.depart (s : State) (p : Packet) (here : Place) (path : List Place) : State :=
  let p := { p with at_ := here, inLink := !path.isEmpty, path := path, arrived := s.nextPkt, late := p.late || p.slack = 0 }
  { s with nextPkt := s.nextPkt + 1, pkts := FMap.put s.pkts s.nextPkt p }

/-! ### Reads of engines -/

/-- Bytes of spans at their homes, once the homes have read them, and whether one of them is poisoned. -/
def State.homeBytes (s : State) (ss : List Span) : List Byte × Bool :=
  let ls := ss.flatMap Span.ranges
  (ls.flatMap (fun x => Memory.bytes s.mem x.1 x.2), ls.any (fun x => s.poisonedAt x.1 x.2))

/-- A read that a cluster makes for a group of a core (R392): none where it faults or the page is a peer's. -/
def State.objectRead (s : State) (core asid : Nat) (user : Bool) (va n : Nat) : State × Option (List Byte) :=
  match translateSpans s core asid .read user (pageParts 3 va n) with
  | (s, .error _) => (s, none)
  | (s, .ok ss) => if ss.any (fun x => decide (x.peer ≠ 0)) then (s, none)
    else
      let s := s.readSpans core asid (s.partOfAsid asid) ss
      (s, some (s.homeBytes ss).1)

/-- Little-endian field of a byte list. -/
def byteField (bs : List Byte) (o n : Nat) : Nat := natOfBytes ((bs.drop o).take n)

/-- The object entry of a handle (R392): its 64 bytes where it names an object of a type. -/
def State.objectEntry (s : State) (gid asid : Nat) (user : Bool) (ty handle : Nat) : State × Option (List Byte) :=
  match s.spaceFor gid asid with
  | none => (s, none)
  | some sp =>
    if sp.objn ≤ handle then (s, none)
    else match s.objectRead (coreOfGid gid) asid user ((sp.objb.toNat + 64 * handle) % 2 ^ 64) 64 with
      | (s, none) => (s, none)
      | (s, some bs) => (s, if byteField bs 0 1 = ty then some bs else none)

/-- A sill's translation (R406): kept for what it serves, else made by a walk with the issuing group's rights. -/
def State.sillXlate (s : State) (stack core asid tag va : Nat) (um : Bool) : State × Except Nat (Word × Nat) :=
  let q := s.sill stack
  let here := fun e : Nat × TlbEntry => decide (e.1 = tag) && (tlbFind asid va [e.2]).isSome
  match q.xlats.find? here with
  | some e => (s, .ok (e.2.leaf, leafLoc e.2.leaf va))
  | none =>
    match walkAccess s (clusterOf core) asid va .read um with
    | (s, .error c) => (s, .error c)
    | (s, .ok (leaf, loc)) =>
      let big := leafL leaf
      let e : TlbEntry := ⟨asid, if big then va / 2 ^ 28 else va / 2 ^ 16, big, leaf, 0⟩
      let q := s.sill stack
      (s.setSill stack { q with xlats := (tag, e) :: q.xlats }, .ok (leaf, loc))

end Sys2Proof.Machine
end

