-- ==== Sys2Proof/Machine/RayMath.lean ====
section
/-! DEFINITION. The exact arithmetic of traversal: boxes, triangles, object space (R397 to R401). -/

namespace Sys2Proof.Machine

/-- A finite binary32 as a multiple of 2^-149; none for a NaN or an infinity. -/
def f32Int (b : BitVec 32) : Option Int :=
  let e := fld b 23 8
  let m := fld b 0 23
  if e = 255 then none
  else
    let v : Nat := if e = 0 then m else (2 ^ 23 + m) * 2 ^ (e - 1)
    some (if bitOf b 31 then -(v : Int) else v)

/-- The value, 0 for one that is not finite. -/
def f32Val (b : BitVec 32) : Int := (f32Int b).getD 0

/-- A binary32 is a NaN, an infinity of a sign, not finite, a zero. -/
def f32Nan (b : BitVec 32) : Bool := decide (fld b 23 8 = 255 ∧ fld b 0 23 ≠ 0)
def f32Inf (b : BitVec 32) (neg : Bool) : Bool := decide (fld b 23 8 = 255 ∧ fld b 0 23 = 0) && (bitOf b 31 == neg)
def f32Bad (b : BitVec 32) : Bool := decide (fld b 23 8 = 255)
def f32Zero (b : BitVec 32) : Bool := decide (fld b 0 31 = 0)

/-- A fraction with a positive denominator. -/
abbrev Frac := Int × Int

/-- n/d with d ≠ 0. -/
def frac (n d : Int) : Frac := if d < 0 then (-n, -d) else (n, d)

/-- a ≤ b and a < b. -/
def Frac.le (a b : Frac) : Bool := decide (a.1 * b.2 ≤ b.1 * a.2)
def Frac.lt (a b : Frac) : Bool := decide (a.1 * b.2 < b.1 * a.2)

/-- The greater and the lesser. -/
def Frac.max (a b : Frac) : Frac := if Frac.le a b then b else a
def Frac.min (a b : Frac) : Frac := if Frac.le a b then a else b

/-- A binary32 as a fraction; +∞ as one beyond the entry and exit of every slab. -/
def f32Frac (b : BitVec 32) : Frac := if f32Inf b false then (2 ^ 600, 1) else (f32Val b, 2 ^ 149)

/-- tmin⁻ and tmax⁺ of R398; none for +∞. -/
def below (t : BitVec 32) : BitVec 32 := if f32Zero t then 0 else t - 1
def above (t : BitVec 32) : Option (BitVec 32) :=
  if f32Inf t false then none
  else
    let u : BitVec 32 := if f32Zero t then 1 else t + 1
    if f32Inf u false then none else some u

/-- Entry and exit of one slab; none where it is missed (R398). -/
def slab (o d lo hi : BitVec 32) : Option (Option Frac × Option Frac) :=
  if f32Nan lo ∨ f32Nan hi ∨ f32Inf lo false ∨ f32Inf hi true then none
  else
    let ov := f32Val o
    let lov : Option Int := if f32Inf lo true then none else f32Int lo
    let hiv : Option Int := if f32Inf hi false then none else f32Int hi
    if (match lov, hiv with | some l, some h => decide (h < l) | _, _ => false) then none
    else if f32Zero d then
      if (match lov with | some l => decide (l ≤ ov) | none => true) && (match hiv with | some h => decide (ov ≤ h) | none => true)
      then some (none, none) else none
    else
      let dv := f32Val d
      let at_ := fun (x : Option Int) => x.map (fun v => frac (v - ov) dv)
      if 0 < dv then some (at_ lov, at_ hiv) else some (at_ hiv, at_ lov)

/-- The entry distance of a box that the segment meets (R397, R398): the largest of tmin and the slab entries. -/
def boxEntry (tmin tmax : BitVec 32) (sp : Space3) (box : List (BitVec 32)) : Option Frac :=
  let c := fun i => box.getD i 0
  match slab sp.org.x sp.dir.x (c 0) (c 3), slab sp.org.y sp.dir.y (c 1) (c 4), slab sp.org.z sp.dir.z (c 2) (c 5) with
  | some x, some y, some z =>
    let ins := [x.1, y.1, z.1].filterMap id
    let outs := [x.2, y.2, z.2].filterMap id ++ ((above tmax).map f32Frac).toList
    let lo := ins.foldl Frac.max (f32Frac (below tmin))
    if outs.all (fun h => Frac.le lo h) then some (ins.foldl Frac.max (f32Frac tmin)) else none
  | _, _, _ => none

/-- Triples of integers. -/
structure IVec where
  x : Int
  y : Int
  z : Int
deriving DecidableEq, Repr

def IVec.sub (a b : IVec) : IVec := ⟨a.x - b.x, a.y - b.y, a.z - b.z⟩
def IVec.cross (a b : IVec) : IVec := ⟨a.y * b.z - a.z * b.y, a.z * b.x - a.x * b.z, a.x * b.y - a.y * b.x⟩
def IVec.dot (a b : IVec) : Int := a.x * b.x + a.y * b.y + a.z * b.z

/-- A point or direction as integers. -/
def Vec3.ints (v : Vec3) : IVec := ⟨f32Val v.x, f32Val v.y, f32Val v.z⟩

/-- The first nonzero component of an edge is positive (R399). -/
def IVec.rising (v : IVec) : Bool :=
  if v.x ≠ 0 then decide (0 < v.x) else if v.y ≠ 0 then decide (0 < v.y) else decide (0 < v.z)

/-- A fraction rounded to binary32, nearest-even. -/
def fracF32 (q : Frac) : BitVec 32 := BitVec.ofNat 32 (round fmt32 0 (.fin (decide (q.1 < 0)) q.1.natAbs q.2.toNat))

/-- A barycentric coordinate admits the point: positive, or 0 on an edge that counts (R399). -/
def insideBy (b : Frac) (va vb : IVec) : Bool := decide (0 < b.1) || (decide (b.1 = 0) && (vb.sub va).rising)

/-- The cell of the alpha mask for an exact coordinate (R400). -/
def alphaCell (b : Frac) : Nat := min (8 * b.1 / b.2).toNat 7

/-- What a triangle test finds: t, b1, b2, front face, and the alpha bit's place. -/
structure TriHit where
  t : BitVec 32
  b1 : BitVec 32
  b2 : BitVec 32
  front : Bool
  cell : Nat
deriving DecidableEq, Repr

/-- The triangle test (R399). -/
def triTest (sp : Space3) (cb : Bool) (v0 v1 v2 : Vec3) : Option TriHit :=
  if [v0, v1, v2].any (fun v => f32Bad v.x || f32Bad v.y || f32Bad v.z) then none
  else
    let a := v0.ints
    let b := v1.ints
    let c := v2.ints
    let d := sp.dir.ints
    let e1 := b.sub a
    let e2 := c.sub a
    let s := sp.org.ints.sub a
    let dd := (e1.cross e2).dot d
    if dd = 0 ∨ (cb ∧ 0 < dd) then none
    else
      let det := -dd
      let q := s.cross e1
      let t := frac (e2.dot q) det
      let b1 := frac (s.dot (d.cross e2)) det
      let b2 := frac (d.dot q) det
      let b0 : Frac := (b1.2 - b1.1 - b2.1, b1.2)
      if insideBy b0 b c && insideBy b1 c a && insideBy b2 a b then
        some ⟨fracF32 t, fracF32 b1, fracF32 b2, decide (dd < 0), 8 * alphaCell b1 + alphaCell b2⟩
      else none

/-- One component of an affine image: the exact sum rounded once (R397). -/
def affine (m0 m1 m2 m3 x y z : BitVec 32) (point : Bool) : BitVec 32 :=
  let v := fun b : BitVec 32 => Flt.ofBits fmt32 b.toNat
  let terms := [Flt.mul (v m0) (v x), Flt.mul (v m1) (v y), Flt.mul (v m2) (v z)] ++ (if point then [v m3] else [])
  BitVec.ofNat 32 (round fmt32 0 (Flt.sum terms))

/-- The image of a point or a direction under a row-major 3 × 4 matrix. -/
def Vec3.image (m : List (BitVec 32)) (v : Vec3) (point : Bool) : Vec3 :=
  let row := fun r => affine (m.getD (4 * r) 0) (m.getD (4 * r + 1) 0) (m.getD (4 * r + 2) 0) (m.getD (4 * r + 3) 0) v.x v.y v.z point
  ⟨row 0, row 1, row 2⟩

/-- The key order of hits (R401): t as a value, then instance, geometry, primitive. -/
def Hit.below (a b : Hit) : Bool :=
  let t := fun h : Hit => Flt.ofBits fmt32 h.t.toNat
  if Flt.lt (t a) (t b) then true
  else if Flt.lt (t b) (t a) then false
  else if a.inst ≠ b.inst then decide (a.inst.toNat < b.inst.toNat)
  else if a.geom ≠ b.geom then decide (a.geom.toNat < b.geom.toNat)
  else decide (a.prim.toNat < b.prim.toNat)

end Sys2Proof.Machine
end

