-- ==== Sys2Proof/Machine/Rays.lean ====
section
/-! DEFINITION. Rays: TRACE, RESUME, HITGET, GENPUB, GENWAIT, and the events by which the sills traverse (R155, R237 to
R242, R392 to R409). -/

namespace Sys2Proof.Machine

/-! ### Records (R239) -/

/-- The four registers of a record of a kind: `hit` is what it shows. -/
def recordRegs (kind gen : Nat) (late : Bool) (hit : Option Hit) : List Word :=
  let l := if late then 0x200 else 0
  match (if kind = 1 ∨ kind = 2 then hit else none) with
  | some h =>
    [h.b1 ++ h.t, h.prim ++ h.b2, BitVec.ofNat 64 (gen * 2 ^ 32 + h.geom.toNat * 2 ^ 24 + h.inst.toNat),
      BitVec.ofNat 64 (l + (if h.front then 0x100 else 0) + kind)]
  | none => [0x7F80_0000, 0, BitVec.ofNat 64 (gen * 2 ^ 32), BitVec.ofNat 64 (l + kind)]

/-- The kind of a ray's record as it stands: its candidate, an invalid end, a hit or a miss. -/
def Ray.kind (r : Ray) : Nat :=
  if r.stage = .suspended then 2 else if r.ended = some true then 3 else if r.held.isSome then 1 else 0

/-- The registers of a ray's record. -/
def Ray.record (r : Ray) : List Word :=
  recordRegs r.kind r.gen r.late (if r.stage = .suspended then r.cand else r.held)

/-- Change a ray. -/
def State.updRay (s : State) (id : Nat) (f : Ray → Ray) : State := { s with rays := FMap.upd s.rays id f }

/-- The record block that starts at register d: K0 to K15, which supervisor mode names from 216 on, stand above 256. -/
def recBlock (sup : Bool) (d : Nat) : Nat := if sup ∧ 216 ≤ d then 256 + d else d

/-- The values of a record for a producer's lane. -/
def recordVals (lane : Nat) (ws : List Word) : List (Nat × Nat × Word) :=
  ((List.range ws.length).zip ws).map (fun e => (lane, e.1, e.2))

/-- A record reaches its producer, or waits for a HITGET; a group that has ended takes none (R242). -/
def State.deliverRecord (s : State) (id : Nat) (late : Bool) : State :=
  let s := s.updRay id (fun r => { r with late := r.late || late })
  match FMap.get s.rays id with
  | none => s
  | some r =>
    if 32 ≤ r.lane then s.dropRecord id
    else match r.pid with
      | none => s.updRay id (fun r => { r with unclaimed := some r.kind })
      | some pid =>
        let gain := fun p : Producer =>
          let p := p.gain (recordVals r.lane r.record ++ r.poison.toList.map (fun va => (r.lane, 31, BitVec.ofNat 64 va))) (laneBit r.lane)
          { p with late := if r.late then p.late ||| laneBit r.lane else p.late,
                   poison := if r.poison.isSome then p.poison ||| laneBit r.lane else p.poison }
        (((s.updProducer r.gid pid gain).updGroup r.gid (fun g => g.countLate r.late)).updRay id
          (fun r => { r with resumed := false })).retireStray r.gid

/-! ### Structures (R392 to R394) -/

/-- What a structure's entry says for one generation. -/
structure Scene where
  cur : Nat
  root : Nat
  ttabs : List Nat
  ntrl : Nat
deriving DecidableEq, Repr

/-- A structure's entry; none where it breaks a limit of its layout (R393). -/
def sceneOf (bs : List Byte) : Option Scene :=
  let w := fun i => byteField bs (8 * i) 8
  let ttabs := (List.range 4).map (fun k => w (2 + k))
  let rsv := decide (byteField bs 1 1 = 0 ∧ byteField bs 4 4 = 0 ∧ w 1 / 2 ^ 24 = 0 ∧ w 6 / 2 ^ 24 = 0 ∧ w 7 = 0)
  if rsv && ttabs.all (fun t => decide (t % 16 = 0)) && decide (1 ≤ w 6) then
    some ⟨byteField bs 2 2, w 1, ttabs, w 6⟩
  else none

/-- The structure that a handle names (R392). -/
def State.scene (s : State) (gid asid : Nat) (user : Bool) (handle : Nat) : State × Option Scene :=
  match s.objectEntry gid asid user 1 handle with
  | (s, some bs) => (s, sceneOf bs)
  | (s, none) => (s, none)

/-- A treelet as its table entry gives it. -/
structure Treelet where
  addr : Nat
  nslot : Nat
  home : Nat
deriving DecidableEq, Repr

/-- A treelet table's entry (R394); none where it breaks its rules. -/
def treeletOf (bs : List Byte) : Option Treelet :=
  let a := byteField bs 0 8
  let w := byteField bs 8 8
  let n := w / 2 ^ 16 % 2 ^ 10
  if a % 64 = 0 ∧ w / 2 ^ 26 = 0 ∧ w / 16 % 2 ^ 12 = 0 ∧ 2 ≤ n ∧ n ≤ 1023 ∧ w % 16 ≤ 11 then some ⟨a, n, w % 16⟩ else none

/-- The leaf under a treelet: one page, no peer, the sill home that the entry names (R394). -/
def treeletLeaf (t : Treelet) (leaf : Word) : Bool :=
  decide (leafPeer leaf = 0 ∧ leafHome leaf = t.home ∧ t.addr % pageBytes leaf + 64 * t.nslot ≤ pageBytes leaf)

/-- Find treelet `i` of a structure's generation as a cluster reads it, with its location. -/
def State.treeletAt (s : State) (core asid : Nat) (um : Bool) (sc : Scene) (gen i : Nat) : State × Option (Treelet × Nat) :=
  if sc.ntrl ≤ i then (s, none)
  else match s.objectRead core asid um ((sc.ttabs.getD (gen % 4) 0 + 16 * i) % 2 ^ 64) 16 with
    | (s, none) => (s, none)
    | (s, some bs) =>
      match treeletOf bs with
      | none => (s, none)
      | some t => match translate s core asid t.addr .read um with
        | (s, .ok (leaf, loc)) => (s, if treeletLeaf t leaf then some (t, loc) else none)
        | (s, .error _) => (s, none)

/-- A structure as a sill reads it for a ray: its object entry comes through the home slice by the sill's own translation, and
is kept (R392, R406, R412). -/
def State.sillScene (s : State) (stack : Nat) (r : Ray) : State × Option Scene :=
  let here := fun o : SillObject => decide (o.part = r.part ∧ o.asid = r.asid ∧ o.handle = r.handle) && (o.um == r.um)
  match (s.sill stack).objs.find? here with
  | some o => (s, sceneOf o.bytes)
  | none => match s.spaceFor r.gid r.asid with
    | none => (s, none)
    | some sp =>
      if sp.objn ≤ r.handle then (s, none)
      else match s.sillXlate stack (coreOfGid r.gid) r.asid (xlatTag r.handle r.gen false r.um)
          ((sp.objb.toNat + 64 * r.handle) % 2 ^ 64) r.um with
        | (s, .error _) => (s, none)
        | (s, .ok (leaf, loc)) =>
          if leafPeer leaf ≠ 0 then (s, none)
          else
            let s := s.fillRange r.asid r.part loc 64 true
            let bs := Memory.bytes s.mem loc 64
            if byteField bs 0 1 ≠ 1 then (s, none)
            else (s.setSill stack { s.sill stack with objs := ⟨r.part, r.asid, r.handle, r.um, bs⟩ :: (s.sill stack).objs }, sceneOf bs)

/-- Find a treelet for a ray at a sill, through the sill's own translations (R406). -/
def State.treeletFor (s : State) (stack : Nat) (r : Ray) (i : Nat) : State × Option (Treelet × Nat) :=
  let core := coreOfGid r.gid
  let tag := xlatTag r.handle r.gen false r.um
  match s.sillScene stack r with
  | (s, none) => (s, none)
  | (s, some sc) =>
    if sc.ntrl ≤ i then (s, none)
    else
      let va := (sc.ttabs.getD (r.gen % 4) 0 + 16 * i) % 2 ^ 64
      match s.sillXlate stack core r.asid tag va r.um with
      | (s, .error _) => (s, none)
      | (s, .ok (leaf, loc)) =>
        if leafPeer leaf ≠ 0 then (s, none)
        else
          let s := s.fillRange r.asid r.part loc 16 true
          match treeletOf (Memory.bytes s.mem loc 16) with
          | none => (s, none)
          | some t => match s.sillXlate stack core r.asid tag t.addr r.um with
            | (s, .ok (leaf, loc)) => (s, if treeletLeaf t leaf then some (t, loc) else none)
            | (s, .error _) => (s, none)

/-! ### The generation caches (R393, R394) -/

/-- The key of a structure in a cluster's generation cache, by the rights it was read with. -/
def curKey (cluster asid handle : Nat) (um : Bool) : Nat := (structKey asid handle * 2 + (if um then 1 else 0)) * 24 + cluster

/-- What a generation cache keeps of a structure that a core's cluster has read: the root's table entry is that of a
generation. -/
def State.genEntryOf (s : State) (core asid : Nat) (um : Bool) (sc : Scene) (gen : Nat) : State × GenEntry :=
  match s.treeletAt core asid um sc gen sc.root with
  | (s, some (t, _)) => (s, ⟨gen, sc.root, some t.home⟩)
  | (s, none) => (s, ⟨gen, sc.root, none⟩)

/-- Keep a structure's entry in the generation cache of a core's cluster. -/
def State.keepCur (s : State) (core asid : Nat) (um : Bool) (handle : Nat) (sc : Scene) : State :=
  let (s, e) := s.genEntryOf core asid um sc sc.cur
  { s with curs := FMap.put s.curs (curKey (clusterOf core) asid handle um) e }

/-- A structure through the generation cache of a core's cluster, which is filled where it lacks it; none where the handle
names no structure. -/
def State.genEntry (s : State) (gid asid : Nat) (um : Bool) (handle : Nat) : State × Option GenEntry :=
  let core := coreOfGid gid
  let key := curKey (clusterOf core) asid handle um
  match FMap.get s.curs key with
  | some e => (s, if (s.spaceFor gid asid).any (fun sp => decide (handle < sp.objn)) then some e else none)
  | none => match s.scene gid asid um handle with
    | (s, none) => (s, none)
    | (s, some sc) => let s := s.keepCur core asid um handle sc; (s, FMap.get s.curs key)

/-- GENPUB's update of every cluster's generation cache, and of what the sills keep of the structure: a cluster that holds the
structure, and GENPUB's own, takes the new CUR with the root of that generation (R155, R393). -/
def State.publishCur (s : State) (core asid : Nat) (user : Bool) (handle : Nat) (sc : Scene) (gen : Nat) : State :=
  let one := fun (s : State) (um : Bool) =>
    let holds := fun cl => decide (um = user ∧ cl = clusterOf core) || (FMap.get s.curs (curKey cl asid handle um)).isSome
    let cls := (List.range 24).filter holds
    if cls.isEmpty then s
    else
      let (s, e) := s.genEntryOf core asid um sc gen
      { s with curs := cls.foldl (fun m cl => FMap.put m (curKey cl asid handle um) e) s.curs }
  let s := [false, true].foldl one s
  let stale := fun o : SillObject => decide (o.asid = asid ∧ o.handle = handle)
  { s with sills := s.sills.map (fun e => (e.1, { e.2 with objs := e.2.objs.filter (fun o => !stale o) })) }

/-! ### TRACE (R237 to R240) -/

/-- What TRACE does in a lane that is no helper lane. -/
inductive TraceCase where
  | invalid (gen : Nat)
  | send (r : Ray) (home : Nat)
deriving DecidableEq, Repr

/-- A ray whose numbers are legal (R240). -/
def rayOk (org dir : Vec3) (tmin tmax : BitVec 32) (ctl : Word) : Bool :=
  let bad := f32Bad org.x || f32Bad org.y || f32Bad org.z || f32Bad dir.x || f32Bad dir.y || f32Bad dir.z
  let t := fun b : BitVec 32 => Flt.ofBits fmt32 b.toNat
  !bad && !(f32Zero dir.x && f32Zero dir.y && f32Zero dir.z) && !f32Nan tmin && !f32Nan tmax &&
    !Flt.lt (t tmin) (.fin false 0 1) && !Flt.lt (t tmax) (t tmin) && decide (fld ctl 40 24 = 0)

/-- The case of one lane: the generation it carries is that of its cluster's generation cache now (R240, R393). -/
def traceLane (s : State) (c : LaneCtx) (f : LF) (lane slack : Nat) : State × TraceCase :=
  let w := fun i => c.reg f (f.a.toNat + i) lane
  let lo := fun v : Word => v.truncate 32
  let hi := fun v : Word => (v >>> 32).truncate 32
  let org : Vec3 := ⟨lo (w 0), hi (w 0), lo (w 1)⟩
  let dir : Vec3 := ⟨lo (w 2), hi (w 2), lo (w 3)⟩
  let tmin := hi (w 1)
  let tmax := hi (w 3)
  let ctl := c.b f lane
  let asid := s.asidOf c.g
  let um := !c.r.sup
  let handle := fld ctl 0 32
  if !rayOk org dir tmin tmax ctl then (s, .invalid 0)
  else match s.genEntry s.gid asid um handle with
    | (s, none) => (s, .invalid 0)
    | (s, some e) =>
      match e.home with
      | none => (s, .invalid e.cur)
      | some home =>
        let sp : Space3 := ⟨org, dir, 0xFF_FFFF, 0⟩
        (s, .send { gid := s.gid, lane := lane, pid := none, unclaimed := none, block := recBlock c.r.sup f.d.toNat, asid := asid,
                    handle := handle, gen := e.cur, part := s.partOf c.g, flags := BitVec.ofNat 4 f.md.toNat,
                    cull := BitVec.ofNat 8 (fld ctl 32 8), tmin := tmin, tmax := tmax, held := none, cand := none,
                    todo := [.node e.root 0 sp], stack := home, stage := .flying, ret := [], relay := [], ended := none,
                    slack := slack, late := false, exhausted := none, um := um, arrived := 0, resumed := false,
                    needsCont := false, poison := none } home)

/-- Rays of a lane that are outstanding (R240). -/
def Group.raysOf (g : Group) (lane : Nat) : Nat := (g.rays.filter (fun e => decide (e.1 / 512 = lane))).length

/-- Generations of a structure with rays in flight (R408). -/
def State.openGens (s : State) (asid handle : Nat) : FMap Nat := FMap.rd [] s.structs (structKey asid handle)

/-- The rays that a TRACE would send open a 17th generation (R408). -/
def State.gensFull (s : State) (cases : List (Nat × TraceCase)) : Bool :=
  cases.any (fun e => match e.2 with
    | .send r _ => decide (16 ≤ (s.openGens r.asid r.handle).length) && decide (s.inFlight r.asid r.handle r.gen = 0)
    | .invalid _ => false)

/-- The cases of the lanes that are no helper lanes. -/
def traceCases (s : State) (c : LaneCtx) (f : LF) (slack : Nat) : State × List (Nat × TraceCase) :=
  (lanesIn c.real).foldl (fun (acc : State × List (Nat × TraceCase)) l =>
    let (s, k) := traceLane acc.1 c f l slack
    (s, acc.2 ++ [(l, k)])) (s, [])

/-- Send one ray's message on VC2 (R238, R402). -/
def State.sendRay (s : State) (g : Group) (pid lane : Nat) (r : Ray) (home : Nat) : State :=
  let id := s.nextRay
  let s := { s with nextRay := id + 1, rays := FMap.put s.rays id { r with pid := some pid } }
  let s := s.updGroup s.gid (fun g => { g with rays := FMap.put g.rays (rayKey lane r.block) id })
  let s := s.countRay r.asid r.handle r.gen true
  let p := mkPacket s.gid 9 (corePort s.cur.core) r.slack 2 (s.partOf g) 3 (.ray id)
  s.send p (.cluster (clusterOf s.cur.core)) (pathToSill s.cur.core home)

/-- TRACE (R240): helper lanes and lanes that send nothing take their record at once. -/
def execLTrace (f : LF) (s : State) : Answer :=
  guarded 4 1 0 f (fun c =>
    if c.act = 0 then s.issued 2
    else
      let slack := slackOf c.g c.p f.sk
      let (s1, cases) := traceCases s c f slack
      let sends := fun l => cases.any (fun e => decide (e.1 = l) && (match e.2 with | .send _ _ => true | .invalid _ => false))
      let bad := c.real &&& lanesOf (fun l =>
        (FMap.get c.g.rays (rayKey l (recBlock c.r.sup f.d.toNat))).isSome || (sends l && decide (4 ≤ c.g.raysOf l)))
      if bad ≠ 0 then s.laneTrap .P cENGINE 0 bad
      else if c.g.replayFull ∨ s1.acquiring s1.gid s1.cur.place ∨ s1.gensFull cases then s.suspend
      else
        let q : Producer := mkProducer .ray false s.cur.place c.i.bits c.i.idx (.lanes f.d.toNat 4 c.r.sup) c.act
        let q := { q with opA := captured c.act (c.a f), opB := captured c.act (c.b f) }
        let (s, pid) := s1.addProducer { q with sent := true, um := !c.r.sup }
        let helpers := (lanesIn (c.act &&& ~~~c.real)).map (fun l => (l, recordRegs 0 0 false none))
        let bads := cases.filterMap (fun e => match e.2 with | .invalid g => some (e.1, recordRegs 3 g false none) | .send _ _ => none)
        let now := helpers ++ bads
        let put := fun (g : Group) (e : Nat × List Word) =>
          ((List.range 4).zip e.2).foldl (fun g k => (g.setV c.r.sup (f.d.toNat + k.1) e.1 k.2).setVEmpty c.r.sup (f.d.toNat + k.1) e.1 false) g
        let done := lanesOf (fun l => now.any (fun e => decide (e.1 = l)))
        let s := s.updGroup s.gid (fun g => now.foldl put g)
        let s := s.updGroup s.gid (fun g => { g with replay := FMap.upd g.replay pid (fun q => { q with landed := done }) }.retire pid)
        let s := cases.foldl (fun s e => match e.2 with | .send r home => s.sendRay c.g pid e.1 r home | .invalid _ => s) s
        s.issued 2) s

/-! ### RESUME and HITGET (R241) -/

/-- The ray of a lane at a record block. -/
def Group.rayAt (g : Group) (s : State) (lane block : Nat) : Option (Nat × Ray) :=
  (FMap.get g.rays (rayKey lane block)).bind (fun id => (FMap.get s.rays id).map (fun r => (id, r)))

/-- The ray stands suspended at a kind-2 record that its group has (R241). -/
def Ray.atCandidate (r : Ray) : Bool := decide (r.stage = .suspended) && r.pid.isSome && !r.resumed && r.unclaimed.isNone

/-- RESUME: 0 reject, 1 accept, 2 end. -/
def resume (op : Nat) (f : LF) (s : State) : Answer :=
  guarded 4 0 0 f (fun c =>
    let ray := fun l => c.g.rayAt s l (recBlock c.r.sup f.a.toNat)
    let bad := c.real &&& lanesOf (fun l => !(ray l).any (fun e => e.2.atCandidate))
    if bad ≠ 0 then s.laneTrap .P cENGINE 0 bad
    else
      let slack := slackOf c.g c.p f.sk
      let send := fun (s : State) l =>
        match ray l with
        | none => s
        | some (id, r) =>
          let s := s.updRay id (fun r => { r with stage := .resuming op, resumed := true, pid := none, slack := slack, late := false })
          let p := mkPacket s.gid 9 (corePort s.cur.core) slack 0 (s.partOf c.g) 1 (.ray id)
          s.send p (.cluster (clusterOf s.cur.core)) (pathToSill s.cur.core r.stack)
      ((lanesIn c.real).foldl send s).issued 1) s

/-- RESUME.reject (R241). -/
def execLResumeReject (f : LF) (s : State) : Answer := resume 0 f s
/-- RESUME.accept (R241). -/
def execLResumeAccept (f : LF) (s : State) : Answer := resume 1 f s
/-- RESUME.end (R241). -/
def execLResumeEnd (f : LF) (s : State) : Answer := resume 2 f s

/-- HITGET (R241): d is empty until the ray's next record; the ray is then known by d. -/
def execLHitget (f : LF) (s : State) : Answer :=
  guarded 4 0 0 f (fun c =>
    if c.act = 0 then s.issued 1
    else
      let from_ := recBlock c.r.sup f.a.toNat
      let into := recBlock c.r.sup f.d.toNat
      let ray := fun l => c.g.rayAt s l from_
      let bad := c.real &&& lanesOf (fun l => !(ray l).any (fun e => e.2.resumed && e.2.pid.isNone) ||
        (decide (into ≠ from_) && (FMap.get c.g.rays (rayKey l into)).isSome))
      if bad ≠ 0 then s.laneTrap .P cENGINE 0 bad
      else if c.g.replayFull then s.suspend
      else
        let q : Producer := mkProducer .ray false s.cur.place c.i.bits c.i.idx (.lanes f.d.toNat 4 c.r.sup) c.act
        let q := { q with opA := captured c.act (c.a f) }
        let (s, pid) := s.addProducer { q with sent := true, um := !c.r.sup }
        let put := fun (g : Group) l =>
          ((List.range 4).zip (recordRegs 0 0 false none)).foldl (fun g k =>
            (g.setV c.r.sup (f.d.toNat + k.1) l k.2).setVEmpty c.r.sup (f.d.toNat + k.1) l false) g
        let helpers := c.act &&& ~~~c.real
        let s := s.updGroup s.gid (fun g => (lanesIn helpers).foldl put g)
        let s := s.updGroup s.gid (fun g => { g with replay := FMap.upd g.replay pid (fun q => { q with landed := helpers }) }.retire pid)
        let take := fun (s : State) l =>
          match ray l with
          | none => s
          | some (id, r) =>
            let s := s.updGroup s.gid (fun g => { g with rays := FMap.put (FMap.del g.rays (rayKey l from_)) (rayKey l into) id })
            let s := s.updRay id (fun r => { r with pid := some pid, block := into, unclaimed := none })
            if r.unclaimed.isSome then s.deliverRecord id false else s
        ((lanesIn c.real).foldl take s).issued 1) s

/-- A ray instruction would wait if it issued now (R278, R349, R372, R408). -/
def rayWaits (i : Instr) (s : State) : Bool :=
  match i with
  | .lTrace f => (s.laneActor f).any (fun (c : LaneCtx) => decide (c.act ≠ 0) &&
      (c.g.replayFull || s.acquiring s.gid s.cur.place || (let k := traceCases s c f 0; k.1.gensFull k.2)))
  | .lHitget f => (s.laneActor f).any (fun (c : LaneCtx) => decide (c.act ≠ 0) && c.g.replayFull)
  | _ => false

/-! ### GENPUB and GENWAIT (R155) -/

/-- The structure that a control-stream word names, with the address of its entry; or ENGINE. -/
def withScene (s : State) (g : Group) (p : Split) (handle : Nat) (f : State → Scene → State) : State :=
  match s.scene s.gid (s.asidOf g) p.user handle with
  | (s, some sc) => f s sc
  | (s, none) => s.trap cENGINE 0

/-- Write CUR of a structure at its home slice (R393). -/
def State.putCur (s : State) (g : Group) (user : Bool) (handle gen : Nat) : State :=
  let asid := s.asidOf g
  match s.spaceFor s.gid asid with
  | none => s
  | some sp => match s.reach s.cur.core asid (sp.objb + BitVec.ofNat 64 (64 * handle)) .read user with
    | (s, .ok loc) => s.deviceWrite s.gid (loc + 2) (bytesOf 2 gen)
    | (s, .error _) => s

/-- GENPUB (R155): a release, held until no ray of the generation it publishes is in flight. The handle is checked at issue
and where the wait ends. -/
def execCGenpub (d a : BitVec 6) (s : State) : Answer :=
  scalarWord [a] d (fun g p =>
    let av := sourceAt g p 0 a
    let handle := fld av 0 32
    let busy := fun (s : State) gen => !s.drained g p || decide (s.inFlight (s.asidOf g) handle gen ≠ 0)
    let stay := fun (s : State) gen => s.holdWith 0 (BitVec.ofNat 64 gen) [av]
    let try_ := fun s : State => withScene s g p handle (fun s sc =>
      let gen := (sc.cur + 1) % 65536
      if busy s gen then stay s gen
      else (((s.putCur g p.user handle gen).publishCur s.cur.core (s.asidOf g) p.user handle sc gen).writeS p d
        (BitVec.ofNat 64 gen)).goOn 1)
    match p.issued with
    | some w => if busy s w.val.toNat then s else try_ s
    | none => try_ s) s

/-- No ray of generation g, or of an older one, is in flight. -/
def State.gensRetired (s : State) (asid handle cur gen : Nat) : Bool :=
  let age := fun x => (cur + 65536 - x % 65536) % 65536
  (s.openGens asid handle).all (fun e => decide (age e.1 < age gen))

/-- CUR of a structure as the generation cache of the group's cluster has it now. -/
def State.curNow (s : State) (g : Group) (user : Bool) (handle cur : Nat) : Nat :=
  match FMap.get s.curs (curKey (clusterOf s.cur.core) (s.asidOf g) handle user) with
  | some e => e.cur
  | none => cur

/-- GENWAIT (R155): whether g is the current generation is decided at issue; while it waits, what is older than g is told by
the present one. The handle is checked at issue and where a wait ends. -/
def genwait (test : Bool) (d a b : BitVec 6) (s : State) : Answer :=
  scalarWord [a, b] d (fun g p =>
    let av := sourceAt g p 0 a
    let bv := sourceAt g p 1 b
    let handle := fld av 0 32
    let gen := fld bv 0 16
    let done := fun s : State => ((s.acquire 4 true false).writeS p d 1).goOn 1
    match p.issued with
    | some w =>
      if s.gensRetired (s.asidOf g) handle (s.curNow g p.user handle w.val.toNat) gen then
        withScene s g p handle (fun s _ => done s)
      else s
    | none => withScene s g p handle (fun s sc =>
      if sc.cur = gen then s.trap cENGINE 0
      else if s.gensRetired (s.asidOf g) handle sc.cur gen then done s
      else if test then (s.writeS p d 0).goOn 1
      else (s.keepCur s.cur.core (s.asidOf g) p.user handle sc).holdWith 0 (BitVec.ofNat 64 sc.cur) [av, bv])) s

/-- GENWAIT (R155). -/
def execCGenwait (d a b : BitVec 6) (s : State) : Answer := genwait false d a b s
/-- GENWAIT .test (R155). -/
def execCGenwaitTest (d a b : BitVec 6) (s : State) : Answer := genwait true d a b s

/-! ### The end of a visit: records, continuations, forwarding (R402, R403) -/

/-- Change a sill. -/
def State.updSill (s : State) (k : Nat) (f : Sill → Sill) : State := s.setSill k (f (s.sill k))

/-- Send a ray's last record to its core. -/
def State.sendRecord (s : State) (id stack : Nat) : State :=
  match FMap.get s.rays id with
  | none => s
  | some r =>
    let s := s.updRay id (fun r => { r with stage := .reported, stack := stack })
    if 32 ≤ r.lane then s.dropRecord id
    else
      let p := { mkPacket r.gid 9 0 r.slack 1 r.part 2 (.record id) with late := r.late }
      s.depart p (.sill stack) (pathFromSill stack (coreOfGid r.gid))

/-- The record of a ray's candidate leaves a place: it passes the base sills of the continuations that wait for the ray,
innermost first, and then goes to the core (R402). -/
def State.relayRecord (s : State) (id here : Nat) : State :=
  match FMap.get s.rays id with
  | none => s
  | some r =>
    if 32 ≤ r.lane then s.dropRecord id
    else
      let p := { mkPacket r.gid 9 0 r.slack 1 r.part 2 (.record id) with late := r.late }
      match r.relay with
      | [] => s.depart p (.sill here) (pathFromSill here (coreOfGid r.gid))
      | c :: outer =>
        let base := match FMap.get s.conts c with | some k => k.stack | none => here
        (s.updRay id (fun r => { r with relay := outer })).depart p (.sill here)
          (if base = here then [] else sillToSill here base)

/-- A ray is suspended at a sill with its candidate, whose record goes to its core (R241, R402). -/
def State.suspendRay (s : State) (id stack : Nat) : State :=
  (s.updRay id (fun r => { r with stage := .suspended, stack := stack, relay := r.ret })).relayRecord id stack

/-- Traversal of a ray has ended at a sill: its record goes to the continuation that waits for it, or to the core. -/
def State.finishRay (s : State) (id stack : Nat) : State :=
  match FMap.get s.rays id with
  | none => s
  | some r =>
    match r.ret with
    | [] => s.sendRecord id stack
    | c :: _ =>
      let home := match FMap.get s.conts c with | some k => k.stack | none => stack
      let s := s.updRay id (fun r => { r with stage := .returning, stack := home })
      let p := { mkPacket r.gid 9 0 r.slack 1 r.part 2 (.record id) with late := r.late }
      s.depart p (.sill stack) (if home = stack then [] else sillToSill stack home)

/-- The treelet that an item of traversal needs. -/
def Visit.needs : Visit → Nat
  | .node t _ _ => t
  | .tris t _ _ _ => t
  | .ref t w _ _ => if fld w 30 2 = 3 ∧ bitOf w 29 then fld w 0 24 else t

/-- The segment still admits what is to be visited (R398). -/
def Ray.admits (r : Ray) (v : Visit) : Bool :=
  match v with
  | .ref _ _ box sp => (boxEntry r.tmin r.tmax sp box).isSome
  | _ => true

/-- Drop the leading references that the segment no longer admits (R398). -/
def Ray.prune (r : Ray) : Ray := { r with todo := r.todo.dropWhile (fun v => !r.admits v) }

/-- The space in which a thing is visited. -/
def Visit.space : Visit → Space3
  | .node _ _ sp => sp
  | .ref _ _ _ sp => sp
  | .tris _ _ _ sp => sp

/-! ### Ray messages in the spill region (R238, R404) -/

/-- RET of a ray (R238, R402): where its record goes. -/
def Ray.retField (r : Ray) : Nat :=
  match r.ret with
  | c :: _ => c % 2 ^ 28
  | [] => coreOfGid r.gid * 2 ^ 19 + r.gid % 64 * 2 ^ 13 + r.lane % 32 * 2 ^ 8 + r.block % 256

/-- The 64 bytes of a ray's message (R238). -/
def Ray.message (r : Ray) : List Byte :=
  let sp := (r.todo.head?.map Visit.space).getD ⟨⟨0, 0, 0⟩, ⟨0, 0, 0⟩, 0xFF_FFFF, 0⟩
  let w := fun b : BitVec 32 => bytesOf 4 b.toNat
  let hit := fun (f : Hit → Nat) (d : Nat) => match r.held with | some h => f h | none => d
  let bit := fun (b : Bool) (n : Nat) => if b then 2 ^ n else 0
  w sp.org.x ++ w sp.org.y ++ w sp.org.z ++ w sp.dir.x ++ w sp.dir.y ++ w sp.dir.z ++ w r.tmin ++ w r.tmax ++
    bytesOf 4 (r.flags.toNat * 2 ^ 28 + r.retField) ++ bytesOf 4 r.handle ++
    bytesOf 4 (r.cull.toNat * 2 ^ 24 + (r.todo.head?.map Visit.needs).getD 0 % 2 ^ 24) ++ bytesOf 2 r.gen ++
    bytesOf 2 (bit (r.held.any (fun h => h.front)) 14 + bit r.held.isSome 13 + bit r.late 12 + r.slack % 4096) ++
    bytesOf 4 (hit (fun h => h.prim.toNat) 0) ++
    bytesOf 4 (hit (fun h => h.geom.toNat * 2 ^ 24 + h.inst.toNat) sp.inst.toNat) ++
    bytesOf 8 (hit (fun h => h.b2.toNat * 2 ^ 32 + h.b1.toNat) 0)

/-- A visit in the space whose ray a message gives. -/
def Visit.moved (org dir : Vec3) : Visit → Visit
  | .node t k sp => .node t k { sp with org := org, dir := dir }
  | .ref t w box sp => .ref t w box { sp with org := org, dir := dir }
  | .tris t k n sp => .tris t k n { sp with org := org, dir := dir }

/-- A ray as a spilled message gives it back (R404; log entry 103): its numbers are those of the message; its queue, where
its record goes and the slack that it has lost meanwhile are kept. -/
def Ray.ofMessage (r : Ray) (bs : List Byte) : Ray :=
  let f := fun o => BitVec.ofNat 32 (byteField bs o 4)
  let org : Vec3 := ⟨f 0, f 4, f 8⟩
  let dir : Vec3 := ⟨f 12, f 16, f 20⟩
  let st := byteField bs 0x2E 2
  let held : Option Hit := if st / 2 ^ 13 % 2 = 0 then none
    else some ⟨f 0x1C, f 0x38, f 0x3C, f 0x30, BitVec.ofNat 24 (byteField bs 0x34 3), BitVec.ofNat 8 (byteField bs 0x37 1),
      decide (st / 2 ^ 14 % 2 = 1)⟩
  { r with tmin := f 0x18, tmax := f 0x1C, flags := BitVec.ofNat 4 (byteField bs 0x20 4 / 2 ^ 28),
           cull := BitVec.ofNat 8 (byteField bs 0x2B 1), held := held,
           todo := match r.todo with | v :: rest => v.moved org dir :: rest | [] => [] }

/-- Where a place of a sill's spill region lies (R404, R442): on its own stack. -/
def State.spillLoc (s : State) (stack slot : Nat) : Nat :=
  Config.stackBytes * stack + (s.sill stack).spillBase.toNat % Config.stackBytes + 64 * slot

/-- Continuations of a sill, and the entries of its queue SRAM that are taken (R404). -/
def State.contsAt (s : State) (stack : Nat) : Nat := (s.conts.filter (fun e => decide (e.2.stack = stack))).length
def State.sramUsed (s : State) (stack : Nat) : Nat :=
  (s.sill stack).rayq.length + s.contsAt stack + (s.rays.filter (fun e => decide (e.2.stage = .suspended ∧ e.2.stack = stack))).length

/-- The first number under `n + 1` that is not taken, where at most n are. -/
def freeNum (n : Nat) (taken : Nat → Bool) : Nat := ((List.range (n + 1)).find? (fun i => !taken i)).getD n

/-- A message is written to the sill's spill region (R404). -/
def State.spill (s : State) (id stack : Nat) : State :=
  let q := s.sill stack
  let slot := freeNum q.spilled.length (fun i => q.spilled.any (fun e => decide (e.2 = i)))
  let s := s.updSill stack (fun q => { q with spilled := q.spilled ++ [(id, slot)] })
  match FMap.get s.rays id with
  | none => s
  | some r => s.storeHome (s.spillLoc stack slot) r.message

/-- Queue a ray at a sill; its SRAM's 131,072 entries hold queued rays, continuations and suspended rays, and what finds it
full is spilled (R404). -/
def State.queueRay (s : State) (id stack : Nat) : State :=
  let at_ := s.nextPkt
  let s := s.updRay id (fun r => { r with stage := .queued, stack := stack, arrived := at_, late := r.late || r.slack = 0,
                                          exhausted := if r.slack = 0 then some at_ else none })
  if s.sramUsed stack < 131072 ∧ (s.sill stack).spilled.isEmpty then s.updSill stack (fun q => { q with rayq := q.rayq ++ [id] })
  else s.spill id stack

/-- The ray leaves the treelet it was in: it ends, queues again at the same stack, or is forwarded, with a continuation
where something remains (R402, R403). -/
def State.routeRay (s : State) (id stack : Nat) : State :=
  match FMap.get s.rays id with
  | none => s
  | some r0 =>
    let r := r0.prune
    let s := { s with rays := FMap.put s.rays id r }
    match r.todo with
    | [] => s.finishRay id stack
    | v :: rest =>
      match s.treeletFor stack r v.needs with
      | (s, none) => (s.updRay id (fun r => { r with ended := some true })).finishRay id stack
      | (s, some (t, _)) =>
        if t.home = stack then s.queueRay id stack
        else
          let rest := rest.filter r.admits
          let bare := rest.isEmpty && (match r.held with | none => true | some h => decide (h.inst = v.space.inst))
          let send := fun s : State =>
            let s := s.updRay id (fun r => { r with stage := .flying, stack := t.home, needsCont := false })
            let p := { mkPacket r.gid 9 0 r.slack 2 r.part 3 (.ray id) with late := r.late }
            s.depart p (.sill stack) (sillToSill stack t.home)
          if bare then send (s.updRay id (fun r => { r with todo := [v] }))
          else if 16384 ≤ s.contsAt stack then
            (s.updRay id (fun r => { r with needsCont := true })).queueRay id stack
          else
            let name := fun i => (288 + stack) * 2 ^ 19 + i
            let c := name (freeNum (s.contsAt stack) (fun i => (FMap.get s.conts (name i)).isSome))
            let s := { s with conts := FMap.put s.conts c ⟨stack, r.held, r.tmax, rest⟩ }
            send (s.updRay id (fun r => { r with todo := [v], held := none, ret := c :: r.ret }))

/-! ### Traversal inside a treelet (R395 to R401) -/

/-- What one step of traversal comes to. -/
inductive Progress where
  | go (r : Ray)
  | leave (r : Ray)
  | suspend (r : Ray)
  | finish (r : Ray)
deriving DecidableEq, Repr

/-- A treelet as a ray reads it: `rd o n` is the number that n bytes at offset o spell. -/
structure Reader where
  tid : Nat
  nslot : Nat
  rd : Nat → Nat → Nat

/-- A binary32 of a treelet. -/
def Reader.f (t : Reader) (o : Nat) : BitVec 32 := BitVec.ofNat 32 (t.rd o 4)

/-- Three of them. -/
def Reader.vec (t : Reader) (o : Nat) : Vec3 := ⟨t.f o, t.f (o + 4), t.f (o + 8)⟩

/-- A child reference keeps its reserved bits at 0 (R395); of a link with LT = 0 too, bits 23:10 (log entry 102). -/
def refOk (w : BitVec 32) : Bool :=
  match fld w 30 2 with
  | 0 => decide (fld w 0 30 = 0)
  | 1 => decide (fld w 10 20 = 0)
  | 2 => decide (fld w 10 14 = 0)
  | _ => decide (fld w 24 5 = 0) && (bitOf w 29 || decide (fld w 10 14 = 0))

/-- The record of kind 3 for a breach. -/
def Ray.invalid (r : Ray) : Progress := .finish { r with ended := some true }

/-- Visit a box node: its admitted children in ascending entry distance, ties to the lower index (R397). -/
def Reader.node (t : Reader) (r : Ray) (slot : Nat) (sp : Space3) (rest : List Visit) : Progress :=
  if t.nslot ≤ slot + 1 ∨ t.rd (64 * slot + 112) 16 ≠ 0 then r.invalid
  else
    let o := 64 * slot
    let child := fun c => (BitVec.ofNat 32 (t.rd (o + 96 + 4 * c) 4), (List.range 6).map (fun k => t.f (o + 24 * c + 4 * k)))
    let cs := (List.range 4).map child
    if cs.any (fun c => !refOk c.1) then r.invalid
    else
      let hit := cs.filterMap (fun c => if fld c.1 30 2 = 0 then none else (boxEntry r.tmin r.tmax sp c.2).map (fun d => (d, c)))
      let sorted := sortBy (fun (a b : Frac × (BitVec 32 × List (BitVec 32))) => Frac.lt a.1 b.1) hit
      .go { r with todo := sorted.map (fun e => Visit.ref t.tid e.2.1 e.2.2 sp) ++ rest }

/-- A hit becomes the held hit (R400): with FIRST, traversal ends. -/
def Ray.accept (r : Ray) (h : Hit) : Progress :=
  let r := { r with held := some h, tmax := h.t, cand := none }
  if r.flags.getLsbD 1 then .finish { r with ended := some false } else .go r

/-- Test one triangle (R399, R400). -/
def Reader.tri (t : Reader) (r : Ray) (slot : Nat) (sp : Space3) : Progress :=
  let o := 64 * slot
  let fl := t.rd (o + 0x29) 1
  if t.nslot ≤ slot ∨ 4 ≤ fl ∨ t.rd (o + 0x2A) 6 ≠ 0 ∨ t.rd (o + 0x38) 8 ≠ 0 then r.invalid
  else match triTest sp (r.flags.getLsbD 2) (t.vec o) (t.vec (o + 12)) (t.vec (o + 24)) with
    | none => .go r
    | some h =>
      let opq := r.flags.getLsbD 3
      let alpha := decide (fl % 2 = 1) && !opq
      let any := decide (fl / 2 = 1) && !opq
      let lt := fun a b : BitVec 32 => Flt.lt (Flt.ofBits fmt32 a.toNat) (Flt.ofBits fmt32 b.toNat)
      let hit : Hit := ⟨h.t, h.b1, h.b2, t.f (o + 0x24), sp.inst, BitVec.ofNat 8 (t.rd (o + 0x28) 1), h.front⟩
      if lt h.t r.tmin ∨ lt r.tmax h.t then .go r
      else if alpha ∧ t.rd (o + 0x30) 8 / 2 ^ h.cell % 2 = 0 then .go r
      else if (match r.held with | some k => !hit.below k | none => false) then .go r
      else if any ∧ r.flags.getLsbD 0 then .suspend { r with cand := some hit }
      else r.accept hit

/-- Follow a link to an instance record (R397). -/
def Reader.instance_ (t : Reader) (r : Ray) (slot : Nat) (sp : Space3) (rest : List Visit) : Progress :=
  let o := 64 * slot
  if t.nslot ≤ slot ∨ t.rd (o + 0x37) 1 ≠ 0 ∨ t.rd (o + 0x38) 8 ≠ 0 then r.invalid
  else
    let w := t.rd (o + 0x30) 4
    if (BitVec.ofNat 8 (w / 2 ^ 24)) &&& r.cull ≠ 0 then .go { r with todo := rest }
    else if 4 ≤ sp.depth then r.invalid
    else
      let m := (List.range 12).map (fun k => t.f (o + 4 * k))
      let org := sp.org.image m true
      let dir := sp.dir.image m false
      let bad := f32Bad org.x || f32Bad org.y || f32Bad org.z || f32Bad dir.x || f32Bad dir.y || f32Bad dir.z
      if bad || (f32Zero dir.x && f32Zero dir.y && f32Zero dir.z) then .go { r with todo := rest }
      else .go { r with todo := .node (w % 2 ^ 24) 0 ⟨org, dir, BitVec.ofNat 24 (t.rd (o + 0x34) 3), sp.depth + 1⟩ :: rest }

/-- One step of traversal (R397). -/
def Reader.step (t : Reader) (r0 : Ray) : Progress :=
  let r := r0.prune
  match r.todo with
  | [] => .finish r
  | v :: rest =>
    if v.needs ≠ t.tid then .leave r
    else match v with
      | .node _ slot sp => t.node r slot sp rest
      | .tris _ slot n sp =>
        let more := if n ≤ 1 then rest else .tris t.tid (slot + 1) (n - 1) sp :: rest
        t.tri { r with todo := more } slot sp
      | .ref _ w _ sp =>
        match fld w 30 2 with
        | 1 => .go { r with todo := .node t.tid (fld w 0 10) sp :: rest }
        | 2 => .go { r with todo := .tris t.tid (fld w 0 10) (fld w 24 6 + 1) sp :: rest }
        | 3 => if bitOf w 29 then .go { r with todo := .node t.tid 0 sp :: rest } else t.instance_ r (fld w 0 10) sp rest
        | _ => .go { r with todo := rest }

/-- Box nodes and triangles that the next step of traversal tests: the four boxes of a node, or one triangle (R1, R397). -/
def Ray.tests (tid : Nat) (r : Ray) : Nat × Nat :=
  match r.prune.todo with
  | .node t _ _ :: _ => if t = tid then (1, 0) else (0, 0)
  | .tris t _ _ _ :: _ => if t = tid then (0, 1) else (0, 0)
  | _ => (0, 0)

/-- Steps until the ray leaves, suspends or ends, at most `n`; and how many box nodes and triangles were tested. -/
def Reader.run (t : Reader) : Nat → Ray → Progress × Nat × Nat
  | 0, r => (.go r, 0, 0)
  | n + 1, r =>
    let k := r.tests t.tid
    match t.step r with
    | .go r => let m := t.run n r; (m.1, m.2.1 + k.1, m.2.2 + k.2)
    | p => (p, k)

/-- Pipe-cycles of some tests of a visit that has tested `before` triangles (R1): a cycle tests four boxes or two
triangles. -/
def pipeCycles (nodes before tris : Nat) : Nat := nodes + (ceilDiv (before + tris) 2 - ceilDiv before 2)

/-- Steps that one visit event makes at most; a longer visit goes on at the next. -/
def visitFuel : Nat := 256

/-- Free a pipe. -/
def State.freePipe (s : State) (stack pipe : Nat) : State :=
  s.updSill stack (fun q => { q with pipes := FMap.del q.pipes pipe })

/-- TREELET_VISIT: a pipe traverses its ray through one treelet (R397, R405), and a ray that needs another one leaves it:
poisoned data ends the ray with a record of kind 3 (R250). -/
def execEvTreeletVisit (stack pipe : Nat) (s : State) : Answer :=
  match FMap.get (s.sill stack).pipes pipe with
  | none => .next s
  | some id =>
    match FMap.get s.rays id with
    | none => .next (s.freePipe stack pipe)
    | some r =>
      let (tid, before, charged) := match r.stage with
        | .piped _ t n c => (t, n, c)
        | _ => ((r.todo.head?.map Visit.needs).getD 0, 0, true)
      match r.todo with
      | [] => .next ((s.freePipe stack pipe).finishRay id stack)
      | _ :: _ =>
        match s.treeletFor stack r tid with
        | (s, none) => .next (((s.freePipe stack pipe).updRay id (fun r => { r with ended := some true })).finishRay id stack)
        | (s, some (t, loc)) =>
          if (List.range (8 * t.nslot)).any (fun i => s.sillBad (loc + 8 * i)) then
            .next (((s.freePipe stack pipe).updRay id (fun r => { r with ended := some true, poison := some t.addr })).finishRay id stack)
          else
            let reader : Reader := ⟨tid, t.nslot, fun o n => s.natAt (loc + o) n⟩
            let (p, nodes, tris) := reader.run visitFuel r
            let put := fun (s : State) (r : Ray) => { s with rays := FMap.put s.rays id r }
            let s := s.chargeRay stack r.part (pipeCycles nodes before tris) charged
            match p with
            | .go r => .next (put s { r with stage := .piped pipe tid (before + tris) charged })
            | .leave r => .next ((put (s.freePipe stack pipe) r).routeRay id stack)
            | .suspend r => .next ((put (s.freePipe stack pipe) r).suspendRay id stack)
            | .finish r => .next ((put (s.freePipe stack pipe) r).finishRay id stack)

/-! ### Arrival, resumption, return, selection (R402 to R405) -/

/-- A packet that stands at the end of its path at a sill. -/
def Packet.atSill (p : Packet) : Option Nat :=
  match p.at_ with
  | .sill k => if p.path.isEmpty && !p.inLink then some k else none
  | _ => none

/-- Apply a RESUME that has reached the ray's sill (R241). -/
def State.resumeRay (s : State) (id stack op : Nat) : State :=
  match FMap.get s.rays id with
  | none => s
  | some r =>
    let took := match r.cand with
      | some h => { r with held := some h, tmax := h.t, cand := none }
      | none => r
    let first := r.flags.getLsbD 1
    if op = 0 then ({ s with rays := FMap.put s.rays id { r with cand := none } }).routeRay id stack
    else
      let fin := decide (op = 2) || first
      let s := { s with rays := FMap.put s.rays id { took with ended := if fin then some false else none } }
      if fin then s.finishRay id stack else s.routeRay id stack

/-- RAY_MESSAGE_ARRIVAL: a sill takes a ray message or a RESUME (R241, R404). -/
def execEvRayMessageArrival (pkt : Nat) (s : State) : Answer :=
  match FMap.get s.pkts pkt with
  | none => .next s
  | some p =>
    match p.atSill, p.body with
    | some k, .ray id =>
      let s := { s with pkts := FMap.del s.pkts pkt }
      let s := s.updRay id (fun r => { r with slack := p.slack, late := r.late || p.late })
      match FMap.get s.rays id with
      | none => .next s
      | some r =>
        match r.stage with
        | .resuming op => .next (s.resumeRay id k op)
        | .flying => .next (s.queueRay id k)
        | _ => .next s
    | _, _ => .next s

/-- CONTINUATION_RETURN: the base sill takes the returned hit if its key is below the kept one, and goes on; the record of a
candidate passes on (R402). -/
def execEvContinuationReturn (pkt : Nat) (s : State) : Answer :=
  match FMap.get s.pkts pkt with
  | none => .next s
  | some p =>
    match p.atSill, p.body with
    | some k, .record id =>
      let s := { s with pkts := FMap.del s.pkts pkt }
      match FMap.get s.rays id with
      | none => .next s
      | some r =>
        if r.stage = .suspended then .next ((s.updRay id (fun r => { r with late := r.late || p.late })).relayRecord id k)
        else match r.ret with
        | [] => .next s
        | c :: outer =>
          match FMap.get s.conts c with
          | none => .next s
          | some kept =>
            let held := match kept.held, r.held with
              | none, h => h
              | some a, some b => if b.below a then some b else some a
              | some a, none => some a
            let tmax := match held with | some h => h.t | none => kept.tmax
            let r := { r with held := held, tmax := tmax, todo := kept.todo, ret := outer, slack := p.slack, late := r.late || p.late }
            let s := { s with conts := FMap.del s.conts c, rays := FMap.put s.rays id r }
            .next (if r.ended.isSome then s.finishRay id k else s.routeRay id k)
    | _, _ => .next s

/-- The queue of a ray: its partition, structure, generation and treelet (R404). -/
def Ray.queue (r : Ray) : Nat × Nat × Nat × Nat := (r.part, structKey r.asid r.handle, r.gen, (r.todo.head?.map Visit.needs).getD 0)

/-- Its treelet as the treelet cache names it. -/
def Ray.treelet (r : Ray) : Nat × Nat × Nat := (structKey r.asid r.handle, r.gen, (r.todo.head?.map Visit.needs).getD 0)

/-- Rays by least slack, then earliest arrival. -/
def raySooner (a b : Nat × Ray) : Bool := decide (a.2.slack < b.2.slack) || (decide (a.2.slack = b.2.slack) && decide (a.2.arrived < b.2.arrived))

/-- The ray that a free pipe takes among candidates (R405). -/
def pickRay (cached : List (Nat × Nat × Nat)) (rs : List (Nat × Ray)) : Option (Nat × Ray) :=
  let exhausted := rs.filter (fun e => e.2.exhausted.isSome)
  let hot := rs.filter (fun e => cached.contains e.2.treelet)
  let urgent := rs.filter (fun e => decide (e.2.slack ≤ 64))
  let size := fun (e : Nat × Ray) => (rs.filter (fun x => decide (x.2.queue = e.2.queue))).length
  let long := rs.filter (fun e => decide (256 ≤ size e))
  match minBy (fun (a b : Nat × Ray) => decide (a.2.exhausted.getD 0 < b.2.exhausted.getD 0)) exhausted with
  | some e => some e
  | none =>
    if !hot.isEmpty then minBy raySooner hot
    else if !urgent.isEmpty then minBy raySooner urgent
    else if !long.isEmpty then minBy (fun a b => decide (size b < size a) || (decide (size a = size b) && raySooner a b)) long
    else minBy raySooner rs

/-- Spilled messages return to the SRAM in order, exhausted ones first (R404). -/
def State.unspill (s : State) (stack : Nat) : State :=
  let q := s.sill stack
  match q.spilled with
  | [] => s
  | first :: _ =>
    if 131072 ≤ s.sramUsed stack then s
    else
      let e := (q.spilled.find? (fun e => (FMap.get s.rays e.1).any (fun r => r.exhausted.isSome))).getD first
      let s := s.setSill stack { q with spilled := q.spilled.filter (fun x => decide (x ≠ e)), rayq := q.rayq ++ [e.1] }
      s.updRay e.1 (fun r => r.ofMessage (Memory.bytes s.mem (s.spillLoc stack e.2) 64))

/-- Load a ray's treelet from its stack (R309, R405). -/
def State.loadTreelet (s : State) (stack : Nat) (r : Ray) : State :=
  match r.todo with
  | [] => s
  | v :: _ =>
    match s.treeletFor stack r v.needs with
    | (s, some (t, loc)) => s.sillRead r.part loc (64 * t.nslot)
    | (s, none) => s

/-- TRAVERSAL_PIPE_SELECT: a free pipe takes the next ray and its treelet is loaded (R405, R407); a ray that waited for a
continuation takes the one that is free and is forwarded (R403). -/
def execEvTraversalPipeSelect (stack pipe : Nat) (s : State) : Answer :=
  let s := s.unspill stack
  let q := s.sill stack
  if (FMap.get q.pipes pipe).isSome then .next s
  else
    let full := decide (16384 ≤ s.contsAt stack)
    let rs := q.rayq.filterMap (fun id => (FMap.get s.rays id).bind (fun r => if r.needsCont ∧ full then none else some (id, r)))
    let ok := rs.filter (fun e => s.rayOk stack e.2.part)
    let lent := rs.filter (fun e => borrows (s.wordAt .ray stack e.2.part))
    match (match pickRay q.treelets ok with | some e => some e | none => pickRay q.treelets lent) with
    | none => .next s
    | some (id, r) =>
      if r.needsCont then .next ((s.updSill stack (fun q => { q with rayq := q.rayq.filter (fun i => decide (i ≠ id)) })).routeRay id stack)
      else
      let busy := q.pipes.filterMap (fun e => (FMap.get s.rays e.2).map Ray.treelet)
      let others := q.treelets.filter (fun t => decide (t ≠ r.treelet))
      let victim := if others.length < 32 then none else others.reverse.find? (fun t => !busy.contains t)
      let others := match victim with | some v => others.filter (fun t => decide (t ≠ v)) | none => others
      let q := { q with pipes := FMap.put q.pipes pipe id, rayq := q.rayq.filter (fun i => decide (i ≠ id)),
                        treelets := r.treelet :: others }
      let cached := (s.sill stack).treelets.contains r.treelet
      let s := (s.setSill stack q).updRay id (fun r =>
        { r with stage := .piped pipe r.treelet.2.2 0 (s.rayOk stack r.part), exhausted := none })
      .next (if cached then s else s.loadTreelet stack r)

end Sys2Proof.Machine
end

