-- ==== Sys2Proof/Machine/Filter.lean ====
section
/-! DEFINITION. Filtering: SAMPLE and HGRID, and the filter engine of a sill (R90, R91, R243 to R245, R410 to R412). -/

namespace Sys2Proof.Machine

/-! ### Entries (R410, R411) -/

/-- A texture as its entry gives it. -/
structure Texture where
  levels : Nat
  home : Nat
  fmt : Nat
  h : Nat
  w : Nat
  base : Nat
deriving DecidableEq, Repr

/-- Bytes of a texel. -/
def Texture.bpt (t : Texture) : Nat := match t.fmt with | 3 => 8 | 4 => 16 | _ => 4

/-- A texture entry; none where it breaks its layout (R410). -/
def textureOf (w0 w1 base w3 : Nat) : Option Texture :=
  let t : Texture := ⟨w0 / 2 ^ 16 % 16 + 1, w0 / 2 ^ 12 % 16, w0 / 2 ^ 8 % 16, w1 / 2 ^ 16 % 2 ^ 16, w1 % 2 ^ 16, base⟩
  if w0 / 2 ^ 20 = 0 ∧ t.home ≤ 11 ∧ t.fmt ≤ 4 ∧ w1 / 2 ^ 32 = 0 ∧ 1 ≤ t.h ∧ t.h ≤ 32768 ∧ 1 ≤ t.w ∧ t.w ≤ 32768 ∧
      base % 256 = 0 ∧ w3 = 0 then some t else none

/-- Width and height of a level. -/
def Texture.wAt (t : Texture) (l : Nat) : Nat := max 1 (t.w / 2 ^ l)
def Texture.hAt (t : Texture) (l : Nat) : Nat := max 1 (t.h / 2 ^ l)

/-- Where level `l` starts (R410). -/
def Texture.levelStart (t : Texture) : Nat → Nat
  | 0 => t.base
  | l + 1 => t.levelStart l + 256 * ceilDiv (t.wAt l * t.hAt l * t.bpt) 256

/-- A grid as its entry gives it. -/
structure Grid where
  levels : Nat
  home : Nat
  feats : Nat
  levtab : Nat
deriving DecidableEq, Repr

/-- A grid entry; none where it breaks its layout (R411). -/
def gridOf (w0 levtab : Nat) (restZero : Bool) : Option Grid :=
  let code := w0 / 2 ^ 16 % 4
  if w0 / 2 ^ 18 = 0 ∧ w0 / 2 ^ 12 % 16 ≤ 11 ∧ code ≠ 3 ∧ levtab % 16 = 0 ∧ restZero then
    some ⟨w0 / 2 ^ 8 % 16 + 1, w0 / 2 ^ 12 % 16, 2 * 2 ^ code, levtab⟩
  else none

/-- A level-table entry keeps R411. -/
def gridLevelOk (tbase w : Nat) : Bool :=
  decide (tbase % 64 = 0 ∧ w / 2 ^ 37 = 0 ∧ 1 ≤ w / 2 ^ 32 ∧ w / 2 ^ 32 ≤ 24 ∧ 1 ≤ w % 2 ^ 32 ∧ w % 2 ^ 32 ≤ 2 ^ 24)

/-! ### Coordinates (R243, R245) -/

/-- A binary32 clamped to 0 to `hi`, NaN as 0. -/
def clampTo (hi : Nat) (b : Nat) : Nat × Nat :=
  match Flt.ofBits fmt32 b with
  | .nan => (0, 1)
  | .inf neg => if neg then (0, 1) else (hi, 1)
  | .fin neg n d => if neg then (0, 1) else if hi * d < n then (hi, 1) else (n, d)

/-- s′ of R243; none for an infinite coordinate that wraps, of which the spec states no result. -/
def texCoord (clamp : Bool) (b : Nat) : Option (Nat × Nat) :=
  if clamp then some (clampTo 1 b)
  else match Flt.ofBits fmt32 b with
    | .nan => some (0, 1)
    | .inf _ => none
    | .fin neg n d => some ((signedNum neg n % (d : Int)).toNat, d)

/-- num/den rounded to binary32: its floor, and its fraction's numerator and denominator. -/
def gridPos (num : Int) (den : Nat) : Int × Nat × Nat :=
  match Flt.ofBits fmt32 (round fmt32 0 (.fin (decide (num < 0)) num.natAbs den)) with
  | .fin neg n d =>
    let k := floorRat neg n d
    (k, (signedNum neg n - k * d).toNat, d)
  | _ => (0, 0, 1)

/-- A texel index after wrap (R243). -/
def wrapIdx (clamp : Bool) (i : Int) (w : Nat) : Nat :=
  if clamp then min i.toNat (w - 1) else (i % (w : Int)).toNat

/-- The texels that a filter reads along one axis with their weights of 256. -/
def axisTaps (point clamp : Bool) (c : Nat × Nat) (w : Nat) : List (Nat × Nat) :=
  if point then [(wrapIdx clamp (gridPos ((c.1 * w : Nat) : Int) c.2).1 w, 256)]
  else
    let p := gridPos (2 * ((c.1 * w : Nat) : Int) - (c.2 : Int)) (2 * c.2)
    let f := 256 * p.2.1 / p.2.2
    [(wrapIdx clamp p.1 w, 256 - f), (wrapIdx clamp (p.1 + 1) w, f)]

/-- The levels that a filter reads with their weights of 256. -/
def levelTaps (filter : Nat) (t : Texture) (lod : Nat) : List (Nat × Nat) :=
  let c := clampTo (t.levels - 1) lod
  if filter = 2 then
    let l := c.1 / c.2
    let f := 256 * (c.1 % c.2) / c.2
    [(l, 256 - f), (min (l + 1) (t.levels - 1), f)]
  else [((2 * c.1 + c.2) / (2 * c.2), 256)]

/-! ### Fetches (R412) -/

/-- Bytes through a sill's filter cache, which fills through the home slice (R309, R412), and whether some of them are
poisoned. -/
def State.filterRead (s : State) (stack part loc n : Nat) : State × List Byte × Bool :=
  let q := s.sill stack
  let here := fun l : FilterLine => decide (l.line = loc / 128 ∧ l.part = part)
  let cut := fun l : FilterLine =>
    ((l.bytes.drop (loc % 128)).take n, ((l.bad.drop (loc % 128)).take n).any (fun b => b))
  let put := fun (s : State) (l : FilterLine) =>
    s.setSill stack { s.sill stack with fcache := (l :: q.fcache.filter (fun x => !here x)).take 8192 }
  match q.fcache.find? here with
  | some l => (put s l, cut l)
  | none =>
    let a := 128 * (loc / 128)
    let s := s.sillRead part a 128
    let l : FilterLine := ⟨loc / 128, part, Memory.bytes s.mem a 128, (List.range 128).map (fun i => s.sillBad (a + i))⟩
    (put s l, cut l)

/-- One fetch of the filter engine, with its address where a byte is poisoned: none where the bytes lie off the sill's stack, on a peer's page, or the walk faults. -/
def State.fetchAt (s : State) (stack core asid part : Nat) (um : Bool) (va n : Nat) : State × Option (List Byte × Option Nat) :=
  match s.sillXlate stack core asid (xlatTag 0 0 true um) va um with
  | (s, .error _) => (s, none)
  | (s, .ok (leaf, loc)) =>
    if leafPeer leaf ≠ 0 ∨ !inHbm loc ∨ stackOf loc ≠ stack then (s, none)
    else let (s, r) := s.filterRead stack part loc n; (s, some (r.1, if r.2 then some va else none))

/-- Every fetch of a lane in order; none where one of them fails. -/
def State.fetchAll (s : State) (stack core asid part : Nat) (um : Bool) (n : Nat) (vas : List Nat) :
    State × Option (List (List Byte × Option Nat)) :=
  vas.foldl (fun (acc : State × Option (List (List Byte × Option Nat))) va =>
    match acc.2 with
    | none => acc
    | some rs => match acc.1.fetchAt stack core asid part um va n with
      | (s, some r) => (s, some (rs ++ [r]))
      | (s, none) => (s, none)) (s, some [])

/-! ### Filtering (R90, R91, R244) -/

/-- Channel `c` of a texel (R244). -/
def texelChannel (fmt : Nat) (bs : List Byte) (c : Nat) : Flt :=
  let miss : Flt := .fin false (if c = 3 then 1 else 0) 1
  match fmt with
  | 0 => if c = 0 then Flt.ofBits fmt32 (byteField bs 0 4) else miss
  | 1 => if c < 2 then Flt.ofBits fmt16 (byteField bs (2 * c) 2) else miss
  | 2 => .fin false (byteField bs c 1) 255
  | 3 => Flt.ofBits fmt16 (byteField bs (2 * c) 2)
  | _ => Flt.ofBits fmt32 (byteField bs (4 * c) 4)

/-- The sum of w·t/den over the terms of weight not 0, rounded once (R85, R90). -/
def weighted (f : Fmt) (den : Nat) (ts : List (Nat × Flt)) : Nat :=
  round f 0 (Flt.sum ((ts.filter (fun e => decide (e.1 ≠ 0))).map (fun e => Flt.mul (.fin false e.1 den) e.2)))

/-- The registers of a SAMPLE from its four channels. -/
def sampleRegs (c4 : Bool) (ch : Nat → Nat) : List Word :=
  let pair := fun a => packElems 32 [ch a, ch (a + 1)]
  if c4 then [pair 0, pair 2] else [pair 0]

/-- What a handle that names no texture, or no grid, fills the block with (R244, R245). -/
def sampleFill (c4 : Bool) : List Word := sampleRegs c4 (fun _ => fmt32.nanBits)
def gridFill (regs : Nat) : List Word := List.replicate regs (spread 16 4 fmtBf.nanBits)

/-- The taps of one sample: level, texel address, weights of the level, and of the texel in 65,536ths. -/
def sampleTaps (t : Texture) (filter : Nat) (clamp : Bool) (lod : Nat) (s' t' : Nat × Nat) : List (Nat × List (Nat × Nat)) :=
  (levelTaps filter t lod).map (fun l =>
    let us := axisTaps (decide (filter = 0)) clamp s' (t.wAt l.1)
    let vs := axisTaps (decide (filter = 0)) clamp t' (t.hAt l.1)
    (l.2, vs.flatMap (fun v => us.map (fun u => ((t.levelStart l.1 + t.bpt * (v.1 * t.wAt l.1 + u.1)) % 2 ^ 64, u.2 * v.2)))))

/-- What a lane's request comes to: its registers, and the address of the first poisoned data that counts. -/
structure Filtered where
  regs : List Word
  poison : Option Nat
deriving DecidableEq, Repr

/-- Serve SAMPLE at a sill: operands are s and t, the level of detail and the entry's words. -/
def State.serveSample (s : State) (stack core asid part : Nat) (um : Bool) (f : LF) (ops : List Word) : State × Filtered :=
  let op := fun i => (ops.getD i 0)
  let filter := f.md.toNat % 4
  let clamp := f.md.getLsbD 2
  let c4 := f.md.getLsbD 3
  match textureOf (op 2).toNat (op 3).toNat (op 4).toNat 0 with
  | none => (s, ⟨sampleFill c4, none⟩)
  | some t =>
    match texCoord clamp (fld (op 0) 0 32), texCoord clamp (fld (op 0) 32 32) with
    | some s', some t' =>
      let taps := sampleTaps t filter clamp (fld (op 1) 0 32) s' t'
      match s.fetchAll stack core asid part um t.bpt (taps.flatMap (fun l => l.2.map (·.1))) with
      | (s, none) => (s, ⟨sampleFill c4, none⟩)
      | (s, some rs) =>
        let n := (taps.map (fun l => l.2.length)).headD 1
        let rows := (List.range taps.length).map (fun k => ((taps.getD k (0, [])).1, ((taps.getD k (0, [])).2.map (·.2)).zip ((rs.drop (n * k)).take n)))
        let bad := (rows.filter (fun l => decide (l.1 ≠ 0))).findSome? (fun l => (l.2.filter (fun e => decide (e.1 ≠ 0))).findSome? (fun e => e.2.2))
        let level := fun c (es : List (Nat × (List Byte × Option Nat))) =>
          Flt.ofBits fmt32 (weighted fmt32 65536 (es.map (fun e => (e.1, texelChannel t.fmt e.2.1 c))))
        let ch := fun c => weighted fmt32 256 (rows.map (fun l => (l.1, level c l.2)))
        (s, if bad.isSome then ⟨sampleFill c4, bad⟩ else ⟨sampleRegs c4 ch, none⟩)
    | _, _ =>
      let (vs, s) := s.frees (if c4 then 2 else 1)
      (s, ⟨vs, none⟩)

/-- Features, levels and registers of an HGRID (R245). -/
def hgridF (f : LF) : Nat := 2 * 2 ^ (f.md.toNat / 4 % 4)
def hgridM (f : LF) : Nat := f.md.toNat % 4 + 1

/-- The corners of a grid level: the address of each with its weight's numerator and denominator (R91, R245). -/
def gridTaps (tbase w feats : Nat) (p : Nat → Nat × Nat) : List (Nat × Nat × Nat) :=
  let n := w % 2 ^ 32
  let pos := fun k => gridPos (((p k).1 * n : Nat) : Int) (p k).2
  let x := pos 0
  let y := pos 1
  let z := pos 2
  (List.range 8).map (fun c =>
    let cx := c % 2
    let cy := c / 2 % 2
    let cz := c / 4
    let i := fun (k : Int × Nat × Nat) (d : Nat) => ((k.1 + (d : Int)) % (2 ^ 32 : Int)).toNat
    let h := (i x cx ^^^ (i y cy * 0xA34E5C67 % 2 ^ 32) ^^^ (i z cz * 0x7F1D8A2B % 2 ^ 32)) % 2 ^ (w / 2 ^ 32)
    let f := fun (k : Int × Nat × Nat) (d : Nat) => if d = 1 then k.2.1 else k.2.2 - k.2.1
    ((tbase + 2 * feats * h) % 2 ^ 64, f x cx * f y cy * f z cz, x.2.2 * y.2.2 * z.2.2))

/-- One level of an HGRID at a sill: the features as bfloat16 numbers, and the address of poisoned data; none where a fetch
fails. -/
def State.gridLevel (s : State) (stack core asid part : Nat) (um : Bool) (feats tbase w : Nat) (p : Nat → Nat × Nat) :
    State × Option (List Nat × Option Nat) :=
  let taps := gridTaps tbase w feats p
  match s.fetchAll stack core asid part um (2 * feats) (taps.map (·.1)) with
  | (s, none) => (s, none)
  | (s, some rs) =>
    let es := (taps.map (·.2)).zip rs
    let den := (taps.map (fun e => e.2.2)).headD 1
    let feature := fun j => weighted fmtBf den (es.map (fun e => (e.1.1, Flt.ofBits fmtBf (byteField e.2.1 (2 * j) 2))))
    (s, some ((List.range feats).map feature, (es.filter (fun e => decide (e.1.1 ≠ 0))).findSome? (fun e => e.2.2)))

/-- Serve HGRID at a sill: operands are the position and, level by level, TBASE and the word above it, 0 in both for a
level that the grid lacks. -/
def State.serveGrid (s : State) (stack core asid part : Nat) (um : Bool) (f : LF) (ops : List Word) : State × Filtered :=
  let op := fun i => (ops.getD i 0)
  let feats := hgridF f
  let regs := ceilDiv (hgridM f * feats) 4
  let p := fun k => if k = 0 then clampTo 1 (fld (op 0) 0 32) else if k = 1 then clampTo 1 (fld (op 0) 32 32) else clampTo 1 (fld (op 1) 0 32)
  let go := (List.range (hgridM f)).foldl (fun (acc : State × Option (List Nat × Option Nat)) q =>
    match acc.2 with
    | none => acc
    | some (fs, bad) =>
      let w := (op (2 * q + 3)).toNat
      if w = 0 then (acc.1, some (fs ++ List.replicate feats 0, bad))
      else match acc.1.gridLevel stack core asid part um feats (op (2 * q + 2)).toNat w p with
        | (s, some r) => (s, some (fs ++ r.1, bad.or r.2))
        | (s, none) => (s, none)) (s, some ([], none))
  match go with
  | (s, none) => (s, ⟨gridFill regs, none⟩)
  | (s, some (fs, bad)) =>
    let reg := fun k => packElems 16 ((List.range 4).map (fun j => fs.getD (4 * k + j) 0))
    (s, if bad.isSome then ⟨gridFill regs, bad⟩ else ⟨(List.range regs).map reg, none⟩)

/-! ### Issue -/

/-- What the cluster finds for one lane: the fill, or the sill and the request's operands. -/
inductive FilterCase where
  | fill
  | send (home : Nat) (ops : List Word)
deriving DecidableEq, Repr

/-- SAMPLE in one lane (R412). -/
def sampleCase (s : State) (c : LaneCtx) (f : LF) (lane : Nat) : State × FilterCase :=
  match s.objectEntry s.gid (s.asidOf c.g) (!c.r.sup) 2 (fld (c.c f lane) 0 32) with
  | (s, none) => (s, .fill)
  | (s, some bs) =>
    let w := fun i => byteField bs (8 * i) 8
    match textureOf (w 0) (w 1) (w 2) (w 3) with
    | none => (s, .fill)
    | some t =>
      let at_ : Nat → Word := fun i => BitVec.ofNat 64 (w i)
      (s, .send t.home [c.a f lane, if f.b = 244 then 0 else c.b f lane, at_ 0, at_ 1, at_ 2])

/-- HGRID in one lane (R412). -/
def gridCase (s : State) (c : LaneCtx) (f : LF) (lane : Nat) : State × FilterCase :=
  let asid := s.asidOf c.g
  match s.objectEntry s.gid asid (!c.r.sup) 3 (fld (c.c f lane) 0 32) with
  | (s, none) => (s, .fill)
  | (s, some bs) =>
    let w := fun i => byteField bs (8 * i) 8
    match gridOf (w 0) (w 1) (decide ((List.range 6).all (fun i => w (i + 2) = 0))) with
    | none => (s, .fill)
    | some g =>
      if g.feats ≠ hgridF f then (s, .fill)
      else
        let first := fld f.imm 0 4
        let (s, ls) := (List.range (hgridM f)).foldl (fun (acc : State × Option (List Word)) q =>
          match acc.2 with
          | none => acc
          | some ws =>
            if g.levels ≤ first + q then (acc.1, some (ws ++ [0, 0]))
            else match acc.1.objectRead s.cur.core asid (!c.r.sup) ((g.levtab + 16 * (first + q)) % 2 ^ 64) 16 with
              | (s, none) => (s, none)
              | (s, some bs) =>
                if gridLevelOk (byteField bs 0 8) (byteField bs 8 8) then
                  (s, some (ws ++ [BitVec.ofNat 64 (byteField bs 0 8), BitVec.ofNat 64 (byteField bs 8 8)]))
                else (s, none)) (s, some [])
        match ls with
        | none => (s, .fill)
        | some ws => (s, .send g.home ([c.a f lane, c.reg f (f.a.toNat + 1) lane] ++ ws))

/-- Write a block in some lanes at once, full, and count them as landed by a producer; ZERO discards it (R31). -/
def State.fillBlock (s : State) (pid d : Nat) (sup : Bool) (lanes : List Nat) (ws : List Word) : State :=
  let put := fun (g : Group) l =>
    ((List.range ws.length).zip ws).foldl (fun g k =>
      if 232 ≤ d then g else (g.setV sup (d + k.1) l k.2).setVEmpty sup (d + k.1) l false) g
  let done := lanesOf (fun l => lanes.contains l)
  s.updGroup s.gid (fun g =>
    let g := lanes.foldl put g
    { g with replay := FMap.upd g.replay pid (fun q => { q with landed := q.landed ||| done }) }.retire pid)

/-- Issue a filter instruction: lanes whose object fails are filled at once, the others send a request each (R244, R245,
R412). -/
def filterInsn (nb : Nat) (f : LF) (regs : Nat) (one : State → LaneCtx → Nat → State × FilterCase) (fill : List Word) (s : State) :
    Answer :=
  guarded (if nb = 0 then 2 else 1) nb 1 f (fun c =>
    if c.act = 0 then s.issued 1
    else if c.g.replayFull ∨ s.acquiring s.gid s.cur.place then s.suspend
    else
      let (s, cases) := (lanesIn c.act).foldl (fun (acc : State × List (Nat × FilterCase)) l =>
        let (s, k) := one acc.1 c l
        (s, acc.2 ++ [(l, k)])) (s, [])
      let q : Producer := mkProducer .filter false s.cur.place c.i.bits c.i.idx (if 232 ≤ f.d.toNat then .none else .lanes f.d.toNat regs c.r.sup) c.act
      let q := { q with opA := captured c.act (c.a f), opB := if nb = 0 then [] else captured c.act (c.b f), opC := captured c.act (c.c f) }
      let (s, pid) := s.addProducer { q with sent := true, um := !c.r.sup }
      let slack := slackOf c.g c.p f.sk
      let s := s.fillBlock pid f.d.toNat c.r.sup ((cases.filter (fun e => decide (e.2 = .fill))).map (·.1)) fill
      let send := fun (s : State) (e : Nat × FilterCase) =>
        match e.2 with
        | .fill => s
        | .send home ops =>
          let b := Body.filter pid e.1 (!c.r.sup) (fld (c.c f e.1) 0 32) ops c.i.bits
          let p := mkPacket s.gid s.cur.place (corePort s.cur.core) slack 0 (s.partOf c.g) 2 b
          s.send p (.cluster (clusterOf s.cur.core)) (pathToSill s.cur.core home)
      (cases.foldl send s).issued 1) s

/-- SAMPLE (R243, R244). -/
def execLSample (f : LF) (s : State) : Answer :=
  let c4 := f.md.getLsbD 3
  filterInsn 1 f (if c4 then 2 else 1) (fun s c l => sampleCase s c f l) (sampleFill c4) s

/-- HGRID (R245). -/
def execLHgrid (f : LF) (s : State) : Answer :=
  let regs := ceilDiv (hgridM f * hgridF f) 4
  filterInsn 0 f regs (fun s c l => gridCase s c f l) (gridFill regs) s

/-- A filter instruction would wait if it issued now (R278, R349, R372). -/
def filterWaits (i : Instr) (s : State) : Bool :=
  match i with
  | .lSample f | .lHgrid f => (s.laneActor f).any (fun (c : LaneCtx) =>
      decide (c.act ≠ 0) && (c.g.replayFull || s.acquiring s.gid s.cur.place))
  | _ => false

/-! ### Service -/

/-- The filter request that a sill serves next: least slack, then earliest arrival (R412). -/
def State.nextFilter (s : State) (stack : Nat) : Option (Nat × Packet) :=
  let mine := s.pkts.filter (fun e => decide (e.2.atSill = some stack) && (match e.2.body with | .filter _ _ _ _ _ _ => true | _ => false))
  minBy (fun a b => decide (a.2.slack < b.2.slack) || (decide (a.2.slack = b.2.slack) && decide (a.2.arrived < b.2.arrived))) mine

/-- FILTER_REQUEST: the sill serves one lane's request and replies (R90, R91, R412). -/
def execEvFilterRequest (stack : Nat) (s : State) : Answer :=
  match s.nextFilter stack with
  | none => .next s
  | some (id, p) =>
    match p.body with
    | .filter pid lane um _ ops insn =>
      let core := coreOfGid p.gid
      let asid := s.asidOfGid p.gid
      let s := { s with pkts := FMap.del s.pkts id }
      if (FMap.get s.groups p.gid).isNone ∨ p.place = 9 then .next s
      else
        let (s, r) := match decodeLane insn.toNat with
          | some (.lSample f) => s.serveSample stack core asid p.part um f ops
          | some (.lHgrid f) => s.serveGrid stack core asid p.part um f ops
          | _ => (s, ⟨[], none⟩)
        let vals := ((List.range r.regs.length).zip r.regs).map (fun e => (lane, e.1, e.2))
        let vals := vals ++ r.poison.toList.map (fun va => (lane, 31, BitVec.ofNat 64 va))
        let body := Body.reply pid vals (if r.poison.isSome then laneBit lane else 0) 0 (laneBit lane)
        let q := { mkPacket p.gid p.place 0 p.slack 1 p.part (1 + ceilDiv (8 * r.regs.length) 32) body with late := p.late }
        .next (s.depart q (.sill stack) (pathFromSill stack core))
    | _ => .next s

end Sys2Proof.Machine
end

