-- ==== Sys2Proof/Machine/LaneMem.lean ====
section
/-! DEFINITION. Lane accesses to memory, scratchpad and window, atomics, hods from lane code, TRAPIF and LNOP: L-code row
0x1C0 and 0x3C0 (R205 to R221, R372, R379). -/

namespace Sys2Proof.Machine

/-! ### Addresses, lanes and holds -/

/-- The address or offset of a lane's access (R110, R205, R207, R210, R211). -/
def Shape.addr (sh : Shape) (c : LaneCtx) (lane : Nat) : Word :=
  let o := c.a sh.fields lane + BitVec.ofInt 64 sh.off
  let o := if sh.planes ≠ 0 then o + BitVec.ofNat 64 (8 * lane) else o
  match sh.room with
  | .memory => (c.g.getX sh.x).vb + o
  | _ => o

/-- The lanes that perform an access (R207, R208, R213). -/
def Shape.performs (sh : Shape) (c : LaneCtx) : Lanes :=
  match sh.deed with
  | .load => if sh.planes = 0 then c.act else c.act &&& lanesOf (fun l => decide (l < sh.planes))
  | _ => c.real

/-- The most members of a list of scratchpad words that lie in one bank (R210). -/
def worstBank (ws : List Nat) : Nat :=
  ((List.range 32).map (fun b => (ws.filter (fun w => decide (w % 32 = b))).length)).foldl max 1

/-- The lines, or the scratchpad words, that a lane access touches, each with its unit where it is a scratchpad word. -/
def Shape.touched (sh : Shape) (c : LaneCtx) : List (Nat × Nat) :=
  let as := (lanesIn (sh.performs c)).map (fun l => (sh.addr c l).toNat)
  match sh.room with
  | .memory => dedup (as.map (fun a => (0, a / 128)))
  | .scratchpad => dedup (as.map (fun a => (c.g.uid, a / 8)))
  | .window => []

/-- Core cycles for what an access touches: a line each, or the words of the worst bank (R210, R220). -/
def Shape.cyclesOf (sh : Shape) (ts : List (Nat × Nat)) : Nat :=
  match sh.room with
  | .memory => max 1 ts.length
  | .scratchpad => worstBank (ts.map (·.2))
  | .window => 1

/-- Core cycles that a lane access holds its slot (R220). -/
def Shape.cycles (sh : Shape) (c : LaneCtx) : Nat := sh.cyclesOf (sh.touched c)

/-- Core cycles that a pair holds its slot for an instruction that it issues in these states: the lanes of both groups form one
set (R278). -/
def jointHold (i : Instr) (ss : List State) : Nat :=
  match shapeOf i with
  | none => 0
  | some sh => sh.cyclesOf (dedup (ss.flatMap (fun s => match s.laneActor sh.fields with | some c => sh.touched c | none => [])))

/-! ### Waits before issue -/

/-- Some lane's access goes to an SO page (R350): the leaf of the fast path or of the TLB path, with nothing marked. -/
def Shape.touchesSo (sh : Shape) (c : LaneCtx) (s : State) : Bool :=
  let x := c.g.getX sh.x
  decide (sh.room = .memory) && (lanesIn (sh.performs c)).any (fun l =>
    let va := sh.addr c l
    let o := (va - x.vb).toInt
    if 0 ≤ o ∧ o + sh.size ≤ x.lim.toNat then decide (accessKind x.pte va.toNat = 1)
    else match s.probe s.cur.core (s.asidOf c.g) va.toNat .read (!c.r.sup) with
      | .ok (leaf, _) => decide (accessKind leaf va.toNat = 1)
      | .error _ => false)

/-- A window access needs a register line that is absent, and none may be evicted for it (R293). -/
def Shape.wantsLine (sh : Shape) (c : LaneCtx) (s : State) : Bool :=
  decide (sh.room = .window) && (s.unitOf c.g).any (fun u => s.linesFull s.cur.core u &&
    (lanesIn (sh.performs c)).any (fun l => (FMap.get c.g.lines (u.windowLine (sh.addr c l).toNat)).isNone))

/-- A lane access waits before it issues: for a free replay entry (R372), for room in the register region (R293), after an acquire
(R342, R349), as a release (R341), after an SO access (R350). A dovetail run keeps the last three for memory by holding its accesses
back (R379). DESIGN CHOICE: an ATOMS that releases is performed as it issues in a dovetail run too, whose earlier stores R379 holds back
until its end (log entry 102). -/
def Shape.waits (sh : Shape) (c : LaneCtx) (s : State) : Bool :=
  decide (sh.performs c ≠ 0) && (c.g.replayFull || sh.wantsLine c s ||
    (decide (sh.room ≠ .memory) && s.acquiring s.gid s.cur.place) ||
    (c.r.dove.isNone && (s.acquiring s.gid s.cur.place || (sh.releases && s.outstanding s.gid s.cur.place) ||
      (s.soOutstanding s.gid s.cur.place && sh.touchesSo c s))))

/-! ### Dovetail signatures -/

/-- What the stores of a scratchpad or window access change (R379). -/
def Shape.undo (sh : Shape) (c : LaneCtx) (u : UnitRec) : List Undo :=
  if sh.deed = .load ∨ sh.room = .memory then []
  else ((lanesIn (sh.performs c)).map (fun l =>
    let o := (sh.addr c l).toNat
    (List.range sh.size).flatMap (fun i =>
      if sh.room = .window then
        [⟨1, 2048 * l + o + i, (FMap.rd 0 c.g.win (2048 * l + o + i)).toNat⟩,
         ⟨4, (2048 * l + o + i) / 8, if FMap.rd false c.g.winBad ((2048 * l + o + i) / 8) then 1 else 0⟩]
      else [⟨0, o + i, (FMap.rd 0 u.scratch (o + i)).toNat⟩,
            ⟨3, (o + i) / 8, if FMap.rd false u.scrPoison ((o + i) / 8) then 1 else 0⟩]))).flatten

/-- The signature after a store or an atomic of a run (R379). -/
def Shape.sign (sh : Shape) (c : LaneCtx) (crc : BitVec 32) : BitVec 32 :=
  if sh.deed = .load then crc
  else (lanesIn (sh.performs c)).foldl (fun crc l => crcStore crc (sh.addr c l).toNat sh.size (c.c sh.fields l).toNat) crc

/-- What a dovetail run keeps after an access: its signature, the packets held since `next`, what to undo. -/
def Dove.add (d : Dove) (crc : BitVec 32) (pkts : List Nat) (us : List Undo) : Dove :=
  { d with crc := crc, pkts := d.pkts ++ pkts, undo := us.reverse ++ d.undo }

/-- Keep it with the acting run. -/
def State.keepDove (s : State) (f : Dove → Dove) : State :=
  s.onSplit (fun p => { p with running := p.running.map (fun r => { r with dove := r.dove.map f }) })

/-! ### Issue -/

/-- The replay-queue entry of a lane access (R371): address, compare value or store data, operand, and the bytes that
R208 leaves to each lane of a store. -/
def Shape.producer (sh : Shape) (c : LaneCtx) (place : Nat) : Producer :=
  let f := sh.fields
  let go := sh.performs c
  let dest := if sh.deed = .store ∨ 232 ≤ f.d.toNat then Dest.none else .lanes f.d.toNat 1 c.r.sup
  let mask := if sh.deed = .store then go else c.act
  let opA := captured go (sh.addr c)
  let opB := match sh.deed with
    | .store => captured go (c.c f)
    | .atomic => if sh.op = 7 then captured go (fun l => c.reg f f.d.toNat l) else []
    | .load => []
  let opC := if sh.deed = .atomic then captured go (c.c f) else []
  let bytes := if sh.deed = .store then captured go (fun l => BitVec.ofNat 64 (bytesLeft opA (lanesIn go) sh.size l)) else []
  let vals := (lanesIn c.act).foldl (fun m l => FMap.wr 0 m (1024 + l) (c.a f l)) bytes
  { mkProducer .access false place c.i.bits c.i.idx dest mask with opA := opA, opB := opB, opC := opC, vals := vals, um := !c.r.sup }

/-- Lanes whose destination takes 0 at once: helper lanes of an atomic, lanes past the last plane (R207, R213). -/
def Shape.zeroed (sh : Shape) (c : LaneCtx) : Lanes := if sh.deed = .store then 0 else c.act &&& ~~~sh.performs c

/-- Set those lanes' destinations to 0, full, and count them as landed. -/
def State.zeroLanes (s : State) (pid d : Nat) (sup : Bool) (lanes : Lanes) : State :=
  if lanes = 0 then s
  else s.updGroup s.gid (fun g =>
    let g := if 232 ≤ d then g else (lanesIn lanes).foldl (fun g l => (g.setV sup d l 0).setVEmpty sup d l false) g
    { g with replay := FMap.upd g.replay pid (fun q => { q with landed := q.landed ||| lanes }) }.retire pid)

/-- The access faults in some lanes (class F of R365): the others have performed theirs, the run stops after it. -/
def State.faultLane (s : State) (hold cause : Nat) (tval : Word) (lanes : Lanes) : State :=
  (s.stopAfter hold).laneTrap .F cause tval lanes

/-- Issue a lane access (R206 to R213). -/
def laneAccess (sh : Shape) (c : LaneCtx) (s : State) : State :=
  let hold := sh.cycles c
  if c.act = 0 then s.issued hold
  else
    let q := sh.producer c s.cur.place
    let dove := match c.r.dove with | none => 0 | some d => if d.pkts.isEmpty then 1 else 2
    let next := s.nextPkt
    let us := match s.unitOf c.g with | some u => sh.undo c u | none => []
    let (s, pid) := s.addProducer q
    let s := s.zeroLanes pid sh.fields.d.toNat c.r.sup (sh.zeroed c)
    let (s, fs) := issueLanes s s.gid s.cur.place pid sh true dove (lanesIn (sh.performs c))
    let s := s.keepDove (fun d => d.add (sh.sign c d.crc) (s.heldSince next) us)
    let s := if sh.acquires ∧ sh.room = .scratchpad then s.acquire sh.scope (decide (sh.stor / 2 % 2 = 1)) false else s
    if fs.isEmpty then
      (if sh.deed = .store then s.updGroup s.gid (fun g => { g with replay := FMap.del g.replay pid }) else s).issued hold
    else s.faultLane hold ((fs.map (·.2)).headD 0) (faultValue q fs) (faultLanes fs)

/-- A lane memory instruction: EMPTYREAD, then its waits, then its access. -/
def memInsn (sh : Shape) (f : LF) (s : State) : Answer :=
  guarded 1 0 (if sh.deed = .load then 0 else 1) f (fun c => if sh.waits c s then s.suspend else laneAccess sh c s) s

/-- LD (R206, R207, R209). -/
def execLLd (f : LF) (s : State) : Answer := memInsn (plainShape .memory .load f) f s
/-- LD.planes (R207). -/
def execLLdPlanes (f : LF) (s : State) : Answer :=
  memInsn { plainShape .memory .load f with size := 8, signed := false, planes := planeLanes f } f s
/-- ST (R208). -/
def execLSt (f : LF) (s : State) : Answer := memInsn (plainShape .memory .store f) f s
/-- LDS (R210). -/
def execLLds (f : LF) (s : State) : Answer := memInsn (plainShape .scratchpad .load f) f s
/-- STS (R210). -/
def execLSts (f : LF) (s : State) : Answer := memInsn (plainShape .scratchpad .store f) f s
/-- LDP (R211). -/
def execLLdp (f : LF) (s : State) : Answer := memInsn (plainShape .window .load f) f s
/-- STP (R211). -/
def execLStp (f : LF) (s : State) : Answer := memInsn (plainShape .window .store f) f s
/-- ATOM (R212 to R214). -/
def execLAtom (f : LF) (s : State) : Answer := memInsn (atomShape .memory f) f s
/-- ATOMS (R212 to R214). -/
def execLAtoms (f : LF) (s : State) : Answer := memInsn (atomShape .scratchpad f) f s

/-! ### Hods from lane code (R216, R217) -/

/-- HODFAULT of HPUSH or HPOP, with TVAL: nothing where the hod may be used. -/
def hodLaneFault (u : UnitRec) (hn : Nat) (producer : Bool) (off : Nat) (act : Lanes) : Option Word :=
  match FMap.get u.hods hn with
  | none => some 0
  | some h =>
    let high := (lanesIn act).foldl max 0
    match producer, h.fault with
    | false, some (_, va) => some va
    | _, _ => if h.owned producer ∨ h.slotb < off + 8 * high + 8 ∨ off % 8 ≠ 0 then some 0 else none

/-- The hod an instruction names, in its unit. -/
def LaneCtx.hodOf (c : LaneCtx) (s : State) (f : LF) : Option (UnitRec × Hod) :=
  (s.unitOf c.g).bind (fun u => (FMap.get u.hods f.b.toNat).map (fun h => (u, h)))

/-- What HPUSH changes in the scratchpad and at the hod (R379). -/
def pushUndo (u : UnitRec) (hn : Nat) (h : Hod) (os : List Nat) : List Undo :=
  ⟨2, hn, h.p.toNat⟩ :: os.flatMap (fun o =>
    ⟨3, o / 8, if FMap.rd false u.scrPoison (o / 8) then 1 else 0⟩ ::
      (List.range 8).map (fun i => ⟨0, o + i, (FMap.rd 0 u.scratch (o + i)).toNat⟩))

/-- HPUSH (R216): it waits for an acquire that has not read (R342, R349), then for room. -/
def execLHpush (f : LF) (s : State) : Answer :=
  guarded 0 0 1 f (fun c =>
    if c.act = 0 then s.issued 1
    else if s.acquiring s.gid s.cur.place then s.suspend
    else
      let off := f.imm.toNat
      match (s.unitOf c.g).map (fun u => hodLaneFault u f.b.toNat true off c.act), c.hodOf s f with
      | some none, some (u, h) =>
        if h.room = 0 then s.suspend
        else
          let at_ := fun l => h.slotAt h.p + off + 8 * l
          let put := fun (u : UnitRec) l => u.scrPut (at_ l) (bytesOf 8 (c.c f l).toNat)
          let s := s.updUnit c.g.uid (fun u => (lanesIn c.real).foldl put u)
          let s := if f.md = 0 then s.updHod c.g.uid f.b.toNat (fun h => { h with p := h.p + 1 }) else s
          let sign := fun crc => (lanesIn c.real).foldl (fun crc l => crcStore crc (at_ l) 8 (c.c f l).toNat) crc
          (s.keepDove (fun d => d.add (sign d.crc) [] (pushUndo u f.b.toNat h ((lanesIn c.real).map at_)))).issued 1
      | some (some va), _ => s.laneTrap .P cHODFAULT va c.act
      | _, _ => s.laneTrap .P cHODFAULT 0 c.act) s

/-- HPOP (R217): its data arrives when the hod holds a slot; it waits for an atomic's acquire that has not read (R349). -/
def execLHpop (f : LF) (s : State) : Answer :=
  laneInsn f (fun c =>
    if c.act = 0 then s.issued 1
    else
      match (s.unitOf c.g).map (fun u => hodLaneFault u f.b.toNat false f.imm.toNat c.act) with
      | some none =>
        if c.g.replayFull ∨ s.asksAcquire s.gid s.cur.place then s.suspend
        else
          let dest := if 232 ≤ f.d.toNat then Dest.none else .lanes f.d.toNat 1 c.r.sup
          let kind := ProdKind.hpop f.b.toNat f.imm.toNat (decide (f.md ≠ 0))
          let q := { mkProducer kind false s.cur.place c.i.bits c.i.idx dest c.act with um := !c.r.sup }
          (s.addProducer q).1.issued 1
      | some (some va) => s.laneTrap .P cHODFAULT va c.act
      | none => s.laneTrap .P cHODFAULT 0 c.act) s

/-! ### TRAPIF and LNOP -/

/-- TRAPIF (R218): class A in the lanes whose A is, or for Z is not, different from 0. -/
def execLTrapif (f : LF) (s : State) : Answer :=
  guarded 1 0 0 f (fun c =>
    let t := c.act &&& lanesOf (fun l => decide (c.a f l ≠ 0) != decide (f.md = 1))
    if t = 0 then s.issued 1 else s.laneTrapAfter 1 (fld f.imm 0 8) (BitVec.ofNat 64 (fld f.imm 8 16)) t) s

/-- LNOP (R219). -/
def execLLnop (f : LF) (s : State) : Answer := laneInsn f (fun _ => s.issued (1 + f.imm.toNat)) s

/-- A memory or hod instruction would wait if it issued now (R216, R278, R372). -/
def memWaits (i : Instr) (s : State) : Bool :=
  match shapeOf i with
  | some sh => (s.laneActor sh.fields).any (fun c => !c.emptyRead sh.fields 1 0 (if sh.deed = .load then 0 else 1) && sh.waits c s)
  | none =>
    match i with
    | .lHpush f => (s.laneActor f).any (fun c => decide (c.act ≠ 0) && (s.acquiring s.gid s.cur.place || (c.hodOf s f).any (fun x => decide (x.2.room = 0))))
    | .lHpop f => (s.laneActor f).any (fun c => decide (c.act ≠ 0) && (c.g.replayFull || s.asksAcquire s.gid s.cur.place))
    | _ => false

end Sys2Proof.Machine
end

