-- ==== Sys2Proof/Machine/Bx.lean ====
section
/-! DEFINITION. Block formats: superblocks, decoding, quantisation and exact reduction (R80 to R84, R93, R95). -/

namespace Sys2Proof.Machine

/-- Words of a superblock (R81). -/
def bxWords (ty : Nat) : Nat := 2 + bxBits ty

/-- E of block b, from word 0. -/
def bxE (w0 : Word) (b : Nat) : Nat := fld w0 (32 + 8 * b) 8
/-- The step of quad j, from word 0. -/
def bxStep (w0 : Word) (j : Nat) : Nat := fld w0 (2 * j) 2

/-- The magnitude of element i from its first k planes (R82). -/
def bxMag (words : Nat → Word) (k i : Nat) : Nat :=
  (List.range k).foldl (fun m q => 2 * m + (if bitOf (words (2 + q)) i then 1 else 0)) 0

/-- The value of element i read at k planes (R82, R84). -/
def bxValue (words : Nat → Word) (k i : Nat) : Flt :=
  let e := bxE (words 0) (i / 16)
  if e = 255 then .nan
  else
    let m := bxMag words k i
    let neg := bitOf (words 1) i
    if m = 0 then .fin neg 0 1
    else Flt.ldexp (.fin neg m 1) ((e : Int) - 127 - (k - 1 : Nat) - bxStep (words 0) (i / 4))

/-- A quantised block (R83). -/
structure Block where
  e : Nat
  ts : List Nat
  ss : List Bool
  ms : List Nat
deriving DecidableEq, Repr

/-- The block of 16 NaNs. -/
def nanBlock : Block := ⟨255, [0, 0, 0, 0], List.replicate 16 false, List.replicate 16 0⟩

/-- |x| of a value with infinities at 2^128 − 2^104 (R83). -/
def magOf : Flt → Nat × Nat
  | .nan => (0, 1)
  | .inf _ => (2 ^ 128 - 2 ^ 104, 1)
  | .fin _ a b => (a, b)

/-- The greatest of some magnitudes. -/
def maxMag (xs : List (Nat × Nat)) : Nat × Nat :=
  xs.foldl (fun m x => if ratLe x.1 x.2 m.1 m.2 then m else x) (0, 1)

/-- rne(|x| / 2^(E − 127 − (mbits − 1) − t)). -/
def bxRne (mb e t : Nat) (x : Nat × Nat) : Nat :=
  let p := unscale x.1 x.2 ((e : Int) - 127 - (mb - 1 : Nat) - t)
  (roundInt 0 false p.1 p.2).natAbs

/-- Quantise 16 values (R83). -/
def quantise (mb : Nat) (xs : List Flt) : Block :=
  if xs.any (fun x => x = .nan) then nanBlock
  else
    let mmax := 2 ^ mb - 1
    let mags := xs.map magOf
    let amax := maxMag mags
    let e := if amax.1 = 0 then 0 else (min (max (floorLog2 amax.1 amax.2 + 127) 0) 254).toNat
    let ts := (List.range 4).map (fun q =>
      let qmax := maxMag ((mags.drop (4 * q)).take 4)
      (List.range 3).foldl (fun t u => if bxRne mb e (u + 1) qmax ≤ mmax then u + 1 else t) 0)
    let ms := (List.range 16).map (fun i => min (bxRne mb e (ts.getD (i / 4) 0) (mags.getD i (0, 1))) mmax)
    ⟨e, ts, xs.map Flt.neg?, ms⟩

/-- Word q of the superblock of four blocks (R81). -/
def bxWord (mb : Nat) (bs : List Block) (q : Nat) : Word :=
  let blk := fun k => bs.getD k nanBlock
  if q = 0 then
    BitVec.ofNat 64 ((List.range 4).foldl (fun a b => a + (blk b).e * 2 ^ (32 + 8 * b)) 0 +
      (List.range 16).foldl (fun a j => a + (blk (j / 4)).ts.getD (j % 4) 0 * 4 ^ j) 0)
  else if q = 1 then
    BitVec.ofNat 64 ((List.range 64).foldl (fun a i => if (blk (i / 16)).ss.getD (i % 16) false then a + 2 ^ i else a) 0)
  else
    BitVec.ofNat 64 ((List.range 64).foldl (fun a i =>
      if (blk (i / 16)).ms.getD (i % 16) 0 / 2 ^ (mb - 1 - (q - 2)) % 2 = 1 then a + 2 ^ i else a) 0)

/-- The aligned integer of element i at scale 2^(Emax − 127 − 24) (R93). -/
def bxAlign (mb : Nat) (words : Nat → Word) (emax i : Nat) : Int :=
  if emax = 255 then 0
  else
    let m := bxMag words mb i
    let sh : Int := 24 - (mb - 1 : Nat) - bxStep (words 0) (i / 4) - ((emax : Int) - bxE (words 0) (i / 16))
    let mag := if 0 ≤ sh then min (m * 2 ^ sh.toNat) (2 ^ 31 - 1) else m / 2 ^ (-sh).toNat
    if bitOf (words 1) i then -(mag : Int) else mag

/-- A block from summed integers (R95). -/
def bxNorm (mb emax : Nat) (xs : List Int) : Block :=
  if emax = 255 then nanBlock
  else quantise mb (xs.map (fun x => Flt.ldexp (.fin (decide (x < 0)) x.natAbs 1) ((emax : Int) - 127 - 24)))

end Sys2Proof.Machine
end

