-- ==== Sys2Proof/Machine/Matrix.lean ====
section
/-! DEFINITION. The matrix array: L-code row 0x240, BANK_LOAD, BANK_RELATCH and MATRIX_ACCEPT (R222 to R236). -/

namespace Sys2Proof.Machine

/-! ### Formats (R223, R224) -/

/-- Class of a weight format: 0 of 16 bits, 1 of 8 bits, 2 of 4 bits. -/
def matClass (ty : Nat) : Nat := if ty = 10 ∨ ty = 11 then 0 else if ty = 14 ∨ ty = 15 then 2 else 1

/-- K of a format. -/
def matK (ty : Nat) : Nat := if matClass ty = 0 then 64 else if matClass ty = 1 then 128 else 256

/-- A BX format. -/
def matBx (ty : Nat) : Bool := decide (14 ≤ ty)

/-- NR: the registers of an A row, and the 8-byte words of a weight column. -/
def matNr (ty : Nat) : Nat := if matBx ty then matK ty / 64 * bxWords ty else 16

/-- The elements of a row or a column from its words (R224). -/
def matRow (ty : Nat) (w : Nat → Word) : List Flt :=
  if matBx ty then
    ((List.range (matK ty / 64)).map (fun s =>
      (List.range 64).map (bxValue (fun q => w (bxWords ty * s + q)) (bxBits ty)))).flatten
  else
    let n := tyCount ty
    ((List.range 16).map (fun r => (List.range n).map (fun e => Flt.ofBits (fmtOf ty) (elem (64 / n) (w r) e)))).flatten

/-! ### Weight tiles (R225, R227) -/

/-- Bytes of a latched image as a little-endian number. -/
def Bank.at_ (b : Bank) (o n : Nat) : Nat := natOfBytes ((List.range n).map (fun i => FMap.rd 0 b.image (o + i)))

/-- Column groups of a sparse tile: 64/C. -/
def matGroups (ty : Nat) : Nat := 64 / (matK ty / 16)

/-- The column group of a column. -/
def matGroup (ty n : Nat) : Nat := n / (128 / matGroups ty)

/-- The live chunks of a column under LIVE. -/
def liveChunks (ty live n : Nat) : List Nat :=
  (List.range (matK ty / 16)).filter (fun c => decide (live / 2 ^ (c * matGroups ty + matGroup ty n) % 2 = 1))

/-- Records of a sparse image. -/
def liveRecords (ty live : Nat) : Nat := ((List.range 128).map (fun n => (liveChunks ty live n).length)).sum

/-- Bytes of an image. -/
def imageBytes (d : BankDesc) (live : Nat) : Nat :=
  let sc := if d.sc then 512 else 0
  if d.sparse then 64 + sc + 32 * liveRecords d.ty live else 128 * (8 * matNr d.ty) + sc

/-- Position of kept weight j of a record in its group of 4. -/
def recPos (r j : Nat) (bx : Bool) (ty : Nat) : Nat :=
  let idx := if bx then 16 else if matClass ty = 0 then 128 else 64
  r / 2 ^ (idx + 2 * j) % 4

/-- Kept weight j of a record (R227). -/
def recWeight (ty r j : Nat) : Flt :=
  if matBx ty then
    let mb := bxBits ty
    let e := r % 256
    let m := r / 2 ^ (40 + mb * j) % 2 ^ mb
    let t := r / 2 ^ (8 + 2 * (j / 2)) % 4
    let neg := decide (r / 2 ^ (32 + j) % 2 = 1)
    if e = 255 then .nan
    else if m = 0 then .fin neg 0 1
    else Flt.ldexp (.fin neg m 1) ((e : Int) - 127 - (mb - 1 : Nat) - t)
  else
    let w := (fmtOf ty).width
    Flt.ofBits (fmtOf ty) (r / 2 ^ (w * j) % 2 ^ w)

/-- A record's zero bytes hold 0 and its positions rise within each group. -/
def recOk (ty r : Nat) : Bool :=
  let used := if matBx ty then 5 + bxBits ty else if matClass ty = 0 then 18 else 10
  decide (r / 2 ^ (8 * used) = 0) && (List.range 4).all (fun q =>
    decide (recPos r (2 * q) (matBx ty) ty < recPos r (2 * q + 1) (matBx ty) ty))

/-- The 16 weights of a chunk from its record: none where no weight is kept. -/
def recChunk (ty r : Nat) : List (Option Flt) :=
  (List.range 16).map (fun k =>
    match (List.range 8).find? (fun j => decide (4 * (j / 2) + recPos r j (matBx ty) ty = k)) with
    | some j => some (recWeight ty r j)
    | none => none)

/-- The chunks of column n: none for a dead one. -/
def Bank.column (b : Bank) (n : Nat) : List (Option (List (Option Flt))) :=
  let ty := b.desc.ty
  if b.desc.sparse then
    let live := b.at_ 0 8
    let base := 64 + (if b.desc.sc then 512 else 0)
    let before := ((List.range n).map (fun n => (liveChunks ty live n).length)).sum
    let cs := liveChunks ty live n
    (List.range (matK ty / 16)).map (fun c =>
      match cs.findIdx? (fun x => x = c) with
      | some i => some (recChunk ty (b.at_ (base + 32 * (before + i)) 32))
      | none => none)
  else
    let nr := matNr ty
    let es := matRow ty (fun q => BitVec.ofNat 64 (b.at_ (8 * nr * n + 8 * q) 8))
    (List.range (matK ty / 16)).map (fun c => some (((es.drop (16 * c)).take 16).map some))

/-- Column scale n. -/
def Bank.scale (b : Bank) (n : Nat) : Flt :=
  Flt.ofBits fmt32 (b.at_ ((if b.desc.sparse then 64 else 1024 * matNr b.desc.ty) + 4 * n) 4)

/-! ### Latching (R226, R228) -/

/-- Change a bank of a core. -/
def State.setBank (s : State) (core bank : Nat) (b : Bank) : State :=
  s.setCore core { s.core core with banks := FMap.put (s.core core).banks bank b }

/-- The image of a descriptor in a unit's scratchpad, latched: invalid for a poisoned word or a broken record. DESIGN CHOICE:
of an image that the program has changed since its WLD, R228 lets each 32-byte piece be the old or the changed one; the whole
image is taken here as it stands at BANK_LOAD or BANK_RELATCH (log entry 93). -/
def latchTile (uid : Nat) (u : UnitRec) (d : BankDesc) : Bank :=
  let live := u.scrAt d.off 8
  let n := imageBytes d live
  let image : FMap Byte := (List.range n).foldl (fun m i => FMap.wr 0 m i (FMap.rd 0 u.scratch (d.off + i))) []
  let b : Bank := ⟨uid, d, image, true, false⟩
  let base := 64 + (if d.sc then 512 else 0)
  let good := !u.scrBad d.off n && (!d.sparse || (decide (b.at_ 8 56 = 0) &&
    (List.range (liveRecords d.ty live)).all (fun i => recOk d.ty (b.at_ (base + 32 * i) 32))))
  { b with valid := good }

/-- Whether an instruction's row block comes from the latch (R232). -/
def LaneCtx.latched (c : LaneCtx) (f : LF) : Bool := c.r.latch.any (fun l => decide (l.a = f.a))

/-- The descriptor that WLD or WLDS makes (R226). -/
def wldDesc (f : LF) (sparse : Bool) (a : Word) : BankDesc :=
  ⟨a.toNat + f.imm.toNat, f.ty.toNat, sparse, decide (f.md.toNat / 2 % 2 = 1)⟩

/-- WLD and WLDS (R226): a trap of the whole instruction, or the descriptor and the start of the load. -/
def wld (sparse : Bool) (f : LF) (s : State) : Answer :=
  laneInsn f (fun c =>
    if c.act = 0 then s.issued 1
    else
      let d := wldDesc f sparse (c.a f 0)
      let bank := f.md.toNat % 2
      match s.unitOf c.g with
      | none => s.laneTrap .P cPROTECT (BitVec.ofNat 64 d.off) c.act
      | some u =>
        if d.off % 64 ≠ 0 then s.laneTrap .P cMISALIGN (BitVec.ofNat 64 d.off) c.act
        else if u.scrSize < d.off + 64 ∨ u.scrSize < d.off + imageBytes d (u.scrAt d.off 8) then
          s.laneTrap .P cPROTECT (BitVec.ofNat 64 d.off) c.act
        else
          let s := s.updUnit c.g.uid (fun u => { u with banks := FMap.put u.banks bank d })
          (s.setBank s.cur.core bank ⟨c.g.uid, d, [], true, true⟩).issued 1) s

/-- WLD (R226). -/
def execLWld (f : LF) (s : State) : Answer := wld false f s
/-- WLDS (R226, R227). -/
def execLWlds (f : LF) (s : State) : Answer := wld true f s

/-- BANK_LOAD: a bank that loads has its image (R226). -/
def execEvBankLoad (core bank : Nat) (s : State) : Answer :=
  match FMap.get (s.core core).banks bank with
  | none => .next s
  | some b =>
    match b.loading, FMap.get s.units b.uid with
    | true, some u => .next (s.setBank core bank (latchTile b.uid u b.desc))
    | _, _ => .next s

/-! ### MMA and MMAS (R229 to R234) -/

/-- Bits of +0 and of a NaN in FP40. -/
def nan40 : BitVec 40 := BitVec.ofNat 40 fmt40.nanBits

/-- The epilogue (R231). -/
def epilogue (ep : Nat) (lo hi : Nat) (scale : Flt) (acc : Nat) : Nat :=
  let x := Flt.ofBits fmt40 acc
  match ep with
  | 1 => if x = .nan then fmt40.nanBits else if Flt.lt (.fin false 0 1) x then acc else 0
  | 2 => selectBits fmt40 false (selectBits fmt40 true acc lo) hi
  | 3 => round fmt40 0 (Flt.mul x scale)
  | _ => acc

/-- One chunk added to an accumulator: one exact sum, rounded once (R85, R86). -/
def chunkAdd (acc : Nat) (as : List Flt) (bs : List (Option Flt)) : Nat :=
  let products := (as.zip bs).filterMap (fun e => e.2.map (fun b => Flt.mul e.1 b))
  round fmt40 0 (Flt.sum (Flt.ofBits fmt40 acc :: products))

/-- One element of a tile (R230). -/
def matDot (as : List Flt) (col : List (Option (List (Option Flt)))) (acc : Nat) : Nat :=
  ((List.range col.length).zip col).foldl (fun acc e =>
    match e.2 with
    | some bs => chunkAdd acc ((as.drop (16 * e.1)).take 16) bs
    | none => acc) acc

/-- What an MMA needs before it may be accepted: ready, wait, or a trap (R228, R233, R236). -/
inductive BankReady where
  | ready (b : Bank)
  | wait
  | relatch
  | engine
deriving DecidableEq, Repr

/-- The state of the bank for an instruction of a unit. -/
def bankReady (k : Core) (u : UnitRec) (uid bank : Nat) (f : LF) (sparse : Bool) : BankReady :=
  match FMap.get u.banks bank with
  | none => .engine
  | some d =>
    if u.acc ≤ f.d.toNat ∨ matClass f.ty.toNat ≠ matClass d.ty ∨ sparse ≠ d.sparse ∨ (f.md.toNat / 4 % 4 = 3 ∧ !d.sc) then .engine
    else match FMap.get k.banks bank with
      | none => .relatch
      | some b => if b.uid ≠ uid ∨ b.desc ≠ d then .relatch
                  else if b.loading then .wait
                  else if b.valid then .ready b
                  else .engine

/-- A row of the tiles of a unit (R29): its elements. -/
def UnitRec.tileAt (u : UnitRec) (a m n : Nat) : BitVec 40 := FMap.rd 0 u.tiles (4096 * a + 128 * m + n)

/-- Replace one element of a tile. -/
def UnitRec.tilePut (u : UnitRec) (a m n : Nat) (v : BitVec 40) : UnitRec :=
  { u with tiles := FMap.wr 0 u.tiles (4096 * a + 128 * m + n) v, tileBad := FMap.del u.tileBad (4096 * a + 128 * m + n) }

/-- The lanes whose row of a tile holds poisoned data in some columns (R310, R380). -/
def UnitRec.rowsBad (u : UnitRec) (a : Nat) (lanes : Lanes) (first n : Nat) : Lanes :=
  lanes &&& lanesOf (fun m => u.tileBad.any (fun e => decide (4096 * a + 128 * m + first ≤ e.1 ∧ e.1 < 4096 * a + 128 * m + first + n)))

/-- The A words of a lane: from its registers or from the latch; a lane that the latch holds no row of has free values
(log entry 5). DESIGN CHOICE: R232 does not tell what the rows are for an instruction of another format than that which set the latch; the
raw words are read again under its own format, and words beyond those held are free (log entry 102). -/
def LaneCtx.aWord (c : LaneCtx) (f : LF) (fresh : Nat) (m i : Nat) : Word :=
  match c.r.latch with
  | some l =>
    if l.a = f.a then (FMap.get l.rows (32 * i + m)).getD (Config.freeWord (fresh + 32 * i + m)) else c.reg f (f.a.toNat + i) m
  | none => c.reg f (f.a.toNat + i) m

/-- The operand latch after an instruction (R232): with RU = 1 it keeps the rows that it holds, else takes those that the
instruction has read; with RU = 0 it is released. -/
def LaneCtx.nextLatch (c : LaneCtx) (f : LF) : Option Latch :=
  if f.md.toNat / 2 % 2 = 0 then none
  else if c.latched f then c.r.latch
  else some ⟨f.a, (lanesIn c.real).foldl (fun m l =>
    (List.range (matNr f.ty.toNat)).foldl (fun m i => FMap.put m (32 * i + l) (c.reg f (f.a.toNat + i) l)) m) []⟩

/-- Set, keep or release the operand latch of the acting run. -/
def State.putLatch (s : State) (l : Option Latch) : State :=
  s.onSplit (fun p => { p with running := p.running.map (fun r => { r with latch := l }) })

/-- POISON of the lanes whose tile rows a matrix instruction has read poisoned (R380). -/
def State.tilePoison (s : State) (lanes : Lanes) (sup : Bool) : State :=
  if lanes = 0 then s else s.addDue s.gid ⟨.D, cPOISON, true, 0, lanes, s.cur.place, sup⟩ sup

/-- Accept the instruction: its rows are updated, the latch is set, used and released (R230, R232); the array is busy for the
cycles of R233. -/
def mmaAccept (c : LaneCtx) (f : LF) (sparse : Bool) (b : Bank) (s : State) : State :=
  let md := f.md.toNat
  let ty := f.ty.toNat
  let q := if md / 4 % 4 = 2 then c.reg f f.c.toNat 0 else 0
  let to40 := fun x => round fmt40 0 (Flt.ofBits fmt32 x)
  let lo := to40 (fld q 0 32)
  let hi := to40 (fld q 32 32)
  let cols := (List.range 128).map b.column
  let rows := (lanesIn c.real).map (fun m => (m, matRow ty (c.aWord f s.fresh m)))
  let row := fun (u : UnitRec) (r : Nat × List Flt) =>
    ((List.range 128).zip cols).foldl (fun (u : UnitRec) e =>
      let start := if md / 16 % 2 = 1 then 0 else (u.tileAt f.d.toNat r.1 e.1).toNat
      let v := epilogue (md / 4 % 4) lo hi (b.scale e.1) (matDot r.2 e.2 start)
      u.tilePut f.d.toNat r.1 e.1 (BitVec.ofNat 40 v)) u
  let hold := if c.latched f then 1 else if sparse then 16 else 32
  let s1 := s.updUnit c.g.uid (fun u => rows.foldl row u)
  let bad := match s.unitOf c.g with
    | some u => if md / 16 % 2 = 1 then 0 else u.rowsBad f.d.toNat c.real 0 128
    | none => 0
  let s2 := (s1.putLatch (c.nextLatch f)).tilePoison bad c.r.sup
  let k := s2.core s.cur.core
  { s2.setCore s.cur.core { k with arrayFree := k.ccyc + (if sparse then 16 else 32), arrayBy := some (k.ccyc, s.cur.gslot, s.cur.place) } with fresh := s2.fresh + 1024 }.issued hold

/-- Two runs issue together on a lane slot of a core (R278). -/
def Core.paired (k : Core) (a b : Nat × Nat) : Bool :=
  k.lslots.any (fun e => decide (((e.2.gslot, e.2.place) = a ∧ e.2.pair = some b) ∨ ((e.2.gslot, e.2.place) = b ∧ e.2.pair = some a)))

/-- The array still takes rows of the instruction that it accepted last (R233). The rows of both groups of a pair enter with one
acceptance (R230, R278). -/
def State.arrayBusy (s : State) : Bool :=
  let k := s.core s.cur.core
  decide (k.ccyc < k.arrayFree) && !k.arrayBy.any (fun t => decide (t.1 = k.ccyc) && k.paired t.2 (s.cur.gslot, s.cur.place))

/-- The bank that a waiting instruction names. -/
def MmaWait.bank (w : MmaWait) : Nat :=
  match decodeLane w.bits.toNat with
  | some (.lMma f) => f.md.toNat % 2
  | some (.lMmas f) => f.md.toNat % 2
  | _ => 2

/-- The MMA or MMAS that a run issues next, and whether it is MMAS. -/
def Run.mmaNext (r : Run) : Option (LF × Bool) :=
  (r.todo.head?.bind (fun i => decodeLane i.bits.toNat)).bind (fun i => match i with
    | .lMma f => some (f, false)
    | .lMmas f => some (f, true)
    | _ => none)

/-- The run of a split that is suspended at an MMA or MMAS. -/
def State.mmaWaiting (s : State) (gid place : Nat) : Option (Group × Run) :=
  (FMap.get s.groups gid).bind (fun g => ((FMap.get g.splits place).bind (·.running)).bind (fun r =>
    if r.suspended && r.mmaNext.isSome && !g.halted then some (g, r) else none))

/-- The array re-latches a bank for an instruction of another run, which still waits for it (R228, R233). -/
def State.relatching (s : State) (bank : Nat) : Bool :=
  (s.core s.cur.core).mmaBusy.any (fun w => decide (w.bank = bank ∧ (w.gid ≠ s.gid ∨ w.place ≠ s.cur.place)) &&
    (s.mmaWaiting w.gid w.place).any (fun x => decide (x.2.todo.head?.map (·.bits) = some w.bits)))

/-- The array begins to re-latch the bank of the acting instruction, unless it does so for another. -/
def State.claimMma (s : State) (w : MmaWait) : State :=
  let k := s.core s.cur.core
  if k.mmaBusy.any (fun o => (s.mmaWaiting o.gid o.place).isSome) then s else s.setCore s.cur.core { k with mmaBusy := some w }

/-- MMA and MMAS: ENGINE, or they wait suspended (R233), or the array accepts them. -/
def mma (sparse : Bool) (f : LF) (s : State) : Answer :=
  let nr := matNr f.ty.toNat
  let bank := f.md.toNat % 2
  laneInsn f (fun c =>
    if c.act = 0 then (s.putLatch (c.nextLatch f)).issued (if c.latched f then 1 else if sparse then 16 else 32)
    else if !c.latched f && c.emptyRead f nr 0 0 then s.laneTrap .P cEMPTYREAD 0 c.act
    else match s.unitOf c.g with
      | none => s.laneTrap .P cENGINE 0 c.act
      | some u =>
        match bankReady (s.core s.cur.core) u c.g.uid bank f sparse with
        | .engine => s.laneTrap .P cENGINE 0 c.act
        | st =>
          if s.relatching bank ∨ s.arrayBusy then s.suspend
          else match st with
            | .ready b => mmaAccept c f sparse b s
            | .relatch => (s.claimMma ⟨s.gid, s.cur.place, c.i.bits, sparse⟩).suspend
            | _ => s.suspend) s

/-- MMA (R229 to R234). -/
def execLMma (f : LF) (s : State) : Answer := mma false f s
/-- MMAS (R227, R229 to R234). -/
def execLMmas (f : LF) (s : State) : Answer := mma true f s

/-- The tile that a bank must take for an instruction that waits for it: that which the array re-latches for, else the first of the
core's runs that needs it (R228): its unit's key, the unit, the descriptor. -/
def State.relatchFor (s : State) (core bank : Nat) : Option (Nat × UnitRec × BankDesc) :=
  let k := s.core core
  let claimed := k.mmaBusy.toList.map (fun w => (w.gid, w.place))
  let all := (s.groups.filter (fun e => decide (coreOfGid e.1 = core))).flatMap (fun e => e.2.splits.map (fun q => (e.1, q.1)))
  (claimed ++ all).findSome? (fun x => (s.mmaWaiting x.1 x.2).bind (fun w => w.2.mmaNext.bind (fun m => (s.unitOf w.1).bind (fun u =>
    if m.1.md.toNat % 2 = bank ∧ bankReady k u w.1.uid bank m.1 m.2 = .relatch then
      (FMap.get u.banks bank).map (fun d => (w.1.uid, u, d))
    else none))))

/-- BANK_RELATCH: the array takes the tile that a waiting instruction's unit latched last (R228). -/
def execEvBankRelatch (core bank : Nat) (s : State) : Answer :=
  let k := s.core core
  let t := s.setCore core { k with mmaBusy := k.mmaBusy.filter (fun w => decide (w.bank ≠ bank)) }
  match s.relatchFor core bank with
  | none => .next t
  | some (uid, u, d) => .next (t.setBank core bank (latchTile uid u d))

/-- A matrix instruction as MATRIX_ACCEPT runs it. -/
def matrixRun (i : Instr) (s : State) : Answer :=
  match i with
  | .lMma f => mma false f s
  | .lMmas f => mma true f s
  | _ => .next s

/-- The lowest lane slot of a core whose run stands at an MMA or MMAS that may issue. -/
def State.mmaSlot (s : State) (core : Nat) : Option Nat :=
  ((List.range 4).find? (fun k => (FMap.get (s.core core).lslots k).any (fun e => !e.ended && decide (e.hold = 0) &&
    (match s.nextLane core e.gslot e.place with | some (.lMma _) => true | some (.lMmas _) => true | _ => false))))

/-! ### Accumulator access (R235) -/

/-- The type's float format for an accumulator window; none for b64. -/
def accFmt (ty : Nat) : Option Fmt := if ty = 9 then some fmt32 else if ty = 10 then some fmt16 else if ty = 11 then some fmtBf else none

/-- Columns per register. -/
def accCols (ty : Nat) : Nat := if ty = 9 then 2 else if ty = 10 ∨ ty = 11 then 4 else 1

/-- One register of a window from a tile's row. -/
def accOut (ty rm : Nat) (tile : Nat → BitVec 40) (col : Nat) : Word :=
  match accFmt ty with
  | some fm => packElems fm.width ((List.range (accCols ty)).map (fun e => round fm rm (Flt.ofBits fmt40 (tile (col + e)).toNat)))
  | none => zext64 (tile col)

/-- Element e of a register as an FP40 value. -/
def accIn (ty : Nat) (v : Word) (e : Nat) : BitVec 40 :=
  match accFmt ty with
  | some fm => BitVec.ofNat 40 (round fmt40 0 (Flt.ofBits fm (elem fm.width v e)))
  | none => v.truncate 40

/-- A tile instruction: EMPTYREAD, then ENGINE for a tile that the cut did not allocate (R236). -/
def tileInsn (tile : Nat) (na : Nat) (f : LF) (m : LaneCtx → State → State) (s : State) : Answer :=
  guarded na 0 0 f (fun c =>
    if c.act = 0 then s.issued 1
    else match s.unitOf c.g with
      | none => s.laneTrap .P cENGINE 0 c.act
      | some u => if u.acc ≤ tile then s.laneTrap .P cENGINE 0 c.act else m c s) s

/-- ACCZ (R235). -/
def execLAccz (f : LF) (s : State) : Answer :=
  tileInsn f.d.toNat 0 f (fun c s =>
    let zero := fun (u : UnitRec) m => (List.range 128).foldl (fun u n => u.tilePut f.d.toNat m n 0) u
    (s.updUnit c.g.uid (fun u => (lanesIn c.real).foldl zero u)).issued 1) s

/-- ACCRD (R235): the values are those of its place in the order of R234; the registers become full later. -/
def execLAccrd (f : LF) (s : State) : Answer :=
  tileInsn f.a.toNat 0 f (fun c s =>
    if c.g.replayFull then s.suspend
    else match s.unitOf c.g with
      | none => s
      | some u =>
        let ty := f.ty.toNat
        let dest := Dest.lanes f.d.toNat 8 c.r.sup
        let q : Producer := mkProducer .acc false s.cur.place c.i.bits c.i.idx dest c.act
        let vals : List (Nat × Nat × Word) := (lanesIn c.act).flatMap (fun m => (List.range 8).map (fun i =>
          (m, i, accOut ty f.rm.toNat (u.tileAt f.a.toNat m) (f.imm.toNat + accCols ty * i))))
        let bad := u.rowsBad f.a.toNat c.act f.imm.toNat (8 * accCols ty)
        ((s.addProducer { q.gain vals c.act with sent := true, um := !c.r.sup, poison := bad }).1).issued 1) s

/-- ACCWR (R235). -/
def execLAccwr (f : LF) (s : State) : Answer :=
  tileInsn f.d.toNat 8 f (fun c s =>
    let ty := f.ty.toNat
    let w := accCols ty
    let put := fun (u : UnitRec) m => (List.range (8 * w)).foldl (fun (u : UnitRec) k =>
      u.tilePut f.d.toNat m (f.imm.toNat + k) (accIn ty (c.reg f (f.a.toNat + k / w) m) (k % w))) u
    (s.updUnit c.g.uid (fun u => (lanesIn c.real).foldl put u)).issued 1) s

/-- A matrix instruction would wait if it issued now (R226, R233, R278, R372). -/
def matrixWaits (i : Instr) (s : State) : Bool :=
  let array := fun (f : LF) (sparse : Bool) => (s.laneActor f).any (fun (c : LaneCtx) => decide (c.act ≠ 0) &&
    (c.latched f || !c.emptyRead f (matNr f.ty.toNat) 0 0) &&
    (match s.unitOf c.g with
      | none => false
      | some u => match bankReady (s.core s.cur.core) u c.g.uid (f.md.toNat % 2) f sparse with
        | .wait => true
        | .relatch => true
        | .engine => false
        | .ready _ => s.relatching (f.md.toNat % 2) || s.arrayBusy))
  match i with
  | .lMma f => array f false
  | .lMmas f => array f true
  | .lAccrd f => (s.laneActor f).any (fun c => decide (c.act ≠ 0) && c.g.replayFull)
  | _ => false

/-- MATRIX_ACCEPT: the array accepts the instruction at which the run of a lane slot stands, for both groups of a pair (R230, R233); the
slot is held and charged for it (R275, R278, R280). -/
def execEvMatrixAccept (core : Nat) (s : State) : Answer :=
  match s.mmaSlot core with
  | none => .next s
  | some k => s.laneTurn matrixRun matrixWaits (fun _ _ => 0) core k

end Sys2Proof.Machine
end

