-- ==== Sys2Proof/Machine/Approx.lean ====
section
/-! DEFINITION. The approximated functions of R176 and the exp of R247: a fixed function of the operand's bits that
is the device's own (an opaque constant of Config) wherever that lies inside the spec's bound, and a value inside the
bound otherwise (log entry 6). -/

namespace Sys2Proof.Machine

/-- Fixed-point one with 384 fraction bits: the least operand of R176 is 2^-149, and its cosine differs from 1 by more than 2^-298. -/
def fxOne : Nat := 2 ^ 384

/-- π, log2 e and ln 2 in fixed point. -/
def fxPi : Nat :=
  0x3_243F6A8885A308D3_13198A2E03707344_A4093822299F31D0_082EFA98EC4E6C89_452821E638D01377_BE5466CF34E90C6C
def fxLog2e : Nat :=
  0x1_71547652B82FE177_7D0FFDA0D23A7D11_D6AEF551BAD2B4B1_164A2CD9A342648F_BC3887EEAA2ED9AC_49B25EEB82D7C167
def fxLn2 : Nat :=
  0xB17217F7D1CF79AB_C9E3B39803F2F6AF_40F343267298B62D_8A0D175B8BAAFA2B_E7B876206DEBAC98_559552FB4AFA1B10

/-- 2^f for a fraction of 1 in fixed point, by the series of e^(f ln 2). -/
def fxExp2 (f : Nat) : Nat :=
  let t := f * fxLn2 / fxOne
  ((List.range 90).foldl (fun (st : Nat × Nat) i => let a := st.1 * t / fxOne / (i + 1); (a, st.2 + a)) (fxOne, fxOne)).2

/-- log2 of a significand of [1, 2) in fixed point, 340 fraction bits by repeated squaring. -/
def fxLog2 (m : Nat) : Nat :=
  ((List.range 340).foldl (fun (st : Nat × Nat) i =>
    let y := st.1 * st.1 / fxOne
    if 2 * fxOne ≤ y then (y / 2, st.2 + 2 ^ (383 - i)) else (y, st.2)) (m, 0)).2

/-- The alternating series of sine (`odd` = 1) or cosine (`odd` = 0) at y in fixed point, 0 ≤ y ≤ π/2. -/
def fxSeries (odd y : Nat) : Nat :=
  let sq := y * y / fxOne
  let first := if odd = 1 then y else fxOne
  let r := (List.range 48).foldl (fun (st : Nat × Int) i =>
    let k := 2 * i + odd
    let t := st.1 * sq / fxOne / ((k + 1) * (k + 2))
    (t, if i % 2 = 0 then st.2 - t else st.2 + t)) (first, (first : Int))
  r.2.toNat

/-- A value ± num/den that differs from an exact one by less than 2^-330 of it or of 1, less than an irrational value of R176 lies from
a limit of its bound; a dyadic one it gives exactly (log entry 6). -/
structure Approx where
  neg : Bool
  num : Nat
  den : Nat
deriving DecidableEq, Repr

/-- Two finite values differ by at most e/f. -/
def within (a b : Flt) (e f : Nat) : Bool :=
  match a, b with
  | .fin n x d, .fin m y c =>
    let t := ratAdd (signedNum n x) d (-signedNum m y) c
    ratLe t.1.natAbs t.2 e f
  | _, _ => false

/-- One unit in the last place of binary32 at a magnitude, times k. -/
def ulps (k num den : Nat) : Nat × Nat :=
  let e := max (floorLog2 num den) (-126) - 23
  if 0 ≤ e then (k * 2 ^ e.toNat, 1) else (k, 2 ^ (-e).toNat)

/-- The device's bits if they lie within k ulp of the exact value, else the nearest binary32 value. -/
def pickUlp (cand : BitVec 32) (k : Nat) (x : Approx) : Nat :=
  let v := Flt.fin x.neg x.num x.den
  let u := ulps k x.num x.den
  if within (Flt.ofBits fmt32 cand.toNat) v u.1 u.2 then cand.toNat else round fmt32 0 v

/-- The device's bits if they lie within 2^−22 of the exact value, else the nearest binary32 value. -/
def pickAbs (cand : BitVec 32) (x : Approx) : Nat :=
  let v := Flt.fin x.neg x.num x.den
  if within (Flt.ofBits fmt32 cand.toNat) v 1 (2 ^ 22) then cand.toNat else round fmt32 0 v

/-- 1.0 in binary32. -/
def one32 : Nat := 0x3F800000

/-- 1/√x of a positive finite value. -/
def approxRsqrt (num den : Nat) : Approx :=
  let e := floorLog2 num den / 2
  let p := unscale num den (2 * e)
  let y := isqrt (p.2 * fxOne * fxOne / p.1)
  if 0 ≤ e then ⟨false, y, fxOne * 2 ^ e.toNat⟩ else ⟨false, y * 2 ^ (-e).toNat, fxOne⟩

/-- 2^x of a finite value whose integer part is n and whose fraction is f in fixed point. -/
def approxExp2 (n : Int) (f : Nat) : Approx :=
  let y := fxExp2 f
  if 0 ≤ n then ⟨false, y * 2 ^ n.toNat, fxOne⟩ else ⟨false, y, fxOne * 2 ^ (-n).toNat⟩

/-- The integer part and the fixed-point fraction of a finite value. -/
def intFrac (neg : Bool) (num den : Nat) : Int × Nat :=
  let n := floorRat neg num den
  let r := signedNum neg num - n * den
  (n, r.toNat * fxOne / den)

/-- FRSQ on binary32 bits (R176, R177). -/
def frsq32 (x : Nat) : Nat :=
  match Flt.ofBits fmt32 x with
  | .nan => fmt32.nanBits
  | .inf neg => if neg then fmt32.nanBits else 0
  | .fin neg num den =>
    if num = 0 then fmt32.infBits + fmt32.signBits neg
    else if neg then fmt32.nanBits
    else pickUlp (Config.frsqBits (BitVec.ofNat 32 x)) 1 (approxRsqrt num den)

/-- FEXP2 on binary32 bits (R176, R177). -/
def fexp232 (x : Nat) : Nat :=
  match Flt.ofBits fmt32 x with
  | .nan => fmt32.nanBits
  | .inf neg => if neg then 0 else fmt32.infBits
  | .fin neg num den =>
    let p := intFrac neg num den
    if num % den = 0 then
      if 127 < p.1 then fmt32.infBits
      else if p.1 < -149 then 0
      else round fmt32 0 (Flt.ldexp (.fin false 1 1) p.1)
    else if 128 ≤ p.1 then fmt32.infBits
    else if p.1 < -200 then pickUlp (Config.fexp2Bits (BitVec.ofNat 32 x)) 2 ⟨false, 1, 2 ^ 200⟩
    else pickUlp (Config.fexp2Bits (BitVec.ofNat 32 x)) 2 (approxExp2 p.1 p.2)

/-- FLOG2 on binary32 bits (R176, R177). -/
def flog232 (x : Nat) : Nat :=
  match Flt.ofBits fmt32 x with
  | .nan => fmt32.nanBits
  | .inf neg => if neg then fmt32.nanBits else fmt32.infBits
  | .fin neg num den =>
    if num = 0 then fmt32.infBits + fmt32.signBits true
    else if neg then fmt32.nanBits
    else
      let n := floorLog2 num den
      let p := unscale num den n
      if p.1 = p.2 then round fmt32 0 (Flt.ofInt n)
      else
        let l := n * fxOne + fxLog2 (p.1 * fxOne / p.2)
        let v : Approx := ⟨decide (l < 0), l.natAbs, fxOne⟩
        let cand := Config.flog2Bits (BitVec.ofNat 32 x)
        if ratLe 1 2 num den ∧ ratLe num den 2 1 then pickAbs cand v else pickUlp cand 2 v

/-- sin(πx) for x = h/2 + r with 0 < r < 1/2, r in fixed point, h the count of half units (R176): sine of the
remaining angle in the quadrant h mod 4. -/
def approxSin (h : Int) (r : Nat) : Approx :=
  let y := r * fxPi / fxOne
  let q := h % 4
  let v := if q % 2 = 0 then fxSeries 1 y else fxSeries 0 y
  ⟨decide (2 ≤ q), v, fxOne⟩

/-- FSIN (`cosine` false) and FCOS on binary32 bits (R176, R177). -/
def ftrig32 (cosine : Bool) (x : Nat) : Nat :=
  match Flt.ofBits fmt32 x with
  | .nan => fmt32.nanBits
  | .inf _ => fmt32.nanBits
  | .fin neg num den =>
    let h := floorRat neg (2 * num) den                    -- half units below x
    let r := 2 * signedNum neg num - h * den
    let q := (if cosine then h + 1 else h) % 4
    if r = 0 then
      if q % 2 = 0 then (if cosine then 0 else fmt32.signBits neg)
      else if q = 1 then one32 else one32 + fmt32.signBits true
    else
      let cand := if cosine then Config.fcosBits (BitVec.ofNat 32 x) else Config.fsinBits (BitVec.ofNat 32 x)
      pickAbs cand (approxSin (if cosine then h + 1 else h) (r.toNat * fxOne / (2 * den)))

/-- The exp of RCQT on FP40 bits: e^s in binary32 (R247). -/
def exp40 (x : Nat) : Nat :=
  match Flt.ofBits fmt40 x with
  | .nan => fmt32.nanBits
  | .inf neg => if neg then 0 else fmt32.infBits
  | .fin neg num den =>
    if num = 0 then one32
    else if ratLe 1024 1 num den then
      (if neg then pickUlp (Config.expBits (BitVec.ofNat 40 x)) 2 ⟨false, 1, 2 ^ 200⟩ else fmt32.infBits)
    else
      let t := intFrac neg (num * fxLog2e) (den * fxOne)
      let v := approxExp2 t.1 t.2
      if !ratLe v.num v.den ((2 ^ 24 - 1) * 2 ^ 104) 1 then fmt32.infBits
      else pickUlp (Config.expBits (BitVec.ofNat 40 x)) 2 v

/-- An approximated function on an element of f32x2, f16x4 or bf16x4 (R176). -/
def approxElem (g : Nat → Nat) (f : Fmt) (x : Nat) : Nat :=
  if f = fmt32 then g x
  else round f 0 (Flt.ofBits fmt32 (g (round fmt32 0 (Flt.ofBits f x))))

end Sys2Proof.Machine
end

