-- ==== Sys2Proof/Machine/Neural.lean ====
section
/-! DEFINITION. The radiance cache: RCQT, RCPUB, RCHOLD, RCSTEP, the arrays that evaluate and the Sanders that train
(R156, R246 to R249, R413 to R420). -/

namespace Sys2Proof.Machine

/-! ### Images (R413) -/

/-- Bits that spell a finite binary32. -/
def f32Finite (b : Nat) : Bool := match Flt.ofBits fmt32 b with | .fin _ _ _ => true | _ => false

/-- A binary32 in [0, 1). -/
def f32Below1 (b : Nat) : Bool :=
  match Flt.ofBits fmt32 b with
  | .fin neg n d => decide (n < d) && (!neg || decide (n = 0))
  | _ => false

/-- A binary32 that is finite and above 0. -/
def f32Positive (b : Nat) : Bool :=
  match Flt.ofBits fmt32 b with
  | .fin neg n _ => !neg && decide (n ≠ 0)
  | _ => false

/-- The widths of the layers in a header. -/
def headerWidths (hdr : List Byte) : List Nat := (List.range (byteField hdr 1 1 % 16)).map (fun l => byteField hdr (8 + l) 1)

/-- The bytes that the layers take: weights and biases of 2 bytes each. -/
def layerBytes : Nat → List Nat → Nat
  | _, [] => 0
  | i, w :: ws => 2 * (w * i + w) + layerBytes w ws

/-- The header of an image keeps R413. -/
def headerOk (hdr : List Byte) : Bool :=
  let f := fun o n => byteField hdr o n
  let w0 := f 0 4
  let lc := w0 / 2 ^ 8 % 16
  let ws := headerWidths hdr
  decide (1 ≤ f 4 4 ∧ f 4 4 ≤ 4096 ∧ w0 / 2 ^ 18 = 0 ∧ w0 / 2 ^ 12 % 16 ≤ 2 ∧ 1 ≤ lc ∧ lc ≤ 8 ∧ 1 ≤ w0 % 2 ^ 8 ∧ w0 % 2 ^ 8 ≤ 64) &&
    ws.all (fun w => decide (1 ≤ w ∧ w ≤ 64)) && (List.range 8).all (fun l => decide (l < lc) || decide (f (8 + l) 1 = 0)) &&
    decide (ws.getLastD 0 ≤ 4) && f32Below1 (f 0x14 4) && f32Finite (f 0x10 4) && f32Positive (f 0x1C 4) &&
    f32Below1 (f 0x18 4) && decide (f 0x20 8 % 64 = 0) && decide (f 0x28 24 = 0) &&
    decide (layerBytes (w0 % 2 ^ 8) ws ≤ 65536)

/-- Bfloat16 numbers of a byte list. -/
def halves (bs : List Byte) (n : Nat) : List (BitVec 16) := (List.range n).map (fun i => BitVec.ofNat 16 (byteField bs (2 * i) 2))

/-- The layers of an image after its header (R413). -/
def layersOf : Nat → List Nat → List Byte → List Layer
  | _, [], _ => []
  | i, w :: ws, bs =>
    let rows := (List.range w).map (fun j => halves (bs.drop (2 * i * j)) i)
    ⟨rows, halves (bs.drop (2 * i * w)) w⟩ :: layersOf w ws (bs.drop (2 * (i * w + w)))

/-- A bfloat16 as the binary32 of the same value. -/
def bfWide (b : BitVec 16) : BitVec 32 := BitVec.ofNat 32 (b.toNat * 2 ^ 16)

/-- A layer's parameters in the order of the master. -/
def Layer.params (l : Layer) : List (BitVec 16) := l.w.flatten ++ l.b

/-- A network as its image gives it, at version 1 (R414). -/
def netOf (addr : Word) (asid die : Nat) (hdr body : List Byte) : Net :=
  let f := fun o n => byteField hdr o n
  let w0 := f 0 4
  let ls := layersOf (w0 % 2 ^ 8) (headerWidths hdr) body
  let w := (ls.flatMap Layer.params).map bfWide
  let zero := w.map (fun _ => (0 : BitVec 32))
  { image := addr, asid := asid, die := die, inputs := w0 % 2 ^ 8, widths := headerWidths hdr, final := w0 / 2 ^ 12 % 16,
    auto := w0 / 2 ^ 16 % 4, qcap := f 4 4, lr := BitVec.ofNat 32 (f 0x10 4), b1 := BitVec.ofNat 32 (f 0x14 4),
    b2 := BitVec.ofNat 32 (f 0x18 4), eps := BitVec.ofNat 32 (f 0x1C 4), stat := BitVec.ofNat 64 (f 0x20 8), version := 1,
    published := 1, weights := [(1, ls)], master := ⟨w, zero, zero, 0⟩, changed := false, pending := [], switching := false,
    held := none, skips := 0, drops := 0 }

/-! ### Evaluation (R247) -/

/-- relu of R231 on FP40 bits. -/
def relu40 (x : Nat) : Nat :=
  match Flt.ofBits fmt40 x with
  | .nan => fmt40.nanBits
  | v => if Flt.lt (.fin false 0 1) v then x else 0

/-- The sums of a layer before its activation, in FP40. -/
def Layer.sums (l : Layer) (x : List Flt) : List Nat :=
  (l.w.zip l.b).map (fun r =>
    round fmt40 0 (Flt.sum (Flt.ofBits fmtBf r.2.toNat :: (r.1.zip x).map (fun e => Flt.mul (Flt.ofBits fmtBf e.1.toNat) e.2))))

/-- The layers' inputs and sums, first layer first (R247). -/
def forward : List Layer → List Flt → List (List Flt × List Nat)
  | [], _ => []
  | l :: ls, x =>
    let s := l.sums x
    (x, s) :: forward ls (s.map (fun v => Flt.ofBits fmtBf (round fmtBf 0 (Flt.ofBits fmt40 (relu40 v)))))

/-- The final activation, as binary32 bits (R247). -/
def finalOf (kind s : Nat) : Nat :=
  match kind with
  | 0 => round fmt32 0 (Flt.ofBits fmt40 s)
  | 1 => round fmt32 0 (Flt.ofBits fmt40 (relu40 s))
  | _ => exp40 s

/-- The inputs of a query as exact values, +0 beyond those it brought (R247). -/
def netInputs (n : Nat) (xs : List (BitVec 16)) : List Flt := (List.range n).map (fun i => Flt.ofBits fmtBf (xs.getD i 0).toNat)

/-- The results of a query, as binary32 bits. -/
def Net.eval (n : Net) (ls : List Layer) (xs : List (BitVec 16)) : List Nat :=
  match (forward ls (netInputs n.inputs xs)).getLast? with
  | some (_, s) => s.map (finalOf n.final)
  | none => []

/-- Results that a network gives. -/
def Net.results (n : Net) : Nat := n.widths.getLastD 0

/-! ### RCQT (R246, R248, R249) -/

/-- The key of a partition's network slot. -/
def netKey (part slot : Nat) : Nat := part * 4 + slot

/-- The query of one lane. -/
def rcqtQuery (s : State) (c : LaneCtx) (f : LF) (pid slack lane : Nat) : Query :=
  let j := f.md.toNat / 4 + 1
  let ins := (List.range (4 * j)).map (fun i => BitVec.ofNat 16 (elem 16 (c.reg f (f.a.toNat + i / 4) lane) (i % 4)))
  let ts := (List.range 4).map (fun r => BitVec.ofNat 32 (elem 32 (c.reg f (f.c.toNat + r / 2) lane) (r % 2)))
  let pt := c.g.getP (fld f.imm 0 3) lane != f.imm.getLsbD 3
  let train := !inLanes c.g.helper lane && pt
  { core := s.cur.core, gslot := s.cur.gslot, place := s.cur.place, pid := pid, lane := lane, net := f.md.toNat % 4,
    inputs := ins, targets := ts, train := train, dropped := false, ver := f.imm.getLsbD 4, slack := slack, late := false, age := 0, cyc := 0 }

/-- Send content that takes `bytes` bytes to a unit of the core's own cluster: in packets of at most 4 data flits, the last of
which carries it (R316; log entry 87). -/
def State.sendNear (s : State) (slack : Nat) (bytes : Nat) (goal : Place) (empty body : Body) (f : Packet → Packet) : State :=
  let cl := Place.cluster (clusterOf s.cur.core)
  let port := corePort s.cur.core
  match FMap.get s.groups s.gid with
  | none => s
  | some g =>
    let make := fun flits body => f (mkPacket s.gid s.cur.place port slack 0 (s.partOf g) flits body)
    let early := (bytes - 1) / 128
    let s := (List.range early).foldl (fun s _ => s.send (make 5 empty) cl [goal]) s
    s.send (make (1 + ceilDiv (bytes - 128 * early) 32) body) cl [goal]

/-- RCQT (R246): one request for all acting lanes goes to the cluster's array. -/
def execLRcqt (f : LF) (s : State) : Answer :=
  guarded (f.md.toNat / 4 + 1) 0 2 f (fun c =>
    let net := f.md.toNat % 4
    let ver := f.imm.getLsbD 4
    if c.act = 0 then s.issued 2
    else if (FMap.get s.nets (netKey (s.partOf c.g) net)).isNone then s.laneTrap .P cENGINE 0 c.act
    else if c.g.replayFull then s.suspend
    else
      let slack := slackOf c.g c.p f.sk
      let dest := Dest.lanes f.d.toNat (if ver then 3 else 2) c.r.sup
      let q : Producer := mkProducer (.query net ver) false s.cur.place c.i.bits c.i.idx dest c.act
      let reg := fun r => captured c.act (fun l => c.reg f r l)
      let q := { q with opA := reg f.a.toNat, opC := reg f.c.toNat }
      let (s, pid) := s.addProducer { q with sent := true, um := !c.r.sup }
      let qs := (lanesIn c.act).map (rcqtQuery s c f pid slack)
      let bytes := qs.length * (f.md.toNat / 4 + 3) * 8
      (s.sendNear slack bytes (.rca (clusterOf s.cur.core)) (.query []) (.query qs) id).issued 2) s

/-- RCQT would wait if it issued now (R278, R372). -/
def neuralWaits (i : Instr) (s : State) : Bool :=
  match i with
  | .lRcqt f => (s.laneActor f).any (fun (c : LaneCtx) => decide (c.act ≠ 0) && c.g.replayFull)
  | _ => false

/-! ### The arrays (R415, R416) -/

/-- An array's state. -/
def State.rca (s : State) (cl : Nat) : Rca := FMap.rd Rca.reset s.rcas cl
def State.setRca (s : State) (cl : Nat) (r : Rca) : State := { s with rcas := FMap.put s.rcas cl r }

/-- The partition that has a cluster. -/
def State.partOfCluster (s : State) (cl : Nat) : Option Nat := (s.parts.find? (fun e => e.2.clusters.getLsbD cl)).map (·.1)

/-- The clusters of a partition in ascending order. -/
def State.clusterList (s : State) (part : Nat) : List Nat :=
  (List.range Config.nClusters).filter (fun c => (s.clustersOf part).getLsbD c)

/-- An RCA adopts the version that a switch has brought (R416). -/
def Rca.adopt (r : Rca) (slot : Nat) : Rca :=
  match FMap.get r.incoming slot with
  | some v => { r with version := FMap.put r.version slot v, incoming := FMap.del r.incoming slot }
  | none => r

/-- Offer the sample of a query (R248): one with a target that is no finite number, or that finds the queue full, is
dropped and counted. -/
def Rca.offer (n : Net) (slot : Nat) (r : Rca) (q : Query) : Rca × Query :=
  if !q.train ∨ q.net ≠ slot then (r, q)
  else
    let ts := q.targets.take n.results
    let queue := FMap.rd [] r.samples slot
    let bad := ts.any (fun t => !f32Finite t.toNat)
    if bad ∨ n.qcap ≤ queue.length then
      let drops := min (FMap.rd 0 r.drops slot + 1) 0xFFFF_FFFF
      ({ r with drops := FMap.put r.drops slot drops }, { q with train := false, dropped := true })
    else
      let sample : Sample := ⟨(List.range n.inputs).map (fun i => q.inputs.getD i 0), ts⟩
      ({ r with samples := FMap.put r.samples slot (queue ++ [sample]) }, { q with train := false })

/-- Offer the samples of a request's queries in order: the array and the queries afterwards. -/
def Rca.offerAll (n : Net) (slot : Nat) (r : Rca) (qs : List Query) : Rca × List Query :=
  qs.foldl (fun (acc : Rca × List Query) q =>
    let (r, q) := Rca.offer n slot acc.1 q
    (r, acc.2 ++ [q])) (r, [])

/-- Change a network. -/
def State.updNet (s : State) (key : Nat) (f : Net → Net) : State := { s with nets := FMap.upd s.nets key f }

/-- Samples that wait for a network's step. -/
def State.samplesOf (s : State) (part slot : Nat) : Nat :=
  ((s.clusterList part).map (fun cl => (FMap.rd [] (s.rca cl).samples slot).length)).sum

/-- Under AUTO ≠ 0 an automatic step is requested once the queues hold its batch and no step is pending (R417). -/
def State.autoStep (s : State) (key : Nat) : State :=
  s.updNet key (fun n =>
    let b := 64 * 4 ^ n.auto
    if n.auto ≠ 0 ∧ n.pending = [] ∧ b ≤ s.samplesOf (key / 4) (key % 4) then { n with pending := [b] } else n)

/-- A query packet reaches its array, and its samples enter the queues (R415); queries of a group that has ended answer
nobody. -/
def State.takeQueries (s : State) (cl : Nat) (p : Packet) (qs : List Query) : State :=
  match qs with
  | [] => s
  | first :: _ =>
    let r := s.rca cl
    let at_ := s.nextPkt
    let mine := qs.map (fun q => { q with slack := p.slack, late := q.late || p.late, age := at_, cyc := r.clock,
                                          place := if p.place = 9 then 9 else q.place })
    let (r, mine) := match FMap.get s.nets (netKey p.part first.net) with
      | some n => Rca.offerAll n first.net r mine
      | none => (r, mine)
    { s.setRca cl { r with queries := r.queries ++ mine } with nextPkt := at_ + 1 }.autoStep (netKey p.part first.net)

/-- Of two queries the more urgent one (R415). -/
def querySooner (a b : Query) : Bool := decide (a.slack < b.slack) || (decide (a.slack = b.slack) && decide (a.age < b.age))

/-- An RCQT to the network that stands earlier in a split's program order (R340) has not been evaluated: versions do not
decrease along a split (R249). -/
def State.queryBlocked (s : State) (q : Query) : Bool :=
  match FMap.get s.groups (gidOf q.core q.gslot) with
  | none => false
  | some g => (FMap.get g.replay q.pid).any (fun mine =>
      g.replay.any (fun e => decide (e.1 < q.pid) && decide (e.2.ready = 0) &&
        g.splits.any (fun p => p.2.tags.contains e.2.tag && p.2.tags.contains mine.tag) &&
        (match e.2.kind with | .query n _ => decide (n = q.net) | _ => false)))

/-- Queries of the same RCQT. -/
def Query.sameWord (a b : Query) : Bool := decide (a.core = b.core ∧ a.gslot = b.gslot ∧ a.place = b.place ∧ a.pid = b.pid ∧ a.age = b.age)

/-- Whole RCQTs in the order of their arrival, at most 32 queries (R249, R415). -/
def fillBatch : Nat → List Query → List Query → List Query
  | 0, _, acc => acc
  | fuel + 1, qs, acc =>
    match qs.head? with
    | none => acc
    | some q =>
      let mine := qs.filter q.sameWord
      let rest := qs.filter (fun x => !q.sameWord x)
      if 32 < acc.length + mine.length then acc else fillBatch fuel rest (acc ++ mine)

/-- A network is ready: 32 queries of it wait, or the oldest has waited 8 cycles of the RCA's clock (R415). -/
def Rca.ready (r : Rca) (net : Nat) : Bool :=
  let mine := r.queries.filter (fun q => decide (q.net = net))
  decide (32 ≤ mine.length) || mine.any (fun q => decide (q.cyc + 8 ≤ r.clock))

/-- The network whose batch an RCA begins next: of those ready, that of the most urgent query (R415). -/
def State.nextBatchNet (s : State) (cl : Nat) : Option Nat :=
  let here := fun net => (s.partOfCluster cl).any (fun p => (FMap.get s.nets (netKey p net)).isSome)
  (minBy querySooner ((s.rca cl).queries.filter (fun q => here q.net && (s.rca cl).ready q.net && !s.queryBlocked q))).map (·.net)

/-- The reply to one query (R247, R248): its results, its version where it asks for it, and at index 30 whether its sample
was dropped. -/
def State.answerQuery (s : State) (cl part : Nat) (n : Net) (v : Nat) (q : Query) : State :=
  if q.place = 9 then s
  else
    let ys := n.eval (FMap.rd [] n.weights v) q.inputs
    let reg := fun k => packElems 32 [ys.getD (2 * k) 0, ys.getD (2 * k + 1) 0]
    let vals := [(q.lane, 0, reg 0), (q.lane, 1, reg 1)] ++ (if q.ver then [(q.lane, 2, BitVec.ofNat 64 v)] else []) ++
      (if q.dropped then [(q.lane, 30, 1)] else [])
    let body := Body.reply q.pid vals 0 0 (laneBit q.lane)
    let p := { mkPacket (gidOf q.core q.gslot) q.place 12 q.slack 1 part 2 body with late := q.late }
    s.depart p (.rca cl) [.cluster cl, .core q.core]

/-- RCA_BATCH: an array evaluates up to 32 queries of one network at one version (R247 to R249, R415), which takes 8 cycles
of its clock; where no network is ready, one cycle passes (log entry 103). -/
def execEvRcaBatch (cluster net : Nat) (s : State) : Answer :=
  match s.partOfCluster cluster with
  | none => .next s
  | some part =>
    match FMap.get s.nets (netKey part net) with
    | none => .next s
    | some n =>
      let r := s.rca cluster
      match s.nextBatchNet cluster with
      | none => .next (s.setRca cluster { r with clock := r.clock + 1 })
      | some best =>
        if best ≠ net then .next s
        else
        let r := r.adopt net
        let chosen := fillBatch 32 (r.queries.filter (fun q => decide (q.net = net) && !s.queryBlocked q)) []
        let batch := r.queries.filter chosen.contains
        let s := s.setRca cluster { r with queries := r.queries.filter (fun q => !chosen.contains q), clock := r.clock + 8 }
        .next (batch.foldl (fun s q => s.answerQuery cluster part n (FMap.rd 1 r.version net) q) s)

/-! ### The Sanders (R416 to R420) -/

/-- Drop counters of a network's arrays go into DROPS (R415). -/
def State.countDrops (s : State) (part slot : Nat) : State :=
  (s.clusterList part).foldl (fun s cl =>
    let r := s.rca cl
    let d := FMap.rd 0 r.drops slot
    if d = 0 then s
    else (s.setRca cl { r with drops := FMap.del r.drops slot }).updNet (netKey part slot) (fun n => { n with drops := (n.drops + d) % 2 ^ 64 })) s

/-- Write words of the status block from an offset; nothing where the address does not translate (log entry 40). -/
def State.writeStatus (s : State) (part : Nat) (n : Net) (off : Nat) (ws : List Nat) : State :=
  match walkAccess s ((s.clusterList part).headD 0) n.asid n.stat.toNat .write false with
  | (s, .error _) => s
  | (s, .ok (leaf, loc)) =>
    if leafPeer leaf ≠ 0 then s
    else
      let s := s.writeHome n.asid part (loc + off) ((ws.map (bytesOf 8)).flatten)
      { s with rel := (List.range ws.length).foldl (fun m i => FMap.put m ((loc + off) / 8 + i) (0, 0, 5)) s.rel }

/-- Master parameters rounded to bfloat16, as layers (R420). -/
def roundLayers : Nat → List Nat → List (BitVec 32) → List Layer
  | _, [], _ => []
  | i, w :: ws, ps =>
    let bf := fun p : BitVec 32 => BitVec.ofNat 16 (round fmtBf 0 (Flt.ofBits fmt32 p.toNat))
    let rows := (List.range w).map (fun j => ((ps.drop (i * j)).take i).map bf)
    ⟨rows, ((ps.drop (i * w)).take w).map bf⟩ :: roundLayers w ws (ps.drop (i * w + w))

/-- A publication point (R416, R420): the next version goes into every array's incoming bank. -/
def State.publish (s : State) (part slot : Nat) : State :=
  match FMap.get s.nets (netKey part slot) with
  | none => s
  | some n =>
    let v := n.version + 1
    let ls := roundLayers n.inputs n.widths n.master.w
    let n := { n with version := v, weights := FMap.put n.weights v ls, switching := true, changed := false }
    let s := s.updNet (netKey part slot) (fun _ => n)
    (s.clusterList part).foldl (fun s cl =>
      let r := s.rca cl
      s.setRca cl { r with incoming := FMap.put r.incoming slot v }) s

/-- SANDER_PUBLICATION: every array has adopted the version, and the status block says so (R416). -/
def execEvSanderPublication (part net : Nat) (s : State) : Answer :=
  match FMap.get s.nets (netKey part net) with
  | none => .next s
  | some n =>
    if !n.switching ∨ (FMap.get s.parts part).any (fun p => p.saved) then .next s
    else
      let s := (s.clusterList part).foldl (fun s cl => s.setRca cl ((s.rca cl).adopt net)) s
      let s := s.countDrops part net
      let done := fun n : Net => { n with published := n.version, switching := false, weights := [(n.version, FMap.rd [] n.weights n.version)] }
      let s := s.updNet (netKey part net) done
      match FMap.get s.nets (netKey part net) with
      | none => .next s
      | some n => .next (s.writeStatus part n 0 [n.version, n.master.steps, n.drops, n.skips, 0, 0, 0, 0])

/-- Take samples from the arrays in ascending cluster number, each queue in order (R417). -/
def State.takeSamples (s : State) (slot : Nat) : List Nat → Nat → List Sample → State × List Sample
  | [], _, acc => (s, acc)
  | cl :: cls, b, acc =>
    let r := s.rca cl
    let q := FMap.rd [] r.samples slot
    let n := b - acc.length
    let s := if q.isEmpty ∨ n = 0 then s else s.setRca cl { r with samples := FMap.wr [] r.samples slot (q.drop n) }
    s.takeSamples slot cls b (acc ++ q.take n)

/-- A rounding of R418 and R419. -/
def r32 (x : Flt) : Nat := round fmt32 0 x
def v32 (b : Nat) : Flt := Flt.ofBits fmt32 b

/-- The differences of the last layer (R418): from its sums, its results and the targets. -/
def lastDeltas (final : Nat) (ss : List Nat) (ts : List (BitVec 32)) : List Nat :=
  (ss.zip ts).map (fun e =>
    let y := finalOf final e.1
    let err := r32 (Flt.add 0 (v32 y) (v32 e.2.toNat).negate)
    match final with
    | 0 => err
    | 1 => if Flt.lt (.fin false 0 1) (Flt.ofBits fmt40 e.1) then err else 0
    | _ => r32 (Flt.mul (v32 err) (v32 y)))

/-- The differences of a layer from those of the layer above (R418). -/
def hiddenDeltas (up : Layer) (ds : List Nat) (ss : List Nat) : List Nat :=
  ((List.range ss.length).zip ss).map (fun e =>
    if Flt.lt (.fin false 0 1) (Flt.ofBits fmt40 e.2) then
      r32 (Flt.sum ((up.w.zip ds).map (fun k => Flt.mul (Flt.ofBits fmtBf (k.1.getD e.1 0).toNat) (v32 k.2))))
    else 0)

/-- Inputs and differences of each layer for one sample, first layer first. -/
def backward (final : Nat) (ts : List (BitVec 32)) : List Layer → List (List Flt × List Nat) → List (List Flt × List Nat)
  | [], _ => []
  | _, [] => []
  | [_], (x, ss) :: _ => [(x, lastDeltas final ss ts)]
  | _ :: up :: ls, (x, ss) :: rest =>
    match backward final ts (up :: ls) rest with
    | [] => []
    | (y, ds) :: above => (x, hiddenDeltas up ds ss) :: (y, ds) :: above

/-- The terms that one sample adds to each parameter's gradient, in the order of the master. -/
def gradTerms (ds : List (List Flt × List Nat)) : List Flt :=
  ds.flatMap (fun e => e.2.flatMap (fun d => e.1.map (fun x => Flt.mul (v32 d) x)) ++ e.2.map v32)

/-- The gradients of a step: each an exact sum over the samples, divided by B and rounded once (R418). -/
def gradients (n : Net) (ls : List Layer) (xs : List Sample) : List Nat :=
  let per := xs.map (fun x => gradTerms (backward n.final x.targets ls (forward ls (netInputs n.inputs x.inputs))))
  (List.range n.master.w.length).map (fun k =>
    r32 (Flt.div (Flt.sum (per.map (fun g => g.getD k .nan))) (.fin false xs.length 1)))

/-- The square root of a binary32, rounded. -/
def sqrt32 (x : Nat) : Nat :=
  match v32 x with
  | .fin neg n d => if n = 0 then x else if neg then fmt32.nanBits else roundSqrt fmt32 0 n d
  | .inf neg => if neg then fmt32.nanBits else x
  | .nan => fmt32.nanBits

/-- x^t, exact. -/
def Flt.pow (x : Flt) (t : Nat) : Flt :=
  match x with
  | .fin neg n d => .fin (neg && decide (t % 2 = 1)) (n ^ t) (d ^ t)
  | r => r

/-- 1 − x, exact. -/
def oneLess (x : Flt) : Flt := Flt.add 0 (.fin false 1 1) x.negate

/-- One parameter's update (R419): the new W, m and v. -/
def adam (n : Net) (t : Nat) (w m v : BitVec 32) (g : Nat) : BitVec 32 × BitVec 32 × BitVec 32 :=
  let b1 := v32 n.b1.toNat
  let b2 := v32 n.b2.toNat
  let m' := r32 (Flt.sum [Flt.mul b1 (v32 m.toNat), Flt.mul (oneLess b1) (v32 g)])
  let v' := r32 (Flt.sum [Flt.mul b2 (v32 v.toNat), Flt.mul (Flt.mul (oneLess b2) (v32 g)) (v32 g)])
  let c1 := r32 (oneLess (b1.pow t))
  let c2 := r32 (oneLess (b2.pow t))
  let den := r32 (Flt.add 0 (v32 (sqrt32 (r32 (Flt.div (v32 v') (v32 c2))))) (v32 n.eps.toNat))
  let q := r32 (Flt.div (v32 (r32 (Flt.div (v32 m') (v32 c1)))) (v32 den))
  let w' := r32 (Flt.sum [v32 w.toNat, (Flt.mul (v32 n.lr.toNat) (v32 q)).negate])
  (BitVec.ofNat 32 w', BitVec.ofNat 32 m', BitVec.ofNat 32 v')

/-- A step on a batch (R418, R419): the new master, or none where the step is discarded. -/
def stepMaster (n : Net) (xs : List Sample) : Option Master :=
  let ls := roundLayers n.inputs n.widths n.master.w
  let gs := gradients n ls xs
  let t := n.master.steps + 1
  let ps := (n.master.w.zip (n.master.m.zip n.master.v)).zip gs
  let new := ps.map (fun e => adam n t e.1.1 e.1.2.1 e.1.2.2 e.2)
  if gs.all f32Finite ∧ new.all (fun e => f32Finite e.1.toNat) then
    some ⟨new.map (·.1), new.map (·.2.1), new.map (·.2.2), t⟩
  else none

/-- The batch of a network's next step, the oldest request, where it may begin now (R417). A step waits while a publication
of the network is under way. -/
def State.stepBatch (s : State) (key : Nat) (n : Net) : Option Nat :=
  match n.pending with
  | b :: _ => if !n.switching ∧ b ≤ s.samplesOf (key / 4) (key % 4) then some b else none
  | [] => none

/-- The partition is saved: its networks stand still (R414). -/
def State.partSaved (s : State) (part : Nat) : Bool := match FMap.get s.parts part with | some p => p.saved | none => false

/-- The network that a die's Sander steps next: in rotation by partition, then slot (R417). -/
def State.nextStep (s : State) (die : Nat) : Option (Nat × Net × Nat) :=
  let ready := s.nets.filterMap (fun e => if e.2.die = die ∧ !s.partSaved (e.1 / 4) then (s.stepBatch e.1 e.2).map (fun b => (e.1, e.2, b)) else none)
  match FMap.get s.sanders die with
  | none => ready.head?
  | some last => match ready.find? (fun e => decide (last < e.1)) with
    | some e => some e
    | none => ready.head?

/-- SANDER_STEP: one Adam step, or its discard, and the publication point that ends it (R417 to R420). -/
def execEvSanderStep (die : Nat) (s : State) : Answer :=
  match s.nextStep die with
  | none => .next s
  | some (key, n, b) =>
    let part := key / 4
    let slot := key % 4
    let (s, xs) := s.takeSamples slot (s.clusterList part) b []
    let s := { s with sanders := FMap.put s.sanders die key }
    let s := (s.updNet key (fun n => { n with pending := n.pending.drop 1 })).autoStep key
    let s := s.countDrops part slot
    let status := fun s : State => match FMap.get s.nets key with
      | some n => s.writeStatus part n 0x10 [n.drops, n.skips]
      | none => s
    match stepMaster n xs with
    | none => .next (status (s.updNet key (fun n => { n with skips := n.skips + 1 })))
    | some m =>
      let s := status (s.updNet key (fun n => { n with master := m, changed := n.changed || decide (m.w ≠ n.master.w) }))
      .next (if n.held.isSome then s else s.publish part slot)

/-! ### RCPUB, RCHOLD and RCSTEP (R156) -/

/-- The network that a word names, or ENGINE. -/
def withNet (slot : BitVec 2) (f : Group → Split → Nat → Net → State) (s : State) : Answer :=
  control (fun g p =>
    let key := netKey (s.partOf g) slot.toNat
    match FMap.get s.nets key with
    | some n => f g p key n
    | none => s.trap cENGINE 0) s

/-- RCPUB (R156, R420): it keeps the version it waits for. -/
def execCRcpub (n : BitVec 2) (s : State) : Answer :=
  withNet n (fun _ p key net =>
    if net.held.isSome then s.goOn 1
    else
      let want := match p.issued with
        | some w => w.val.toNat
        | none => if net.changed then net.version + 1 else net.version
      if want ≤ net.published then s.goOn 1
      else
        let s := if net.version < want ∧ !net.switching then s.publish (key / 4) (key % 4) else s
        s.hold 1 (BitVec.ofNat 64 want)) s

/-- RCHOLD (R156): after a switch that is in progress (R416). -/
def execCRchold (n : BitVec 2) (s : State) : Answer :=
  withNet n (fun _ _ key net =>
    if net.switching then s.hold 0 0
    else (s.updNet key (fun n => { n with held := some net.version })).goOn 1) s

/-- RCHOLD .off (R156). -/
def execCRcholdOff (n : BitVec 2) (s : State) : Answer :=
  withNet n (fun _ _ key _ => (s.updNet key (fun n => { n with held := none })).goOn 1) s

/-- RCSTEP (R156, R417): it waits for one of the 16 places of the queue. -/
def execCRcstep (b n : BitVec 2) (s : State) : Answer :=
  withNet n (fun _ _ key net =>
    if 16 ≤ net.pending.length then s.hold 0 0
    else (s.updNet key (fun n => { n with pending := n.pending ++ [64 * 4 ^ b.toNat] })).goOn 1) s

end Sys2Proof.Machine
end

