-- ==== Sys2Proof/Machine/Place.lean ====
section
/-! DEFINITION. Cut words and launch records (R137, R289, R290), the room of a core (R265, R266), handles (R138), and
the acceptance of a launch (R138, R440). -/

namespace Sys2Proof.Machine

/-- Fields of a cut word (R289). -/
def cutVreg (c : Word) : Nat := fld c 0 5
def cutPriv (c : Word) : Nat := fld c 5 9
def cutGroups (c : Word) : Nat := fld c 14 4 + 1
def cutScr (c : Word) : Nat := fld c 18 8
def cutAcc (c : Word) : Nat := fld c 26 5

/-- Granules of a unit (R290). -/
def cutGranules (c : Word) : Nat :=
  ceilDiv (cutGroups c * ((32 + 8 * cutVreg c) / 4 + ceilDiv (8 * cutPriv c) 32)) 3 + cutScr c + ceilDiv (20 * cutAcc c) 3

/-- The cut word is not refused (R290). -/
def cutOk (c : Word) : Bool :=
  decide (fld c 31 33 = 0 ∧ cutVreg c ≤ 25 ∧ cutPriv c ≤ 256 ∧ cutAcc c ≤ 16 ∧ cutGranules c ≤ 256)

/-- Word `i` of a record's bytes. -/
def recWord (bs : List Byte) (i : Nat) : Word := BitVec.ofNat 64 (natOfBytes ((bs.drop (8 * i)).take 8))

/-- A launch record at an address is valid (R137). -/
def recordOk (va : Word) (bs : List Byte) : Bool :=
  let w := recWord bs
  let gx := fld (w 4) 32 32
  let gy := fld (w 5) 0 32
  let gz := fld (w 5) 32 32
  decide (va.toNat % 64 = 0 ∧ fld (w 6) 16 48 = 0 ∧ w 7 = 0 ∧ fld (w 0) 0 7 = 0 ∧ fld (w 1) 0 7 = 0 ∧ gx ≠ 0 ∧ gy ≠ 0 ∧
    gz ≠ 0 ∧ gx * gy * gz ≤ 2 ^ 32) && cutOk (w 3)

/-- The launch that a record describes (R137). -/
def recordLaunch (bs : List Byte) (job phase graph order : Nat) (pred : Option Nat) : Launch :=
  let w := recWord bs
  { job := job, phase := phase, graph := graph, cfbase := w 0, lcbase := w 1, args := w 2, cut := w 3,
    entry := BitVec.ofNat 32 (fld (w 4) 0 32), gx := BitVec.ofNat 32 (fld (w 4) 32 32), gy := BitVec.ofNat 32 (fld (w 5) 0 32),
    gz := BitVec.ofNat 32 (fld (w 5) 32 32), slack := BitVec.ofNat 12 (fld (w 6) 0 12), prio := fld (w 6) 12 2,
    pers := bitOf (w 6) 14, dove := bitOf (w 6) 15, pred := pred, order := order, started := false, placed := 0, live := 0,
    triggered := [], cancelled := false, mark := false, done := false, barg := 0, reserved := [], codeFrom := 0 }

/-- The entry function of a launch. -/
def Launch.entryVa (l : Launch) : Word := l.cfbase + zext64 l.entry

/-! ### Room (R265, R266) -/

/-- Unit slots, launch group slots and granules. -/
structure Usage where
  units : Nat
  groups : Nat
  granules : Nat
deriving DecidableEq, Repr

/-- Usage of `n` units of a cut. -/
def usageOf (cut : Word) (n : Nat) : Usage := ⟨n, n * cutGroups cut, n * cutGranules cut⟩

/-- The sum of two usages. -/
def Usage.add (a b : Usage) : Usage := ⟨a.units + b.units, a.groups + b.groups, a.granules + b.granules⟩

/-- What a core holds: its resident units, and what persistent launches have reserved until they complete (R266);
those of a saved partition hold nothing (R375). -/
def State.usage (s : State) (core : Nat) : Usage :=
  let units := s.units.foldl (fun a e =>
    if coreOfGid e.1 = core then match s.launchOf e.2 with
      | some l => if l.pers then a else a.add (usageOf l.cut 1)
      | none => a
    else a) ⟨0, 0, 0⟩
  s.launches.foldl (fun a (e : Nat × Launch) =>
    let away := (FMap.get s.jobs e.2.job).any (fun j => (FMap.get s.parts j.part).any (fun p => p.saved))
    if e.2.pers ∧ !e.2.done ∧ !away then e.2.reserved.foldl (fun a r => if r.1 = core ∨ r.2 = some core then a.add (usageOf e.2.cut 1) else a) a
    else a) units

/-- A unit of a cut fits beside a usage (R265). -/
def fitsUsage (u : Usage) (cut : Word) : Bool :=
  decide (u.units < 64 ∧ u.groups + cutGroups cut ≤ 56 ∧ u.granules + cutGranules cut ≤ 256)

/-- A unit fits a core. -/
def State.fits (s : State) (cut : Word) (core : Nat) : Bool := fitsUsage (s.usage core) cut

/-- Resident groups of a core (R265). -/
def State.residents (s : State) (core : Nat) : Nat := (s.groups.filter (fun e => decide (coreOfGid e.1 = core))).length

/-- Reserve cores for `n` units, in the order of the units: for each the core that fits with the fewest groups, resident or reserved, the
lowest number first; a dovetail unit takes two cores of one cluster (R265 to R267). -/
def reserve (cut : Word) (dove : Bool) : Nat → List (Nat × Usage × Nat) → List (Nat × Option Nat) → Option (List (Nat × Option Nat))
  | 0, _, acc => some acc.reverse
  | n + 1, cs, acc =>
    let less := fun (a b : Nat × Usage × Nat) => decide (a.2.2 < b.2.2)
    let take := fun (c : Nat) (cs : List (Nat × Usage × Nat)) =>
      cs.map (fun e => if e.1 = c then (e.1, e.2.1.add (usageOf cut 1), e.2.2 + cutGroups cut) else e)
    let fit := cs.filter (fun e => fitsUsage e.2.1 cut)
    let pairs := fit.filter (fun e => fit.any (fun f => decide (f.1 ≠ e.1 ∧ clusterOf f.1 = clusterOf e.1)))
    match minBy less (if dove then pairs else fit) with
    | none => none
    | some c =>
      if dove then
        match minBy less (fit.filter (fun e => decide (e.1 ≠ c.1 ∧ clusterOf e.1 = clusterOf c.1))) with
        | none => none
        | some d => reserve cut dove n (take d.1 (take c.1 cs)) ((c.1, some d.1) :: acc)
      else reserve cut dove n (take c.1 cs) ((c.1, none) :: acc)

/-- The cores of a persistent launch's units, with the second core of a dovetail unit, unit by unit; none where they do not fit at once
(R266). DESIGN CHOICE: R266 does not tell which of the reserved cores a unit takes when the launch starts; it takes the one that R265
gave it at the acceptance (log entry 102). -/
def State.reserveAll (s : State) (part : Nat) (l : Launch) : Option (List (Nat × Option Nat)) :=
  if 64 * Config.nCores < l.total then none
  else reserve l.cut l.dove l.total ((coresOf (s.clustersOf part)).map (fun c => (c, s.usage c, s.residents c))) []

/-! ### Acceptance (R138, R260) -/

/-- The handle of a new launch: the device's choice within the bounds of R138 (log entry 8). -/
def State.pickHandle (s : State) : Nat :=
  let ok := fun h : Nat => decide (h ≠ 0) && (FMap.get s.launches h).isNone
  match ((List.range 8).map (fun i => (Config.handleChoice (s.fresh + i)).toNat)).find? ok with
  | some h => h
  | none => FMap.free s.launches 8192 1

/-- Launches of a partition that have not completed (R138). -/
def State.openLaunches (s : State) (part : Nat) : Nat :=
  (s.launches.filter (fun e => !e.2.done && (match FMap.get s.jobs e.2.job with | some j => decide (j.part = part) | none => false))).length

/-- Enter an accepted launch: it counts at its level at once (R260). Answers its handle. -/
def State.accept (s : State) (l : Launch) : State × Nat :=
  let h := s.pickHandle
  let s := { s with fresh := s.fresh + 8, launches := FMap.put s.launches h { l with order := s.fresh } }
  (s.settleJob l.job, h)

/-- A launch's entry function starts in user mode and within the cut (R120, R138). -/
def State.checkEntry (s : State) (core asid from_ : Nat) (user : Bool) (cut : Word) (t : Word) : State × Option (Nat × Word) :=
  s.checkCall core asid from_ (32 + 8 * cutVreg cut) (8 * cutPriv cut) user true none t

end Sys2Proof.Machine
end

