-- ==== Sys2Proof/Machine/Work.lean ====
section
/-! DEFINITION. Creating and ending work: C-code 0x80 to 0x83 (R138 to R141). -/

namespace Sys2Proof.Machine

/-- The line at a line offset from the word's own, its word 2 (R139). -/
def spawnEntry (p : Split) (i : BitVec 12) : Word := (p.pc &&& ~~~(0x7F : Word)) + 128 * sext64 i + 8

/-- The lowest group index at or above the launch's groups per unit that is free, if there is one below 16 (R139). DESIGN
CHOICE: R139 gives no outcome for a unit that holds fewer than 16 groups and has no such index left: SPAWN then answers all
ones (log entry 94). -/
def State.spawnIndex (s : State) (uid : Nat) (u : UnitRec) : Option Nat :=
  let used := (s.groupsOf uid).map (·.2.idx)
  (List.range 16).find? (fun i => decide (s.launchGroups u ≤ i) && !used.contains i)

/-- The lowest free one of the 8 spawn slots of a core, which are its group slots 56 to 63 (R139, R270). -/
def State.freeGslot (s : State) (core : Nat) : Option Nat :=
  ((List.range 8).map (56 + ·)).find? (fun k => (FMap.get s.groups (gidOf core k)).isNone)

/-- The index and the slot that a spawned group of a unit takes; none where R139 has no room for it. -/
def State.spawnRoom (s : State) (core uid : Nat) (u : UnitRec) : Option (Nat × Nat) :=
  if 16 ≤ u.groups then none
  else match s.spawnIndex uid u, s.freeGslot core with
    | some i, some k => some (i, k)
    | _, _ => none

/-- The address-space entry that governs a job (R445). -/
def State.jobSpace (s : State) (jid : Nat) : Option Space :=
  (FMap.get s.jobs jid).bind (fun j => match j.space with | some a => some a | none => FMap.get s.spaces j.asid)

/-- The start values of TVEC and FTPOOL of a job (R370, R444). -/
def State.startTvec (s : State) (jid : Nat) : Word := match s.jobSpace jid with | some a => a.tvec | none => 0
def State.startFtpool (s : State) (jid : Nat) : Word := match s.jobSpace jid with | some a => a.ftpool | none => 0

/-- The job of a unit's launch. -/
def State.jobKey (s : State) (u : UnitRec) : Nat := match s.launchOf u with | some l => l.job | none => 0

/-- A group is cancelled: CANCELLED is due (R141). -/
def Group.cancelDue (g : Group) : Group :=
  if g.cancelled then g
  else { g with cancelled := true, due := g.due ++ [⟨.S, cCANCELLED, false, 0, g.alive, 0, false⟩] }

/-- A group that SPAWN or the raster engine creates takes its slot in a unit; in cancelled work CANCELLED is due at once
(R139, R141). -/
def State.addSpawned (s : State) (core k uid : Nat) (new : Group) : State :=
  let gone := ((FMap.get s.units uid).bind (s.launchOf ·)).any (fun l => l.cancelled)
  let s := s.putGroup (gidOf core k) (if gone then new.cancelDue else new)
  s.updUnit uid (fun u => { u with groups := u.groups + 1, gslots := u.gslots ++ [k] })

/-- SPAWN (R139). -/
def execCSpawn (d a : BitVec 6) (i : BitVec 12) (s : State) : Answer :=
  scalarWord [a] d (fun g p =>
    match s.unitOf g with
    | none => s.trap cBADTARGET 0
    | some u =>
      let t := spawnEntry p i
      match s.checkCall s.cur.core (s.asidOf g) (s.codeFrom g) u.vregs u.priv p.user true none t with
      | (s, some (c, v)) => s.trap c v
      | (s, none) =>
        match s.spawnRoom s.cur.core g.uid u with
        | some (idx, k) =>
          let job := s.jobKey u
          let new := Group.start g.uid idx true t p.dslack (s.startTvec job) (s.startFtpool job) (s.core s.cur.core).ccyc
          let new := { new with mode := g.mode, slktab := g.slktab }.setS 0 48 false (readS g p a)
          ((s.addSpawned s.cur.core k g.uid new).writeS p d (BitVec.ofNat 64 idx)).goOn 1
        | none => (s.writeS p d (BitVec.allOnes 64)).goOn 1) s

/-- A refusal of LAUNCH (R138). -/
def launchCode (n : Nat) : Word := BitVec.ofNat 64 (2 ^ 63 + n)

/-- Where the new launch is placed: its phase, its graph, and the job's counts (R138). -/
def launchPlace (level : Nat) (l : Launch) (j : Job) : Nat × Nat × Job :=
  match level with
  | 0 => (l.phase, l.graph, j)
  | 1 =>
    let n := FMap.rd 1 j.graphs l.phase
    (l.phase, n, { j with graphs := FMap.put j.graphs l.phase (n + 1) })
  | _ => (j.phases, 0, { j with phases := j.phases + 1, graphs := FMap.put j.graphs j.phases 1 })

/-- In `Job.levels`, every graph of a phase. -/
def wholePhase : Nat := 2 ^ 32

/-- LAUNCH at a level (R138): the record is read as a load of the control stream (R336); in a cancelled graph, phase or job the
launch never starts (R262). -/
def launch (level : Nat) (d a b : BitVec 6) (s : State) : Answer :=
  scalarWord [a, b] d (fun g p =>
    let va := readS g p a
    let pred := (readS g p b).toNat
    let asid := s.asidOf g
    if s.readWaits s.gid s.cur.place asid p.user va.toNat 64 then s
    else match s.readVa s.cur.core asid p.user 3 va.toNat 64, s.unitOf g with
    | (s, .error (c, v)), _ => s.trap c v
    | (s, .ok (bs, bad)), u =>
      let s := s.poisonDue bad va p.mask
      let answer := fun (s : State) (w : Word) => (s.writeS p d w).goOn 1
      match u.bind (s.launchOf ·), s.jobOfGroup g with
      | some me, some j =>
        if !recordOk va bs then answer s (launchCode 2)
        else
          let new := recordLaunch bs me.job 0 0 0 none
          match s.checkEntry s.cur.core asid s.stores p.user new.cut new.entryVa with
          | (s, some (c, v)) => s.trap c v
          | (s, none) =>
            let known := match FMap.get s.launches pred with
              | some q => decide (q.job = me.job ∧ q.phase = me.phase ∧ q.graph = me.graph)
              | none => false
            if pred ≠ 0 ∧ (level ≠ 0 ∨ !known) then answer s (launchCode 4)
            else if 4096 ≤ s.openLaunches j.part then answer s (launchCode 3)
            else
              match (if new.pers then s.reserveAll j.part new else some []) with
              | none => answer s (launchCode 1)
              | some reserved =>
                let (phase, graph, j') := launchPlace level me j
                let gone := j.cancelled || j.levels.contains (phase, graph) || j.levels.contains (phase, wholePhase)
                let new := { new with phase := phase, graph := graph, pred := if pred = 0 then none else some pred,
                                      cancelled := gone, mark := gone, reserved := reserved }
                let (s, h) := ({ s with jobs := FMap.put s.jobs me.job j' }).accept new
                answer s (BitVec.ofNat 64 h)
      | _, _ => answer s (launchCode 2)) s

/-- LAUNCH (R138). -/
def execCLaunch (d a b : BitVec 6) (s : State) : Answer := launch 0 d a b s
/-- LAUNCH.graph (R138). -/
def execCLaunchGraph (d a b : BitVec 6) (s : State) : Answer := launch 1 d a b s
/-- LAUNCH.phase (R138). -/
def execCLaunchPhase (d a b : BitVec 6) (s : State) : Answer := launch 2 d a b s

/-- The signal of a group's TRIGGER leaves its core once the writes that it releases have been performed (R140). -/
def State.settleSignal (s : State) (gid : Nat) : State :=
  match FMap.get s.groups gid with
  | none => s
  | some g =>
    match g.signal with
    | none => s
    | some w =>
      let upto := match w.upto with | some n => some n | none => if w.runs = 0 then some s.nextPkt else none
      let waits := match upto with
        | some n => s.pkts.any (fun e => decide (e.1 < n) && e.2.pending gid w.tags)
        | none => true
      if waits then s.putGroup gid { g with signal := some { w with upto := upto } }
      else (s.putGroup gid { g with signal := none }).settleTrigger g.uid

/-- TRIGGER (R140): it completes at once; its signal follows the release of the split's earlier writes. A later one of the
group does nothing. -/
def execCTrigger (s : State) : Answer :=
  control (fun g p =>
    if g.triggered then s.goOn 1
    else
      let w : Signal := ⟨s.cur.place, p.sm, p.runsLeft, p.tags, none⟩
      ((s.updGroup s.gid (fun g => { g with triggered := true, signal := some w })).settleSignal s.gid).goOn 1) s

/-- The launches that CANCEL names (R141): level 0 launch, 1 graph, 2 phase, 3 job. -/
def cancelSet (level : Nat) (h : Nat) (t l : Launch) (key : Nat) : Bool :=
  decide (l.job = t.job) && (match level with
    | 0 => decide (key = h)
    | 1 => decide (l.phase = t.phase ∧ l.graph = t.graph)
    | 2 => decide (l.phase = t.phase)
    | _ => true)

/-- The groups of a launch. -/
def State.inLaunches (s : State) (keys : List Nat) (g : Group) : Bool :=
  match s.unitOf g with | some u => keys.contains u.launch | none => false

/-- The graph or phase that CANCEL names, as `Job.levels` keeps it (R262). -/
def cancelLevel (level : Nat) (t : Launch) : List (Nat × Nat) :=
  match level with
  | 1 => [(t.phase, t.graph)]
  | 2 => [(t.phase, wholePhase)]
  | _ => []

/-- Cancel launches, graphs and phases, and every resident group of them but `self` (R141, R262). -/
def State.cancelLaunches (s : State) (keys : List Nat) (levels : List (Nat × Nat)) (jobToo : Bool) (jid : Nat) (self : Option Nat) :
    State :=
  let mark := fun (e : Nat × Launch) =>
    if keys.contains e.1 ∧ !e.2.done then (e.1, { e.2 with cancelled := true, mark := true }) else e
  let due := fun (e : Nat × Group) => if s.inLaunches keys e.2 ∧ some e.1 ≠ self then (e.1, e.2.cancelDue) else e
  let jobs := FMap.upd s.jobs jid (fun j =>
    { j with cancelled := j.cancelled || jobToo, mark := j.mark || jobToo, levels := j.levels ++ levels })
  ({ s with launches := s.launches.map mark, groups := s.groups.map due, jobs := jobs }).settleJob jid

/-- CANCEL at a level (R141): it completes when every cancelled group but the issuing one has ended. -/
def cancel (level : Nat) (d a : BitVec 6) (s : State) : Answer :=
  scalarWord [a] d (fun g p =>
    let answer := fun (s : State) (w : Word) => (s.writeS p d w).goOn 1
    let me := s.unitOf g
    let av := sourceAt g p 0 a
    let h := av.toNat
    match FMap.get s.launches h, me.bind (s.launchOf ·) with
    | some t, some l =>
      if t.job ≠ l.job then answer s 2
      else
        let keys := (s.launches.filter (fun e => cancelSet level h t e.2 e.1)).map (·.1)
        let done := keys.all (fun k => match FMap.get s.launches k with | some x => x.done | none => true)
        if p.issued.isNone ∧ done then answer s 1
        else
          let s := if p.issued.isNone then s.cancelLaunches keys (cancelLevel level t) (decide (level = 3)) t.job (some s.gid) else s
          if s.groups.any (fun e => decide (e.1 ≠ s.gid) && s.inLaunches keys e.2) then s.holdWith cancelWait 0 [av]
          else
            let s := answer s 0
            if keys.contains ((me.map (·.launch)).getD 0) then s.updGroup s.gid Group.cancelDue else s
    | _, _ => answer s 2) s

/-- CANCEL (R141). -/
def execCCancel (d a : BitVec 6) (s : State) : Answer := cancel 0 d a s
/-- CANCEL.graph (R141). -/
def execCCancelGraph (d a : BitVec 6) (s : State) : Answer := cancel 1 d a s
/-- CANCEL.phase (R141). -/
def execCCancelPhase (d a : BitVec 6) (s : State) : Answer := cancel 2 d a s
/-- CANCEL.job (R141). -/
def execCCancelJob (d a : BitVec 6) (s : State) : Answer := cancel 3 d a s

end Sys2Proof.Machine
end

