-- ==== Sys2Proof/Machine/Raster.lean ====
section
/-! DEFINITION. The raster engine: HBIND .raster and its firings (R421 to R426). -/

namespace Sys2Proof.Machine

/-- The descriptor keeps R421 beside the hods that it binds. -/
def rasterDescOk (bs : List Byte) (hi ho : Hod) : Bool :=
  let w := fun i => natOfBytes ((bs.drop (8 * i)).take 8)
  let pitch := w 1 / 2 ^ 32
  let height := w 1 / 2 ^ 16 % 2 ^ 16
  let width := w 1 % 2 ^ 16
  let count := w 2 % 2 ^ 8
  decide (w 0 % 8 = 0 ∧ pitch % 8 = 0 ∧ 8 * width ≤ pitch ∧ 1 ≤ height ∧ height ≤ 16384 ∧ 1 ≤ width ∧ width ≤ 16384 ∧
    w 2 / 2 ^ 28 = 0 ∧ w 2 / 2 ^ 11 % 2 ^ 5 = 0 ∧ w 2 / 2 ^ 9 % 4 ≠ 3 ∧ 1 ≤ count ∧ count ≤ 85 ∧ 48 * count ≤ hi.slotb ∧
    16 ≤ ho.slotb ∧ w 3 / 2 ^ 32 = 0)

/-- HBIND .raster (R149, R421). -/
def execCHbindRaster (i o b : BitVec 6) (s : State) : Answer :=
  scalarWord [b] 0 (fun g p =>
    readDesc s g p (readS g p b) 32 32 (fun s bs =>
      let w := fun i => natOfBytes ((bs.drop (8 * i)).take 8)
      let cl := clusterOf s.cur.core
      match s.unitOf g, (s.unitOf g).bind (fun u => bindable u i.toNat o.toNat) with
      | some u, some (hi, ho) =>
        if !rasterDescOk bs hi ho ∨ (FMap.get s.rasters cl).isSome then s.trap cHODFAULT 0
        else
          let base := match s.launchOf u with | some l => l.cfbase | none => 0
          let entry := base + BitVec.ofNat 64 (w 3)
          let asid := s.asidOf g
          let bind := fun s : State =>
            let e : Raster :=
              { uid := g.uid, hin := i.toNat, hout := o.toNat, vb := BitVec.ofNat 64 (w 0), pitch := w 1 / 2 ^ 32,
                height := w 1 / 2 ^ 16 % 2 ^ 16, width := w 1 % 2 ^ 16, cull := w 2 / 2 ^ 9 % 4,
                zle := decide (w 2 / 2 ^ 8 % 2 = 1), count := w 2 % 2 ^ 8, entry := if w 3 = 0 then none else some entry,
                um := p.user, asid := asid, mode := g.mode, slktab := g.slktab, dslack := p.dslack, report := none,
                blocks := [], slack := w 2 / 2 ^ 16 % 2 ^ 12 }
            (({ s with rasters := FMap.put s.rasters cl e }).bindHods g.uid i.toNat o.toNat .raster).goOn 1
          if w 3 = 0 then bind s
          else match s.checkCall s.cur.core asid (s.codeFrom g) u.vregs u.priv p.user true none entry with
            | (s, some (c, v)) => s.trap c v
            | (s, none) => bind s
      | _, _ => s.trap cHODFAULT 0)) s

/-! ### Triangles (R422 to R424) -/

/-- A vertex: 16.8 fixed point and depth. -/
structure Vertex where
  x : Int
  y : Int
  z : Flt
deriving DecidableEq, Repr

/-- E_ab(p) of R423. -/
def edgeFn (a b : Vertex) (x y : Int) : Int := (b.x - a.x) * (y - a.y) - (b.y - a.y) * (x - a.x)

/-- The edge a→b is owned (R423). -/
def edgeOwned (a b : Vertex) : Bool := decide (b.y - a.y < 0) || (decide (b.y - a.y = 0) && decide (0 < b.x - a.x))

/-- A triangle with A > 0. -/
structure Tri where
  v0 : Vertex
  v1 : Vertex
  v2 : Vertex
  area : Int
  id : Nat
deriving DecidableEq, Repr

/-- The triangle of a record, `rd o n` the number that n of its bytes spell; none where it is discarded or culled (R422,
R423). -/
def triOf (cull : Nat) (rd : Nat → Nat → Nat) : Option Tri :=
  let c := fun o => sextNat 32 (rd o 4)
  let inside := (List.range 6).all (fun k => decide (-(2 ^ 23) ≤ c (4 * k) ∧ c (4 * k) ≤ 2 ^ 23 - 1))
  let v := fun k => (⟨c (8 * k), c (8 * k + 4), Flt.ofBits fmt32 (rd (0x18 + 4 * k) 4)⟩ : Vertex)
  let a := edgeFn (v 0) (v 1) (v 2).x (v 2).y
  if !inside ∨ rd 0x28 8 ≠ 0 ∨ a = 0 ∨ (cull = 1 ∧ a < 0) ∨ (cull = 2 ∧ 0 < a) then none
  else if a < 0 then some ⟨v 0, v 2, v 1, -a, rd 0x24 4⟩
  else some ⟨v 0, v 1, v 2, a, rd 0x24 4⟩

/-- The three edge values at a pixel's sample point, where it is covered (R423). -/
def Tri.covers (t : Tri) (px py : Nat) : Option (Int × Int × Int) :=
  let x : Int := 256 * px + 128
  let y : Int := 256 * py + 128
  let ok := fun (a b : Vertex) (e : Int) => decide (0 < e) || (decide (e = 0) && edgeOwned a b)
  let e01 := edgeFn t.v0 t.v1 x y
  let e12 := edgeFn t.v1 t.v2 x y
  let e20 := edgeFn t.v2 t.v0 x y
  if ok t.v0 t.v1 e01 && ok t.v1 t.v2 e12 && ok t.v2 t.v0 e20 then some (e01, e12, e20) else none

/-- The key that a covered pixel offers (R424). -/
def Tri.key (t : Tri) (e : Int × Int × Int) : Option Nat :=
  let sum := Flt.sum [Flt.mul (Flt.ofInt e.2.1) t.v0.z, Flt.mul (Flt.ofInt e.2.2) t.v1.z, Flt.mul (Flt.ofInt e.1) t.v2.z]
  let z := round fmt32 0 (Flt.div sum (Flt.ofInt t.area))
  if isNanBits fmt32 z then none
  else if z = 2 ^ 31 then some t.id
  else if 2 ^ 31 < z then none
  else some (z * 2 ^ 32 + t.id)

/-- The pixels at which a triangle can cover anything, rows first. -/
def Tri.pixels (t : Tri) (w h : Nat) : List (Nat × Nat) :=
  let lo := fun a b c : Int => ((min a (min b c)) / 256).toNat
  let hi := fun (a b c : Int) (n : Nat) => min ((max a (max b c)) / 256 + 1).toNat n
  let x0 := lo t.v0.x t.v1.x t.v2.x
  let x1 := hi t.v0.x t.v1.x t.v2.x w
  let y0 := lo t.v0.y t.v1.y t.v2.y
  let y1 := hi t.v0.y t.v1.y t.v2.y h
  (List.range (y1 - y0)).flatMap (fun j => (List.range (x1 - x0)).map (fun i => (x0 + i, y0 + j)))

/-! ### A firing (R424 to R426) -/

/-- Update one pixel by an atomic at its home, at once whatever the engine's slack (R424; log entry 86): whether it was replaced, or the fault. A poisoned entry stays so. -/
def State.rasterPixel (s : State) (e : Raster) (core part : Nat) (px py key : Nat) : State × Except (Nat × Word) Bool :=
  let va := (e.vb.toNat + e.pitch * py + 8 * px) % 2 ^ 64
  match translate s core e.asid va .write e.um with
  | (s, .error c) => (s, .error (c, BitVec.ofNat 64 va))
  | (s, .ok (leaf, loc)) =>
    if leafPeer leaf ≠ 0 then (s, .error (cPAGEFAULT, BitVec.ofNat 64 va))
    else
      let s := (s.fillRange e.asid part loc 8 true).chargeNet (clusterOf core) part 2
      let old := s.natAt loc 8
      let bad := s.poisonedAt loc 8
      let takes := if e.zle then decide (key / 2 ^ 32 ≤ old / 2 ^ 32) else decide (key < old)
      if takes then
        let s := (s.dropGuest (sectorOf core) (loc / 128)).writeHome e.asid part loc (bytesOf 8 key)
        (if bad then s.setPoison loc true else s, .ok true)
      else (s, .ok false)

/-- What a firing has come to: the pixels replaced, the records discarded or culled, the fault that stops it. -/
structure FiringRun where
  s : State
  hit : List (Nat × Nat)
  culled : Nat
  fault : Option (Nat × Word)

/-- Draw one triangle. -/
def FiringRun.draw (r : FiringRun) (e : Raster) (core part : Nat) (t : Tri) : FiringRun :=
  (t.pixels e.width e.height).foldl (fun r p =>
    if r.fault.isSome then r
    else match (t.covers p.1 p.2).bind t.key with
      | none => r
      | some key =>
        match r.s.rasterPixel e core part p.1 p.2 key with
        | (s, .error f) => { r with s := s, fault := some f }
        | (s, .ok true) => { r with s := s, hit := if r.hit.contains p then r.hit else p :: r.hit }
        | (s, .ok false) => { r with s := s }) r

/-- Draw the records of an input slot in slot order. -/
def State.rasterSlot (s : State) (e : Raster) (core part : Nat) (u : UnitRec) (slot : Nat) : FiringRun :=
  (List.range e.count).foldl (fun r k =>
    if r.fault.isSome then r
    else match triOf e.cull (fun o n => u.scrAt (slot + 48 * k + o) n) with
      | none => { r with culled := r.culled + 1 }
      | some t => r.draw e core part t) ⟨s, [], 0, none⟩

/-- The lane of a pixel in its block (R426). -/
def pixelLane (px py : Nat) : Nat := 4 * (4 * (py % 4 / 2) + px % 8 / 2) + 2 * (py % 2) + px % 2

/-- The groups that a firing creates, in ascending block row, then block column (R426). -/
def blocksOf (hit : List (Nat × Nat)) : List RasterBlock :=
  let keys := dedup (hit.map (fun p => (p.2 / 4, p.1 / 8)))
  let less := fun (a b : Nat × Nat) => decide (a.1 < b.1) || (decide (a.1 = b.1) && decide (a.2 < b.2))
  (sortBy less keys).map (fun k =>
    let covered := lanesOf (fun l => hit.any (fun p => decide (p.2 / 4 = k.1 ∧ p.1 / 8 = k.2 ∧ pixelLane p.1 p.2 = l)))
    let mask := lanesOf (fun l => (List.range 4).any (fun i => inLanes covered (4 * (l / 4) + i)))
    ⟨BitVec.ofNat 64 (8 * k.2 + 4 * k.1 * 2 ^ 16), mask, mask &&& ~~~covered⟩)

/-- Create the group of a block in the binding unit as SPAWN creates one; none where no slot is free (R139, R426). -/
def State.rasterSpawn (s : State) (e : Raster) (b : RasterBlock) : Option State :=
  let core := coreOfGid e.uid
  match FMap.get s.units e.uid, e.entry with
  | some u, some t =>
    match s.spawnRoom core e.uid u with
    | some (idx, k) =>
      let job := s.jobKey u
      let new := Group.start e.uid idx true t e.dslack (s.startTvec job) (s.startFtpool job) (s.core core).ccyc
      let new := { new with mode := e.mode, slktab := e.slktab, helper := b.helper }.setS 0 48 false b.origin
      let new := new.updSplit 0 (fun p => { p with mask := b.mask })
      some (s.addSpawned core k e.uid new)
    | none => none
  | _, _ => none

/-- Create groups while there is room; what is left waits. -/
def State.rasterSpawns (s : State) (e : Raster) : List RasterBlock → State × List RasterBlock
  | [] => (s, [])
  | b :: bs =>
    match s.rasterSpawn e b with
    | some s => s.rasterSpawns e bs
    | none => (s, b :: bs)

/-- The groups that room allows, then the output record and the advance of both hods (R425, R426). -/
def State.rasterEnd (s : State) (cl : Nat) (e : Raster) (report : Word × Word) (blocks : List RasterBlock) : State :=
  let (s, left) := s.rasterSpawns e blocks
  match left with
  | _ :: _ => { s with rasters := FMap.put s.rasters cl { e with report := some report, blocks := left } }
  | [] =>
    let s := { s with rasters := FMap.put s.rasters cl { e with report := none, blocks := [] } }
    match (FMap.get s.units e.uid).bind (fun u => FMap.get u.hods e.hout) with
    | none => s
    | some ho =>
      let out := ho.slotAt ho.p
      let s := s.updUnit e.uid (fun u => u.scrPut out (bytesOf 8 report.1.toNat ++ bytesOf 8 report.2.toNat))
      (s.updHod e.uid e.hout (fun h => { h with p := h.p + 1 })).updHod e.uid e.hin (fun h => { h with c := h.c + 1 })

/-- RASTER_FIRING: with an input slot and room, the engine draws the slot's triangles; a firing that waits for room goes on
creating its groups (R424 to R426). -/
def execEvRasterFiring (cluster : Nat) (s : State) : Answer :=
  match FMap.get s.rasters cluster with
  | none => .next s
  | some e =>
    match FMap.get s.units e.uid, e.report with
    | none, _ => .next s
    | some _, some report => .next (s.rasterEnd cluster e report e.blocks)
    | some u, none =>
      match FMap.get u.hods e.hin, FMap.get u.hods e.hout with
      | some hi, some ho =>
        if hi.fill = 0 ∨ ho.room = 0 then .next s
        else
          let part := match s.jobOf u with | some j => j.part | none => 0
          let r := s.rasterSlot e (coreOfGid e.uid) part u (hi.slotAt hi.c)
          match r.fault with
          | some (c, va) =>
            .next (({ r.s with rasters := FMap.del r.s.rasters cluster }).engineFault e.uid e.hin e.hout c va)
          | none =>
            let report := (BitVec.ofNat 64 (r.hit.length + r.culled * 2 ^ 32), BitVec.ofNat 64 e.count)
            .next (r.s.rasterEnd cluster e report (if e.entry.isSome then blocksOf r.hit else []))
      | _, _ => .next s

end Sys2Proof.Machine
end

