-- ==== Sys2Proof/Machine/Runs.lean ====
section
/-! DEFINITION. RUN, RUNP and WAITF (R17 to R24, R30, R41, R123, R124): fetching and checking a run. -/

namespace Sys2Proof.Machine

/-! ### L-code lines (R17 to R21) -/

/-- The trailer's opcode (R21). -/
def isTrailer (b : Nat) : Bool := decide (fieldAt b 86 10 = 0x3FF)

/-- A reserved field of the header is nonzero, or an ENTRY bit stands without START (R18). -/
def lcodeBad (h : Word) : Bool :=
  decide (fld h 26 38 ≠ 0 ∨ fld h 10 6 ≠ 0) || (List.range 10).any (fun k => bitOf h (16 + k) && !bitOf h k)

/-- A slot as fetched: its bits and its START bit. -/
structure Slot where
  bits : LBits
  start : Bool
deriving DecidableEq, Repr

/-- The slots of one line from `slot` on, at most `n` of them, up to the trailer. -/
def slotsOf (line : List Byte) : Nat → Nat → List Slot
  | 0, _ => []
  | n + 1, slot =>
    if 10 ≤ slot then []
    else
      let here : Slot := ⟨BitVec.ofNat 96 (natOfBytes ((line.drop (8 + 12 * slot)).take 12)), bitOf (headerOf line) slot⟩
      if isTrailer here.bits.toNat then [here] else here :: slotsOf line n (slot + 1)

/-- The last of some slots is a trailer. -/
def endsRun (ss : List Slot) : Bool := match ss.getLast? with | some x => isTrailer x.bits.toNat | none => false

/-- Fetch the slots that follow those of a run's first line, line by line, up to the trailer or 25 slots in all (R20, R22
step 5). `n` bounds the lines. -/
def fetchSlots (core asid from_ : Nat) (user : Bool) (lcbase : Word) : Nat → Nat → List Slot → State → State × Except (Nat × Word) (List Slot)
  | 0, _, have_, s => (s, .ok have_)
  | n + 1, line, have_, s =>
    if endsRun have_ ∨ 25 ≤ have_.length then (s, .ok have_)
    else
      let va := lcbase + BitVec.ofNat 64 (128 * line)
      match s.fetchLine core asid from_ user va with
      | (s, .error c) => (s, .error (c, va))
      | (s, .ok bs) =>
        if lcodeBad (headerOf bs) then (s, .error (cILLEGAL, 0))
        else fetchSlots core asid from_ user lcbase n (line + 1) (have_ ++ slotsOf bs (25 - have_.length) 0) s

/-! ### What the instructions of a run read and write (R22, R24) -/

/-- A V or K register. -/
def isVK (r : Nat) : Bool := decide (r < 232)

/-- The need set of a run (R24). -/
def needSet (us : List Uses) : List Nat :=
  (us.foldl (fun (acc : List Nat × List Nat) u =>
    let reads := (u.srcs.filter (fun s => isVK s.1 && !s.2 && !acc.2.contains s.1)).map (·.1)
    (acc.1 ++ reads ++ u.dsts.filter isVK, acc.2 ++ u.dsts)) ([], [])).1

/-- A producer's destination that R22 refuses. -/
def badProducer (u : Uses) : Bool :=
  u.prod && u.dsts.any (fun r => decide ((232 ≤ r ∧ r ≤ 243) ∨ (245 ≤ r ∧ r ≤ 250)))

/-- The run reads or writes a register that an earlier instruction made empty, or reads a T register that none wrote. -/
def hazard (us : List Uses) : Bool :=
  (us.foldl (fun (acc : Bool × List Nat × List Nat) u =>
    let bad := (u.srcs.map (·.1) ++ u.dsts).any (fun r => acc.2.1.contains r) ||
      u.srcs.any (fun s => decide (232 ≤ s.1 ∧ s.1 < 240) && !acc.2.2.contains s.1)
    let empty := if u.prod then acc.2.1 ++ u.dsts.filter (fun r => decide (r ≠ 244)) else acc.2.1
    let wrote := if u.prod then acc.2.2 else acc.2.2 ++ u.dsts
    (acc.1 || bad, empty, wrote)) (false, [], [])).1

/-- The instruction is DDX, DDY or QSWAP. -/
def isQuad : Instr → Bool
  | .lDdx _ | .lDdy _ | .lQswap _ => true
  | _ => false

/-- The await entries of a trailer in use, and those not in use (R21). -/
def awaits (t : Nat) : List Nat × List Nat :=
  let all := (List.range 6).map (fun i => fieldAt t (70 - 8 * i) 8)
  (all.take (fieldAt t 78 3), all.drop (fieldAt t 78 3))

/-- Two lists hold the same numbers. -/
def sameSet (a b : List Nat) : Bool := a.all (fun x => b.contains x) && b.all (fun x => a.contains x)

/-- The BADRUN conditions of R22 on decoded instructions, the slots and the trailer. An instruction that takes its rows from the
operand latch names block a all the same, and its numbers must be within the allocation (R222). -/
def badRun (sup : Bool) (vregs : Nat) (is : List Instr) (slots : List Slot) (t : Nat) : Bool :=
  let us := usesIn false is
  let len := fieldAt t 81 5
  let (used, idle) := awaits t
  let firsts := (us.filter (fun u => u.prod && decide (u.first ≠ 244))).map (·.first)
  let above := (is.map (usesOf false)).any (fun u => (u.srcs.map (·.1) ++ u.dsts).any (fun r =>
    isVK r && decide (vregs ≤ r) && !(sup && decide (216 ≤ r))))
  decide (len ≠ is.length) || decide (len = 0 ∨ 24 < len) || decide (fieldAt t 78 3 = 7) ||
    (slots.drop 1).any (·.start) || used.any (fun r => decide (231 < r)) || decide (dedup used ≠ used) ||
    idle.any (fun r => decide (r ≠ 0)) || !sameSet firsts used || hazard us || us.any badProducer || above ||
    decide (is.any isQuad ≠ decide (fieldAt t 29 1 = 1)) || decide (fieldAt t 0 28 ≠ 0)

/-- An MMA or MMAS uses the latch with another a field than the instruction that set it (R232). -/
def latchBad (is : List Instr) : Bool :=
  (is.foldl (fun (acc : Bool × Option (BitVec 8)) i =>
    let use := fun f : LF => (acc.1 || acc.2.any (fun a => decide (a ≠ f.a)), if f.md.toNat / 2 % 2 = 1 then some f.a else none)
    match i with
    | .lMma f => use f
    | .lMmas f => use f
    | _ => acc) (false, none)).1

/-- A checked run: its instructions' bits and its trailer; or the cause and TVAL (R19, R22). DESIGN CHOICE: where none of the 25 slots
ends the run, R22 does not tell whether step 6 decodes all of them before BADRUN; it does (log entry 102). -/
def State.checkRun (s : State) (core asid from_ : Nat) (user : Bool) (lcbase : Word) (vregs line slot : Nat) :
    State × Except (Nat × Word) (List LBits × Nat) :=
  let at_ := lcbase + BitVec.ofNat 64 (128 * line)
  let named := at_ + BitVec.ofNat 64 (8 + 12 * slot)
  if 10 ≤ slot then (s, .error (cBADTARGET, named))
  else match s.fetchLine core asid from_ user at_ with
    | (s, .error c) => (s, .error (c, at_))
    | (s, .ok bs) =>
      let h := headerOf bs
      if lcodeBad h then (s, .error (cILLEGAL, 0))
      else if !bitOf h slot ∨ (user ∧ !bitOf h (16 + slot)) then (s, .error (cBADTARGET, named))
      else match fetchSlots core asid from_ user lcbase 3 (line + 1) (slotsOf bs 25 slot) s with
        | (s, .error e) => (s, .error e)
        | (s, .ok slots) =>
          let ended := endsRun slots
          let body := if ended then slots.dropLast else slots
          let is := body.map (fun x => decodeLane x.bits.toNat)
          if is.any (·.isNone) || latchBad (is.filterMap id) then (s, .error (cILLEGAL, 0))
          else
            let t := match slots.getLast? with | some x => x.bits.toNat | none => 0
            if !ended ∨ badRun (!user) vregs (is.filterMap id) slots t then (s, .error (cBADRUN, 0))
            else (s, .ok (body.map (·.bits), t))

/-- A new run at the end of the split's queue (R23, R30). -/
def newRun (line slot : Nat) (active : Lanes) (q : FMap Word) (bits : List LBits) (t : Nat) (sup : Bool) (dove : Option Dove) : Run :=
  { line := line, slot := slot, active := active, q := q,
    todo := ((List.range bits.length).zip bits).map (fun e => ⟨e.1, e.2, 0xFFFF_FFFF⟩),
    names := lineSet sup (usesIn false (bits.filterMap (fun b => decodeLane b.toNat))), qd := decide (fieldAt t 29 1 = 1),
    np := decide (fieldAt t 28 1 = 1), sup := sup, t := [], suspended := false, resumed := false, charged := false,
    latch := none, since := none, waited := 0, overdue := none, dove := dove, mate := none, begun := false }

/-- RUN and RUNP, once the waits of R23, R30 and R97 have ended. -/
def enqueueRun (line slot : Nat) (active : Lanes) (s : State) (g : Group) (p : Split) : State :=
  let u := s.unitOf g
  let lcbase := match u.bind (s.launchOf ·) with | some l => l.lcbase | none => 0
  match s.checkRun s.cur.core (s.asidOf g) (s.codeFrom g) p.user lcbase ((u.map (·.vregs)).getD 0) line slot with
  | (s, .error (c, v)) => s.trap c v
  | (s, .ok (bits, t)) =>
    let q := (List.range 4).foldl (fun m i => FMap.wr 0 m i (getS g p (56 + i) p.sm)) ([] : FMap Word)
    let r := newRun line slot active q bits t p.sm (if u.any (·.twin.isSome) then some Dove.start else none)
    (s.onSplit (fun p => { p with runq := p.runq ++ [r] })).goOn 1

/-- The run queue is full, or a snapshot register is empty (R23, R30). -/
def runHeld (g : Group) (p : Split) : Bool :=
  decide (Config.runQueueEntries ≤ p.runq.length) || (List.range 4).any (fun i => getSEmpty g p (56 + i) p.sm)

/-- RUN (R123). -/
def execCRun (l : BitVec 18) (sl : BitVec 4) (s : State) : Answer :=
  control (fun g p => if runHeld g p then s else enqueueRun l.toNat sl.toNat p.mask s g p) s

/-- RUNP (R41, R123): the split's mask and a predicate, read after the wait of R97. -/
def execCRunp (n : BitVec 3) (l : BitVec 17) (sl : BitVec 4) (s : State) : Answer :=
  control (fun g p =>
    if runHeld g p ∨ p.runsLeft ≠ 0 then s
    else enqueueRun l.toNat sl.toNat (p.mask &&& lanesOf (fun l => g.getP n.toNat l)) s g p) s

/-- WAITF (R124). -/
def execCWaitf (s : State) : Answer := control (fun g p => if s.lanesDrained g p then s.goOn 1 else s.hold 0 0) s

/-- WAITF with a register (R124). -/
def execCWaitfV (a : BitVec 6) (s : State) : Answer :=
  control (fun g p =>
    if s.vregsOf g ≤ a.toNat then s.trap cILLEGAL 0
    else if !s.lanesDrained g p then s.hold 0 0
    else if vReady g a.toNat p.mask then s.goOn 1
    else (s.wantLine g a.toNat).hold 0 0) s

end Sys2Proof.Machine
end

