-- ==== Sys2Proof/Machine/System.lean ====
section
/-! DEFINITION. System registers, TRAP and BKPT, the words that end or steer a handler, and address mapping: C-code
0xC0 to 0xC9 (R157 to R163, R366 to R374). -/

namespace Sys2Proof.Machine

/-! ### System registers (R157, R158) -/

/-- STATUS of a split. -/
def Split.status (p : Split) : Word :=
  BitVec.ofNat 64 ((if p.sm then 1 else 0) + (if p.pm then 2 else 0) + if p.wr then 4 else 0)

/-- The launch of a group. -/
def State.launchOfGroup (s : State) (g : Group) : Option Launch := (s.unitOf g).bind (s.launchOf ·)

/-- The value of a system register; none for an unassigned number. -/
def readSys (s : State) (g : Group) (p : Split) (r : Nat) : Option Word :=
  let u := s.unitOf g
  let l := s.launchOfGroup g
  let ofU := fun f : UnitRec → Word => some ((u.map f).getD 0)
  let ofL := fun f : Launch → Word => some ((l.map f).getD 0)
  match r with
  | 0x000 => some (zext64 g.mode)
  | 0x001 => some (zext64 g.slktab)
  | 0x002 => some (zext64 p.dslack)
  | 0x003 => some (zext64 g.latecnt)
  | 0x004 => ofU (fun u => zext64 u.puterr)
  | 0x005 => some (s.endpoint g.uid)
  | 0x006 => ofL (fun l => l.args)
  | 0x007 => ofU (fun u => BitVec.ofNat 64 u.launch)
  | 0x008 => ofU (fun u => BitVec.ofNat 64 u.index)
  | 0x009 => ofL (fun l => zext64 l.gx)
  | 0x00A => ofL (fun l => zext64 l.gy)
  | 0x00B => ofL (fun l => zext64 l.gz)
  | 0x00C => some (BitVec.ofNat 64 s.cur.core)
  | 0x00D => some (BitVec.ofNat 64 (s.core s.cur.core).ccyc)
  | 0x00E => some (BitVec.ofNat 64 g.batch)
  | 0x100 => some p.status
  | 0x101 => some g.tvec
  | 0x102 => some (zext64 g.tcause)
  | 0x103 => some g.tval
  | 0x104 => some (zext64 g.tmask)
  | 0x105 => some p.tpc
  | 0x106 => some (s.tframe s.gid g)
  | 0x107 => some (s.ctxb s.gid g)
  | 0x108 => some g.ftpool
  | 0x109 => some (BitVec.ofNat 64 (s.asidOf g))
  | 0x10A => some (BitVec.ofNat 64 (s.partOf g))
  | 0x10B => some (BitVec.ofNat 64 ((s.rootOf (s.asidOf g)).getD 0))
  | _ => none

/-- Write a system register: reserved bits and read-only registers take nothing (R6). -/
def writeSys (s : State) (g : Group) (r : Nat) (v : Word) : State :=
  let onG := fun f : Group → Group => s.updGroup s.gid f
  match r with
  | 0x000 => onG (fun g => { g with mode := v.truncate 3 })
  | 0x001 => onG (fun g => { g with slktab := v.truncate 36 })
  | 0x002 => s.onSplit (fun p => { p with dslack := v.truncate 12 })
  | 0x003 => onG (fun g => { g with latecnt := v.truncate 32 })
  | 0x004 => s.updUnit g.uid (fun u => { u with puterr := v.truncate 32 })
  | 0x100 => s.onSplit (fun p => { p with sm := bitOf v 0, pm := bitOf v 1, wr := bitOf v 2 })
  | 0x101 => onG (fun g => { g with tvec := v })
  | 0x102 => onG (fun g => { g with tcause := v.truncate 9 })
  | 0x103 => onG (fun g => { g with tval := v })
  | 0x104 => onG (fun g => { g with tmask := v.truncate 32 })
  | 0x105 => s.onSplit (fun p => { p with tpc := v })
  | 0x108 => onG (fun g => { g with ftpool := v })
  | _ => s

/-- SGET (R157). -/
def execCSget (d : BitVec 6) (r : BitVec 12) (s : State) : Answer :=
  control (fun g p =>
    if 0x100 ≤ r.toNat ∧ p.user then s.trap cPRIV 0
    else match readSys s g p r.toNat with
      | none => s.trap cILLEGAL 0
      | some v =>
        if emptyS g p d then s
        else if sharedS g d then s.trap cSHAREDWRITE 0
        else (s.writeS p d v).goOn 1) s

/-- SSET (R157). -/
def execCSset (a : BitVec 6) (r : BitVec 12) (s : State) : Answer :=
  control (fun g p =>
    if 0x100 ≤ r.toNat ∧ p.user then s.trap cPRIV 0
    else match readSys s g p r.toNat with
      | none => s.trap cILLEGAL 0
      | some _ => if emptyS g p a then s else (writeSys s g r.toNat (readS g p a)).goOn 1) s

/-! ### TRAP and BKPT (R159) -/

/-- TRAP (R159): in user mode a trap whose TPC is the word after it, in supervisor mode a halt. -/
def execCTrap (v : BitVec 16) (c : BitVec 8) (s : State) : Answer :=
  control (fun _ p =>
    if causes.contains c.toNat then s.addDue s.gid ⟨.T, c.toNat, false, zext64 v, p.mask, s.cur.place, p.sm⟩ p.sm
    else s.trap cILLEGAL 0) s

/-- BKPT (R159): with invasive debug enabled it has done its work and asks for a stop, else it traps DEBUG. -/
def execCBkpt (t : BitVec 24) (s : State) : Answer :=
  control (fun _ p =>
    if s.mgmt.debug = .invasive then (s.goOn 1).addDue s.gid ⟨.S, 0, false, 0, p.mask, s.cur.place, false⟩ false
    else s.trap cDEBUG (zext64 t)) s

/-! ### The end of a handler (R160, R161, R373) -/

/-- TPC names an instruction word: not word 0 or 1, not the literal of a long form (R160). Where the page cannot be
read, the fetch after the return faults. -/
def State.tpcOk (s : State) (g : Group) (p : Split) : Bool :=
  let w := wordIdx p.tpc
  decide (p.tpc.toNat % 4 = 0 ∧ 2 ≤ w) && (match s.fetchLine s.cur.core (s.asidOf g) (s.codeFrom g) false p.tpc with
    | (_, .ok line) => !hdrCont (headerOf line) w
    | (_, .error _) => true)

/-- The handler may end: its own runs have issued and its writes to the frame are performed; the end of a cancelled
group waits for the group's accesses and copies (log entry 19). -/
def State.mayReturn (s : State) (g : Group) (p : Split) (h : Handler) : Bool :=
  decide (p.runsLeft = 0) && !s.outstanding s.gid s.cur.place &&
    (decide (h.cause ≠ cCANCELLED) || (g.splits.all (fun e => !s.outstanding s.gid e.1) &&
      !s.copying s.gid (fun _ => true)))

/-- The split is in a handler. -/
def Group.handlerAt (g : Group) (place : Nat) : Option Handler :=
  match g.handler with
  | some h => if h.place = place ∧ !g.preParked then some h else none
  | none => none

/-- End the handler of the acting split: that of PREEMPT for a save parks the group (R375). -/
def returnFrom (s : State) (g : Group) (p : Split) (h : Handler) : State :=
  if !s.tpcOk g p then s.trap cBADTARGET p.tpc
  else if !s.mayReturn g p h then s
  else if h.cause = cPREEMPT ∧ g.pre = some false then s.updGroup s.gid (fun g => { g with preParked := true })
  else (s.updGroup s.gid (fun g => if h.cause = cPREEMPT then { g with pre := none } else g)).endHandler s.gid

/-- RFT (R160). -/
def execCRft (s : State) : Answer :=
  privileged (fun g p => match g.handlerAt s.cur.place with
    | none => s.trap cILLEGAL 0
    | some h => returnFrom s g p h) s

/-- ACK (R161): only for a fault at a lane memory access. -/
def execCAck (s : State) : Answer :=
  privileged (fun g p => match g.handlerAt s.cur.place with
    | none => s.trap cILLEGAL 0
    | some h => if h.lane ∧ accessCause h.cause ∧ !h.held then returnFrom s g p h else s.trap cILLEGAL 0) s

/-- A held instruction alone as a run (R373). -/
def State.oneRun (s : State) (ps : List (Nat × Nat)) (k : Nat) (r : Run) (h : Handler) : Option Run :=
  let whole := s.resumedRun ps h.entries.length r true
  match r.todo[k]? with
  | none => none
  | some i =>
    let m := s.frameMask ps (h.entries.length + k)
    some { whole with todo := [{ i with mask := i.mask &&& m }], suspended := false, sup := r.sup, dove := r.dove.map (fun _ => Dove.start) }

/-- An entry that RPLY has re-injected: what becomes of it is no longer the frame's, and the end of the handler passes over it (R160,
R373). -/
def Handler.reply (h : Handler) (pid : Nat) : Handler := { h with replied := pid :: h.replied }

/-- Re-inject entry n of the frame (R160): the new state and the status. A lane that faults again traps after the handler (R374). -/
def State.replyEntry (s : State) (g : Group) (h : Handler) (ps : List (Nat × Nat)) (n : Nat) : State × Nat :=
  let entries := h.entries.length
  let st := s.frameState ps n
  let done := fun (s : State) (kind : Nat) => s.partWrite s.gid ps (entryOff n) (bytesOf 1 (4 * kind + 2))
  if h.frameEntries ≤ n then (s, 1)
  else match h.entries[n]? with
    | some pid =>
      match FMap.get g.replay pid with
      | none => (s, 2)
      | some q =>
        if h.replied.contains pid then (s, 2)
        else if q.state = 1 then (s, 3)
        else if q.state ≠ 0 ∨ 2 ≤ st then (s, 2)
        else
          let s := s.reinject s.gid ps n pid
          (done (s.updGroup s.gid (fun g => { g with handler := g.handler.map (·.reply pid) })) q.kindNo, 0)
    | none =>
      if st ≠ 0 then (s, 2)
      else match h.run.bind (fun r => s.oneRun ps (n - entries) r h) with
        | none => (s, 2)
        | some r => (done (s.onSplit (fun p => { p with runq := p.runq ++ [r] })) 0, 0)

/-- RPLY (R160). A fault of its frame access halts the group, with the trap registers as they are (R370). -/
def execCRply (d a : BitVec 6) (s : State) : Answer :=
  privileged (fun g p =>
    match g.handlerAt s.cur.place with
    | none => s.trap cILLEGAL 0
    | some h =>
      if emptyS g p a ∨ emptyS g p d then s
      else if sharedS g d then s.trap cSHAREDWRITE 0
      else if Config.runQueueEntries ≤ p.runq.length then s
      else match s.frameParts s.gid g h.frameEntries .read with
        | (s, .error _) => s.haltGroup s.gid (g.tcause.toNat % 256) g.tval
        | (s, .ok ps) =>
          let r := (s.partFill s.gid ps true).replyEntry g h ps (readS g p a).toNat
          (r.1.writeS p d (BitVec.ofNat 64 r.2)).goOn 1) s

/-! ### Address mapping (R162, R163) -/

/-- The address of an entry in a table. -/
def entryAt (t lev va : Nat) : Nat := t + 8 * (va / 2 ^ (16 + 12 * (lev - 1)) % 4096)

/-- The 8-byte entry at a physical address. -/
def State.entry (s : State) (a : Nat) : Word := BitVec.ofNat 64 (s.natAt a 8)

/-- The table that a valid table pointer names; none where the table is missing (R162). -/
def State.nextTable (s : State) (a : Nat) : Option Nat :=
  let e := s.entry a
  if backed a && leafV e && !leafL e && !entryRsv e then some (entryTable e) else none

/-- The entries of an address's tables, from level `lev` with table `t` down, are read at their home slices (R162, R306). -/
def State.fillTables (s : State) (asid va : Nat) : Nat → Nat → State
  | 0, _ => s
  | lev + 1, t =>
    let a := entryAt t (lev + 1) va
    if !backed a then s
    else
      let s := s.fillHome asid (s.partOfAsid asid) a 8
      match s.nextTable a with
      | some t' => s.fillTables asid va lev t'
      | none => s

/-- The level-2 slot of an address; none where a table above it is missing. -/
def State.slot2 (s : State) (root va : Nat) : Option Nat :=
  match s.nextTable (entryAt root 4 va) with
  | none => none
  | some t3 => match s.nextTable (entryAt t3 3 va) with
    | none => none
    | some t2 => if backed (entryAt t2 2 va) then some (entryAt t2 2 va) else none

/-- The level-1 slot below a level-2 slot. -/
def State.slot1 (s : State) (a2 va : Nat) : Option Nat :=
  match s.nextTable a2 with
  | none => none
  | some t1 => if backed (entryAt t1 1 va) then some (entryAt t1 1 va) else none

/-- Store a table entry at its home. -/
def State.putEntry (s : State) (a : Nat) (e : Word) : State := s.deviceWrite s.gid a (bytesOf 8 e.toNat)

/-- MAP's checks and its leaf (R162). -/
def State.mapLeaf (s : State) (root va : Nat) (pte : Word) : State × Nat :=
  let slot2 := s.slot2 root va
  let big := slot2.any (fun a => leafV (s.entry a) && leafL (s.entry a))
  if !leafL pte && big then (s, 2)
  else match (if leafL pte then slot2 else slot2.bind (fun a => s.slot1 a va)) with
    | none => (s, 3)
    | some a =>
      let old := s.entry a
      if leafRsv pte ∨ leafKind pte = 3 then (s, 4)
      else if leafV old ∧ (!leafFT old ∨ (leafL pte ∧ !leafL old)) then (s, 2)
      else (s.putEntry a pte, 0)

/-- The 64 KiB locations that a sill home gives a frame, line by line (R296). -/
def frameLines (home frame : Nat) : List Nat :=
  (List.range 512).filterMap (fun i => homeLoc home (frame * 2 ^ 16 + 128 * i))

/-- Write zeros over a frame: no core keeps an old copy of its lines. -/
def State.zeroFrame (s : State) (home frame : Nat) : State :=
  let lines := frameLines home frame
  let keep := fun l : L1Line => !(lines.contains (128 * l.line))
  let s := { s with cores := s.cores.map (fun e => (e.1, { e.2 with l1 := e.2.l1.filter keep })) }
  let s := (List.range 6).foldl (fun s sec => lines.foldl (fun s loc => s.dropGuest sec (loc / 128)) s) s
  lines.foldl (fun s loc => s.writeHome (s.asidOfGid s.gid) (s.partOfGid s.gid) loc (bytesOf 128 0)) s

/-- MAP.FT's checks, its frame and its leaf (R162); the trap where the free-frame stack cannot be reached. -/
def State.mapFt (s : State) (g : Group) (root va : Nat) : Except (Nat × Word) (State × Nat) :=
  let slot := (s.slot2 root va).bind (fun a => if leafV (s.entry a) ∧ leafL (s.entry a) then some a else s.slot1 a va)
  match slot with
  | none => .ok (s, 3)
  | some a =>
    let leaf := s.entry a
    if leafL leaf then .ok (s, 4)
    else if !(leafV leaf && leafFT leaf) then .ok (s, 2)
    else if g.ftpool.toNat % 8 ≠ 0 then .error (cMISALIGN, g.ftpool)
    else
      let asid := s.asidOf g
      match s.readVa s.cur.core asid false 2 g.ftpool.toNat 4 with
      | (_, .error e) => .error e
      | (s, .ok (bs, bad)) =>
        let mask := ((s.splitAt s.gid s.cur.place).map (·.mask)).getD 0
        let s := s.poisonDue bad g.ftpool mask
        let count := natOfBytes bs
        if count = 0 then .ok (s, 1)
        else
          match s.readVa s.cur.core asid false 2 ((g.ftpool.toNat + 8 + 4 * (count - 1)) % 2 ^ 64) 4 with
          | (_, .error e) => .error e
          | (s, .ok (fb, bad)) =>
            let s := s.poisonDue bad g.ftpool mask
            let f := natOfBytes fb
            let p := f * 2 ^ 16
            if leafPeer leaf = 0 ∧ (!backed p ∨ (inHbm p ∧ (homeLoc (leafHome leaf) p).isNone)) then .ok (s, 5)
            else match s.reach s.cur.core asid g.ftpool .write false with
              | (_, .error c) => .error (c, g.ftpool)
              | (s, .ok loc) =>
                let s := (s.deviceWrite s.gid loc (bytesOf 4 (count - 1))).zeroFrame (leafHome leaf) f
                let e := setFld (setFld (setFld leaf 16 32 f) 60 1 0) 6 2 0
                .ok (s.putEntry a e, 0)

/-- MAP and MAP.FT: PRIV first; the leaf write is a release at scope dev (R136, R162, R345). -/
def mapping (srcs : List (BitVec 6)) (d : BitVec 6) (f : State → Group → Split → Except (Nat × Word) (State × Nat))
    (s : State) : Answer :=
  privileged (fun g p =>
    if srcs.any (emptyS g p) ∨ emptyS g p d then s
    else if sharedS g d then s.trap cSHAREDWRITE 0
    else if !s.drained g p then s.hold 0 0
    else match f s g p with
      | .error (c, v) => s.trap c v
      | .ok (s, n) => (s.writeS p d (BitVec.ofNat 64 n)).goOn 1) s

/-- PTROOT of a group. -/
def State.ptroot (s : State) (g : Group) : Nat := (s.rootOf (s.asidOf g)).getD 0

/-- The device once a mapping word has read the tables of an address. -/
def State.walked (s : State) (g : Group) (va : Nat) : State := s.fillTables (s.asidOf g) va 4 (s.ptroot g)

/-- MAP (R162). -/
def execCMap (d a b : BitVec 6) (s : State) : Answer :=
  mapping [a, b] d (fun s g p =>
    .ok ((s.walked g (readS g p a).toNat).mapLeaf (s.ptroot g) (readS g p a).toNat (readS g p b))) s

/-- MAP.FT (R162). -/
def execCMapFt (d a : BitVec 6) (s : State) : Answer :=
  mapping [a] d (fun s g p => (s.walked g (readS g p a).toNat).mapFt g (s.ptroot g) (readS g p a).toNat) s

/-- A copy of the address space still uses a translation of a range (R145, R163): one that moves, or one whose last pieces are on
their way to a home. -/
def State.copyUses (s : State) (asid : Nat) (span : Nat × Nat) : Bool :=
  s.cores.any (fun e => e.2.copies.any (fun c => decide (c.asid = asid) &&
    (c.spans ++ c.dspans).any (fun x => overlaps (x.va / 2 ^ 28 * 2 ^ 28, 2 ^ 28) span))) ||
    s.pkts.any (fun e => decide (e.2.batch ≠ 0) && e.2.asks && decide (s.asidOfGid e.2.gid = asid))

/-- Invalidate ranges, then wait for the copies that use them; `f` completes the word. -/
def invalidateThen (s : State) (g : Group) (p : Split) (spans : List (Nat × Nat)) (val : Word) (f : State → State) : State :=
  let asid := s.asidOf g
  let s := if p.issued.isNone then spans.foldl (fun s x => s.invalidate asid x) s else s
  if spans.any (fun x => s.copyUses asid x) then s.hold 0 val else f s

/-- The entry at which a walk of an address ends (R162), with the range of its page. -/
def State.leafSlot (s : State) (root va : Nat) : Option (Nat × Nat × Nat) :=
  match s.slot2 root va with
  | none => none
  | some a =>
    if leafV (s.entry a) ∧ leafL (s.entry a) then some (a, va / 2 ^ 28 * 2 ^ 28, 2 ^ 28)
    else (s.slot1 a va).map (fun b => (b, pageSpan va))

/-- UNMAP (R163). -/
def execCUnmap (d a : BitVec 6) (s : State) : Answer :=
  privileged (fun g p =>
    if emptyS g p a ∨ emptyS g p d then s
    else if sharedS g d then s.trap cSHAREDWRITE 0
    else
      let va := (readS g p a).toNat
      let root := s.ptroot g
      let s := if p.issued.isNone then s.walked g va else s
      let slot := s.leafSlot root va
      let span := match slot with | some (_, x) => x | none => pageSpan va
      let (s, old) := match p.issued, slot with
        | some i, _ => (s, i.val)
        | none, some (e, _) =>
          let old := s.entry e
          if leafV old then (s.putEntry e (setFld old 63 1 0), old) else (s, 0)
        | none, none => (s, 0)
      invalidateThen s g p [span] old (fun s => (s.writeS p d old).goOn 1)) s

/-- The pages that hold a range of bytes. -/
def rangeSpans (va n : Nat) : List (Nat × Nat) :=
  let lo := va / 2 ^ 16 * 2 ^ 16
  if n = 0 then []
  else if va + n ≤ 2 ^ 64 then [(lo, ceilDiv (va + n) (2 ^ 16) * 2 ^ 16 - lo)]
  else [(lo, 2 ^ 64 - lo), (0, ceilDiv (va + n - 2 ^ 64) (2 ^ 16) * 2 ^ 16)]

/-- TLBINV: PRIV first. -/
def tlbinv (srcs : List (BitVec 6)) (spans : Group → Split → List (Nat × Nat)) (s : State) : Answer :=
  privileged (fun g p =>
    if srcs.any (emptyS g p) then s else invalidateThen s g p (spans g p) 0 (fun s => s.goOn 1)) s

/-- TLBINV (R163). -/
def execCTlbinv (a _ : BitVec 6) (s : State) : Answer := tlbinv [a] (fun g p => [pageSpan (readS g p a).toNat]) s
/-- TLBINV .range (R163). -/
def execCTlbinvRange (a b : BitVec 6) (s : State) : Answer :=
  tlbinv [a, b] (fun g p => rangeSpans (readS g p a).toNat (readS g p b).toNat) s
/-- TLBINV .asid (R163). -/
def execCTlbinvAsid (s : State) : Answer := tlbinv [] (fun _ _ => [wholeSpan]) s

end Sys2Proof.Machine
end

