-- ==== Sys2Proof/Machine/Sched.lean ====
section
/-! DEFINITION. The scheduler: candidates, lane slots, pairing (R273 to R278), issue budgets (R280), the placement of
units (R264 to R267), register-line fills (R293), and the entry of deferred events (R367). -/

namespace Sys2Proof.Machine

/-! ### Candidates (R24, R275) -/

/-- A lane instruction must wait before it issues (R216, R226, R233, R372, R408). -/
def laneWaits (i : Instr) (s : State) : Bool := memWaits i s || matrixWaits i s || rayWaits i s || filterWaits i s || neuralWaits i s

/-- The decoded instructions that a run still holds. -/
def Run.instrs (r : Run) : List Instr := r.todo.filterMap (fun i => decodeLane i.bits.toNat)

/-- The lines that a run names (R25, R293). -/
def Run.lines (r : Run) : List Nat := lineSet r.sup (usesIn r.latch.isSome r.instrs)

/-- The run is ready: its need set is full in its active lanes, and its lines are resident (R24, R293). -/
def Group.runReady (g : Group) (r : Run) : Bool :=
  (needSet (usesIn r.latch.isSome r.instrs)).all (fun n => (lanesIn r.active).all (fun l => !g.emptyV r.sup n l)) &&
    r.lines.all (fun j => (FMap.get g.lines j).isSome)

/-- Runs of a split may be selected (R367, R368, R375, R382). -/
def Group.mayRun (g : Group) (place : Nat) : Bool :=
  !g.halted && !g.stopped && !g.preParked && !g.dropped && (match g.handler with
    | none => g.due.isEmpty
    | some h => decide (h.place = place) && !g.stopAsked && !g.due.any (fun d => d.sup && d.cls.precise))

/-- A candidate for a lane slot. -/
structure Cand where
  gslot : Nat
  place : Nat
  run : Run
  fresh : Bool
  mate : Option (Nat × Nat)
  prio : Nat
  since : Nat
deriving DecidableEq, Repr

/-- The run of a split that is a candidate, if its group lets it be (R275). -/
def State.candOf (s : State) (core gslot place : Nat) (g : Group) (p : Split) : Option Cand :=
  let prio := s.prioOf g
  let mk := fun (r : Run) (fresh : Bool) (mate : Option (Nat × Nat)) =>
    some (⟨gslot, place, r, fresh, mate, prio, r.since.getD (s.core core).ccyc⟩ : Cand)
  if !g.mayRun place then none
  else match p.running with
    | some r =>
      if !r.suspended ∨ r.todo.isEmpty ∨ !r.lines.all (fun j => (FMap.get g.lines j).isSome) then none
      else
        let here := { s with cur := ⟨core, gslot, place⟩ }
        match r.todo with
        | [] => none
        | i :: _ => match decodeLane i.bits.toNat with
          | none => none
          | some x =>
            let still := { here with groups := FMap.upd here.groups here.gid (fun g => g.updSplit place (fun p =>
              { p with running := p.running.map (fun r => { r with suspended := false }) })) }
            if laneWaits x still then none else mk r false r.mate
    | none => match p.runq with
      | r :: _ => if g.runReady r then mk r true none else none
      | [] => none

/-- The candidates of a core. A pair that was suspended is one candidate, and only when both runs could go on (R278). -/
def State.cands (s : State) (core : Nat) : List Cand :=
  let all := (s.groups.filter (fun e => decide (coreOfGid e.1 = core))).flatMap (fun e =>
    e.2.splits.filterMap (fun q => s.candOf core (e.1 % 64) q.1 e.2 q.2))
  all.filter (fun c => match c.mate with
    | none => true
    | some (g, p) =>
      let apart := !((FMap.get s.groups (gidOf core g)).bind (fun x => FMap.get x.splits p)).any (fun q =>
        q.running.any (fun r => decide (r.mate = some (c.gslot, c.place))))
      apart || (all.any (fun d => decide (d.gslot = g ∧ d.place = p)) && decide (c.gslot < g ∨ (c.gslot = g ∧ c.place < p))))

/-- The candidate as R273 ranks it. -/
def Cand.rank (c : Cand) : Rank := ⟨c.gslot, c.place, c.run.overdue, c.prio, c.since, lowLane c.run.active⟩

/-- The order of R273. -/
def Cand.before (a b : Cand) : Bool := a.rank.before b.rank

/-! ### Pairing (R277) -/

/-- The instruction reads or writes a hod. -/
def isHod : Instr → Bool
  | .lHpush _ | .lHpop _ => true
  | _ => false

/-- The instruction belongs to the matrix array. -/
def isMatrix : Instr → Bool
  | .lWld _ | .lWlds _ | .lMma _ | .lMmas _ | .lAccz _ | .lAccrd _ | .lAccwr _ => true
  | _ => false

/-- A quad holds a lane of both sets (R202). -/
def quadShared (a b : Lanes) : Bool :=
  (List.range 8).any (fun q => (List.range 4).any (fun i => inLanes a (4 * q + i)) && (List.range 4).any (fun i => inLanes b (4 * q + i)))

/-- Two runs may be paired (R277). DESIGN CHOICE: R277 speaks of two groups and leaves runs of two splits of one group open;
they are not paired (log entry 97). -/
def State.pairs (s : State) (core : Nat) (a b : Cand) : Bool :=
  match FMap.get s.groups (gidOf core a.gslot), FMap.get s.groups (gidOf core b.gslot) with
  | some g, some h =>
    let launch := fun g : Group => (s.unitOf g).map (·.launch)
    let is := a.run.instrs
    decide (a.gslot ≠ b.gslot) && decide (launch g = launch h) && decide (a.run.line = b.run.line ∧ a.run.slot = b.run.slot) &&
      decide (a.run.active &&& b.run.active = 0) && !(a.run.qd && quadShared a.run.active b.run.active) && !a.run.np && !b.run.np &&
      !is.any isHod && (!is.any isMatrix || decide (g.uid = h.uid)) && decide (a.run.sup = b.run.sup) &&
      a.fresh && b.fresh && !a.run.resumed && !b.run.resumed
  | _, _ => false

/-! ### LANE_SLOT_SELECT (R275, R280) -/

/-- The partition of a core, and whether its count is positive or never exhausted (R279, R280). -/
def State.corePart (s : State) (core : Nat) : Nat := (s.partOfCluster (clusterOf core)).getD 0
def State.issueOk (s : State) (core : Nat) : Bool := eligible (s.wordAt .issue core (s.corePart core)) 16384 (s.core core).budget

/-- A run begins, or goes on, in a slot. -/
def State.startRun (s : State) (core : Nat) (c : Cand) (charged : Bool) : State :=
  let go := fun p : Split =>
    match p.running, p.runq with
    | some r, _ => { p with running := some { r with suspended := false, mate := none, since := none, waited := 0, overdue := none } }
    | none, r :: rest => { p with running := some { r with charged := charged, since := none, waited := 0, overdue := none }, runq := rest }
    | none, [] => p
  s.updSplit (gidOf core c.gslot) c.place go

/-- The other run of a pair that was suspended goes on too. -/
def State.resumeMate (s : State) (core gslot place : Nat) : State :=
  let go := fun r : Run => { r with suspended := false, mate := none, since := none, waited := 0, overdue := none }
  s.updSplit (gidOf core gslot) place (fun p => { p with running := p.running.map go })

/-- One free slot selects, and pairs where it may. -/
def State.selectSlot (s : State) (core slot : Nat) : State :=
  if (FMap.get (s.core core).lslots slot).isSome then s
  else
    let all := s.cands core
    let ok := s.issueOk core
    let could := all.filter (fun c => ok || !c.fresh)
    let lent := if borrows (s.wordAt .issue core (s.corePart core)) then all else []
    let from_ := if could.isEmpty then lent else could
    match minBy Cand.before from_ with
    | none => s
    | some c =>
      let charged := ok && !could.isEmpty
      let s1 := s.startRun core c charged
      let old := c.mate
      let partner := if old.isSome then none else minBy Cand.before (from_.filter (fun d => s.pairs core c d))
      let pair := match old, partner with
        | some m, _ => some m
        | none, some d => some (d.gslot, d.place)
        | none, none => none
      let s2 := match old, partner with
        | some (g, p), _ => s1.resumeMate core g p
        | none, some d => s1.startRun core d charged
        | none, none => s1
      let k := s2.core core
      s2.setCore core { k with lslots := FMap.put k.lslots slot ⟨c.gslot, c.place, pair, 0, false⟩ }

/-- A candidate has not been selected in a cycle: at 64 such cycles it becomes overdue (R276). -/
def overdueAt (now waited : Nat) (o : Option Nat) : Option Nat := if 64 ≤ waited ∧ o.isNone then some now else o

/-- A run that is a candidate has been one since some cycle; it waits one cycle more where the count goes on. -/
def Run.wait (now : Nat) (count : Bool) (r : Run) : Run :=
  let r := { r with since := some (r.since.getD now) }
  if count then { r with waited := r.waited + 1, overdue := overdueAt now (r.waited + 1) r.overdue } else r

/-- Change the run of a split that is next to begin or to go on. -/
def Split.onNextRun (p : Split) (f : Run → Run) : Split :=
  match p.running with
  | some r => { p with running := some (if r.suspended then f r else r) }
  | none => { p with runq := (p.runq.take 1).map f ++ p.runq.drop 1 }

/-- Runs that were candidates and have not been selected wait one cycle more, the count of the others starts afresh; a count
stands still while its group is ineligible or halted (R276). -/
def State.countRuns (s : State) (core : Nat) : State :=
  let now := (s.core core).ccyc
  let cs := s.cands core
  let mine := s.groups.filter (fun e => decide (coreOfGid e.1 = core) && !e.2.halted && !e.2.stopped && !e.2.preParked)
  let ok := s.issueOk core
  mine.foldl (fun s e => e.2.splits.foldl (fun s q =>
    s.updSplit e.1 q.1 (fun p => p.onNextRun (fun r =>
      if cs.any (fun c => decide (c.gslot = e.1 % 64 ∧ c.place = q.1)) then r.wait now ok
      else { r with since := none, waited := 0, overdue := none }))) s) s

/-- Splits that were ready and have not been taken by a pipe wait one cycle more; a count stands still while its group is
ineligible or halted (R276). -/
def State.countSplits (s : State) (core : Nat) : State :=
  let now := (s.core core).ccyc
  if !s.issueOk core then s
  else (s.readySplits core).foldl (fun s r => s.updSplit (gidOf core r.gslot) r.place (fun p =>
    { p with waited := p.waited + 1, overdue := overdueAt now (p.waited + 1) p.overdue })) s

/-- Dovetail runs whose stores are held try to leave (R379), the signals of groups that have triggered (R140), and groups that are to end
(R141, R441). -/
def State.settleCore (s : State) (core : Nat) : State :=
  (s.groups.filter (fun e => decide (coreOfGid e.1 = core))).foldl (fun s e =>
    let s := (e.2.splits.foldl (fun s q => s.settleDove e.1 q.1) s).settleSignal e.1
    if e.2.dropped then s.finishGroup e.1 else s) s

/-- The partition is halted for pre-emption: no period of its budgets passes (R377). -/
def State.partHalted (s : State) (part : Nat) : Bool := match FMap.get s.parts part with | some p => p.saved | none => false

/-- A period of a core's issue budget ends (R280). -/
def State.issuePeriod (s : State) (core : Nat) : State :=
  let part := s.corePart core
  let k := s.core core
  if s.partHalted part then s
  else (s.newWord .issue core part).setCore core { k with budget := renewed (allotOf (s.budgetWord part (·.issue))) k.budget }

/-- The cycle in which a split that has yielded is eligible again has come (R122). -/
def Split.endYield (now : Nat) (p : Split) : Split := if p.yielding ≤ now then { p with yielding := 0 } else p

/-- The splits of a core whose eight cycles have passed are eligible again. -/
def State.endYields (s : State) (core : Nat) : State :=
  let now := (s.core core).ccyc
  { s with groups := s.groups.map (fun e =>
      if coreOfGid e.1 = core then (e.1, { e.2 with splits := e.2.splits.map (fun q => (q.1, q.2.endYield now)) }) else e) }

/-- The next cycle of a core begins: pipes are free, slots are held one cycle less, and those of ended runs become free (R166,
R274, R275). -/
def Core.tick (k : Core) : Core :=
  { k with ccyc := k.ccyc + 1, pipes := 0,
           lslots := (k.lslots.map (fun e => (e.1, { e.2 with hold := e.2.hold - 1 }))).filter (fun e => !e.2.ended || decide (e.2.hold ≠ 0)) }

/-- LANE_SLOT_SELECT: a core cycle ends and the next begins; the free slots select in slot order, and the candidates left over
wait (R275 to R277). -/
def execEvLaneSlotSelect (core : Nat) (s : State) : Answer :=
  let s := s.countSplits core
  let s := (s.setCore core (s.core core).tick).endYields core
  let s := if (s.core core).ccyc % 4096 = 0 then s.issuePeriod core else s
  let s := (List.range 4).foldl (fun s k => s.selectSlot core k) (s.settleCore core)
  .next (s.countRuns core)

/-- CANDIDATE_OVERDUE: a waiting count has reached 64 (R276). -/
def execEvCandidateOverdue (core gslot place : Nat) (run : Bool) (s : State) : Answer :=
  let now := (s.core core).ccyc
  .next (s.updSplit (gidOf core gslot) place (fun p =>
    if run then p.onNextRun (fun r => { r with overdue := overdueAt now r.waited r.overdue })
    else { p with overdue := overdueAt now p.waited p.overdue }))

/-- YIELD_EXPIRY: the split is eligible again, once its eight cycles have passed (R122). -/
def execEvYieldExpiry (core gslot place : Nat) (s : State) : Answer :=
  .next (s.updSplit (gidOf core gslot) place (Split.endYield (s.core core).ccyc))

/-- ISSUE_BUDGET_PERIOD: what a core does where CCYC reaches a multiple of 4,096 (R280). -/
def execEvIssueBudgetPeriod (core : Nat) (s : State) : Answer := .next (s.issuePeriod core)

/-! ### Register lines (R293) -/

/-- The run of some split that is next to begin or to go on names the line. -/
def Group.wantsLine (g : Group) (j : Nat) : Bool :=
  g.splits.any (fun e => match e.2.running with
    | some r => r.lines.contains j
    | none => (e.2.runq.take 1).any (fun r => r.lines.contains j))

/-- An SFROM waits for a register of the line. -/
def Group.sfromWants (g : Group) (j : Nat) : Bool :=
  g.replay.any (fun e => e.2.sfrom && decide (e.2.run = 0) && decide (fld e.2.bits 12 6 / 4 = j))

/-- REGISTER_LINE_FILL (R293). -/
def execEvRegisterLineFill (core gslot line : Nat) (s : State) : Answer :=
  let gid := gidOf core gslot
  match FMap.get s.groups gid with
  | none => .next s
  | some g =>
    if !g.wantsLine line ∧ !g.sfromWants line then .next s
    else .next ((s.fillLine gid line).updGroup gid Group.sample)

/-! ### Placement (R264 to R267) -/

/-- The free launch group slots of a core, lowest first: slots 0 to 55 that no resident unit holds (R265, R268, R270). -/
def State.freeSlots (s : State) (core : Nat) : List Nat :=
  let held := (s.units.filter (fun e => decide (coreOfGid e.1 = core))).flatMap (fun e => e.2.gslots)
  (List.range 56).filter (fun k => !held.contains k && (FMap.get s.groups (gidOf core k)).isNone)

/-- Place the next unit of a launch on a core: its groups start (R265). Answers the unit's key. DESIGN CHOICE: the spec does not
tell which free unit slot a unit takes; it takes the lowest (log entry 95). -/
def State.placeUnit (s : State) (lid : Nat) (l : Launch) (index core : Nat) : State × Nat :=
  let s := s.enterLevel core l
  let slot := ((List.range 64).find? (fun k => (FMap.get s.units (gidOf core k)).isNone)).getD 63
  let uid := gidOf core slot
  let n := cutGroups l.cut
  let gslots := (s.freeSlots core).take n
  let put := fun (m : FMap Group) (e : Nat × Nat) =>
    FMap.put m (gidOf core e.2) (Group.start uid e.1 false l.entryVa l.slack (s.startTvec l.job) (s.startFtpool l.job) (s.core core).ccyc)
  let groups := ((List.range n).zip gslots).foldl put s.groups
  let u := UnitRec.start lid index (s.genOf uid) l.cut n gslots
  ({ s with groups := groups, units := FMap.put s.units uid u }, uid)

/-- Place one unit, or both copies of a dovetail unit, on cores that have been chosen (R267). -/
def State.placeOn (s : State) (lid : Nat) (l : Launch) (index : Nat) (core : Nat) (twin : Option Nat) : State :=
  let (s, a) := s.placeUnit lid l index core
  let s := match twin with
    | none => s
    | some c =>
      let (s, b) := s.placeUnit lid l index c
      (s.updUnit a (fun u => { u with twin := some b })).updUnit b (fun u => { u with twin := some a })
  { s with launches := FMap.upd s.launches lid (fun l => { l with placed := l.placed + 1, live := l.live + 1 }) }

/-- The cores of a partition that take a unit of a launch: the fewest resident groups, then the lowest number
(R265). DESIGN CHOICE: R267 does not tell which two cores of a cluster the copies of a dovetail unit take where several pairs
fit; the first is the core of this order that has a fitting partner, the second its first such partner (log entry 96). -/
def State.chooseCores (s : State) (part : Nat) (l : Launch) : Option (Nat × Option Nat) :=
  let less := fun (a b : Nat) => decide (s.residents a < s.residents b)
  let fit := (coresOf (s.clustersOf part)).filter (s.fits l.cut)
  if l.dove then
    let paired := fit.filter (fun c => fit.any (fun d => decide (d ≠ c ∧ clusterOf d = clusterOf c)))
    match minBy less paired with
    | none => none
    | some c => (minBy less (fit.filter (fun d => decide (d ≠ c ∧ clusterOf d = clusterOf c)))).map (fun d => (c, some d))
  else (minBy less fit).map (fun c => (c, none))

/-- Launches of a partition with units to place: persistent ones first, then by class, then in order of acceptance (R264,
R266). -/
def State.placeable (s : State) (part : Nat) : List (Nat × Launch) :=
  let mine := s.launches.filter (fun e => e.2.started && !e.2.done && !e.2.cancelled && decide (e.2.placed < e.2.total) &&
    (FMap.get s.jobs e.2.job).any (fun j => decide (j.part = part)))
  sortBy (fun (a b : Nat × Launch) =>
    if a.2.pers ≠ b.2.pers then a.2.pers
    else decide (b.2.prio < a.2.prio) || (decide (a.2.prio = b.2.prio) && decide (a.2.order < b.2.order))) mine

/-- The first launch that can place its next unit. -/
def State.firstFit (s : State) (part : Nat) : List (Nat × Launch) → Option (Nat × Launch × (Nat × Option Nat))
  | [] => none
  | (h, l) :: rest =>
    match s.chooseCores part l with
    | some c => some (h, l, c)
    | none => s.firstFit part rest

/-- UNIT_PLACEMENT (R264 to R267). A partition that is being saved, or is saved, places nothing. -/
def execEvUnitPlacement (part : Nat) (s : State) : Answer :=
  if (FMap.get s.parts part).any (fun p => p.saving || p.saved) then .next s
  else
    let ls := s.placeable part
    match ls with
    | [] => .next s
    | (h, l) :: _ =>
      if l.pers then
        .next (((List.range l.total).zip l.reserved).foldl (fun s e => s.placeOn h l e.1 e.2.1 e.2.2) s)
      else match s.firstFit part ls with
        | none => .next s
        | some (h, l, c, d) => .next (s.placeOn h l l.placed c d)

/-! ### Deferred entries and undefined words -/

/-- DEFERRED_TRAP_ENTRY: PEERFAULT, PEERTIMEOUT, POISON, LATESLACK (R367). -/
def execEvDeferredTrapEntry (core gslot : Nat) (s : State) : Answer :=
  .next (s.enterDeferred (gidOf core gslot) [cPEERFAULT, cPEERTIMEOUT, cPOISON, cLATESLACK])

/-- CANCELLED_ENTRY (R141). -/
def execEvCancelledEntry (core gslot : Nat) (s : State) : Answer := .next (s.enterDeferred (gidOf core gslot) [cCANCELLED])

/-- PREEMPT_ENTRY (R375). -/
def execEvPreemptEntry (core gslot : Nat) (s : State) : Answer := .next (s.enterDeferred (gidOf core gslot) [cPREEMPT])

/-- The opcode, or SSET's register, is that of a word which user mode may not issue (R136). -/
def supervisorWord (w : BitVec 32) : Bool :=
  decide (0xC3 ≤ fld (zext64 w) 24 8 ∧ fld (zext64 w) 24 8 ≤ 0xC8) || decide (fld (zext64 w) 24 8 = 0xC1 ∧ 0x100 ≤ fld (zext64 w) 0 12)

/-- A word that no instruction gives a meaning traps ILLEGAL (R43); in user mode one of a privileged opcode traps PRIV, which
comes before anything else (R136; log entry 29). -/
def execEvUndefinedEncoding (word : BitVec 32) (s : State) : Answer :=
  control (fun _ p => s.trap (if p.user && supervisorWord word then cPRIV else cILLEGAL) 0) s

end Sys2Proof.Machine
end

