-- ==== Sys2Proof/Machine/Network.lean ====
section
/-! DEFINITION. The network: arbitration at a switch (R318, R319, R325, R326), arrivals, replies at a core, the set-up and
the end of braces (R322), the receiver of puts (R152, R323), slack ticks (R318) and the periods of the memory budgets
(R325, R407, R447). -/

namespace Sys2Proof.Machine

/-! ### Ports, buffers and braces -/

/-- The input port at which a packet from a place arrives (R316; log entry 50). -/
def inPort : Place → Place → Nat
  | .core c, .cluster _ => c % 12
  | .rca _, .cluster _ => 12
  | .raster _, .cluster _ => 13
  | .cluster _, .cluster _ => 14
  | _, .cluster _ => 15
  | .cluster c, .sector _ => c % 4
  | .slice k, .sector _ => 4 + k % 8
  | _, .sector _ => 12
  | .stop a, .stop b => if a < b then 0 else 1
  | _, .stop _ => 2
  | .futas p, .hub _ => p % 32
  | _, .hub _ => 32
  | _, _ => 0

/-- Input ports of a switch (R316). -/
def portsOf : Place → Nat
  | .cluster _ => Config.clusterPorts
  | .sector _ => Config.sectorPorts
  | .stop _ => Config.stopPorts
  | .hub _ => Config.hubPorts
  | _ => 1

/-- The packet is buffered at a place. -/
def Packet.stands (p : Packet) (here : Place) : Bool := decide (p.at_ = here) && !p.inLink && !p.heldBack

/-- Two endpoints lie on one core. -/
def sameCore (a b : Word) : Bool := decide (epDev a = epDev b ∧ epCore a = epCore b)

/-- The brace that holds an output's VC3. -/
def Switch.braceAt (w : Switch) (out : Place) : Option Hop := (w.brace.find? (fun b => decide (b.1 = out))).map (·.2)

/-- The packet is a put of the group that holds the output's brace, to its core (R322). -/
def Packet.usesBrace (w : Switch) (out : Place) (p : Packet) : Bool :=
  p.braced && (match p.body, w.braceAt out with
    | .put dst _ _ _ _ _ _ _ _, some b => decide (b.gid = p.gid) && sameCore b.endpoint dst
    | _, _ => false)

/-- The virtual channel by which a packet leaves: other VC3 traffic of a braced hop uses VC0 (R322). -/
def Packet.leavesBy (w : Switch) (out : Place) (p : Packet) : Nat :=
  if p.vc = 3 ∧ (w.braceAt out).isSome ∧ !p.usesBrace w out then 0 else p.vc

/-- A place has a free buffer of a virtual channel for what comes from another; what is no switch always accepts (R317). -/
def State.roomAt (s : State) (from_ out : Place) (vc : Nat) : Bool :=
  match switchKey out with
  | none => true
  | some _ => decide ((s.pkts.filter (fun e => e.2.stands out && decide (e.2.port = inPort from_ out ∧ e.2.buf = vc))).length < 8)

/-- The next hop has credit for a packet (R317). -/
def State.hasCredit (s : State) (w : Switch) (sw out : Place) (p : Packet) : Bool := s.roomAt sw out (p.leavesBy w out)

/-- A brace's set-up goes on only from a hop that it holds (R322). -/
def Packet.mayLeave (p : Packet) : Bool :=
  match p.body with
  | .setup _ _ _ false => p.braced
  | _ => true

/-! ### Budgets at an output (R324, R447) -/

/-- The start of a Futas port's count. -/
def futStart : Int := 0x4000

/-- The partition of a packet that only passes through the device: no budget counts it (R447). -/
def noPart : Nat := 31

/-- A partition's budget at an output: the word, and whether its packets are eligible. -/
def State.outBudget (s : State) (sw out : Place) (part : Nat) : Word × Bool :=
  if part = noPart then (0, true) else
  match sw, out with
  | .cluster c, .sector _ => (s.wordAt .net c part, s.netOk c part)
  | .hub _, .futas f =>
    let w := s.wordAt .fut f part
    let n := match FMap.get s.futas f with | some x => FMap.rd futStart x.budget part | none => futStart
    (w, eligible w 4572 n)
  | _, _ => (0, true)

/-- Charge a packet at an output: flits at an up-link, units of 128 bytes at a Futas port. -/
def State.chargeOut (s : State) (sw out : Place) (p : Packet) : State :=
  if p.part = noPart then s else
  match sw, out with
  | .cluster c, .sector _ => s.chargeNet c p.part p.flits
  | .hub _, .futas f =>
    let n := ceilDiv (32 * p.flits) 128
    { s with futas := FMap.put s.futas f (let x := FMap.rd FutasPort.reset s.futas f
                                          { x with budget := chargeMap futStart x.budget p.part n }) }
  | _, _ => s

/-! ### Arbitration (R319) -/

/-- The exhausted packet that an output takes: ports from its pointer on, within a port in order of exhaustion. -/
def firstExhausted (ptr ports : Nat) (cs : List (Nat × Packet)) : Option (Nat × Packet) :=
  let key := fun (e : Nat × Packet) => ((e.2.port + ports - ptr) % ports, e.2.exhausted.getD 0, e.2.arrived, e.1)
  minBy (fun a b => before4 (key a) (key b)) (cs.filter (fun e => e.2.exhausted.isSome))

/-- The packet of least slack, then of earliest arrival, then of lowest port. -/
def firstBySlack (cs : List (Nat × Packet)) : Option (Nat × Packet) :=
  let key := fun (e : Nat × Packet) => (e.2.slack, e.2.arrived, e.2.port, e.1)
  minBy (fun a b => before4 (key a) (key b)) cs

/-- The order of R319, with the braced packets of an even cycle before its step 2 (R322). -/
def Switch.choose (w : Switch) (sw out : Place) (cs : List (Nat × Packet)) : Option (Nat × Packet) :=
  let ptr := ((w.ptr.find? (fun e => decide (e.1 = out))).map (·.2)).getD 0
  match firstExhausted ptr (portsOf sw) cs with
  | some e => some e
  | none =>
    match (if w.cycle % 2 = 0 then firstBySlack (cs.filter (fun e => e.2.usesBrace w out)) else none) with
    | some e => some e
    | none => firstBySlack cs

/-- What the switch keeps after a grant: the pointer, and the counts of a brace (R319, R322). -/
def Switch.granted (w : Switch) (sw out : Place) (p : Packet) : Switch :=
  let ptr := if p.exhausted.isSome then (out, (p.port + 1) % portsOf sw) :: w.ptr.filter (fun e => decide (e.1 ≠ out)) else w.ptr
  let use := fun (b : Place × Hop) => if b.1 = out then (b.1, { b.2 with left := b.2.left - p.flits, idle := 0 }) else b
  let brace := if p.usesBrace w out then (w.brace.map use).filter (fun b => decide (0 < b.2.left)) else w.brace
  { w with ptr := ptr, brace := brace }

/-- A hop has passed 256 switch cycles with no braced flit (R322); the cycle of its last one counts too. -/
def Hop.timedOut (h : Hop) : Bool := decide (256 < h.idle)

/-- A hop ends its part of a brace; the core's record goes with the last hop (R322). -/
def State.endHop (s : State) (k : Nat) (out : Place) (h : Hop) : State :=
  let s := { s with switches := FMap.upd s.switches k (fun w => { w with brace := w.brace.filter (fun b => decide (b.1 ≠ out)) }) }
  if s.switches.any (fun e => e.2.brace.any (fun b => decide (b.2.id = h.id))) then s
  else s.dropBrace (coreOfGid h.gid) (fun b => decide (b.id = h.id))

/-- A packet loses 1; at 0 it is LATE, and at a switch exhausted (R318, R319). -/
def Packet.tick (p : Packet) (stamp : Option Nat) : Packet :=
  if p.slack = 0 then p
  else
    let z := decide (p.slack = 1)
    { p with slack := p.slack - 1, late := p.late || z, exhausted := if z then stamp else p.exhausted }

/-- A switch's cycle whose count is 13 modulo 14 ends: what stood there from the cycle's beginning on loses 1 (R318). -/
def State.tickSwitch (s : State) (sw : Place) (k : Nat) : State :=
  let w := FMap.rd Switch.reset s.switches k
  if w.cycle % 14 ≠ 13 then s
  else { s with pkts := s.pkts.map (fun e => if e.2.stands sw ∧ e.2.cyc < w.cycle then (e.1, e.2.tick (some w.stamp)) else e),
                switches := FMap.put s.switches k { w with stamp := w.stamp + 1 } }

/-- A switch's present cycle ends: its slack tick, where that is due (R318); hops count an idle cycle, and those whose time is out
end (R322). -/
def State.endCycle (s : State) (sw : Place) (k : Nat) : State :=
  let s := s.tickSwitch sw k
  let w := FMap.rd Switch.reset s.switches k
  let brace := w.brace.map (fun b => (b.1, { b.2 with idle := b.2.idle + 1 }))
  let s := { s with switches := FMap.put s.switches k { w with cycle := w.cycle + 1, served := [], brace := brace } }
  (brace.filter (fun b => b.2.timedOut)).foldl (fun s b => s.endHop k b.1 b.2) s

/-- An output arbitrates in its switch's present cycle, or in the next one where it has done so already. -/
def State.switchCycle (s : State) (sw : Place) (k : Nat) (out : Place) : State :=
  let s := if (FMap.rd Switch.reset s.switches k).served.contains out then s.endCycle sw k else s
  { s with switches := FMap.put s.switches k (let w := FMap.rd Switch.reset s.switches k; { w with served := out :: w.served }) }

/-- SWITCH_ARBITRATION: one switch cycle of an output. A free output grants a packet with credit that arrived in an earlier cycle, of an
eligible partition where there is one, else of one that borrows (R318, R319, R325, R326). -/
def execEvSwitchArbitration (sw out : Place) (s : State) : Answer :=
  match switchKey sw with
  | none => .next s
  | some k =>
    let s := s.switchCycle sw k out
    let w := FMap.rd Switch.reset s.switches k
    let busy := s.pkts.any (fun e => decide (e.2.at_ = sw) && e.2.inLink && decide (e.2.path.head? = some out))
    let cs := s.pkts.filter (fun e => e.2.stands sw && decide (e.2.path.head? = some out ∧ e.2.cyc < w.cycle) && e.2.mayLeave && s.hasCredit w sw out e.2)
    let able := cs.filter (fun e => (s.outBudget sw out e.2.part).2)
    let lent := cs.filter (fun e => borrows (s.outBudget sw out e.2.part).1)
    match (if busy then none else w.choose sw out (if able.isEmpty then lent else able)) with
    | none => .next s
    | some (id, p) =>
      let s := if able.isEmpty then s else s.chargeOut sw out p
      let q := { p with inLink := true, buf := p.leavesBy w out }
      .next { s with pkts := FMap.put s.pkts id q, switches := FMap.put s.switches k (w.granted sw out p) }

/-! ### Replies at a core -/

/-- A producer takes a reply; lanes that have their result already take nothing (R381). -/
def Producer.answer (p : Producer) (vals : List (Nat × Nat × Word)) (poison : Lanes) (err : Nat) (lanes : Lanes) (late : Bool) :
    Producer :=
  let new := lanes &&& ~~~(p.ready ||| p.landed)
  let p := p.gain (vals.filter (fun v => inLanes new (if v.1 < 32 then v.1 else 0))) new
  { p with poison := p.poison ||| (poison &&& new), late := if late then p.late ||| new else p.late,
           errs := if err = 0 ∨ new = 0 then p.errs else FMap.put p.errs err (FMap.rd 0 p.errs err ||| new) }

/-- The producer is that of an atomic on memory. -/
def Producer.isAtomic (p : Producer) : Bool :=
  if p.ctl then (match decodeControl (p.bits.toNat % 2 ^ 32) 0 with | some (.cSatom _ _ _ _ _) => true | _ => false)
  else (shapeOfBits p.bits).any (fun sh => decide (sh.deed = .atomic ∧ sh.room = .memory))

/-- Two producers come from one word of a split. -/
def Producer.sameWord (a b : Producer) : Bool := decide (a.ctl = b.ctl ∧ a.place = b.place ∧ a.idx = b.idx ∧ a.bits = b.bits)

/-- Some result of a producer has still to come. -/
def Producer.awaits (p : Producer) : Bool := if p.ctl then decide (p.ready = 0) else decide (p.mask &&& ~~~(p.ready ||| p.landed) ≠ 0)

/-- The producer of the other copy that stands for this one: their producers of one word that await a result correspond in order
(R379). -/
def Group.partner (g : Group) (other : Group) (pid : Nat) (p : Producer) : Option Nat :=
  let open_ := fun (g : Group) => (g.replay.filter (fun e => e.2.sameWord p && e.2.awaits)).map (·.1)
  ((open_ g).findIdx? (fun x => x = pid)).bind (fun i => (open_ other)[i]?)

/-- The copy has still to issue the word that its twin has issued (R379). -/
def Group.behind (g : Group) (place : Nat) : Bool :=
  (FMap.get g.splits place).any (fun p => p.issued.any (fun i => decide (i.num = doveAgreed)))

/-- A group takes a reply for a producer. -/
def State.takeReply (s : State) (gid pid : Nat) (late : Bool) (f : Producer → Producer) : State :=
  s.updGroup gid (fun g =>
    match FMap.get g.replay pid with
    | none => g
    | some p =>
      let q := f p
      { g with replay := FMap.put g.replay pid q }.countLate (late && decide (q.ready ≠ p.ready)))

/-- Deliver a reply to a producer; the result of a dovetail pair's atomic goes to both copies. None where the other copy has
not issued its word yet. -/
def State.absorb (s : State) (gid pid : Nat) (late : Bool) (f : Producer → Producer) : Option State :=
  match FMap.get s.groups gid with
  | none => some s
  | some g =>
    match FMap.get g.replay pid, s.doveTwin gid with
    | some p, some t =>
      if !p.isAtomic then some (s.takeReply gid pid late f)
      else match FMap.get s.groups t with
        | none => some (s.takeReply gid pid late f)
        | some h => match g.partner h pid p with
          | some pid' => some ((s.takeReply gid pid late f).takeReply t pid' late f)
          | none => if h.behind p.place then none else some (s.takeReply gid pid late f)
    | _, _ => some (s.takeReply gid pid late f)

/-! ### Braces (R154, R322) -/

/-- The reply of a set-up reaches its split, in a handler's keeping or not: the brace stands, or its record goes. -/
def State.braceDone (s : State) (gid place id : Nat) (ok : Bool) : State :=
  let fix := fun i : Option Issued =>
    if i.any (fun w => decide (w.num = 1 ∧ w.val = BitVec.ofNat 64 id)) then some ⟨if ok then 2 else 3, 0, []⟩ else i
  let keep := fun h : Handler => if h.place = place then { h with kept := { h.kept with issued := fix h.kept.issued } } else h
  let s := s.updGroup gid (fun g =>
    { g with handler := g.handler.map keep }.updSplit place (fun p => { p with issued := fix p.issued }))
  let core := coreOfGid gid
  if ok then s.setCore core { s.core core with braces := (s.core core).braces.map (fun b => if b.id = id then { b with up := true } else b) }
  else s.dropBrace core (fun b => decide (b.id = id))

/-- The way back of a set-up from a place that it has reached. -/
def State.backFrom (s : State) (here : Place) (gid : Nat) (e : Word) : List Place :=
  let core := coreOfGid gid
  ((Place.cluster (clusterOf core) :: s.pathToCoreOf core e).takeWhile (fun p => decide (p ≠ here))).reverse ++ [.core core]

/-- BRACE_SETUP: a set-up takes the VC3 of its next hop, or turns back where that is taken; at the endpoint's core it
answers (R322). -/
def execEvBraceSetup (pkt : Nat) (s : State) : Answer :=
  match FMap.get s.pkts pkt with
  | none => .next s
  | some p =>
    match p.body with
    | .setup e n _ false =>
      if p.inLink ∨ p.braced then .next s
      else
        let back := s.backFrom p.at_ p.gid e
        match switchKey p.at_, p.path with
        | some k, out :: _ =>
          let w := FMap.rd Switch.reset s.switches k
          match w.braceAt out with
          | none =>
            let w := { w with brace := w.brace ++ [(out, ⟨p.gid, e, n, pkt, 0⟩)] }
            .next { s with pkts := FMap.put s.pkts pkt { p with braced := true }, switches := FMap.put s.switches k w }
          | some _ => .next (s.arrive pkt { p with vc := 1, buf := 1, body := .setup e n false true } p.at_ back)
        | _, _ =>
          let q := { p with vc := 1, buf := 1, inLink := true, path := back, body := .setup e n true true }
          if p.path.isEmpty then .next { s with pkts := FMap.put s.pkts pkt q } else .next s
    | _ => .next s

/-- BRACE_IDLE_TIMEOUT: a hop whose 256 idle cycles have passed ends its part of a brace (R322). -/
def execEvBraceIdleTimeout (sw out : Place) (s : State) : Answer :=
  match switchKey sw with
  | none => .next s
  | some k =>
    let w := FMap.rd Switch.reset s.switches k
    match w.braceAt out with
    | none => .next s
    | some h => .next (if h.timedOut then s.endHop k out h else s)

/-! ### What the device sends to others (R447 to R450) -/

/-- A packet leaves for another device from the hub of the port that its line address takes there (R448). With no live port, a
request of a group of this device waits, out of the network, for PEER_TIMEOUT; what is not its own is lost. -/
def State.sendAway (s : State) (p : Packet) (dev addr : Nat) : State :=
  let ports := s.livePorts dev
  match ports[addr / 128 % ports.length]? with
  | some port => { s with nextPkt := s.nextPkt + 1 }.arrive s.nextPkt { p with port := 32 } (.hub (port / 32)) [.futas port]
  | none => if p.asks then { s with nextPkt := s.nextPkt + 1, pkts := FMap.put s.pkts s.nextPkt p } else s

/-- The group of a packet that belongs to no group of this device. -/
def foreignGid : Nat := 2 ^ 24

/-- A message to another device on a virtual channel. -/
def State.sayPeer (s : State) (m : PeerMsg) (dev addr slack vc part flits : Nat) (late : Bool) : State :=
  s.sendAway { mkPacket foreignGid 9 32 slack vc part flits (.peerMsg m) with late := late } dev addr

/-- The peer's fault becomes due for a store (R381). -/
def State.storeFault (s : State) (p : Packet) (accs : List Acc) (cause : Nat) : State :=
  let lanes := accLanes (accs.filter (fun a => decide (a.lane < 32)))
  let va := BitVec.ofNat 64 ((accs.map (·.loc)).headD 0)
  match (FMap.get s.groups p.gid).bind (fun g => FMap.get g.splits p.place) with
  | none => s
  | some x =>
    let d : Due := if lanes = 0 then ⟨.D, cause, false, va, x.mask, p.place, false⟩ else ⟨.D, cause, true, va, lanes, p.place, false⟩
    s.addDue p.gid d false

/-! ### PACKET_ARRIVAL -/

/-- What a packet does where it has arrived; a packet that waits there for an event of its own stays. What a peer answers may
come from a release there, and is taken as an acquire (R214, R354; log entry 99). A store that comes back has been performed by
its peer, at every replica of its page, or has failed there (R381, R449; log entry 12). -/
def State.landPacket (s : State) (id : Nat) (p : Packet) (here : Place) : Option State :=
  let gone := { s with pkts := FMap.del s.pkts id }
  match here, p.body with
  | .core _, .reply pid vals poison err lanes =>
    let gone := if p.peer = 0 then gone else gone.acquireAt (coreOfGid p.gid) 4 true false
    if p.place = 9 then some gone else gone.absorb p.gid pid p.late (fun q => q.answer vals poison err lanes p.late)
  | .core _, .req accs none _ _ _ _ _ _ =>
    let (w, s) := gone.free
    some (if bitOf w 0 ∧ p.place ≠ 9 then s.storeFault p accs cPEERFAULT else s)
  | .core _, .record ray => some (gone.deliverRecord ray p.late)
  | .core _, .setup _ _ ok true => some (if p.place = 9 then gone else gone.braceDone p.gid p.place id ok)
  | .core _, .unbrace _ => some gone
  | .rca cl, .query qs => some (gone.takeQueries cl p qs)
  | _, .setup _ _ false true => some (s.freeHops here (fun h => decide (h.id = id)))
  | _, .unbrace e => some (s.freeHops here (fun h => h.goesTo p.gid e && decide (h.id < id)))
  | _, _ => some s

/-- PACKET_ARRIVAL: a packet on a link reaches the head of its path (R318, R319). What no switch has granted, but an end of the network
sends, waits for a free buffer (R317). -/
def execEvPacketArrival (pkt : Nat) (s : State) : Answer :=
  match FMap.get s.pkts pkt with
  | none => .next s
  | some p =>
    match p.path with
    | [] => .next s
    | here :: rest =>
      if !p.inLink ∨ ((switchKey p.at_).isNone ∧ !s.roomAt p.at_ here p.buf) then .next s
      else
        let set := match p.body with | .setup _ _ _ _ => true | _ => false
        let p := { p with port := inPort p.at_ here, braced := p.braced && !set }
        .next (((s.arrive pkt p here rest).landPacket pkt p here).getD s)

/-! ### Puts (R152, R323) -/

/-- An entry of the inbound fault log, with IFLT in the port whose running job uses the address space, else in port A
(R450). -/
def State.logFault (s : State) (e : LogEntry) : State :=
  let s := if s.log.length < 64 then { s with log := s.log ++ [e] } else { s with lost := min (s.lost + 1) 0xFFFF_FFFF }
  let i := ((s.jobs.find? (fun j => decide (j.2.asid = e.tasid))).map (·.2.port)).getD .a
  let p := s.port i
  (s.setPort i { p with iflt := true }).message i 2 p.iflt

/-- The units that a put writes: the endpoint's and its twin (R267). -/
def State.putUnits (s : State) (uid : Nat) : List Nat := uid :: ((FMap.get s.units uid).bind (·.twin)).toList

/-- The initiator of a put learns that it failed: in PUTERR, or by an error completion that is sent to its device (R152, R157,
R450). -/
def State.putFailed (s : State) (e : LogEntry) (src : Word) : State :=
  let s := s.logFault e
  if epDev src = s.mgmt.fid.toNat then s.putError src
  else s.sayPeer (.putError (epDev src) src) (epDev src) e.va.toNat 4095 1 (s.partOfAsid e.tasid) 1 false

/-- A put in `State.puts`: its number at its initiator, which is this device or a peer (R323). -/
def putKey (from_ : Option Nat) (id : Nat) : Nat := 4097 * id + (match from_ with | some fid => fid % 4096 + 1 | none => 0)

/-- A piece of a put lands: bytes and poison first, the counter once the last piece has landed. A put that fails writes
nothing more and is logged once; its mark in `State.puts` is 2^20. -/
def State.landPut (s : State) (dst : Word) (roff off counter total : Nat) (bytes : List Byte) (bad : List Nat) (src : Word)
    (id tasid : Nat) : State :=
  let had := FMap.rd 0 s.puts id
  let now := had + bytes.length
  let done := decide (total ≤ now % 2 ^ 20)
  let fail := fun (cause : Nat) =>
    let s := if 2 ^ 20 ≤ had then s
      else s.putFailed ⟨BitVec.ofNat 64 roff, epDev src, tasid, cause, 3⟩ src
    { s with puts := if done then FMap.del s.puts id else FMap.put s.puts id (now % 2 ^ 20 + 2 ^ 20) }
  match s.epUnit dst with
  | none => fail cPEERFAULT
  | some uid =>
    match FMap.get s.units uid with
    | none => fail cPEERFAULT
    | some u =>
      if u.scrSize < roff + total then fail cPROTECT
      else if 2 ^ 20 ≤ had then fail cPROTECT
      else
        let taint := (List.range bytes.length).map (fun i => bad.contains (i / 8))
        let put := fun u : UnitRec =>
          let u := (u.scrPut (roff + off) bytes).scrTaint (roff + off) taint
          if done then { u with counters := FMap.wr 0 u.counters counter (FMap.rd 0 u.counters counter + 1) } else u
        let s := (s.putUnits uid).foldl (fun s x => s.updUnit x put) s
        { s with puts := if done then FMap.del s.puts id else FMap.put s.puts id now }

/-- PUT_ARRIVAL: a piece of a put is received at its core (R152, R323). -/
def execEvPutArrival (pkt : Nat) (s : State) : Answer :=
  match FMap.get s.pkts pkt with
  | none => .next s
  | some p =>
    match p.at_, p.body with
    | .core _, .put dst roff off counter total bytes bad src id =>
      if p.inLink ∨ !p.path.isEmpty then .next s
      else
        let s := { s with pkts := FMap.del s.pkts pkt }
        .next (s.landPut dst roff off counter total bytes bad src (putKey none id) (s.asidOfGid p.gid))
    | _, _ => .next s

/-! ### Slack (R318, R319) -/

/-- A place at which slack is counted. -/
def ticks : Place → Bool
  | .cluster _ | .sector _ | .stop _ | .hub _ | .slice _ | .sill _ => true
  | _ => false

/-- A ray queued at a sill loses 1. -/
def Ray.tick (r : Ray) (stamp : Nat) : Ray :=
  if r.slack = 0 then r
  else
    let z := decide (r.slack = 1)
    { r with slack := r.slack - 1, late := r.late || z, exhausted := if z then some stamp else r.exhausted }

/-- SLACK_TICK (R318): the present cycle of a switch ends where its count is 13 modulo 14, and what has stood there since before it
loses 1; at a slice and a sill, whose cycles the model does not count, everything buffered loses 1 (log entry 52). -/
def execEvSlackTick (place : Place) (s : State) : Answer :=
  if !ticks place then .next s
  else match switchKey place with
  | some k => .next (if (FMap.rd Switch.reset s.switches k).cycle % 14 = 13 then s.endCycle place k else s)
  | none =>
    let s := { s with pkts := s.pkts.map (fun e => if e.2.stands place then (e.1, e.2.tick none) else e) }
    match place with
    | .sill k =>
      let q := s.sill k
      let s := s.setSill k { q with queue := q.queue.map (fun r => { r with slack := r.slack - 1 }) }
      let stamp := s.nextPkt
      let tick := fun (e : Nat × Ray) => if e.2.stage = .queued ∧ e.2.stack = k then (e.1, e.2.tick stamp) else e
      .next { s with rays := s.rays.map tick, nextPkt := stamp + 1 }
    | _ => .next s

/-! ### Periods -/

/-- MEMORY_BUDGET_PERIOD: a network or HBM count is renewed; an ALLOT below 64 acts as 64 (R324, R325). -/
def execEvMemoryBudgetPeriod (site : BudgetSite) (s : State) : Answer :=
  let allot := fun (w : Word) => max 64 (allotOf w)
  match site with
  | .net c part =>
    let key := siteKey c part
    let new := renewed (allot (s.budgetWord part (·.net))) (FMap.rd netStart s.netBudget key)
    if s.partHalted part then .next s else .next { s.newWord .net c part with netBudget := FMap.put s.netBudget key new }
  | .hbm k part =>
    let key := siteKey k part
    let new := renewed (1024 * allot (s.budgetWord part (·.hbm))) (FMap.rd hbmStart s.hbmBudget key)
    if s.partHalted part then .next s else .next { s.newWord .hbm k part with hbmBudget := FMap.put s.hbmBudget key new }

/-- A place's period begins for every partition that is not halted. -/
def State.newWords (s : State) (k : BudgetKind) (site : Nat) : State :=
  s.parts.foldl (fun s e => if e.2.saved then s else s.newWord k site e.1) s

/-- RAY_STEP_BUDGET_PERIOD: the counts of a sill's pipes are renewed (R407). -/
def execEvRayStepBudgetPeriod (stack : Nat) (s : State) : Answer :=
  let one := fun (m : FMap Int) (e : Nat × Part) =>
    let key := siteKey stack e.1
    if e.2.saved then m else FMap.put m key (renewed (4 * allotOf e.2.ray) (FMap.rd rayStart m key))
  .next { s.newWords .ray stack with rayBudget := s.parts.foldl one s.rayBudget }

/-- FUTAS_BUDGET_PERIOD: the counts of a port are renewed (R447). -/
def execEvFutasBudgetPeriod (port : Nat) (s : State) : Answer :=
  let x := FMap.rd FutasPort.reset s.futas port
  let one := fun (m : FMap Int) (e : Nat × Part) =>
    if e.2.saved then m else FMap.put m e.1 (renewed (allotOf e.2.fut) (FMap.rd futStart m e.1))
  .next { s.newWords .fut port with futas := FMap.put s.futas port { x with budget := s.parts.foldl one x.budget } }

end Sys2Proof.Machine
end

