-- ==== Sys2Proof/Machine/Landing.lean ====
section
/-! DEFINITION. A long-latency producer's result lands (R35, R215, R217, R250, R371, R372, R380, R381, R383). -/

namespace Sys2Proof.Machine

/-- An HPOP that stands earlier in a split's program order comes first (R217, R340); those that a frame holds wait for its
end. -/
def Group.popBefore (g : Group) (pid tag : Nat) : Bool :=
  g.replay.any (fun e => decide (e.1 < pid ∧ e.2.ready = 0) && !g.frameHolds e.1 e.2 &&
    g.splits.any (fun p => p.2.tags.contains e.2.tag && p.2.tags.contains tag) &&
    (match e.2.kind with | .hpop _ _ _ => true | _ => false))

/-- HPOP reads its slot when its hod holds one: an acquire at scope unit; with HOLD = 0, C advances (R217). A poisoned slot
word leaves its offset at index 31. -/
def State.performPop (s : State) (gid pid : Nat) : State :=
  match FMap.get s.groups gid with
  | none => s
  | some g =>
    match FMap.get g.replay pid with
    | none => s
    | some p =>
      match p.kind, s.unitOf g with
      | .hpop hn off hold, some u =>
        match FMap.get u.hods hn with
        | none => s
        | some h =>
          if p.ready ≠ 0 ∨ h.fill = 0 ∨ h.fault.isSome ∨ g.frameHolds pid p ∨ g.popBefore pid p.tag then s
          else
            let at_ := fun l => h.slotAt h.c + off + 8 * l
            let vals := (lanesIn p.mask).map (fun l => (l, 0, BitVec.ofNat 64 (u.scrAt (at_ l) 8)))
            let bad := (lanesIn p.mask).filter (fun l => u.scrBad (at_ l) 8)
            let where_ := bad.map (fun l => (l, 31, BitVec.ofNat 64 (at_ l)))
            let s := s.updProducer gid pid (fun p =>
              { p.gain (vals ++ where_) p.mask with sent := true, poison := lanesOf (fun l => bad.contains l) })
            if hold then s else s.updHod g.uid hn (fun h => { h with c := h.c + 1 })
      | _, _ => s

/-- The value that a lane's register i takes (R205, R213). -/
def Producer.value (p : Producer) (i lane : Nat) : Word :=
  let v := FMap.rd 0 p.vals (32 * i + lane)
  match p.kind with
  | .access => match shapeOfBits p.bits with
    | some sh => sh.landed v
    | none => v
  | _ => v

/-- Write the destination registers of a lane, full. -/
def Group.landLane (g : Group) (p : Producer) (lane : Nat) : Group :=
  match p.dest with
  | .lanes first count sup => (List.range count).foldl (fun g i =>
      (g.setV sup (first + i) lane (p.value i lane)).setVEmpty sup (first + i) lane false) g
  | _ => g

/-- LSTAT of a lane after its result: LT for a LATE reply, SD for a dropped sample (R33, R215, R248, R250). -/
def Group.landStat (g : Group) (p : Producer) (lane : Nat) : Group :=
  let lt := if inLanes p.late lane then lsLT else 0
  let sd := if FMap.rd 0 p.vals (32 * 30 + lane) ≠ 0 then lsSD else 0
  if lt ||| sd = 0 then g else g.stick lane (lt ||| sd)

/-- The address that a deferred trap reports for the lowest of some lanes. -/
def Producer.trapValue (p : Producer) (lanes : Lanes) : Word :=
  let l := lowLane lanes
  match FMap.get p.vals (32 * 31 + l) with
  | some v => v
  | none => FMap.rd 0 p.opA (if p.ctl then 0 else l)

/-- What a landing in some lanes makes due: POISON, the peer's fault, LATESLACK under MODE.LTE (R380, R381). -/
def Producer.dues (p : Producer) (lanes : Lanes) (lte : Bool) : List Due :=
  let at_ := fun (m : Lanes) => if p.ctl then (if m &&& 1 = 0 then 0 else p.mask) else m &&& lanes
  let due := fun (cause : Nat) (m : Lanes) (v : Word) =>
    if at_ m = 0 then [] else [(⟨.D, cause, !p.ctl, v, at_ m, p.place, !p.um⟩ : Due)]
  due cPOISON p.poison (p.trapValue (p.poison &&& lanes)) ++
    p.errs.flatMap (fun e => due e.1 e.2 (p.trapValue (e.2 &&& lanes))) ++
    (if lte then due cLATESLACK p.late 0 else [])

/-- A ray whose last record has been taken retires (R242, R408). -/
def State.retireRecords (s : State) (gid pid : Nat) (lanes : Lanes) : State :=
  let mine := s.rays.filter (fun e => decide (e.2.gid = gid ∧ e.2.pid = some pid ∧ e.2.stage = .reported) && inLanes lanes e.2.lane)
  mine.foldl (fun s e =>
    (s.updGroup gid (fun g => { g with rays := FMap.del g.rays (rayKey e.2.lane e.2.block) })).retireRay e.1) s

/-- The lanes that have arrived land: registers, LSTAT, LANDED; superseded lanes discard theirs (R383). -/
def Group.landLanes (g : Group) (pid : Nat) (p : Producer) (lanes : Lanes) : Group :=
  let g := (lanesIn lanes).foldl (fun g l => (g.landLane p l).landStat p l) g
  let q := { p with landed := p.landed ||| lanes }
  { g with replay := FMap.put g.replay pid q }

/-- The control stream's result lands. -/
def Group.landScalar (g : Group) (pid : Nat) (p : Producer) : Group :=
  let g := match p.dest with
    | .scalar n ks =>
      if p.sup = p.mask ∧ p.mask ≠ 0 then g else (g.setS p.place n ks (FMap.rd 0 p.vals 32)).setSEmpty p.place n ks false
    | _ => g
  { g with replay := FMap.put g.replay pid { p with landed := p.mask } }

/-- The entry is dropped once it has finished; an SFROM that waited for the registers takes its value. -/
def State.closeEntry (s : State) (gid pid : Nat) : State :=
  (s.syncFrame gid pid).updGroup gid (fun g => (g.retire pid).sample)

/-- Lanes of a producer whose results have come and not landed. -/
def Producer.arrivedLanes (p : Producer) : Lanes := p.ready &&& p.mask &&& ~~~p.landed &&& ~~~p.sup

/-- Deferred traps of a landing join the group's. -/
def State.addDues (s : State) (gid : Nat) (ds : List Due) : State :=
  ds.foldl (fun s d => s.addDue gid d false) s

/-- Land what has come of one producer. -/
def State.landProducer (s : State) (gid pid : Nat) : State :=
  match FMap.get s.groups gid with
  | none => s
  | some g =>
    match FMap.get g.replay pid with
    | none => s
    | some p =>
      let lte := bitOf g.mode 2
      if g.frameHolds pid p then s
      else if p.ctl then
        if p.ready = 0 ∨ (p.landed = p.mask ∧ p.mask ≠ 0) then s
        else ((s.putGroup gid (g.landScalar pid p)).closeEntry gid pid).addDues gid (if p.sup = p.mask ∧ p.mask ≠ 0 then [] else p.dues p.ready lte)
      else
        let lanes := p.arrivedLanes
        if lanes = 0 then (if p.mask &&& ~~~p.ready = 0 then s.closeEntry gid pid else s)
        else
          let s := (s.putGroup gid (g.landLanes pid p lanes)).closeEntry gid pid
          (s.retireRecords gid pid lanes).addDues gid (p.dues lanes lte)

/-- PRODUCER_RESULT_LANDS (R35): an HPOP whose hod holds data reads it first. -/
def execEvProducerResultLands (core gslot pid : Nat) (s : State) : Answer :=
  let gid := gidOf core gslot
  .next ((s.performPop gid pid).landProducer gid pid)

end Sys2Proof.Machine
end

