-- ==== Sys2Proof/Machine/Home.lean ====
section
/-! DEFINITION. The home slices (R305 to R308, R348, R349), host lines (R437), the sills' HBM controllers (R311 to R315),
the walkers (R300) and errors in stored state (R380). -/

namespace Sys2Proof.Machine

/-! ### One access at its home -/

/-- The bytes of sectors that some accesses touch (R209). -/
def accSectors (accs : List Acc) : BitVec 4 := accs.foldl (fun m a => m ||| sectorMask a.loc a.size) 0

/-- Some access writes. -/
def accWrites (accs : List Acc) : Bool := accs.any (fun a => !a.op.isLoad)

/-- Perform one access on memory: its result, and whether it read poison. An atomic leaves a poisoned word poisoned, and a copied
word keeps its poison (R89, R145, R213, R310). -/
def State.performAcc (s : State) (a : Acc) : State × Option Word × Bool :=
  let old := s.natAt a.loc a.size
  let bad := s.poisonedAt a.loc a.size
  match a.op with
  | .load held =>
    let own := fun i => held.any (fun o => decide (o.1 = i))
    let bad := (List.range a.size).any (fun i => s.poisonedAt (a.loc + i) 1 && !own i)
    (s, some (BitVec.ofNat 64 (layOver a.size old held)), bad)
  | .loadBad held => (s, some (BitVec.ofNat 64 (layOver a.size old held)), true)
  | .store v => (s.storeHome a.loc (bytesOf a.size v.toNat), none, false)
  | .storeBad v => ((s.storeHome a.loc (bytesOf a.size v.toNat)).setPoison a.loc true, none, false)
  | .atomic op ty v cmp =>
    let w := 8 * a.size
    let new := atomicNew op ty w old (v.toNat % 2 ^ w) (cmp.toNat % 2 ^ w)
    let s := if op = 8 then s else s.storeHome a.loc (bytesOf a.size new)
    let s := if bad then s.setPoison a.loc true else s
    (s, some (BitVec.ofNat 64 old), bad)

/-- Perform the accesses of a request in order: results by lane and index, and the lanes that read poison. -/
def State.performAccs (s : State) (accs : List Acc) : State × List (Nat × Nat × Word) × Lanes :=
  accs.foldl (fun (acc : State × List (Nat × Nat × Word) × Lanes) a =>
    let (s, v, bad) := acc.1.performAcc a
    let lane := laneBit (if a.lane < 32 then a.lane else 0)
    (s, acc.2.1 ++ v.toList.map (fun w => (a.lane, a.idx, w)), if bad then acc.2.2 ||| lane else acc.2.2)) (s, [], 0)

/-- The replies of a home, with the slack and the LATE bit of its request (R320): one for each 16 values, which fill 4 data flits
(R316; log entry 87). -/
def State.replyFrom (s : State) (p : Packet) (pid : Nat) (vals : List (Nat × Nat × Word)) (poison : Lanes) (err : Nat) (lanes : Lanes)
    (here : Place) (path : List Place) : State :=
  let send := fun (s : State) (vals : List (Nat × Nat × Word)) (lanes : Lanes) =>
    let body := Body.reply pid vals (poison &&& lanes) err lanes
    let q := { mkPacket p.gid p.place 0 p.slack 1 p.part (1 + ceilDiv (8 * vals.length) 32) body with late := p.late, peer := p.peer }
    s.depart q here path
  if vals.length ≤ 16 then send s vals lanes
  else (List.range (ceilDiv vals.length 16)).foldl (fun s i =>
    let part := (vals.drop (16 * i)).take 16
    send s part (part.foldl (fun m v => m ||| laneBit (if v.1 < 32 then v.1 else 0)) 0)) s

/-! ### Releases that stand in memory (R346, R354, R356) -/

/-- A word is one that a release, or a write after a release fence, wrote last, or an atomic of its release sequence (R346). -/
def State.released (s : State) (loc : Nat) : Bool := (FMap.get s.rel (loc / 8)).isSome

/-- What an access leaves at its word: a releasing write marks it with its group and its number, an atomic keeps the mark, and
a plain store of the whole word ends it (R346). -/
def State.markRel (s : State) (p : Packet) (pkt : Nat) (a : Acc) : State :=
  if a.op.isLoad then s
  else if p.rel ≠ 0 then { s with rel := FMap.put s.rel (a.loc / 8) (p.gid, pkt, p.rel) }
  else if a.op.isAtomic ∨ a.size < 8 then s
  else { s with rel := FMap.del s.rel (a.loc / 8) }

/-- The widest release, plus 1, that an access of a request reads from; a read that the L1 keeps brings its whole line. -/
def State.readsRelease (s : State) (accs : List Acc) (cached : Bool) : Nat :=
  accs.foldl (fun n a => if a.op.isStore then n else max n (if cached then s.relOfLine (a.loc / 128) else s.relAt a.loc)) 0

/-- A promoting request waits while the core of the release that it reads still has writes from before it under way (R356). -/
def State.promWaits (s : State) (accs : List Acc) : Bool :=
  accs.any (fun a => match FMap.get s.rel (a.loc / 8) with
    | none => false
    | some (gid, n, _) => s.pkts.any (fun e => decide (e.1 < n) && decide (coreOfGid e.2.gid = coreOfGid gid) && e.2.asks &&
        (match e.2.body with | .req accs _ _ _ _ _ _ _ => accs.any (fun a => !a.op.isLoad) | _ => false)))

/-- A line of a core's L1 takes the bytes that an uncached read has found (R348). -/
def State.patchL1 (s : State) (core : Nat) (accs : List Acc) : State :=
  accs.foldl (fun s a =>
    if s.storesToLine core (a.loc / 128) then s
    else s.setCore core ((s.core core).l1Store a.loc (Memory.bytes s.mem a.loc a.size))) s

/-- What a request does when its home performs it: the accesses, an acquire at its core (R303, R308, R349), which a read of a
released word is too (R354; log entry 99), the line of the core's L1 that a cached read brings (R303), the reply (R320). What
the core has read or written, no guest line of its sector still hides (R308, R348). -/
def State.serveAt (s : State) (pkt : Nat) (p : Packet) (accs : List Acc) (pid : Option Nat) (kind order scope slice : Nat) : State :=
  let core := coreOfGid p.gid
  let s := { s with pkts := FMap.del s.pkts pkt }
  let loc := (accs.map (·.loc)).headD 0
  let loads := accs.all (fun a => a.op.isLoad)
  let cached := pid.isSome && decide (kind ≠ 1) && inHbm loc && loads
  let rel := s.readsRelease accs cached
  let (s, vals, bad) := s.performAccs accs
  let s := accs.foldl (fun s a => s.markRel p pkt a) s
  let s := if order = 1 ∨ order = 3 then s.acquireAt core scope true false else s
  let s := s.readRel core rel
  let s := s.dropGuest (sectorOf core) (loc / 128)
  let s := if cached then s.fillL1 core loc (decide (kind = 2)) 0 else if loads then s.patchL1 core accs else s
  match pid with
  | none => s
  | some pid => s.replyFrom p pid vals bad 0 (accLanes accs) (.slice slice) (pathToCore slice core)

/-! ### HOME_SLICE_REQUEST -/

/-- An older request of the same core to the same line is on its way (R348; log entry 14). -/
def State.olderRequest (s : State) (pkt core line : Nat) : Bool :=
  s.pkts.any (fun e => decide (e.1 < pkt) && decide (coreOfGid e.2.gid = core) && decide (e.2.peer = 0) && !e.2.heldBack &&
    (match e.2.body with
      | .req accs _ _ _ _ _ _ _ => accs.any (fun a => a.loc / 128 = line)
      | _ => false))

/-- A request does not go at its home yet, whatever has arrived there: an older one of its core comes first, or its promotion waits. -/
def State.turnWaits (s : State) (pkt : Nat) (p : Packet) (line : Nat) : Bool :=
  s.olderRequest pkt (coreOfGid p.gid) line ||
    (match p.body with | .req accs _ _ prom _ _ _ _ => prom && s.promWaits accs | _ => false)

/-- A request to the line has arrived at the slice before and may go: the requests to a line are performed in their order of arrival at
the home (R89). -/
def State.earlierRequest (s : State) (p : Packet) (slice line : Nat) : Bool :=
  s.pkts.any (fun e => decide (e.2.at_ = .slice slice ∧ e.2.arrived < p.arrived) && !e.2.inLink &&
    (match e.2.body with
      | .req accs _ _ _ _ _ _ _ => accs.any (fun a => a.loc / 128 = line) && !s.turnWaits e.1 e.2 line
      | _ => false))

/-- A read from a guest line of the reading core's sector (R308). -/
def State.guestLine (s : State) (slice line : Nat) : Option L2Line :=
  (s.l2Set slice (setOf (128 * line))).find? (fun l => l.guest && l.line = line)

/-- Serve loads from a guest line, with the poison that it has met since (R310); the L1 takes a line without poison. -/
def State.serveGuest (s : State) (pkt : Nat) (p : Packet) (accs : List Acc) (pid slice : Nat) (l : L2Line) : State :=
  let core := coreOfGid p.gid
  let byte := fun loc => FMap.rd 0 l.bytes (loc % 128)
  let vals := accs.map (fun a => (a.lane, a.idx, BitVec.ofNat 64 (natOfBytes ((List.range a.size).map (fun i => byte (a.loc + i))))))
  let set := setOf (128 * l.line)
  let ls := s.l2Set slice set
  let here := fun x : L2Line => x.guest && x.line = l.line
  let s := s.putL2Set slice set (ls.filter here ++ ls.filter (fun x => !here x))
  let s := { s with pkts := FMap.del s.pkts pkt }
  let k := s.core core
  let s := if s.storesToLine core l.line ∨ l.bad.any (fun e => e.2) then s
    else s.setCore core (k.l1Put ⟨l.line, false, (List.range 128).map (fun i => byte i), 0⟩)
  let bad := accs.foldl (fun m a => if FMap.rd false l.bad (a.loc / 8) then m ||| accLanes [a] else m) 0
  s.replyFrom p pid vals bad 0 (accLanes accs) (.slice slice) (pathToCore slice core)

/-- The reading sector installs a guest line, of a line without poison or released words whose home is in another
sector (R308). -/
def State.takeGuest (s : State) (p : Packet) (loc : Nat) : State :=
  let core := coreOfGid p.gid
  let sec := sectorOf core
  let line := loc / 128
  if sectorOfSlice (sliceOf loc) = sec ∨ s.poisonedAt (128 * line) 128 ∨ s.sectorStores sec line ∨
      (List.range 16).any (fun i => s.released (128 * line + 8 * i)) then s
  else
    let bytes := ((List.range 128).zip (Memory.bytes s.mem (128 * line) 128)).foldl (fun m e => FMap.wr 0 m e.1 e.2) ([] : FMap Byte)
    s.installGuest (s.asidOfGid p.gid) p.part sec line bytes

/-- A request asks HBM for the sectors that its home lacks (R305, R306, R312). DESIGN CHOICE: R306 does not tell which requests
count as misses that move PSEL; one that finds its line but not its sectors does, a read that misses its sector's guest line
does not (log entry 98). -/
def State.askHbm (s : State) (pkt : Nat) (p : Packet) (loc : Nat) (m : BitVec 4) : State :=
  let asid := s.asidOfGid p.gid
  let have_ := match s.homeLine loc with | some l => l.valid | none => 0
  let asked := (s.sill (stackOf loc)).queue.any (fun r => decide (r.line = loc / 128 ∧ !r.write ∧ r.sectors ||| have_ ||| m = r.sectors ||| have_))
  let s := if p.missed then s else s.duel asid (setOf loc)
  let s := { s with pkts := FMap.put s.pkts pkt { p with missed := true } }
  if asked then s else s.queueHbm loc false (m &&& ~~~have_) p.slack p.part asid [] []

/-- A request to host memory (R437): SO goes uncached; else the slice first obtains the line, owned where it writes. -/
def State.serveHost (s : State) (pkt : Nat) (p : Packet) (accs : List Acc) (pid : Option Nat) (kind order scope slice : Nat) : State :=
  let line := ((accs.map (·.loc)).headD 0) / 128
  let writes := accWrites accs
  let held := FMap.get s.hostLines line
  if kind = 1 then
    let s := s.emit (.hostReq line writes)
    let s := if held.isSome ∨ accs.all (fun a => a.op.isStore) then s else s.hostBytes line
    s.serveAt pkt p accs pid kind order scope slice
  else if held.any (fun own => own || !writes) then
    (s.fillHome (s.asidOfGid p.gid) p.part (128 * line) 128).serveAt pkt p accs pid kind order scope slice
  else if s.hostWait.contains line then s
  else { s.emit (.hostReq line writes) with hostWait := s.hostWait ++ [line] }

/-- A request to HBM at its home slice. -/
def State.serveHome (s : State) (pkt : Nat) (p : Packet) (accs : List Acc) (pid : Option Nat) (kind : Nat) (guest : Bool)
    (order scope slice : Nat) : State :=
  let loc := (accs.map (·.loc)).headD 0
  let line := loc / 128
  let m := accSectors accs
  let here := match s.homeLine loc with | some l => decide (l.valid &&& m = m) | none => false
  if !here then s.askHbm pkt p loc m
  else if accWrites accs ∧ FMap.rd false s.hostHeld line then
    if s.hostWait.contains line then s else { s.emit (.backInv line) with hostWait := s.hostWait ++ [line] }
  else
    let s := if p.missed then s else s.touchHomeLine loc
    let s := s.serveAt pkt p accs pid kind order scope slice
    if guest then s.takeGuest p loc else s

/-- HOME_SLICE_REQUEST (R305 to R308, R348, R349): a request at a slice is served there; at its own sector's slice it reads a
guest line, or goes on to the home where that has gone. -/
def execEvHomeSliceRequest (pkt : Nat) (s : State) : Answer :=
  match FMap.get s.pkts pkt with
  | none => .next s
  | some p =>
    match p.at_, p.body with
    | .slice slice, .req accs pid _ _ kind guest order scope =>
      let loc := (accs.map (·.loc)).headD 0
      if p.inLink ∨ s.turnWaits pkt p (loc / 128) then .next s
      else if slice ≠ sliceOf loc then
        match pid, s.guestLine slice (loc / 128) with
        | some pid, some l => .next (s.serveGuest pkt p accs pid slice l)
        | _, _ =>
          let path := [Place.sector (sectorOfSlice slice)] ++ ringTo (sectorOfSlice slice) (sectorOfSlice (sliceOf loc)) ++ [.slice (sliceOf loc)]
          .next { s with pkts := FMap.put s.pkts pkt { p with inLink := true, path := path } }
      else if s.earlierRequest p slice (loc / 128) then .next s
      else if inHost loc then .next (s.serveHost pkt p accs pid kind order scope slice)
      else .next (s.serveHome pkt p accs pid kind guest order scope slice)
    | _, _ => .next s

/-! ### HBM (R312 to R315) -/

/-- HBM_REQUEST_SERVE: the sill serves by least slack, then by oldest arrival, among eligible partitions first (R312, R325). -/
def execEvHbmRequestServe (stack : Nat) (s : State) : Answer :=
  let q := s.sill stack
  let ready := hbmReady q.queue
  let able := ready.filter (fun e => s.hbmOk stack e.2.part)
  let lent := ready.filter (fun e => borrows (s.wordAt .hbm stack e.2.part))
  let less := fun (a b : Nat × HbmReq) => decide (a.2.slack < b.2.slack ∨ (a.2.slack = b.2.slack ∧ a.1 < b.1))
  match minBy less (if able.isEmpty then lent else able) with
  | none => .next s
  | some (i, r) =>
    let s := if able.isEmpty then s else s.chargeHbm stack r.part (burstBytes r)
    let s := s.setSill stack { s.sill stack with queue := q.queue.take i ++ q.queue.drop (i + 1) }
    .next (s.serveHbm stack r)

/-- Lines of a stack. -/
def stackLines : Nat := Config.stackBytes / 128

/-- A correction that no demand write has met is written back; else it is cancelled (R314). -/
def State.writeBack (s : State) (e : Nat × BitVec 8) : State :=
  if e.2 ≠ 0 then s
  else { s with symErr := (sectorNos e.1 15).foldl (fun m k => if FMap.rd 0 m k = 1 then FMap.del m k else m) s.symErr }

/-- PATROL_SCRUB: the corrections that stand in the table are written back or cancelled, then the next line is read
(R314). -/
def execEvPatrolScrub (stack : Nat) (s : State) : Answer :=
  let q := s.sill stack
  let s := q.corr.foldl State.writeBack s
  let s := s.setSill stack { q with corr := [], scrub := (q.scrub + 1) % stackLines }
  let line := stack * stackLines + q.scrub
  .next ((sectorNos line 15).foldl (fun s k => s.checkSector stack k) s)

/-- REFRESH: it changes no data (R315). -/
def execEvRefresh (_ _ : Nat) (s : State) : Answer := .next s

/-- STACK_TEMPERATURE_REPORT: the refresh rate doubles above 85 °C (R315). -/
def execEvStackTemperatureReport (stack celsius : Nat) (s : State) : Answer :=
  let q := s.sill stack
  .next (s.setSill stack { q with hot := decide (85 < celsius) })

/-! ### Walks -/

/-- PAGE_WALK: a cluster's walker translates an address, sets A and D, and enters the leaf in the cluster's TLB (R300 to
R302). A fault is kept nowhere. -/
def execEvPageWalk (cluster asid : Nat) (va : Word) (acc : AccKind) (user : Bool) (s : State) : Answer :=
  match walkAccess s cluster asid va.toNat acc user with
  | (s, .error _) => .next s
  | (s, .ok (leaf, _)) =>
    let big := leafL leaf
    let t : TlbEntry := ⟨asid, if big then va.toNat / 2 ^ 28 else va.toNat / 2 ^ 16, big, leaf, 0⟩
    let key := tlbKey cluster (tlbSet big va.toNat)
    .next { s with tlbs := FMap.wr [] s.tlbs key (lruPut Config.clTlbWays t (FMap.rd [] s.tlbs key)) }

/-! ### The host's lines (R437) -/

/-- HOST_REPLY: the host grants a line, owned where a request that waits for it writes; or it has given a window line
back. -/
def execEvHostReply (line : Nat) (s : State) : Answer :=
  if !s.hostWait.contains line then .next s
  else
    let s := { s with hostWait := s.hostWait.filter (fun l => decide (l ≠ line)) }
    if !inHost (128 * line) then .next { s with hostHeld := FMap.del s.hostHeld line }
    else
      let writes := s.pkts.any (fun e => match e.2.body with
        | .req accs _ _ _ _ _ _ _ => decide (e.2.peer = 0) && accWrites accs && accs.any (fun a => a.loc / 128 = line)
        | _ => false)
      let s := if (FMap.get s.hostLines line).isSome then s else s.hostBytes line
      .next { s with hostLines := FMap.put s.hostLines line writes }

/-! ### Errors in stored state (R310, R380) -/

/-- An error at a core. -/
def State.countCorrected (s : State) (core : Nat) : State :=
  let k := s.core core
  s.setCore core { k with corrected := k.corrected + 1 }

/-- A word of a line is poisoned in its slice: DRAM keeps what it has (R305, R310). -/
def L2Line.poisonAt (s : State) (word : Nat) (l : L2Line) : L2Line :=
  if (FMap.get l.bad word).isSome then l else { l with bad := FMap.put l.bad word (FMap.rd false s.poison word) }

/-- A guest line's own word is poisoned. -/
def State.poisonGuest (s : State) (slice word : Nat) : State :=
  let set := setOf (8 * word)
  s.putL2Set slice set ((s.l2Set slice set).map (fun l =>
    if l.guest && l.line = word / 16 then { l with bad := FMap.put l.bad word true } else l))

/-- A group in shadow storage halts with SOFT and is reported (R376, R380). -/
def State.shadowFault (s : State) (core gslot : Nat) (addr : Word) : State :=
  match FMap.get s.shadow core with
  | none => s
  | some sh =>
    match sh.groups.find? (fun e => decide (e.1 = gidOf core gslot)), sh.units with
    | none, _ => s
    | some (gid, g), units =>
      let h := { g with halted := true, tcause := BitVec.ofNat 9 cSOFT, tval := addr, tmask := g.alive }
      let s := { s with shadow := FMap.put s.shadow core { sh with groups := sh.groups.map (fun e => if e.1 = gid then (gid, h) else e) } }
      match (units.find? (fun e => decide (e.1 = g.uid))).bind (fun e => s.launchOf e.2 |>.bind (fun l => FMap.get s.jobs l.job)) with
      | none => s
      | some j =>
        let p := s.port j.port
        let info := BitVec.ofNat 64 (core + gslot * 2 ^ 9 + cSOFT % 256 * 2 ^ 15)
        (s.setPort j.port (if p.halt then p else { p with halt := true, halti := info, haltv := addr })).message j.port 1 p.halt

/-- A single-bit error is corrected where `double` does not hold, and counted at a core; else something happens. -/
def State.coreError (s : State) (core : Nat) (double : Bool) (f : State → State) : Answer :=
  .next (if double then f s else s.countCorrected core)

/-- DOUBLE_BIT_ERROR: single-bit errors are corrected and counted; others poison a word, drop an L1 line, or halt the group
with SOFT where the state cannot carry poison (R310, R313, R380). A register or a window word is in the pool only while its
line is. -/
def execEvDoubleBitError (site : ErrSite) (double : Bool) (s : State) : Answer :=
  match site with
  | .scratch core uslot word =>
    s.coreError core double (fun s => s.updUnit (gidOf core uslot) (fun u =>
      if 8 * word < u.scrSize then { u with scrPoison := FMap.wr false u.scrPoison word true } else u))
  | .line core gslot lane reg =>
    s.coreError core double (fun s => s.updGroup (gidOf core gslot) (fun g =>
      if (FMap.get g.lines (reg / 4)).isSome ∧ reg < s.vregsOf g then { g with vBad := FMap.put g.vBad (32 * reg + lane) true } else g))
  | .window core gslot lane word =>
    s.coreError core double (fun s => s.updGroup (gidOf core gslot) (fun g =>
      if (FMap.get g.lines (s.vregsOf g / 4 + word / 4)).isSome then { g with winBad := FMap.put g.winBad (256 * lane + word) true } else g))
  | .tile core uslot element =>
    s.coreError core double (fun s => s.updUnit (gidOf core uslot) (fun u =>
      if element < 4096 * u.acc then { u with tileBad := FMap.put u.tileBad element true } else u))
  | .l1 core line => s.coreError core double (fun s => s.setCore core ((s.core core).l1Drop line))
  | .l2 word =>
    let loc := 8 * word
    let held := (s.homeLine loc).any (fun l => decide (l.valid &&& sectorMask loc 8 ≠ 0))
    if !held then .next s
    else if !double then
      let k := sliceOf loc / 4
      .next (s.setSill k { s.sill k with corrected := (s.sill k).corrected + 1 })
    else .next { s.updHomeLine loc (L2Line.poisonAt s word) with poison := FMap.wr false s.poison word true }
  | .guest slice word =>
    if !double then .next (s.setSill (slice / 4) { s.sill (slice / 4) with corrected := (s.sill (slice / 4)).corrected + 1 })
    else .next (s.poisonGuest slice word)
  | .hbm sector n =>
    if n = 0 ∨ !inHbm (32 * sector) then .next s
    else .next { s with symErr := FMap.put s.symErr sector (FMap.rd 0 s.symErr sector + n) }
  | .control core gslot addr => s.coreError core double (fun s => s.deviceFault (gidOf core gslot) cSOFT addr)
  | .shadow core gslot addr => s.coreError core double (fun s => s.shadowFault core gslot addr)

end Sys2Proof.Machine
end

