-- ==== Sys2Proof/Machine/Preempt.lean ====
section
/-! DEFINITION. Pre-emption (R375 to R378): PRE of a command port, the save to shadow storage, the restore. -/

namespace Sys2Proof.Machine

/-! ### Power and inbound accesses (R451, R455) -/

/-- Every budget count takes its ALLOT, those kept in shadow storage too (R376, R455). -/
def State.renewBudgets (s : State) : State :=
  let least := fun (w : Word) => max 64 (allotOf w)
  s.parts.foldl (fun s (e : Nat × Part) =>
    let p := e.1
    let clusters := (List.range Config.nClusters).filter (fun c => e.2.clusters.getLsbD c)
    let cores := (coresOf e.2.clusters).foldl (fun m c =>
      FMap.put m c { FMap.rd Core.reset m c with budget := allotOf e.2.issue }) s.cores
    let net := clusters.foldl (fun m c => FMap.put m (siteKey c p) ((least e.2.net : Nat) : Int)) s.netBudget
    let hbm := (List.range 12).foldl (fun m k => FMap.put m (siteKey k p) ((1024 * least e.2.hbm : Nat) : Int)) s.hbmBudget
    let ray := (List.range 12).foldl (fun m k => FMap.put m (siteKey k p) ((4 * allotOf e.2.ray : Nat) : Int)) s.rayBudget
    let futas := s.futas.map (fun f => (f.1, { f.2 with budget := FMap.put f.2.budget p ((allotOf e.2.fut : Nat) : Int) }))
    let kept := s.shadow.map (fun (x : Nat × Shadow) => if x.2.part = p then (x.1, { x.2 with budget := allotOf e.2.issue }) else x)
    { s with cores := cores, netBudget := net, hbmBudget := hbm, rayBudget := ray, futas := futas, shadow := kept }) s

/-- The device runs again: from retention every budget count becomes its ALLOT (R455). -/
def State.awake (s : State) : State :=
  match s.mgmt.mode with
  | .idle => { s with mgmt := { s.mgmt with mode := .run } }
  | .retention => ({ s with mgmt := { s.mgmt with mode := .run }, oldWords := [] }).renewBudgets
  | _ => s

/-- Bring-up has ended and the power is on. -/
def State.operates (s : State) : Bool := decide (5 ≤ s.mgmt.booted ∧ s.mgmt.mode ≠ .off)

/-- An inbound access acts on a device that operates, and wakes it (R455). -/
def inbound (f : State → State) (s : State) : Answer := .next (if s.operates then f s.awake else s)

/-! ### Ports -/

/-- The OWNER code of a port (R442). -/
def portCode : PortId → Nat
  | .a => 1
  | .b => 2
  | .dbg => 3

/-- The port holds SEMA (R442). -/
def State.holdsSema (s : State) (i : PortId) : Bool := s.shared.held && decide (s.shared.owner.toNat = portCode i)

/-- A PRE completes with a status (R439, R441). -/
def State.preDone (s : State) (i : PortId) (st : Nat) : State :=
  let p := s.port i
  (s.setPort i { p with pst := BitVec.ofNat 4 st, pdone := true, pre := none }).message i 3 p.pdone

/-! ### What is of a partition -/

/-- Groups and units of a partition. -/
def State.groupsOfPart (s : State) (part : Nat) : List (Nat × Group) := s.groups.filter (fun e => decide (s.partOf e.2 = part))
def State.unitsOfPart (s : State) (part : Nat) : List (Nat × UnitRec) :=
  s.units.filter (fun e => (s.jobOf e.2).any (fun j => decide (j.part = part)))

/-- PREEMPT with TVAL 0 becomes due in a group (R375). -/
def Group.preemptDue (g : Group) : Group :=
  if g.halted ∨ g.pre.isSome then g
  else { g with pre := some false, due := g.due ++ [⟨.S, cPREEMPT, false, 0, g.alive, (g.splits.map (·.1)).headD 0, false⟩] }

/-- PREEMPT becomes due in every group of a partition. -/
def State.preemptAll (s : State) (part : Nat) : State :=
  (s.groupsOfPart part).foldl (fun s e => s.updGroup e.1 Group.preemptDue) s

/-- Some core of the partition's clusters has its shadow storage occupied (R376). -/
def State.shadowBusy (s : State) (part : Nat) : Bool :=
  let cl := s.clustersOf part
  s.shadow.any (fun e => cl.getLsbD (clusterOf e.1))

/-- PRE_SAVE (R375): refused where the port lacks SEMA, the shadow storage is occupied, or nothing is resident. -/
def execEvPreSave (port : PortId) (part : Nat) (s : State) : Answer :=
  inbound (fun s =>
    if !s.holdsSema port then s.preDone port 2
    else if s.shadowBusy part then s.preDone port 1
    else match FMap.get s.parts part with
      | none => s.preDone port 3
      | some p =>
        if !p.valid ∨ p.saving ∨ p.saved ∨ (s.groupsOfPart part).isEmpty then s.preDone port 3
        else
          let s := s.setPort port { s.port port with pre := some part }
          { s with parts := FMap.put s.parts part { p with saving := true } }.preemptAll part) s

/-! ### SHADOW_SAVE (R375, R376, R378) -/

/-- A producer whose request has left the core has not landed (log entry 52). -/
def Group.inFlight (g : Group) : Bool :=
  g.replay.any (fun e => e.2.sent && decide (e.2.flt = 0) && decide (e.2.landed ||| e.2.sup ≠ e.2.mask))

/-- Every group of the partition has parked or halted, and what was issued for them has finished (R375). -/
def State.quiet (s : State) (part : Nat) : Bool :=
  let gs := s.groupsOfPart part
  let us := (s.unitsOfPart part).map (·.1)
  let mine := fun gid => gs.any (fun e => decide (e.1 = gid))
  gs.all (fun e => (e.2.preParked || e.2.halted) && !e.2.inFlight) &&
    !s.pkts.any (fun e => decide (e.2.part = part) && decide (e.2.place ≠ 9) || mine e.2.gid) &&
    !s.rays.any (fun e => mine e.2.gid && decide (e.2.stage ≠ .suspended ∧ e.2.stage ≠ .reported)) &&
    !s.cores.any (fun c => c.2.copies.any (fun x => mine x.gid) || c.2.mmaBusy.any (fun w => mine w.gid) ||
      c.2.banks.any (fun b => us.contains b.2.uid && b.2.loading)) &&
    !s.rasters.any (fun r => us.contains r.2.uid && (r.2.report.isSome || !r.2.blocks.isEmpty))

/-- Write bytes of the context area page by page, for the device itself, each with its poison (R310); nothing more after a
fault. -/
def State.ctxPut (s : State) (gid : Nat) : List (Nat × Nat) → List (Byte × Bool) → State
  | [], _ => s
  | (va, n) :: rest, bs =>
    match s.ctxParts gid va n .write with
    | (s, .ok ps) =>
      let s := s.partWrite gid ps 0 ((bs.take n).map (·.1))
      let bad := ((List.range n).zip (bs.take n)).filter (fun e => e.2.2)
      (bad.foldl (fun s e => s.setPoison (locIn ps e.1) true) s).ctxPut gid rest (bs.drop n)
    | (s, .error _) => s

/-- Read bytes of the context area page by page with their poison; zeros where the access faults. -/
def State.ctxGet (s : State) (gid : Nat) : List (Nat × Nat) → State × List (Byte × Bool)
  | [] => (s, [])
  | (va, n) :: rest =>
    match s.ctxParts gid va n .read with
    | (s, .ok ps) =>
      let s := s.partFill gid ps true
      let here := (s.partBytes ps).zip (ps.flatMap (fun p => (List.range p.2).map (fun i => FMap.rd false s.poison ((p.1 + i) / 8))))
      let (s, more) := s.ctxGet gid rest
      (s, here ++ more)
    | (s, .error _) =>
      let (s, more) := s.ctxGet gid rest
      (s, List.replicate n (0, false) ++ more)

/-- The save area of a group's unit and its length: the scratchpad, then 20,480 bytes a tile (R378). -/
def State.saveArea (s : State) (gid : Nat) (g : Group) (u : UnitRec) : List (Nat × Nat) :=
  let base := (s.ctxb gid g).toNat - 0x4_0000 * g.idx + 0x40_0000
  let n := u.scrSize + 20480 * u.acc
  pageParts (n / 2 ^ 16 + 2) base n

/-- A unit's scratchpad and tiles as the save area holds them: rows of FP40 elements, 5 bytes each; and which of the bytes are poisoned
(R310, R378). -/
def UnitRec.saveBytes (u : UnitRec) : List (Byte × Bool) :=
  let element := fun a m n => (bytesOf 5 (u.tileAt a m n).toNat).map (fun b => (b, FMap.rd false u.tileBad (4096 * a + 128 * m + n)))
  let tile := fun a => (List.range 32).flatMap (fun m => (List.range 128).flatMap (fun n => element a m n))
  (List.range u.scrSize).map (fun o => (FMap.rd 0 u.scratch o, FMap.rd false u.scrPoison (o / 8))) ++ (List.range u.acc).flatMap tile

/-- Take them back. -/
def UnitRec.loadBytes (u : UnitRec) (bs : List (Byte × Bool)) : UnitRec :=
  let u := (u.scrPut 0 ((bs.take u.scrSize).map (·.1))).scrTaint 0 ((bs.take u.scrSize).map (·.2))
  let rest := bs.drop u.scrSize
  (List.range u.acc).foldl (fun u a => (List.range 32).foldl (fun u m => (List.range 128).foldl (fun u n =>
    let e := (rest.drop (20480 * a + 640 * m + 5 * n)).take 5
    let u := u.tilePut a m n (BitVec.ofNat 40 (natOfBytes (e.map (·.1))))
    if e.any (·.2) then { u with tileBad := FMap.put u.tileBad (4096 * a + 128 * m + n) true } else u) u) u) u

/-- A unit no group of which parks: the device moves its scratchpad and tiles (R378). -/
def noneParks (gs : List (Nat × Group)) (uid : Nat) : Option (Nat × Group) :=
  let mine := gs.filter (fun e => decide (e.2.uid = uid))
  if mine.any (fun e => e.2.preParked) then none else mine.head?

/-- Save the contents of such a unit. -/
def State.saveUnit (s : State) (gs : List (Nat × Group)) (uid : Nat) (u : UnitRec) : State :=
  match noneParks gs uid with
  | none => s
  | some (gid, g) => s.ctxPut gid (s.saveArea gid g u) u.saveBytes

/-- Every register line of a group leaves the pool but those with an empty register (R38, R375). -/
def State.evictGroup (s : State) (gid : Nat) : State :=
  match FMap.get s.groups gid with
  | none => s
  | some g => (g.lines.filter (fun e => !g.lineEmpty e.1)).foldl (fun s e => s.evictLine gid e.1) s

/-- Groups and units of saved rays, out of the way of newcomers in the same slots. -/
def savedGid : Nat := 0x10_0000

/-- Move one core's part of a partition into shadow storage. -/
def State.shadowCore (s : State) (part core : Nat) : State :=
  let gs := (s.groupsOfPart part).filter (fun e => decide (coreOfGid e.1 = core))
  let us := (s.unitsOfPart part).filter (fun e => decide (coreOfGid e.1 = core))
  let cl := clusterOf core
  let first := decide (core % Config.coresPerCluster = 0)
  if gs.isEmpty ∧ us.isEmpty ∧ !first then s
  else
    let k := s.core core
    let mine := fun uid => us.any (fun e => decide (e.1 = uid))
    let kept := fun gid => gs.any (fun e => decide (e.1 = gid))
    let gather := match k.gather with | some b => if mine b.uid then some b else none | none => none
    let rs := s.rasters.filter (fun r => mine r.2.uid)
    let sh : Shadow := ⟨part, gs, us, gather, rs, k.budget, if first then some (s.rca cl) else none⟩
    let banks := k.banks.filter (fun b => !mine b.2.uid)
    let braces := k.braces.filter (fun b => !kept b.gid)
    let lslots := k.lslots.filter (fun e => !kept (gidOf core e.2.gslot))
    let k := { k with gather := if gather.isSome then none else k.gather, banks := banks, braces := braces, lslots := lslots }
    let hop := fun w : Switch => { w with brace := w.brace.filter (fun b => !kept b.2.gid) }
    let ray := fun (e : Nat × Ray) => if kept e.2.gid then (e.1, { e.2 with gid := e.2.gid + savedGid }) else e
    let s := s.setCore core k
    let s := if first then s.setRca cl Rca.reset else s
    { s with groups := s.groups.filter (fun e => !kept e.1), units := s.units.filter (fun e => !mine e.1),
             rasters := s.rasters.filter (fun r => !mine r.2.uid), rays := s.rays.map ray,
             switches := s.switches.map (fun w => (w.1, hop w.2)), shadow := FMap.put s.shadow core sh }

/-- The port that waits for a PRE of a partition. -/
def State.prePort (s : State) (part : Nat) : Option PortId :=
  [PortId.a, .b, .dbg].find? (fun i => decide ((s.port i).pre = some part))

/-- SHADOW_SAVE: once every core of the partition is halted, its state goes to shadow storage and its resources are free
(R375 to R378). -/
def execEvShadowSave (part : Nat) (s : State) : Answer :=
  match FMap.get s.parts part with
  | none => .next s
  | some p =>
    if !p.saving then .next s
    else
      let s := s.preemptAll part
      if !s.quiet part then .next s
      else
        let gs := s.groupsOfPart part
        let s := (s.unitsOfPart part).foldl (fun s e => s.saveUnit gs e.1 e.2) s
        let s := gs.foldl (fun s e => s.evictGroup e.1) s
        let s := (coresOf p.clusters).foldl (fun s c => s.shadowCore part c) s
        let s := { s with parts := FMap.put s.parts part { p with saving := false, saved := true } }
        match s.prePort part with
        | some i => .next (s.preDone i 0)
        | none => .next s

/-! ### PRE_RESTORE (R377, R378) -/

/-- A parked group takes PREEMPT with TVAL 1 in the frame of its save (R377). -/
def Group.retake (g : Group) : Group :=
  match g.handler with
  | none => { g with pre := none, preParked := false }
  | some h =>
    let m := g.alive
    let g := { g with pre := some true, preParked := false, tcause := BitVec.ofNat 9 cPREEMPT, tval := 1, tmask := m }
    g.updSplit h.place (fun p =>
      { p with pc := g.tvec, seq := false, mask := m, stack := [], parked := none, issued := none, fetched := none, yielding := 0,
               marked := none, runq := [], running := none, sm := true })

/-- The saved slots of a core are free again. -/
def State.slotsFree (s : State) (core : Nat) (sh : Shadow) : Bool :=
  sh.groups.all (fun e => (FMap.get s.groups e.1).isNone) && sh.units.all (fun e => (FMap.get s.units e.1).isNone) &&
    (let more := sh.units.foldl (fun (a : Usage) e => match s.launchOf e.2 with
        | some l => a.add (usageOf l.cut 1)
        | none => a) (s.usage core)
     decide (more.units ≤ 64 ∧ more.granules ≤ 256)) && (sh.gather.isNone || (s.core core).gather.isNone) &&
    sh.rasters.all (fun r => (FMap.get s.rasters r.1).isNone)

/-- Put one core's part of a partition back; scratchpad and tiles hold nothing but what the save area gives a unit of which
no group parked (R377, R378). -/
def State.unshadow (s : State) (core : Nat) (sh : Shadow) : State :=
  let k := s.core core
  let s := match sh.rca with | some r => s.setRca (clusterOf core) r | none => s
  let s := s.setCore core { k with budget := sh.budget, gather := if sh.gather.isSome then sh.gather else k.gather }
  let ray := fun (e : Nat × Ray) =>
    if savedGid ≤ e.2.gid ∧ coreOfGid (e.2.gid - savedGid) = core then (e.1, { e.2 with gid := e.2.gid - savedGid }) else e
  let blank := fun u : UnitRec => { u with scratch := [], scrPoison := [], tiles := [], tileBad := [] }
  let s := { s with groups := sh.groups.foldl (fun m e => FMap.put m e.1 e.2) s.groups,
                    units := sh.units.foldl (fun m e => FMap.put m e.1 (blank e.2)) s.units,
                    rasters := sh.rasters.foldl (fun m r => FMap.put m r.1 r.2) s.rasters,
                    rays := s.rays.map ray, shadow := FMap.del s.shadow core }
  sh.units.foldl (fun s e =>
    match noneParks sh.groups e.1 with
    | none => s
    | some (gid, g) =>
      let (s, bs) := s.ctxGet gid (s.saveArea gid g e.2)
      s.updUnit e.1 (fun u => u.loadBytes bs)) s

/-- A restored group goes on: parked ones take PREEMPT again, halted ones stay so, those that JCAN ended meanwhile end. -/
def State.resumeSaved (s : State) (gid : Nat) : State :=
  match FMap.get s.groups gid with
  | none => s
  | some g =>
    if g.dropped then s.finishGroup gid
    else if g.halted then s.putGroup gid { g with pre := none }
    else if s.vectorOk gid g then s.putGroup gid g.retake
    else s.haltGroup gid cPREEMPT 1

/-- PRE_RESTORE (R377). -/
def execEvPreRestore (port : PortId) (part : Nat) (s : State) : Answer :=
  inbound (fun s =>
    let mine := s.shadow.filter (fun e => decide (e.2.part = part))
    if !s.holdsSema port then s.preDone port 2
    else match FMap.get s.parts part with
      | none => s.preDone port 3
      | some p =>
        if !p.valid ∨ !p.saved ∨ !mine.all (fun e => p.clusters.getLsbD (clusterOf e.1)) ∨
            !mine.all (fun e => s.slotsFree e.1 e.2) then s.preDone port 3
        else
          let s := mine.foldl (fun s e => s.unshadow e.1 e.2) s
          let s := { s with parts := FMap.put s.parts part { p with saving := false, saved := false } }
          let s := (mine.flatMap (fun e => e.2.groups.map (·.1))).foldl State.resumeSaved s
          s.preDone port 0) s

end Sys2Proof.Machine
end

