-- ==== Sys2Proof/Machine/Ports.lean ====
section
/-! DEFINITION. The command ports and the shared registers (R438 to R445): GO, JCAN, POP, SEMA, PTSYNC, PLIM, the writes
of registers without behaviour of their own; the host's accesses (R437). -/

namespace Sys2Proof.Machine

/-! ### Writes through the shared view (R442) -/

/-- A write through a port's shared view: performed only while that port holds SEMA (R442). -/
def sharedWrite (port : PortId) (f : State → State) (s : State) : Answer := inbound (fun s => if s.holdsSema port then f s else s) s

/-! ### GO and JCAN (R440, R438, R441) -/

/-- A GO is refused with a code. -/
def State.refuseGo (s : State) (i : PortId) (code : Nat) : State :=
  let p := s.port i
  (s.setPort i { p with lst := BitVec.ofNat 8 code, done := true }).message i 0 p.done

/-- The record at LREC becomes the root launch of a new job, or the code that refuses it. -/
def State.startJob (s : State) (i : PortId) (part asid : Nat) (space : Space) : State :=
  let p := s.port i
  let core := (coresOf (s.clustersOf part)).headD 0
  match s.readVa core asid false 3 p.lrec.toNat 64 with
  | (s, .error _) => s.refuseGo i 2
  | (s, .ok (bs, _)) =>
    if !recordOk p.lrec bs then s.refuseGo i 2
    else
      let jid := s.nextJob
      let l := recordLaunch bs jid 0 0 0 none
      match s.checkEntry core asid s.stores true l.cut l.entryVa with
      | (s, some _) => s.refuseGo i 2
      | (s, none) =>
        if 4096 ≤ s.openLaunches part then s.refuseGo i 3
        else match (if l.pers then s.reserveAll part l else some []) with
          | none => s.refuseGo i 1
          | some reserved =>
            let job : Job := ⟨i, part, asid, some space, 1, [(0, 1)], 0, 0, false, false, []⟩
            let s := s.setPort i { p with lst := 0, busy := true }
            let s := { s with jobs := FMap.put s.jobs jid job, nextJob := jid + 1 }
            (s.levelStart part).accept { l with reserved := reserved } |>.1

/-- GO (R440). -/
def execEvGo (port : PortId) (s : State) : Answer :=
  inbound (fun s =>
    let p := s.port port
    let part := p.part.toNat
    let asid := p.asid.toNat
    if p.busy then s.refuseGo port 6
    else match FMap.get s.spaces asid, FMap.get s.parts part with
      | some a, some q => if a.part = part ∧ q.valid then s.startJob port part asid a else s.refuseGo port 5
      | _, _ => s.refuseGo port 5) s

/-- Saved groups of a job are marked to be discarded at restore (R378). -/
def State.dropSaved (s : State) (jid : Nat) : State :=
  let ofJob := fun (sh : Shadow) (g : Group) =>
    (sh.units.find? (fun u => decide (u.1 = g.uid))).any (fun u => (s.launchOf u.2).any (fun l => decide (l.job = jid)))
  let mark := fun (sh : Shadow) =>
    { sh with groups := sh.groups.map (fun e => if ofJob sh e.2 then (e.1, { e.2 with dropped := true }) else e) }
  { s with shadow := s.shadow.map (fun e => (e.1, mark e.2)) }

/-- JCAN (R438, R441, R378): CANCEL .job for the port's job; halted groups end without a handler. -/
def execEvJcan (port : PortId) (s : State) : Answer :=
  inbound (fun s =>
    match s.jobs.find? (fun e => decide (e.2.port = port)) with
    | none => s
    | some (jid, _) =>
      let keys := (s.launches.filter (fun e => decide (e.2.job = jid))).map (·.1)
      let s := (s.dropSaved jid).cancelLaunches keys [] true jid none
      let halted := s.groups.filter (fun e => e.2.halted && s.inLaunches keys e.2)
      halted.foldl (fun s e => s.finishGroup e.1) s) s

/-! ### The inbound fault log, SEMA, PLIM (R442, R450) -/

/-- POP (R450). -/
def execEvPop (s : State) : Answer := inbound (fun s => { s with log := s.log.drop 1 }) s

/-- SEMA_ACQUIRE (R442). -/
def execEvSemaAcquire (port : PortId) (s : State) : Answer :=
  inbound (fun s =>
    if s.shared.held then s
    else { s with shared := { s.shared with held := true, owner := BitVec.ofNat 2 (portCode port) } }) s

/-- SEMA_RELEASE (R441, R442). -/
def execEvSemaRelease (port : PortId) (s : State) : Answer :=
  sharedWrite port (fun s => ({ s with shared := { s.shared with held := false, owner := 0 } }).emit (.msix 8)) s

/-- PLIM (R442): bits 10:0, between 300 and 1,600. -/
def execEvPlim (port : PortId) (value : Word) (s : State) : Answer :=
  sharedWrite port (fun s => { s with shared := { s.shared with plim := BitVec.ofNat 11 (min 1600 (max 300 (fld value 0 11))) } }) s

/-! ### Plain register writes (R438, R439, R442) -/

/-- W1C bits of STAT (R439). -/
def Port.clear (p : Port) (v : Word) : Port :=
  { p with pdone := p.pdone && !bitOf v 5, iflt := p.iflt && !bitOf v 4, halt := p.halt && !bitOf v 3, done := p.done && !bitOf v 1 }

/-- A register of a port's own block. -/
def Port.write (p : Port) (offset : Nat) (v : Word) : Port :=
  match offset with
  | 0x000 => { p with lrec := v }
  | 0x008 => { p with asid := v.truncate 14 }
  | 0x010 => { p with part := v.truncate 5 }
  | 0x020 => p.clear v
  | _ => p

/-- A shared register; PWR with REQ = 0, or 1, which is taken as 0, asks for run (R455). -/
def State.writeShared (s : State) (offset : Nat) (v : Word) : State :=
  let on := fun f : Shared → Shared => { s with shared := f s.shared }
  match offset with
  | 0x808 => on (fun r => { r with ptbase := v })
  | 0x810 => on (fun r => { r with astbase := v })
  | 0x848 => on (fun r => { r with hdmbase := v })
  | 0x850 => on (fun r => { r with hdmn := v.truncate 9, hdmso := bitOf v 63 })
  | 0x858 => on (fun r => { r with routeb := v })
  | 0x828 => if fld v 0 2 ≤ 1 then { s with mgmt := { s.mgmt with req := 0, res := 0 } } else s
  | o =>
    let k := (o - 0x900) / 16
    if o < 0x900 ∨ 12 ≤ k then s
    else if o % 16 = 0 then s.setSill k { s.sill k with scriv := v.truncate 32 }
    else if o % 16 = 8 then s.setSill k { s.sill k with spillBase := v }
    else s

/-- REGISTER_WRITE (R442): a register without behaviour of its own. -/
def execEvRegisterWrite (port : PortId) (offset : Nat) (value : Word) (s : State) : Answer :=
  inbound (fun s =>
    if offset < 0x800 then s.setPort port ((s.port port).write offset value)
    else if s.holdsSema port then s.writeShared offset value
    else s) s

/-! ### PTSYNC (R443 to R445, R414) -/

/-- A 64-bit word at a device physical address. -/
def State.tableWord (s : State) (a : Nat) : Word := BitVec.ofNat 64 (s.natAt a 8)

/-- Entry p of the partition table; none where V = 0 (R443). -/
def State.partEntry (s : State) (p : Nat) : Option Part :=
  let a := s.shared.ptbase.toNat + 256 * p
  let w := fun o => s.tableWord (a + o)
  if bitOf (w 0) 63 then
    some ⟨true, BitVec.ofNat 24 (fld (w 0) 0 24), w 0x08, w 0x10, w 0x18, w 0x20, w 0x28, false, false⟩
  else none

/-- Slot n of a partition's entry: image, Sander die, address space; none where NV = 0 (R443). -/
def State.slotEntry (s : State) (p n : Nat) : Option (Word × Nat × Nat) :=
  let a := s.shared.ptbase.toNat + 256 * p + 16 * n
  let w := s.tableWord (a + 0x48)
  if bitOf w 63 then some (s.tableWord (a + 0x40), fld w 16 1, fld w 0 14) else none

/-- Entry a of the address-space table; none where V = 0 (R444). -/
def State.spaceEntry (s : State) (i : Nat) : Option Space :=
  let a := s.shared.astbase.toNat + 64 * i
  let w := fun o => s.tableWord (a + o)
  if bitOf (w 0) 63 then
    some ⟨fld (w 0) 15 33 * 2 ^ 15, fld (w 8) 32 32, fld (w 8) 0 5, w 0x10, w 0x18, w 0x20, w 0x28, fld (w 0x30) 0 32, (w 0x38).toNat⟩
  else none

/-- Entry e of the route table (R448). -/
def State.routeEntry (s : State) (e : Nat) : Option (Word × Word) :=
  let a := s.shared.routeb.toNat + 16 * e
  let w := s.tableWord (a + 8)
  if bitOf w 63 then some (s.tableWord a, w) else none

/-- The entries 0 to n − 1 of a table that are valid. -/
def tableOf {α : Type} (n : Nat) (f : Nat → Option α) : FMap α := (List.range n).filterMap (fun i => (f i).map (fun x => (i, x)))

/-- The new partitions, each with its pre-emption state; a saved one whose entry is gone stays, not valid. -/
def State.newParts (s : State) : FMap Part :=
  (List.range 24).filterMap (fun p =>
    match s.partEntry p, FMap.get s.parts p with
    | some e, some q => some (p, { e with saving := q.saving, saved := q.saved })
    | some e, none => some (p, e)
    | none, some q => if q.saved then some (p, { q with valid := false, clusters := 0 }) else none
    | none, none => none)

/-- Two valid partitions share a cluster, or one with resident units would lose one (R445). -/
def State.badParts (s : State) (new : FMap Part) : Bool :=
  let live := new.filter (fun e => e.2.valid)
  live.any (fun a => live.any (fun b => decide (a.1 < b.1 ∧ a.2.clusters &&& b.2.clusters ≠ 0))) ||
    s.parts.any (fun e =>
      let now := match FMap.get new e.1 with | some q => q.clusters | none => 0
      !(s.unitsOfPart e.1).isEmpty && decide (e.2.clusters &&& ~~~now ≠ 0))

/-- The entry of an address space with work has a changed ROOT, PART or CTXPOOL (R445). -/
def State.badSpaces (s : State) (new : FMap Space) : Bool :=
  s.jobs.any (fun j =>
    match (match j.2.space with | some a => some a | none => FMap.get s.spaces j.2.asid), FMap.get new j.2.asid with
    | some a, some b => decide (a.root ≠ b.root ∨ a.part ≠ b.part ∨ a.ctxpool ≠ b.ctxpool)
    | some _, none => true
    | none, _ => false)

/-- Load the image of a slot as the new tables give it; none where R413 refuses it. -/
def State.loadImage (s : State) (core : Nat) (addr : Word) (die asid : Nat) : State × Option Net :=
  match s.objectRead core asid false addr.toNat 64 with
  | (s, none) => (s, none)
  | (s, some hdr) =>
    if !headerOk hdr then (s, none)
    else
      let n := layerBytes (byteField hdr 0 1) (headerWidths hdr)
      match s.objectRead core asid false ((addr.toNat + 64) % 2 ^ 64) n with
      | (s, none) => (s, none)
      | (s, some body) => (s, some (netOf addr asid die hdr body))

/-- The networks of the new tables: a slot whose assignment has not changed keeps its network; none where an image is
refused (R414, R445). -/
def State.newNets (s : State) (parts : FMap Part) : State × Option (FMap Net) :=
  let old := s.nets
  let slots := (List.range 24).flatMap (fun p => (List.range 4).map (fun n => (p, n)))
  slots.foldl (fun (acc : State × Option (FMap Net)) e =>
    let key := netKey e.1 e.2
    match acc.2, FMap.get parts e.1 with
    | none, _ => acc
    | some m, none => (acc.1, some m)
    | some m, some q =>
      let had := FMap.get old key
      if !q.valid then (acc.1, some (match had with | some n => FMap.put m key n | none => m))
      else match acc.1.slotEntry e.1 e.2 with
        | none => (acc.1, some m)
        | some (addr, die, asid) =>
          match had.filter (fun n => decide (n.image = addr ∧ n.die = die ∧ n.asid = asid)) with
          | some n => (acc.1, some (FMap.put m key n))
          | none =>
            match acc.1.loadImage ((coresOf q.clusters).headD 0) addr die asid with
            | (s, some n) => (s, some (FMap.put m key n))
            | (s, none) => (s, none)) (s, some [])

/-- An array takes up a partition's networks: a slot that has changed starts empty at the network's version. -/
def Rca.load (nets old : FMap Net) (part : Nat) (fresh : Bool) (r0 : Rca) : Rca :=
  let r := if fresh then Rca.reset else r0
  let one := fun (r : Rca) (n : Nat) =>
    let key := netKey part n
    match FMap.get nets key with
    | none => { r with version := FMap.del r.version n, incoming := FMap.del r.incoming n, samples := FMap.del r.samples n, drops := FMap.del r.drops n }
    | some x =>
      if FMap.get old key = some x ∧ !fresh then r
      else { r with version := FMap.put r.version n x.version, incoming := FMap.del r.incoming n, samples := FMap.del r.samples n, drops := FMap.del r.drops n }
  (List.range 4).foldl one r

/-- Every array of a valid partition takes up its networks, what a saved one keeps of them in shadow storage too, and the
status blocks of new networks read 0 (R414). -/
def State.adoptNets (s : State) (oldParts : FMap Part) (oldNets : FMap Net) : State :=
  let s := s.parts.foldl (fun s (e : Nat × Part) =>
    if !e.2.valid then s
    else if e.2.saved then
      let load := fun (x : Nat × Shadow) =>
        if x.2.part = e.1 then (x.1, { x.2 with rca := x.2.rca.map (Rca.load s.nets oldNets e.1 false) }) else x
      { s with shadow := s.shadow.map load }
    else
      let was := match FMap.get oldParts e.1 with | some q => q.clusters | none => 0
      ((List.range Config.nClusters).filter (fun c => e.2.clusters.getLsbD c)).foldl
        (fun s c => s.setRca c ((s.rca c).load s.nets oldNets e.1 (!was.getLsbD c))) s) s
  s.nets.foldl (fun s (e : Nat × Net) =>
    if FMap.get oldNets e.1 = some e.2 then s else s.writeStatus (e.1 / 4) e.2 0 (List.replicate 8 0)) s

/-- The words that places still work by once a PTSYNC has changed the table: those in force before (R445). -/
def State.keptWords (old new : State) : FMap Word :=
  let sites := (List.range Config.nClusters).map (fun i => (BudgetKind.net, i)) ++ (List.range 12).map (fun i => (.hbm, i)) ++
    (List.range 12).map (fun i => (.ray, i)) ++ (List.range 64).map (fun i => (.fut, i))
  let keep := fun (m : FMap Word) (k : BudgetKind) (site part : Nat) (w : Word) =>
    if new.budgetWord part k.of = w then FMap.del m (wordKey k site part) else FMap.put m (wordKey k site part) w
  let m := sites.foldl (fun m e => (List.range 24).foldl (fun m p => keep m e.1 e.2 p (old.wordAt e.1 e.2 p)) m) []
  (List.range Config.nCores).foldl (fun m c => keep m .issue c (new.corePart c) (old.wordAt .issue c (old.corePart c))) m

/-- PTSYNC reads the three tables, and adopts or refuses them whole (R445). -/
def State.ptsync (s : State) : State :=
  let answer := fun (s : State) (st : BitVec 2) => { s with shared := { s.shared with ptsync := st } }
  let parts := s.newParts
  let spaces := tableOf 16384 s.spaceEntry
  let routes := tableOf 4096 s.routeEntry
  if s.badParts parts ∨ s.badSpaces spaces then answer s 2
  else
    let born := (spaces.map (·.1)).filter (fun a => (FMap.get s.spaces a).isNone)
    let kept := s.curs.filter (fun e => let a := e.1 / 24 / 2 / 2 ^ 32; decide (FMap.get spaces a = FMap.get s.spaces a))
    let new := { s with parts := parts, spaces := spaces, routes := routes, psel := born.foldl FMap.del s.psel, curs := kept }
    match new.newNets parts with
    | (_, none) => answer s 2
    | (new, some nets) => answer ({ new with nets := nets, oldWords := s.keptWords new }.adoptNets s.parts s.nets) 0

/-- PTSYNC (R445). -/
def execEvPtsync (port : PortId) (s : State) : Answer := sharedWrite port State.ptsync s

/-! ### The host (R437) -/

/-- HOST_SNOOP: the home slice answers with the line; an invalidation takes it away, and the host may then change it. -/
def execEvHostSnoop (line : Nat) (invalidate : Bool) (s : State) : Answer :=
  inbound (fun s =>
    let held := FMap.get s.hostLines line
    let s := s.emit (.snoopReply line (Memory.bytes s.mem (128 * line) 128) held.isSome)
    if !inHost (128 * line) then s
    else if invalidate then
      let loc := 128 * line
      let s := s.putL2Set (sliceOf loc) (setOf loc) ((s.l2Set (sliceOf loc) (setOf loc)).filter (fun l => l.guest || decide (l.line ≠ line)))
      ({ s with hostLines := FMap.del s.hostLines line }).hostBytes line
    else match held with
      | some _ => { s with hostLines := FMap.put s.hostLines line false }
      | none => s) s

/-- HOST_MEM_ACCESS (R437): an access in the window, performed at the home slice; outside HBM it answers poison. A write takes
its bytes in order, 0 beyond those it brings. Under RC a line that the host reads may stay with the host. -/
def execEvHostMemAccess (offset size : Nat) (write : Option (List Byte)) (s : State) : Answer :=
  inbound (fun s =>
    if 2 ^ 28 * s.shared.hdmn.toNat < offset + size then s
    else
      let loc := s.shared.hdmbase.toNat + offset
      if !(inHbm loc && inHbm (loc + size - 1)) then s.emit (.memReply offset (List.replicate size 0) true)
      else match write with
        | some bs => s.writeHome 0 0 loc ((List.range size).map (fun i => bs.getD i 0))
        | none =>
          let s := s.fillRange 0 0 loc size true
          let s := s.emit (.memReply offset (Memory.bytes s.mem loc size) (s.poisonedAt loc size))
          let lines := (lineParts loc (List.replicate size 0)).map (fun p => p.1 / 128)
          if s.shared.hdmso then s else { s with hostHeld := lines.foldl (fun m l => FMap.wr false m l true) s.hostHeld }) s

end Sys2Proof.Machine
end

