-- ==== Sys2Proof/Machine/Peers.lean ====
section
/-! DEFINITION. Peer devices: the training of a Futas port (R446), packets that cross it (R447), requests that come in
(R448 to R450) and time-outs (R381). -/

namespace Sys2Proof.Machine

/-! ### Link training (R446) -/

/-- The state of a Futas port. -/
def State.futasPort (s : State) (port : Nat) : FutasPort := FMap.rd FutasPort.reset s.futas port

/-- Put a Futas port. -/
def State.setFutas (s : State) (port : Nat) (x : FutasPort) : State := { s with futas := FMap.put s.futas port x }

/-- A port in one state goes to another. -/
def State.train (s : State) (port : Nat) (was now : LinkState) : State :=
  let x := s.futasPort port
  if x.state = was then s.setFutas port { x with state := now } else s

/-- FUTAS_DETECT. -/
def execEvFutasDetect (port : Nat) (s : State) : Answer := .next (s.train port .detect .laneLock)

/-- FUTAS_LANE_LOCK. -/
def execEvFutasLaneLock (port : Nat) (s : State) : Answer := .next (s.train port .laneLock .equalisation)

/-- FUTAS_LANE_LOCK_TIMEOUT. -/
def execEvFutasLaneLockTimeout (port : Nat) (s : State) : Answer := .next (s.train port .laneLock .detect)

/-- FUTAS_EQUALISATION. -/
def execEvFutasEqualisation (port : Nat) (ok : Bool) (s : State) : Answer :=
  .next (s.train port .equalisation (if ok then .deskew else .detect))

/-- FUTAS_DESKEW. -/
def execEvFutasDeskew (port : Nat) (ok : Bool) (s : State) : Answer :=
  .next (s.train port .deskew (if ok then .exchange else .detect))

/-- FUTAS_EXCHANGE: the partner's FID, slack unit and buffer depths; equal FIDs take the port down, and are logged. -/
def execEvFutasExchange (port fid : Nat) (offer : LinkOffer) (ok : Bool) (s : State) : Answer :=
  let x := s.futasPort port
  if x.state ≠ .exchange then .next s
  else if !ok then .next (s.setFutas port { x with state := .detect })
  else if fid = s.mgmt.fid.toNat then .next ((s.setFutas port { x with state := .down, fid := fid }).emit (.linkLogged port))
  else .next (s.setFutas port { x with state := .active, fid := fid, unit := offer.unit, replays := 0, depths := offer.depths })

/-- A packet at a port that leaves Active is lost. Of a request, its reply, a put or a set-up the initiator still waits for its
end: it stays, out of the network, until PEER_TIMEOUT. -/
def lostAt (port : Nat) (e : Nat × Packet) : Option (Nat × Packet) :=
  let p := e.2
  let there := decide (p.at_ = .futas port) || (p.inLink && decide (p.path.head? = some (.futas port)))
  if !there then some e
  else match p.body with
    | .req _ _ _ _ _ _ _ _ | .reply _ _ _ _ _ | .put _ _ _ _ _ _ _ _ _ | .setup _ _ _ _ => some (e.1, { p with at_ := .host, inLink := false, path := [] })
    | _ => none

/-- FUTAS_REPLAY_LIMIT: an active port goes back to Detect; the packets that it held are lost. -/
def execEvFutasReplayLimit (port : Nat) (s : State) : Answer :=
  let x := s.futasPort port
  if x.state ≠ .active then .next s
  else .next { s.setFutas port { x with state := .detect, replays := 16 } with pkts := s.pkts.filterMap (lostAt port) }

/-! ### Crossing (R447) -/

/-- The slack of a packet on the other side of a port. -/
def crossSlack (slack unit : Nat) : Nat := min 4095 (slack * 10000 / unit)

/-- The way back from a port to a core. -/
def pathFromPort (port core : Nat) : List Place :=
  let die := port / 32
  [.hub die, .sector (3 * die)] ++ ringTo (3 * die) (sectorOf core) ++ [.cluster (clusterOf core), .core core]

/-- A request has crossed: a load or an atomic turns into the reply that its peer sends, with values, an error and a LATE
bit that are the peer's (log entry 12); a store comes back once the peer, and every replica of its page, has performed it
(R449). -/
def State.crossReq (s : State) (id port : Nat) (p : Packet) (accs : List Acc) (pid : Option Nat) : State :=
  let reads := accs.filter (fun a => !a.op.isStore)
  let (ws, s) := s.frees (reads.length + 1)
  let free := ws.getLastD 0
  let bad := bitOf free 0
  match pid with
  | none =>
    let q := { p with inLink := true, path := pathFromPort port (coreOfGid p.gid), slack := fld free 8 12,
                      late := p.late || bitOf free 1, flits := 1, vc := 1, buf := 1 }
    { s with pkts := FMap.put s.pkts id q }
  | some pid =>
    let vals := (reads.zip ws).map (fun e => (e.1.lane, e.1.idx, if bad then 0 else e.2 &&& BitVec.ofNat 64 (2 ^ (8 * e.1.size) - 1)))
    let body := Body.reply pid vals 0 (if bad then cPEERFAULT else 0) (accLanes accs)
    let q := { p with inLink := true, path := pathFromPort port (coreOfGid p.gid), body := body, slack := fld free 8 12,
                      late := p.late || bitOf free 1, vc := 1, buf := 1 }
    { s with pkts := FMap.put s.pkts id q }

/-- FUTAS_PACKET_CROSS: a packet that has reached an active port crosses it with its slack rescaled (R447). -/
def execEvFutasPacketCross (port pkt : Nat) (s : State) : Answer :=
  let x := s.futasPort port
  match FMap.get s.pkts pkt with
  | none => .next s
  | some p =>
    if p.at_ ≠ .futas port ∨ p.inLink ∨ x.state ≠ .active then .next s
    else
      let p := { p with slack := crossSlack p.slack x.unit }
      let s := s.emit (.peer port p)
      let gone := { s with pkts := FMap.del s.pkts pkt }
      match p.body with
      | .req accs pid _ _ _ _ _ _ => .next (s.crossReq pkt port p accs pid)
      | .put _ _ off _ total bytes _ src _ =>
        let (w, s) := gone.free
        .next (if total ≤ off + bytes.length ∧ bitOf w 0 then s.putError src else s)
      | .setup e n _ false =>
        let (w, s) := s.free
        let q := { p with inLink := true, path := pathFromPort port (coreOfGid p.gid), body := .setup e n (bitOf w 0) true, vc := 1, buf := 1 }
        .next { s with pkts := FMap.put s.pkts pkt q }
      | _ => .next gone

/-! ### Time-outs (R381) -/

/-- PEER_TIMEOUT: a request to a peer has had no reply in time. Its lanes take 0 and PEERTIMEOUT; a store is not performed;
a put counts in PUTERR. -/
def execEvPeerTimeout (pkt : Nat) (s : State) : Answer :=
  match FMap.get s.pkts pkt with
  | none => .next s
  | some p =>
    let gone := { s with pkts := FMap.del s.pkts pkt }
    match p.body with
    | .req accs none _ _ _ _ _ _ => .next (if p.peer = 0 then s else gone.storeFault p accs cPEERTIMEOUT)
    | .req accs (some pid) _ _ _ _ _ _ =>
      let vals := accs.map (fun a => (a.lane, a.idx, (0 : Word)))
      .next (if p.peer = 0 then s
        else (gone.absorb p.gid pid false (fun q => q.answer vals 0 cPEERTIMEOUT (accLanes accs) false)).getD s)
    | .reply pid vals _ _ lanes =>
      let zeros := vals.map (fun v => (v.1, v.2.1, (0 : Word)))
      .next (if p.peer = 0 then s
        else (gone.absorb p.gid pid false (fun q => q.answer zeros 0 cPEERTIMEOUT lanes false)).getD s)
    | .put dst _ _ _ _ _ _ src id =>
      let other := fun (e : Nat × Packet) => match e.2.body with | .put _ _ _ _ _ _ _ _ i => decide (i ≠ id) | _ => true
      .next (if epDev dst = s.mgmt.fid.toNat then s else { s with pkts := s.pkts.filter other }.putError src)
    | .setup e _ _ _ => .next (if epDev e = s.mgmt.fid.toNat then s else gone.braceDone p.gid p.place pkt false)
    | _ => .next s

/-! ### Requests that come in (R448 to R450) -/

/-- Bytes that an access names. -/
def peerSize : PeerKind → Nat
  | .load n | .store n _ | .atomic _ _ n _ _ | .replicated n _ => n
  | _ => 8

/-- LINF[42:40]. -/
def peerCode : PeerKind → Nat
  | .load _ => 0
  | .store _ _ => 1
  | .atomic _ _ _ _ _ => 2
  | .put _ _ _ _ _ _ _ _ => 3
  | .replicated _ _ => 4
  | _ => 0

/-- The virtual channel on which what comes for another device goes on (R317), and the flits that it takes. -/
def peerClass : PeerKind → Nat × Nat
  | .load _ => (0, 1)
  | .reply _ _ => (1, 2)
  | .putError _ => (1, 1)
  | .replicated _ _ => (2, 2)
  | .put _ _ _ _ _ _ bytes _ => (3, 1 + ceilDiv bytes.length 32)
  | .setup _ _ | .unbrace _ => (0, 1)
  | _ => (0, 2)

/-- The operation of an access. -/
def peerOp : PeerKind → AccOp
  | .store _ v | .replicated _ v => .store v
  | .atomic op ty _ v cmp => .atomic op ty v cmp
  | _ => .load []

/-- The request of one access of this device that its own hub serves. -/
def Acc.kind (a : Acc) : PeerKind :=
  match a.op with
  | .load _ | .loadBad _ => .load a.size
  | .store v | .storeBad v => .store a.size v
  | .atomic op ty v cmp => .atomic op ty a.size v cmp

/-- Perform an access at this device under TASID, with user rights: the old value and the new one, or the target fault, which is
logged (R449, R450). The walk is made by the walker of cluster 0. What a peer writes may be a release there (log entry 99). -/
def State.servePeer (s : State) (r : PeerReq) (op : AccOp) : State × Option (Word × Word) :=
  let fail := fun (s : State) (cause : Nat) => (s.logFault ⟨r.va, r.fid, r.tasid, cause, peerCode r.kind⟩, none)
  let n := peerSize r.kind
  if n = 0 ∨ r.va.toNat % n ≠ 0 then fail s cMISALIGN
  else if r.so ∧ 1 < r.devs.length then fail s cPAGEFAULT
  else match walkAccess s 0 r.tasid r.va.toNat (if op.isLoad then .read else .write) true with
    | (s, .error c) => fail s c
    | (s, .ok (leaf, loc)) =>
      if leafPeer leaf ≠ 0 then fail s cPAGEFAULT
      else
        let s := s.fillHome r.tasid 0 loc n
        if op.isLoad ∧ s.poisonedAt loc n then fail s cPOISON
        else
          let (s, v, _) := s.performAcc ⟨32, loc, n, op, 0⟩
          let s := if op.isLoad then s else { s with rel := FMap.put s.rel (loc / 8) (0, 0, 6) }
          (s, some (v.getD 0, BitVec.ofNat 64 (s.natAt loc n)))

/-- The replicas to which the primary forwards a request: every other device of the set, for a store or an atomic (R449). -/
def State.replicasOf (s : State) (r : PeerReq) (op : AccOp) : List Nat :=
  if op.isLoad ∨ peerCode r.kind = 4 then [] else r.devs.filter (fun d => decide (d ≠ s.mgmt.fid.toNat))

/-- Serve a request packet of this device at its own hub: one reply for the lanes that succeed, one for those that fault. A store
to a replicated page goes on to each other replica as a store of its split, which a release waits for (R346, R449). -/
def State.serveOwn (s : State) (id : Nat) : State :=
  match FMap.get s.pkts id with
  | none => s
  | some p =>
    match p.at_, p.body with
    | .hub die, .req accs pid so _ _ _ _ _ =>
      let asid := s.asidOfGid p.gid
      let loads := accs.all (fun a => a.op.isLoad)
      if p.inLink ∨ !p.path.isEmpty ∨ s.peerTarget p.gid asid p.peer loads ≠ s.mgmt.fid.toNat then s
      else
        let (devs, tasid) := (s.peerSet p.gid asid p.peer).getD ([], 0)
        let s := { s with pkts := FMap.del s.pkts id }
        let one := fun (acc : State × List (Acc × Option Word)) (a : Acc) =>
          let r : PeerReq := ⟨s.mgmt.fid.toNat, s.mgmt.fid.toNat, tasid, BitVec.ofNat 64 a.loc, p.slack, p.late, so, devs, a.kind⟩
          let (s, v) := acc.1.servePeer r a.op
          let copy := fun (new : Word) =>
            let body := Body.req [{ a with op := AccOp.store new }] none false false 0 false 0 0
            { p with path := [], at_ := .host, inLink := false, vc := 2, buf := 2, flits := 2, body := body }
          let s := match v with
            | some (_, new) => (s.replicasOf r a.op).foldl (fun s d => s.sendAway (copy new) d a.loc) s
            | none => s
          (s, acc.2 ++ [(a, v.map (·.1))])
        let (s, done) := accs.foldl one (s, [])
        let good := done.filter (fun e => e.2.isSome)
        let bad := (done.filter (fun e => e.2.isNone)).map (·.1)
        let back := [Place.sector (3 * die)] ++ ringTo (3 * die) (sectorOf (coreOfGid p.gid)) ++
          [.cluster (clusterOf (coreOfGid p.gid)), .core (coreOfGid p.gid)]
        match pid with
        | none => if bad.isEmpty then s else s.storeFault p bad cPEERFAULT
        | some pid =>
          let vals := (good.filter (fun e => !e.1.op.isStore)).map (fun e => (e.1.lane, e.1.idx, e.2.getD 0))
          let zeros := bad.map (fun a => (a.lane, a.idx, (0 : Word)))
          let s := if good.isEmpty then s else s.replyFrom p pid vals 0 0 (accLanes (good.map (·.1))) (.hub die) back
          if bad.isEmpty then s else s.replyFrom p pid zeros 0 cPEERFAULT (accLanes bad) (.hub die) back
    | _, _ => s

/-- What comes for another device leaves by this device's own table, and keeps its slack up to the port (R447, R448). -/
def State.forwardPeer (s : State) (r : PeerReq) : State :=
  let k := peerClass r.kind
  s.sayPeer (.transit r) r.dev r.va.toNat r.slack k.1 noPart k.2 r.late

/-- The answer to a peer's request leaves for its device, with the request's slack (R320, R447). -/
def State.answerPeer (s : State) (r : PeerReq) (v : Word) (ok : Bool) : State :=
  s.sayPeer (.reply r.fid v ok) r.fid r.va.toNat r.slack 1 (s.partOfAsid r.tasid) (if ok then 2 else 1) r.late

/-- PEER_REQUEST: forwarded, or received at an endpoint, or performed and answered (R448 to R450). A reply, an unbrace or an
error completion for this device does nothing, and a set-up is answered by a free bit: what peers do is drawn where this
device's packets cross (log entry 12). -/
def execEvPeerRequest (r : PeerReq) (s : State) : Answer :=
  inbound (fun s =>
    match r.kind with
    | .own id => s.serveOwn id
    | kind =>
      if r.dev ≠ s.mgmt.fid.toNat then s.forwardPeer r
      else match kind with
      | .put dst src counter off total id bytes bad =>
        s.landPut dst r.va.toNat off counter total bytes bad src (putKey (some r.fid) id) r.tasid
      | .reply _ _ | .unbrace _ | .putError _ => s
      | .setup _ _ => let (w, s) := s.free; s.answerPeer r 0 (bitOf w 0)
      | _ =>
        let op := peerOp kind
        match s.servePeer r op with
        | (s, none) => s.answerPeer r 0 false
        | (s, some (v, new)) =>
          let copy := fun (s : State) d =>
            s.sayPeer (.replica d r.tasid r.va (peerSize kind) new) d r.va.toNat r.slack 2 (s.partOfAsid r.tasid) 2 r.late
          ((s.replicasOf r op).foldl copy s).answerPeer r v true) s

end Sys2Proof.Machine
end

