-- ==== Sys2Proof/Machine/Power.lean ====
section
/-! DEFINITION. Resets and power states (R451, R452, R455, R456), lifecycle and attestation (R453, R454), the debugger (R382,
R383). -/

namespace Sys2Proof.Machine

/-! ### Resets (R452) -/

/-- Memory as DRAM holds it: of dirty L2 lines and of writes still queued at a sill, the bytes before (log entry 13). -/
def State.dramBytes (s : State) : Memory :=
  let back := fun (m : Memory) (old : FMap Byte) => old.foldl (fun m b => Memory.wr m b.1 [b.2]) m
  let lines := s.l2.flatMap (fun e => e.2.filter (fun l => !l.guest && decide (l.dirty ≠ 0)))
  let m := lines.foldl (fun m l => back m l.old) s.mem
  let writes := s.sills.flatMap (fun e => (e.2.queue.filter (fun r => r.write)).reverse)
  writes.foldl (fun m r => back m r.old) m

/-- The poisoned words as DRAM holds them: of words that an L2 line or a queued write has otherwise, DRAM's own (log
entry 13). -/
def State.dramPoison (s : State) : FMap Bool :=
  let back := fun (m bad : FMap Bool) => bad.foldl (fun m b => FMap.wr false m b.1 b.2) m
  let lines := s.l2.flatMap (fun e => e.2.filter (fun l => !l.guest))
  let m := lines.foldl (fun m l => back m l.bad) s.poison
  let writes := s.sills.flatMap (fun e => (e.2.queue.filter (fun r => r.write)).reverse)
  writes.foldl (fun m r => back m r.oldBad) m

/-- The cells of host memory. -/
def hostCells (m : Memory) : Memory := m.filter (fun c => inHost c.1)

/-- A slot's GEN after a reset is the device's choice (R151). -/
def State.newGens (s : State) : State :=
  s.gens.foldl (fun s e =>
    let (w, s) := s.free
    { s with gens := FMap.put s.gens e.1 (w.truncate 32) }) s

/-- The values that a warm reset keeps beside the reset values: HBM, the management state, what lies outside the device. -/
def State.warm (s : State) (zero : Bool) : State :=
  let owned := s.hostLines.filter (fun e => e.2)
  let s := owned.foldl (fun s e => s.hostBytes e.1) s.newGens
  let r := State.reset
  let mem := if zero then hostCells s.mem else s.dramBytes
  let keep := fun w : Nat => inHost (8 * w)
  let poison := if zero then s.poison.filter (fun e => keep e.1) else s.dramPoison
  let mgmt := { s.mgmt with mode := PowerMode.run, req := 0, res := 0, throttle := 0, powers := [] }
  { r with agenda := s.agenda, fresh := s.fresh, mem := mem, poison := poison, symErr := if zero then [] else s.symErr,
           gens := s.gens, hostHeld := s.hostHeld, mgmt := mgmt, out := s.out }

/-- WARM_RESET (R452). -/
def execEvWarmReset (port : PortId) (s : State) : Answer := sharedWrite port (fun s => s.warm false) s

/-- WARM_RESET_ZERO_HBM (R442, R452). -/
def execEvWarmResetZeroHbm (port : PortId) (s : State) : Answer := sharedWrite port (fun s => s.warm true) s

/-! ### Power (R451, R455, R456) -/

/-- Off: everything is lost but the boot flash, the fuses and what lies outside the device. -/
def State.powerOff (s : State) : State :=
  let s := s.newGens
  let r := State.reset
  let m := { r.mgmt with booted := 0, firmware := s.mgmt.firmware, fid := s.mgmt.fid, life := s.mgmt.life, debug := .none,
                         key := s.mgmt.key, nonces := s.mgmt.nonces, mode := .off, linkUp := false }
  { r with agenda := s.agenda, fresh := s.fresh, mem := hostCells s.mem, gens := s.gens, mgmt := m, out := s.out }

/-- A PWR request that has been done, or refused. -/
def State.pwrDone (s : State) (req res : Nat) : State :=
  { s with mgmt := { s.mgmt with req := BitVec.ofNat 2 req, res := BitVec.ofNat 2 res } }

/-- PWR_RUN: leaves retention. -/
def execEvPwrRun (port : PortId) (s : State) : Answer := sharedWrite port (fun s => s.pwrDone 0 0) s

/-- A Sander has a step to take or a publication under way, for a network whose partition is not saved (R416, R417). -/
def State.sanderBusy (s : State) : Bool :=
  s.nets.any (fun e => !s.partSaved (e.1 / 4) && (e.2.switching || (s.stepBatch e.1 e.2).isSome))

/-- Every partition is saved or empty, no group is stopped, nothing is in flight (R455). -/
def State.mayRetain (s : State) : Bool :=
  s.groups.isEmpty && s.units.isEmpty && s.pkts.isEmpty && s.hostWait.isEmpty &&
    s.rcas.all (fun r => r.2.queries.isEmpty) && !s.sanderBusy &&
    s.jobs.all (fun j => match FMap.get s.parts j.2.part with | some p => p.saved | none => false) &&
    s.parts.all (fun p => !p.2.saving) &&
    s.shadow.all (fun e => e.2.groups.all (fun g => !g.2.stopped)) &&
    s.cores.all (fun c => c.2.copies.isEmpty && c.2.mmaBusy.isNone) &&
    s.rays.all (fun r => decide (savedGid ≤ r.2.gid)) &&
    s.sills.all (fun q => q.2.rayq.isEmpty && q.2.pipes.isEmpty && q.2.queue.all (fun r => r.write))

/-- Every dirty line of the L2 and every queued write reaches HBM. -/
def State.writeBackAll (s : State) : State :=
  let clean := fun l : L2Line => if l.guest then l else { l with dirty := 0, old := [], bad := l.bad.filter (fun e => !l.dirtyWord e.1) }
  let done := fun (s : State) (e : Nat × Sill) => (e.2.queue.filter (fun r => r.write)).foldl (fun s r => s.serveHbm e.1 r) s
  let s := s.sills.foldl done s
  let l2 := s.l2.map (fun (e : Nat × List L2Line) => (e.1, e.2.map clean))
  let sills := s.sills.map (fun (e : Nat × Sill) => (e.1, { e.2 with queue := e.2.queue.filter (fun r => !r.write) }))
  { s with l2 := l2, sills := sills }

/-- PWR_RETENTION: entered from run or idle where nothing is going on, else refused. -/
def execEvPwrRetention (port : PortId) (s : State) : Answer :=
  if s.mgmt.mode = .retention then .next (if s.holdsSema port then s.pwrDone 2 0 else s)
  else sharedWrite port (fun s =>
    if !s.mayRetain then s.pwrDone 2 1
    else
      let s := s.writeBackAll.pwrDone 2 0
      { s with mgmt := { s.mgmt with mode := .retention } }) s

/-- PWR_OFF. -/
def execEvPwrOff (port : PortId) (s : State) : Answer := sharedWrite port (fun s => s.powerOff.pwrDone 3 0) s

/-- POWER_LOSS. -/
def execEvPowerLoss (s : State) : Answer := .next s.powerOff

/-- Engines that are busy. -/
def State.enginesBusy (s : State) : Bool :=
  s.cores.any (fun c => !c.2.copies.isEmpty || c.2.mmaBusy.isSome) ||
    s.sills.any (fun q => !q.2.pipes.isEmpty || !q.2.rayq.isEmpty || !q.2.queue.isEmpty) ||
    s.rcas.any (fun r => !r.2.queries.isEmpty) || s.sanderBusy || !s.pkts.isEmpty

/-- IDLE_ENTRY: no resident group and no busy engine for the time of R455. -/
def execEvIdleEntry (s : State) : Answer :=
  if s.mgmt.mode = .run ∧ s.groups.isEmpty ∧ !s.enginesBusy then .next { s with mgmt := { s.mgmt with mode := .idle } } else .next s

/-- IDLE_EXIT: something came from outside. -/
def execEvIdleExit (s : State) : Answer := .next (if s.mgmt.mode = .idle then s.awake else s)

/-- RETENTION_WAKE: an inbound access leaves retention, and every budget count becomes its ALLOT. -/
def execEvRetentionWake (s : State) : Answer := .next (if s.mgmt.mode = .retention then s.awake else s)

/-- POWER_INTERVAL (R456): milliwatts over one interval; throttling goes up by one for each that exceeds a limit. -/
def execEvPowerInterval (milliwatts : Nat) (s : State) : Answer :=
  let m := s.mgmt
  let ps := (milliwatts :: m.powers).take 1000
  let above := decide (1000 * s.shared.plim.toNat * ps.length < ps.sum ∨ 1_800_000 < milliwatts)
  .next { s with mgmt := { m with powers := ps, throttle := if above then min 15 (m.throttle + 1) else 0 } }

/-- Step 1 of bring-up accepts an image (R451). -/
def imageOk (f : Firmware) : Bool :=
  Config.ecdsaValid Config.firmwareKey (Config.sha512 f.image) f.signature && decide (Config.fusedVersion ≤ f.version)

/-- The identity key after a cold reset (R454). -/
def keyOf : Lifecycle → KeyState
  | .manufacture => .absent
  | .opened | .sealed => .present
  | .returned => .destroyed

/-- The device has come up with a firmware image; a CXL link that has not trained leaves it without enumeration. -/
def State.bootWith (s : State) (f : Firmware) (link : Bool) : State :=
  let m := { s.mgmt with booted := 5, firmware := f, fid := f.fid, debug := .none, key := keyOf s.mgmt.life, mode := .run,
                         req := 0, res := 0, linkUp := link }
  { s with mgmt := m }

/-- POWER_ON: bring-up (R451) with the image that the boot flash holds, the outcome of the stacks' training and that of the CXL
link's. An image that fails verification leaves the previous one in use; where that fails too, or a stack does not come up, the
device stays in reset, and the step's number is the code. -/
def execEvPowerOn (boot : BringUp) (s : State) : Answer :=
  if s.mgmt.mode ≠ .off then .next s
  else if !imageOk boot.image ∧ !imageOk s.mgmt.firmware then .next (s.emit (.bootFailed 1))
  else if !boot.hbmUp then .next (s.emit (.bootFailed 2))
  else .next (s.bootWith (if imageOk boot.image then boot.image else s.mgmt.firmware) boot.link)

/-! ### Lifecycle and attestation (R453, R454) -/

/-- Order of the lifecycle states. -/
def lifeNo : Lifecycle → Nat
  | .manufacture => 0
  | .opened => 1
  | .sealed => 2
  | .returned => 3

/-- Order of the debug levels. -/
def levelNo : DebugLevel → Nat
  | .none => 0
  | .observe => 1
  | .invasive => 2

/-- DEBUG_LEVEL_REQUEST: a level is raised by the SEMA holder or through the debug port; a sealed device lets the SEMA
holder ask for observe and nothing more. -/
def execEvDebugLevelRequest (port : PortId) (level : DebugLevel) (s : State) : Answer :=
  inbound (fun s =>
    let asked := if s.mgmt.life = .sealed then s.holdsSema port && decide (level = .observe) else s.holdsSema port || decide (port = .dbg)
    if asked ∧ levelNo s.mgmt.debug < levelNo level then { s with mgmt := { s.mgmt with debug := level } } else s) s

/-- Numbers of 512 bits, one after another, as one message. -/
def message512 (xs : List Nat) : Nat := xs.foldl (fun a x => a * 2 ^ 512 + x % 2 ^ 512) 1

/-- UNLOCK_TOKEN: a sealed device verifies the debug key's signature over its serial number and the nonce it offers, once;
the identity key is zeroised before the level rises. -/
def execEvUnlockToken (nonce signature : Nat) (s : State) : Answer :=
  inbound (fun s =>
    let m := s.mgmt
    if m.life = .sealed ∧ nonce = Config.nonce m.nonces ∧
        Config.ecdsaValid Config.debugKey (message512 [Config.serial, nonce]) signature then
      { s with mgmt := { m with key := .zeroised, debug := .invasive, nonces := m.nonces + 1 } }
    else s) s

/-- FUSE_COMMAND: the lifecycle moves forward by a signed command. The debug level falls to none, the key follows the new
state: derived on first entry to open, zeroised for good at return. -/
def execEvFuseCommand (target : Lifecycle) (signature : Nat) (s : State) : Answer :=
  inbound (fun s =>
    let m := s.mgmt
    if lifeNo m.life < lifeNo target ∧ Config.ecdsaValid Config.fuseKey (message512 [Config.serial, lifeNo target]) signature then
      { s with mgmt := { m with life := target, debug := .none, key := if m.key = .zeroised ∧ target = .sealed then .zeroised else keyOf target } }
    else s) s

/-- The measurements (R453). -/
def State.measurements (s : State) : List Nat :=
  [Config.romDigest, Config.sha512 s.mgmt.firmware.image, s.mgmt.firmware.version,
   4 * lifeNo s.mgmt.life + levelNo s.mgmt.debug,
   ((List.range 64).filter (fun f => decide ((s.futasPort f).state ≠ .down))).foldl (fun a f => a + 2 ^ (36 + f)) (2 ^ 36 - 1)]

/-- SPDM_REQUEST: signed measurements with the requester's nonce, or an error while no key is available. -/
def execEvSpdmRequest (nonce : Nat) (s : State) : Answer :=
  inbound (fun s =>
    if s.mgmt.key = .present then s.emit (.spdm nonce (Config.identitySign (message512 (s.measurements ++ [nonce]))) true)
    else s.emit (.spdm nonce 0 false)) s

/-! ### Reads of the registers (R6, R438, R439, R442, R450) -/

/-- The number of a condition in a field of one bit. -/
def flag (b : Bool) (i : Nat) : Nat := if b then 2 ^ i else 0

/-- Codes of the power states (R455). -/
def powerNo : PowerMode → Nat
  | .run => 0
  | .idle => 1
  | .retention => 2
  | .off => 3

/-- STAT (R439): reserved bits read 0. -/
def Port.stat (p : Port) : Word :=
  BitVec.ofNat 64 (flag p.busy 0 + flag p.done 1 + flag p.canc 2 + flag p.halt 3 + flag p.iflt 4 + flag p.pdone 5 +
    2 ^ 8 * p.lst.toNat + 2 ^ 20 * p.pst.toNat)

/-- What a port's own register reads (R438): a field as it is, 0 for a write-only one and for reserved bits (R6). -/
def Port.read (p : Port) (offset : Nat) : Word :=
  match offset with
  | 0x000 => p.lrec
  | 0x008 => p.asid.zeroExtend 64
  | 0x010 => p.part.zeroExtend 64
  | 0x020 => p.stat
  | 0x030 => p.halti
  | 0x038 => p.haltv
  | _ => 0

/-- What a shared register reads, through every port's view alike (R442); LIFE gives the lifecycle and the debug level by their
order in R454's table (log entry 102). -/
def State.readShared (s : State) (offset : Nat) : Word :=
  let r := s.shared
  let w := BitVec.ofNat 64
  match offset with
  | 0x800 => w (flag r.held 63 + r.owner.toNat)
  | 0x808 => r.ptbase
  | 0x810 => r.astbase
  | 0x818 => r.ptsync.zeroExtend 64
  | 0x828 => w (s.mgmt.req.toNat + 2 ^ 8 * powerNo s.mgmt.mode + 2 ^ 16 * s.mgmt.res.toNat)
  | 0x830 => r.plim.zeroExtend 64
  | 0x838 => w (lifeNo s.mgmt.life + 2 ^ 4 * levelNo s.mgmt.debug)
  | 0x840 => s.mgmt.fid.zeroExtend 64
  | 0x848 => r.hdmbase
  | 0x850 => w (flag r.hdmso 63 + r.hdmn.toNat)
  | 0x858 => r.routeb
  | o =>
    let k := (o - 0x900) / 16
    if o < 0x900 ∨ 12 ≤ k then 0
    else if o % 16 = 0 then (s.sill k).scriv.zeroExtend 64
    else if o % 16 = 8 then (s.sill k).spillBase
    else 0

/-- LINF of an entry of the inbound fault log (R450). -/
def LogEntry.linf (e : LogEntry) : Word := BitVec.ofNat 64 (e.fid + 2 ^ 16 * e.tasid + 2 ^ 32 * e.cause + 2 ^ 40 * e.kind)

/-- What a register of the inbound fault log reads (R450); LVA and LINF of the oldest entry. -/
def State.readLog (s : State) (offset : Nat) : Word :=
  match offset with
  | 0x3000 => BitVec.ofNat 64 (s.log.length + 2 ^ 16 * s.lost)
  | 0x3010 => (s.log.head?.map (·.va)).getD 0
  | 0x3018 => (s.log.head?.map LogEntry.linf).getD 0
  | _ => 0

/-- A read of a port's block, its shared view included. A read changes nothing (R6). -/
def State.readBlock (s : State) (port : PortId) (offset : Nat) : Word :=
  if offset < 0x800 then (s.port port).read offset else s.readShared offset

/-- What the host reads at an offset of BAR0: the blocks of ports A and B, and the fault log (R436, R438, R450). -/
def State.readBar (s : State) (offset : Nat) : Word :=
  match (if Config.barBytes ≤ offset then 15 else offset / 0x1000) with
  | 0 => s.readBlock .a offset
  | 1 => s.readBlock .b (offset % 0x1000)
  | 3 => s.readLog offset
  | _ => 0

/-! ### The debugger (R382, R383, R454) -/

/-- Invasive debug applies. -/
def State.invasive (s : State) : Bool := decide (s.mgmt.debug = .invasive ∧ (s.mgmt.mode = .run ∨ s.mgmt.mode = .idle))

/-- DEBUG_STOP: a stop becomes due; it is taken at the group's next boundary. -/
def execEvDebugStop (core gslot : Nat) (s : State) : Answer :=
  let gid := gidOf core gslot
  match FMap.get s.groups gid with
  | none => .next s
  | some g =>
    if !s.invasive ∨ g.stopped ∨ g.halted ∨ g.stopAsked then .next s
    else .next (s.addDue gid ⟨.S, 0, false, 0, g.alive, (g.splits.map (·.1)).headD 0, false⟩ false)

/-- A stopped group goes on: the frame that its stop has written is performed (R373). -/
def State.leaveStop (s : State) (gid : Nat) (g : Group) : State :=
  let on := fun s : State => (s.updGroup gid (fun g => { g with stopped := false, stopFrame := [] })).settle gid
  if g.stopFrame.isEmpty then on s
  else match s.frameParts gid g g.stopFrame.length .read with
    | (s, .error _) => (s.updGroup gid (fun g => { g with stopped := false })).haltGroup gid (g.tcause.toNat % 256) g.tval
    | (s, .ok ps) =>
      on (((List.range g.stopFrame.length).zip g.stopFrame).foldl (fun s e => s.reinject gid ps e.1 e.2) (s.partFill gid ps true))

/-- DEBUG_RELEASE: of a stopped group, or of a halted one (R378, R382). -/
def execEvDebugRelease (core gslot : Nat) (s : State) : Answer :=
  let gid := gidOf core gslot
  match FMap.get s.groups gid with
  | none => .next s
  | some g =>
    if !s.invasive then .next s
    else if g.stopped then .next (s.leaveStop gid g)
    else if g.halted then .next ((s.updGroup gid (fun g => { g with halted := false })).settle gid)
    else .next s

/-- The producer's destination takes in V (or K) register `r`. -/
def Producer.covers (p : Producer) (isK : Bool) (r : Nat) : Bool :=
  match p.dest with
  | .lanes first count sup => (List.range count).any (fun i => decide (first + i = r) && decide (selK sup (first + i) = isK))
  | _ => false

/-- The lanes of a producer that a write supersedes: SUP gains them, and the other registers of its block become full with
what they hold. -/
def Group.supersede (g : Group) (pid : Nat) (lanes : Lanes) : Group :=
  match FMap.get g.replay pid with
  | none => g
  | some p =>
    let new := lanes &&& p.mask &&& ~~~p.landed
    { g.fillDest p new with replay := FMap.put g.replay pid { p with sup := p.sup ||| new } }

/-- Producers of a group with a property lose some lanes; their frame entries follow (R372). -/
def State.supersede (s : State) (gid : Nat) (lanes : Lanes) (f : Producer → Bool) : State :=
  match FMap.get s.groups gid with
  | none => s
  | some g =>
    (g.replay.filter (fun e => f e.2)).foldl (fun s e =>
      ((s.updGroup gid (fun g => g.supersede e.1 (if e.2.ctl then e.2.mask else lanes))).syncFrame gid e.1).retireStray gid) s

/-- Write a V register in some lanes in the image of its group, where its line can have no place in the pool (R293). -/
def State.imageWrite (s : State) (gid r : Nat) (lanes : Lanes) (v : Word) : State :=
  match FMap.get s.groups gid with
  | none => s
  | some g =>
    let va := (s.ctxb gid g).toNat + 1024 * (r / 4)
    match s.ctxParts gid va 1024 .write with
    | (s, .error _) => s
    | (s, .ok ps) =>
      let s := s.partFill gid ps false
      let had := if FMap.rd false g.written (r / 4) then s.partBytes ps else List.replicate 1024 0
      let word := fun l => if inLanes lanes l then bytesOf 8 v.toNat else (had.drop (256 * (r % 4) + 8 * l)).take 8
      let bs := had.take (256 * (r % 4)) ++ (laneList.map word).flatten ++ had.drop (256 * (r % 4) + 256)
      (s.deviceStore gid (layParts ps bs) false).updGroup gid (fun g => { g with written := FMap.put g.written (r / 4) true })

/-- The run of a split that a debugger sees: the one in progress, else one that is suspended. -/
def Split.shownRun (p : Split) : Option Run := p.running <|> p.runq.find? (fun r => r.begun)

/-- Change that run. -/
def Split.onShown (p : Split) (f : Run → Run) : Split :=
  match p.running with
  | some r => { p with running := some (f r) }
  | none => match p.runq.find? (fun r => r.begun) with
    | some r => { p with runq := p.runq.map (fun x => if x = r then f x else x) }
    | none => p

/-- Write a V or K register in some lanes, full. -/
def State.debugLanes (s : State) (gid : Nat) (isK : Bool) (r : Nat) (lanes : Lanes) (v : Word) : State :=
  let s := if isK then s else s.fillLine gid (r / 4)
  match FMap.get s.groups gid with
  | none => s
  | some g =>
    if !isK ∧ (FMap.get g.lines (r / 4)).isNone then s.imageWrite gid r lanes v
    else
      let put := fun (g : Group) (l : Nat) => (g.setV isK r l v).setVEmpty isK r l false
      (s.supersede gid lanes (fun p => p.covers isK r)).updGroup gid (fun g => (lanesIn lanes).foldl put g)

/-- Write a scalar register, full. -/
def State.debugScalar (s : State) (gid place n : Nat) (ks : Bool) (v : Word) : State :=
  let mine := fun p : Producer => match p.dest with
    | .scalar m k => decide (m = n ∧ k = ks) && (decide (n < 48) || decide (p.place = place))
    | _ => false
  (s.supersede gid 0 mine).updGroup gid (fun g => (g.setS place n ks v).setSEmpty place n ks false)

/-- The state in which a split of a group acts. -/
def State.at_ (s : State) (gid place : Nat) : State := { s with cur := ⟨coreOfGid gid, gid % 64, place⟩ }

/-- A debugger names device memory (R454). -/
def namesMemory : DebugReg → Bool
  | .mem _ => true
  | _ => false

/-- An aligned word that HBM holds. -/
def debugWord (a : Nat) : Bool := decide (a % 8 = 0) && inHbm a

/-- A debugger's write of a register (R383). An X register takes an address and loses its page, or takes the LIM and the
page-table entry of one (R109). -/
def State.debugWrite (s : State) (gid : Nat) (reg : DebugReg) (lanes : Lanes) (v : Word) : State :=
  match reg with
  | .s n place => if n < 64 then s.debugScalar gid place n false v else s
  | .ks n place => if n < 8 then s.debugScalar gid place (56 + n) true v else s
  | .v n => if n < 232 then s.debugLanes gid false n lanes v else s
  | .k n => if n < 16 then s.debugLanes gid true (216 + n) lanes v else s
  | .x n => if n < 8 then s.updGroup gid (fun g => g.setX n { g.getX n with vb := v, lim := 0 }) else s
  | .xlim n => if n < 8 then s.updGroup gid (fun g => g.setX n { g.getX n with lim := v.truncate 32 }) else s
  | .xpte n => if n < 8 then s.updGroup gid (fun g => g.setX n { g.getX n with pte := v }) else s
  | .t n place =>
    let put := fun (r : Run) => (lanesIn lanes).foldl (fun (r : Run) l => { r with t := FMap.wr 0 r.t (32 * n + l) v }) r
    if n < 8 then s.updSplit gid place (fun p => p.onShown put) else s
  | .q n place => if n < 4 then s.updSplit gid place (fun p => p.onShown (fun r => { r with q := FMap.wr 0 r.q n v })) else s
  | .p n => if 0 < n ∧ n < 8 then s.updGroup gid (fun g => (lanesIn lanes).foldl (fun g l => g.setP n l (bitOf v l)) g) else s
  | .lstat => s.updGroup gid (fun g => (lanesIn lanes).foldl (fun g l => g.setLstat l (v.truncate 5)) g)
  | .pc place => s.updSplit gid place (fun p => { p with pc := v, seq := false, parked := none, issued := none, fetched := none })
  | .sys n place => match FMap.get s.groups gid with
    | some g => { writeSys (s.at_ gid place) g n v with cur := s.cur }
    | none => s
  | .counter n => match FMap.get s.groups gid with
    | some g => if n < 16 then s.updUnit g.uid (fun u => { u with counters := FMap.wr 0 u.counters n (v.truncate 32) }) else s
    | none => s
  | .frame o => match FMap.get s.groups gid with
    | some g => match s.ctxLoc gid (s.tframe gid g + BitVec.ofNat 64 (8 * (o / 8))) .write with
      | (s, .ok loc) => s.deviceWrite gid loc (bytesOf 8 v.toNat)
      | (s, .error _) => s
    | none => s
  | .mem _ => s

/-- A debugger's write of a word of device memory at its home (R454). -/
def State.debugPoke (s : State) (reg : DebugReg) (v : Word) : State :=
  match reg with
  | .mem a => if debugWord a then s.writeHome 0 0 a (bytesOf 8 v.toNat) else s
  | _ => s

/-- A word of device memory for a debugger; 0 where HBM has none. -/
def State.debugPeek (s : State) (reg : DebugReg) : BitVec 160 :=
  match reg with
  | .mem a => if debugWord a then BitVec.ofNat 160 (s.natAt a 8) else 0
  | _ => 0

/-- DEBUG_REGISTER_WRITE: of a stopped group, or of device memory, under invasive. -/
def execEvDebugRegisterWrite (core gslot : Nat) (reg : DebugReg) (lanes : Lanes) (value : Word) (s : State) : Answer :=
  let gid := gidOf core gslot
  if namesMemory reg then .next (if s.invasive then s.debugPoke reg value else s)
  else match FMap.get s.groups gid with
  | none => .next s
  | some g => if s.invasive ∧ g.stopped then .next (s.debugWrite gid reg lanes value) else .next s

/-- What a debugger reads: a register's contents and whether it is empty (R382); of an X register all of its 160 bits (R109).
A V register whose line is out of the pool is read from its image. -/
def State.debugRead (s : State) (gid : Nat) (reg : DebugReg) (lane : Nat) : BitVec 160 × Bool :=
  match FMap.get s.groups gid with
  | none => (0, false)
  | some g0 =>
    let split := fun place => FMap.get g0.splits place
    match reg with
    | .s n place => match split place with | some p => ((getS g0 p n false).zeroExtend 160, getSEmpty g0 p n false) | none => (0, false)
    | .ks n place => match split place with | some p => ((getS g0 p (56 + n) true).zeroExtend 160, getSEmpty g0 p (56 + n) true) | none => (0, false)
    | .v n =>
      let g := (FMap.get (s.fillLine gid (n / 4)).groups gid).getD g0
      ((g.getV false n lane).zeroExtend 160, g.emptyV false n lane)
    | .k n => ((g0.getV true (216 + n) lane).zeroExtend 160, g0.emptyV true (216 + n) lane)
    | .x n => ((g0.getX n).lim ++ (g0.getX n).vb ++ (g0.getX n).pte, false)
    | .xlim n => ((g0.getX n).lim.zeroExtend 160, false)
    | .xpte n => ((g0.getX n).pte.zeroExtend 160, false)
    | .t n place => (((split place).bind Split.shownRun).elim 0 (fun r => (FMap.rd 0 r.t (32 * n + lane)).zeroExtend 160), false)
    | .q n place => (((split place).bind Split.shownRun).elim 0 (fun r => (FMap.rd 0 r.q n).zeroExtend 160), false)
    | .p n => (if g0.getP n lane then 1 else 0, false)
    | .lstat => ((g0.getLstat lane).zeroExtend 160, false)
    | .pc place => match split place with | some p => (p.pc.zeroExtend 160, false) | none => (0, false)
    | .sys n place => match split place with
      | some p => (((readSys (s.at_ gid place) g0 p n).getD 0).zeroExtend 160, false)
      | none => (0, false)
    | .counter n => (((s.unitOf g0).map (fun u => (FMap.rd 0 u.counters n).zeroExtend 160)).getD 0, false)
    | .frame o => match s.ctxLoc gid (s.tframe gid g0 + BitVec.ofNat 64 (8 * (o / 8))) .read with
      | (s, .ok loc) => (BitVec.ofNat 160 (s.natAt loc 8), false)
      | (_, .error _) => (0, false)
    | .mem _ => (0, false)

/-- DEBUG_REGISTER_READ: of a halted group under observe or invasive, of a stopped one under invasive, of device memory under
invasive. -/
def execEvDebugRegisterRead (core gslot : Nat) (reg : DebugReg) (lane : Nat) (s : State) : Answer :=
  let gid := gidOf core gslot
  if namesMemory reg then .next (if s.invasive then s.emit (.debugValue (s.debugPeek reg) false) else s)
  else match FMap.get s.groups gid with
  | none => .next s
  | some g =>
    let running := s.mgmt.mode = .run ∨ s.mgmt.mode = .idle
    let may := (g.halted ∧ 1 ≤ levelNo s.mgmt.debug ∧ running) ∨ (g.stopped ∧ s.invasive)
    if may then
      let (v, e) := s.debugRead gid reg lane
      .next (s.emit (.debugValue v e))
    else .next s

end Sys2Proof.Machine
end

