-- ==== Sys2Proof/Machine/Agenda.lean ====
section
/-! DEFINITION. Which move comes next when the agenda lists none (log entry 2): the moves that something waits for, taken
in turn. -/

namespace Sys2Proof.Machine

/-- A move. -/
abbrev Move := State → Answer

/-- Moves of a packet: a hop, or what its place does with it. -/
def packetMoves (id : Nat) (p : Packet) : List Move :=
  if p.inLink then [execEvPacketArrival id]
  else match p.at_, p.path with
    | .futas f, [] => [execEvFutasPacketCross f id]
    | .slice _, [] => [execEvHomeSliceRequest id]
    | .core _, [] => [execEvPutArrival id, execEvBraceSetup id]
    | .sill k, [] => [execEvRayMessageArrival id, execEvContinuationReturn id, execEvFilterRequest k]
    | sw, out :: _ => [execEvBraceSetup id, execEvSwitchArbitration sw out]
    | _, [] => if p.peer = 0 then [] else [execEvPeerRequest ⟨0, 0, 0, 0, 0, false, false, [], .own id⟩]

/-- Moves of a group beside its words: results, due traps, register lines. -/
def groupMoves (gid : Nat) (g : Group) : List Move :=
  let c := coreOfGid gid
  let k := gid % 64
  let results := g.replay.map (fun e => execEvProducerResultLands c k e.1)
  let traps := if g.due.isEmpty then [] else
    [execEvDeferredTrapEntry c k, execEvCancelledEntry c k, execEvPreemptEntry c k]
  let want := fun j => (g.wantsLine j || g.sfromWants j) && (FMap.get g.lines j).isNone
  let lines := ((List.range 64).filter want).map (fun j => execEvRegisterLineFill c k j)
  results ++ traps ++ lines

/-- One instruction of a lane slot, as a move. -/
def laneMove (run : Instr → State → Answer) (core lslot : Nat) (s : State) : Answer := s.laneTurn run laneWaits jointHold core lslot

/-- Moves of a core: the word that R273 puts first, the lane slots, the engines. -/
def State.coreMoves (run : Instr → State → Answer) (s : State) (core : Nat) : List Move :=
  let k := s.core core
  let word : List Move := match s.nextSplit core with
    | some r => [fun s : State => s.controlTurn run core r.gslot r.place]
    | none => []
  let lanes := (k.lslots.filter (fun e => decide (e.2.hold = 0) && !e.2.ended)).map
    (fun e => laneMove run core e.1)
  let engines := (if k.copies.isEmpty then [] else [execEvCopyPiece core]) ++
    (if k.gather.isNone then [] else [execEvGatherFiring core]) ++
    (k.banks.filter (fun b => b.2.loading)).map (fun b => execEvBankLoad core b.1) ++
    [0, 1].flatMap (fun b => if (s.relatchFor core b).isSome then [execEvBankRelatch core b] else [])
  word ++ lanes ++ [fun s : State => s.cycleTurn run core] ++ engines

/-- Moves of a sill. -/
def sillMoves (stack : Nat) (q : Sill) : List Move :=
  (if q.queue.isEmpty then [] else [execEvHbmRequestServe stack]) ++
    (if q.rayq.isEmpty then [] else (List.range 16).map (fun p => execEvTraversalPipeSelect stack p)) ++
    q.pipes.map (fun p => execEvTreeletVisit stack p.1)

/-- Moves of a partition: placement, saving, its networks, the budgets that have run out. -/
def State.partMoves (s : State) (part : Nat) (p : Part) : List Move :=
  let clusters := (List.range Config.nClusters).filter (fun c => p.clusters.getLsbD c)
  let nets := (List.range 4).filter (fun n => (FMap.get s.nets (netKey part n)).isSome)
  let out := fun (m : FMap Int) (k : Nat) => (FMap.get m k).any (fun b => decide (b ≤ 0))
  let key := fun k => siteKey k part
  (if (s.placeable part).isEmpty then [] else [execEvUnitPlacement part]) ++
    (if p.saving then [execEvShadowSave part] else []) ++
    (clusters.filter (fun c => !(s.rca c).queries.isEmpty)).flatMap (fun c => nets.map (fun n => execEvRcaBatch c n)) ++
    nets.map (fun n => execEvSanderPublication part n) ++
    (clusters.filter (fun c => out s.netBudget (key c))).map (fun c => execEvMemoryBudgetPeriod (.net c part)) ++
    ((List.range 12).filter (fun k => out s.hbmBudget (key k))).map (fun k => execEvMemoryBudgetPeriod (.hbm k part)) ++
    ((List.range 12).filter (fun k => out s.rayBudget (key k))).map (fun k => execEvRayStepBudgetPeriod k)

/-- Everything that the machine could do next by itself. -/
def State.moves (run : Instr → State → Answer) (s : State) : List Move :=
  let cores := dedup (s.groups.map (fun e => coreOfGid e.1) ++ s.cores.map (·.1))
  let sanders := if s.nets.isEmpty then [] else [execEvSanderStep 0, execEvSanderStep 1]
  let spent := fun (f : Nat × FutasPort) => f.2.budget.any (fun b => decide (b.2 ≤ 0))
  cores.flatMap (s.coreMoves run) ++ s.groups.flatMap (fun e => groupMoves e.1 e.2) ++
    s.pkts.flatMap (fun e => packetMoves e.1 e.2) ++ s.sills.flatMap (fun e => sillMoves e.1 e.2) ++
    s.rasters.map (fun e => execEvRasterFiring e.1) ++ s.parts.flatMap (fun e => s.partMoves e.1 e.2) ++ sanders ++
    (s.futas.filter spent).map (fun f => execEvFutasBudgetPeriod f.1) ++ s.hostWait.map (fun l => execEvHostReply l)

/-- The move that the machine makes when its agenda is empty: one of its moves, each in its turn; no change where there is
none. -/
def defaultTurn (run : Instr → State → Answer) (s : State) : Answer :=
  let ms := s.moves run
  match ms[s.beat % ms.length]? with
  | some f => f { s with beat := s.beat + 1 }
  | none => .next s

end Sys2Proof.Machine
end

