-- ==== Sys2Proof/Machine/LaneInt.lean ====
section
/-! DEFINITION. Integer and bit lane instructions: L-code row 0x000 (R165 to R172). -/

namespace Sys2Proof.Machine

/-! ### Elements -/

/-- Apply a function element by element (R165). -/
def mapElems (ty : Nat) (f : Nat → Nat → Nat → Nat) (a b c : Word) : Word :=
  let w := tyWidth ty
  packElems w ((List.range (tyCount ty)).map (fun j => f (elem w a j) (elem w b j) (elem w c j)))

/-- An element's value by the type's signedness (R69, R167). -/
def elemVal (ty w x : Nat) : Int := if tySigned ty then sextNat w x else (x : Int)

/-- An exact result in an element: clamped with SAT, modulo 2^w without (R70, R167). -/
def keepInt (sat signed : Bool) (w : Nat) (x : Int) : Nat :=
  let lo : Int := if signed then -(2 ^ (w - 1)) else 0
  let hi : Int := if signed then 2 ^ (w - 1) - 1 else 2 ^ w - 1
  let v := if sat then (if x < lo then lo else if hi < x then hi else x) else x
  (v % 2 ^ w).toNat

/-- Issue-slot cycles of the multiplications, and of the divisions (R166). -/
def mulHold (ty : Nat) : Nat := if tyWidth ty ≤ 16 then 1 else if tyWidth ty = 32 then 2 else 4
def divHold (ty : Nat) : Nat := 8 * mulHold ty

/-- An integer instruction from its exact result (R167). -/
def intWise (hold : Nat → Nat) (op : Int → Int → Int → Int) (f : LF) (s : State) : Answer :=
  let ty := f.ty.toNat
  let w := tyWidth ty
  let g := fun x y z => keepInt (f.md.getLsbD 0) (tySigned ty) w (op (elemVal ty w x) (elemVal ty w y) (elemVal ty w z))
  laneWise (hold ty) (fun _ a b c _ => mapElems ty g a b c) f s

/-- A bit instruction on elements of width w (R167). -/
def bitWise (op : Nat → Nat → Nat → Nat → Nat) (f : LF) (s : State) : Answer :=
  let ty := f.ty.toNat
  laneWise 1 (fun _ a b c _ => mapElems ty (op (tyWidth ty)) a b c) f s

/-- A bitwise instruction on whole registers (R167). -/
def wordWise (op : Word → Word → Word) (f : LF) (s : State) : Answer := laneWise 1 (fun _ a b _ _ => op a b) f s

/-- ADD (R167). -/
def execLAdd (f : LF) (s : State) : Answer := intWise (fun _ => 1) (fun a b _ => a + b) f s
/-- SUB (R167). -/
def execLSub (f : LF) (s : State) : Answer := intWise (fun _ => 1) (fun a b _ => a - b) f s
/-- MUL (R167). -/
def execLMul (f : LF) (s : State) : Answer := intWise mulHold (fun a b _ => a * b) f s
/-- MAD (R167). -/
def execLMad (f : LF) (s : State) : Answer := intWise mulHold (fun a b c => a * b + c) f s

/-- MULHI: bits 2w − 1 to w of the exact product (R167). -/
def execLMulhi (f : LF) (s : State) : Answer :=
  let w := tyWidth f.ty.toNat
  intWise mulHold (fun a b _ => a * b / 2 ^ w) f s

/-- ABS (R167). -/
def execLAbs (f : LF) (s : State) : Answer := intWise (fun _ => 1) (fun a _ _ => if a < 0 then -a else a) f s
/-- NEG (R167). -/
def execLNeg (f : LF) (s : State) : Answer := intWise (fun _ => 1) (fun a _ _ => -a) f s
/-- MIN (R167). -/
def execLMin (f : LF) (s : State) : Answer := intWise (fun _ => 1) (fun a b _ => if b < a then b else a) f s
/-- MAX (R167). -/
def execLMax (f : LF) (s : State) : Answer := intWise (fun _ => 1) (fun a b _ => if a < b then b else a) f s

/-- AND (R167). -/
def execLAnd (f : LF) (s : State) : Answer := wordWise (fun a b => a &&& b) f s
/-- OR (R167). -/
def execLOr (f : LF) (s : State) : Answer := wordWise (fun a b => a ||| b) f s
/-- XOR (R167). -/
def execLXor (f : LF) (s : State) : Answer := wordWise (fun a b => a ^^^ b) f s
/-- ANDN (R167). -/
def execLAndn (f : LF) (s : State) : Answer := wordWise (fun a b => a &&& ~~~b) f s

/-! ### Shifts (R168) -/

/-- SHL (R168). -/
def execLShl (f : LF) (s : State) : Answer :=
  bitWise (fun w a n _ => if n < w then (a <<< n) % 2 ^ w else 0) f s
/-- SHR (R168). -/
def execLShr (f : LF) (s : State) : Answer := bitWise (fun w a n _ => if n < w then a >>> n else 0) f s

/-- Arithmetic shift right: copies of the top bit come in, in every type (R168). -/
def sraNat (w a n : Nat) : Nat :=
  let top := a >>> (w - 1) % 2
  if n < w then (if top = 1 then a >>> n ||| (2 ^ w - 2 ^ (w - n)) else a >>> n)
  else if top = 1 then 2 ^ w - 1 else 0

/-- SRA (R168). -/
def execLSra (f : LF) (s : State) : Answer := bitWise (fun w a n _ => sraNat w a n) f s
/-- ROTL (R168). -/
def execLRotl (f : LF) (s : State) : Answer :=
  bitWise (fun w a n _ => ((a <<< (n % w)) ||| (a >>> (w - n % w))) % 2 ^ w) f s

/-- POPC (R167). -/
def execLPopc (f : LF) (s : State) : Answer := bitWise (fun w a _ _ => popNat w a) f s
/-- CLZ (R167). -/
def execLClz (f : LF) (s : State) : Answer := bitWise (fun w a _ _ => clzNat w a) f s
/-- BREV (R167). -/
def execLBrev (f : LF) (s : State) : Answer := bitWise (fun w a _ _ => brevNat w a) f s

/-! ### Bit fields (R169) -/

/-- Position and width of a field from an element of b. -/
def posWid (w b : Nat) : Nat × Nat :=
  let h := if w = 8 then 4 else 8
  let pos := b % 2 ^ h
  let wid := b / 2 ^ h % 2 ^ h
  if w ≤ pos ∨ wid = 0 then (pos, 0) else (pos, min wid (w - pos))

/-- BFX on an element. -/
def bfxNat (signed : Bool) (w a b : Nat) : Nat :=
  let (pos, wid) := posWid w b
  let x := (a >>> pos) % 2 ^ wid
  if wid = 0 then 0 else if signed then (sextNat wid x % 2 ^ w).toNat else x

/-- BFI on an element. -/
def bfiNat (w a b c : Nat) : Nat :=
  let (pos, wid) := posWid w b
  if wid = 0 then c else c - (c >>> pos) % 2 ^ wid * 2 ^ pos + a % 2 ^ wid * 2 ^ pos

/-- BFX (R169). -/
def execLBfx (f : LF) (s : State) : Answer := bitWise (fun w a b _ => bfxNat (tySigned f.ty.toNat) w a b) f s
/-- BFI (R169). -/
def execLBfi (f : LF) (s : State) : Answer := bitWise bfiNat f s

/-! ### Division (R170, R171) -/

/-- Quotient and remainder of an element. -/
def divElem (signed : Bool) (w a b : Nat) : Nat × Nat :=
  if b = 0 then (2 ^ w - 1, a)
  else if signed then
    let x := sextNat w a
    let y := sextNat w b
    let q := x.tdiv y
    (keepInt false true w q, keepInt false true w (x - q * y))
  else (a / b, a % b)

/-- The LSTAT bits of a lane's division: those of every element (R170). -/
def divCase (ty : Nat) (a b : Word) : BitVec 5 :=
  let w := tyWidth ty
  (List.range (tyCount ty)).foldl (fun m j => m ||| divBits (tySigned ty) w (elem w a j) (elem w b j)) 0

/-- DIV and REM: D is written in every acting lane, then ARITH is taken if MODE.AE is 1 (R170, R171). DESIGN CHOICE (log entry
100): where d is LSTAT, the low bits of D are written first and DZ and OV are set in what stands there then. -/
def division (rem : Bool) (f : LF) (s : State) : Answer :=
  guarded 1 1 0 f (fun c =>
    let ty := f.ty.toNat
    let w := tyWidth ty
    let one := fun x y _ => let r := divElem (tySigned ty) w x y; if rem then r.2 else r.1
    let v := fun l => mapElems ty one (c.a f l) (c.b f l) 0
    let case := fun l => divCase ty (c.a f l) (c.b f l)
    let out := c.write f.d.toNat c.act v
    let s := s.putLane (stickLanes out.1 c.act case) out.2
    let bad := c.act &&& lanesOf (fun l => decide (case l ≠ 0))
    if c.g.mode.getLsbD 1 ∧ bad ≠ 0 then s.laneTrapAfter (divHold ty) cARITH 0 bad else s.issued (divHold ty)) s

/-- DIV (R170). -/
def execLDiv (f : LF) (s : State) : Answer := division false f s
/-- REM (R170). -/
def execLRem (f : LF) (s : State) : Answer := division true f s

/-! ### Dot product (R172) -/

/-- Integer DOT4: the sum of four products of elements of width w and an addend, modulo 2^(4w) or 2^64. -/
def dotInt (ty : Nat) (a b c : Word) : Word :=
  let w := tyWidth ty
  let p := fun k => elemVal ty w (elem w a k) * elemVal ty w (elem w b k)
  if w = 8 then
    packElems 32 ((List.range 2).map (fun j =>
      (((elem 32 c j : Int) + p (4 * j) + p (4 * j + 1) + p (4 * j + 2) + p (4 * j + 3)) % 2 ^ 32).toNat))
  else wordOfInt ((c.toNat : Int) + p 0 + p 1 + p 2 + p 3)

/-- One rounded sum of the tree of R87 in binary32. -/
def add32 (ftz : Bool) (x y : Nat) : Nat :=
  flushBits fmt32 ftz (round fmt32 0 (Flt.sum [Flt.ofBits fmt32 x, Flt.ofBits fmt32 y]))

/-- Float DOT4 (R87, R172): exact products, then round(round(round(p0 + p1) + round(p2 + p3)) + c). DESIGN CHOICE
(log entry 101): the other element of C is copied as it is, a subnormal one too under FTZ. -/
def dotFlt (ftz : Bool) (ty : Nat) (hi : Bool) (a b c : Word) : Word :=
  let f := fmtOf ty
  let x := fun (v : Word) k => Flt.ofBits f (flushBits f ftz (elem 16 v k))
  let p := fun k => Flt.mul (x a k) (x b k)
  let pair := fun k => flushBits fmt32 ftz (round fmt32 0 (Flt.sum [p k, p (k + 1)]))
  let h := if hi then 1 else 0
  let r := add32 ftz (add32 ftz (pair 0) (pair 2)) (flushBits fmt32 ftz (elem 32 c h))
  packElems 32 (if hi then [elem 32 c 0, r] else [r, elem 32 c 1])

/-- DOT4 (R172). -/
def execLDot4 (f : LF) (s : State) : Answer :=
  laneWise 1 (fun k a b c _ =>
    if tyFloat f.ty.toNat then dotFlt (k.g.mode.getLsbD 0) f.ty.toNat (f.md.getLsbD 0) a b c
    else dotInt f.ty.toNat a b c) f s

end Sys2Proof.Machine
end

