-- ==== Sys2Proof/Machine/LaneFloat.lean ====
section
/-! DEFINITION. Floating-point lane instructions: L-code row 0x080 (R173 to R178). -/

namespace Sys2Proof.Machine

/-- Issue-slot cycles: `n` for the packed types, `d` for f64 (R166). -/
def fltHold (n d ty : Nat) : Nat := if ty = 8 then d else n

/-- A floating-point instruction on each element, operands and result flushed where R78 applies. `raw` leaves B as it
is, an integer. -/
def floatElems (ftz raw : Bool) (ty : Nat) (g : Fmt → Nat → Nat → Nat → Nat) (a b c : Word) : Word :=
  let f := fmtOf ty
  let z := ftz && ftzFmt f
  let r := fun x y w => flushBits f z (g f (flushBits f z x) (if raw then y else flushBits f z y) (flushBits f z w))
  mapElems ty r a b c

/-- A floating-point lane instruction (R173). -/
def floatWise (hold : Nat → Nat) (g : Fmt → Nat → Nat → Nat → Nat) (f : LF) (s : State) : Answer :=
  laneWise (hold f.ty.toNat) (fun k a b c _ => floatElems (k.g.mode.getLsbD 0) false f.ty.toNat g a b c) f s

/-- Values of encodings. -/
def ofB (f : Fmt) (x : Nat) : Flt := Flt.ofBits f x

/-- FADD (R173). -/
def execLFadd (f : LF) (s : State) : Answer :=
  floatWise (fltHold 1 8) (fun m a b _ => round m f.rm.toNat (Flt.add f.rm.toNat (ofB m a) (ofB m b))) f s
/-- FSUB (R173). -/
def execLFsub (f : LF) (s : State) : Answer :=
  floatWise (fltHold 1 8) (fun m a b _ => round m f.rm.toNat (Flt.add f.rm.toNat (ofB m a) (ofB m b).negate)) f s
/-- FMUL (R173). -/
def execLFmul (f : LF) (s : State) : Answer :=
  floatWise (fltHold 1 8) (fun m a b _ => round m f.rm.toNat (Flt.mul (ofB m a) (ofB m b))) f s
/-- FFMA: one rounding (R173). -/
def execLFfma (f : LF) (s : State) : Answer :=
  floatWise (fltHold 1 8)
    (fun m a b c => round m f.rm.toNat (Flt.add f.rm.toNat (Flt.mul (ofB m a) (ofB m b)) (ofB m c))) f s
/-- FMIN (R175). -/
def execLFmin (f : LF) (s : State) : Answer := floatWise (fltHold 1 8) (fun m a b _ => selectBits m false a b) f s
/-- FMAX (R175). -/
def execLFmax (f : LF) (s : State) : Answer := floatWise (fltHold 1 8) (fun m a b _ => selectBits m true a b) f s
/-- FDIV (R173). -/
def execLFdiv (f : LF) (s : State) : Answer :=
  floatWise (fltHold 8 32) (fun m a b _ => round m f.rm.toNat (Flt.div (ofB m a) (ofB m b))) f s
/-- FRCP (R173). -/
def execLFrcp (f : LF) (s : State) : Answer :=
  floatWise (fltHold 4 16) (fun m a _ _ => round m f.rm.toNat (Flt.div (.fin false 1 1) (ofB m a))) f s

/-- The square root of an encoding (R173, R174). -/
def sqrtBits (m : Fmt) (rm x : Nat) : Nat :=
  match ofB m x with
  | .nan => m.nanBits
  | .inf neg => if neg then m.nanBits else m.infBits
  | .fin neg num den => if num = 0 then x else if neg then m.nanBits else roundSqrt m rm num den

/-- FSQRT (R173). -/
def execLFsqrt (f : LF) (s : State) : Answer := floatWise (fltHold 8 32) (fun m a _ _ => sqrtBits m f.rm.toNat a) f s

/-- FRSQ (R176). -/
def execLFrsq (f : LF) (s : State) : Answer := floatWise (fun _ => 4) (fun m a _ _ => approxElem frsq32 m a) f s
/-- FEXP2 (R176). -/
def execLFexp2 (f : LF) (s : State) : Answer := floatWise (fun _ => 4) (fun m a _ _ => approxElem fexp232 m a) f s
/-- FLOG2 (R176). -/
def execLFlog2 (f : LF) (s : State) : Answer := floatWise (fun _ => 4) (fun m a _ _ => approxElem flog232 m a) f s
/-- FSIN (R176). -/
def execLFsin (f : LF) (s : State) : Answer := floatWise (fun _ => 4) (fun m a _ _ => approxElem (ftrig32 false) m a) f s
/-- FCOS (R176). -/
def execLFcos (f : LF) (s : State) : Answer := floatWise (fun _ => 4) (fun m a _ _ => approxElem (ftrig32 true) m a) f s

/-- The integral value of an encoding in a rounding direction (R178). -/
def integral (m : Fmt) (rm x : Nat) : Nat :=
  match ofB m x with
  | .nan => m.nanBits
  | .inf neg => m.infBits + m.signBits neg
  | .fin neg num den => round m 0 (.fin neg (roundInt rm neg num den).natAbs 1)

/-- FRND (R178). -/
def execLFrnd (f : LF) (s : State) : Answer := floatWise (fltHold 1 8) (fun m a _ _ => integral m f.rm.toNat a) f s

/-- x − ⌊x⌋ rounded toward zero (R178). -/
def fraction (m : Fmt) (x : Nat) : Nat :=
  match ofB m x with
  | .fin neg num den => round m 1 (.fin false (signedNum neg num - floorRat neg num den * den).toNat den)
  | _ => m.nanBits

/-- FFRAC (R178). -/
def execLFfrac (f : LF) (s : State) : Answer := floatWise (fltHold 1 8) (fun m a _ _ => fraction m a) f s

/-- round(x × 2^k) (R178); beyond ±5,000 a larger k gives the same bits. -/
def scaleBits (m : Fmt) (rm x k : Nat) : Nat :=
  let e := sextNat m.width k
  let e := if e < -5000 then -5000 else if 5000 < e then 5000 else e
  match ofB m x with
  | .nan => m.nanBits
  | .inf neg => m.infBits + m.signBits neg
  | .fin neg num den => if num = 0 ∨ e = 0 then x else round m rm (Flt.ldexp (.fin neg num den) e)

/-- FLDEXP (R178). -/
def execLFldexp (f : LF) (s : State) : Answer :=
  laneWise (fltHold 1 8 f.ty.toNat)
    (fun k a b _ _ => floatElems (k.g.mode.getLsbD 0) true f.ty.toNat (fun m x y _ => scaleBits m f.rm.toNat x y) a b 0) f s

end Sys2Proof.Machine
end

