-- ==== Sys2Proof/Machine/LaneConv.lean ====
section
/-! DEFINITION. Conversion, rearrangement and block-format lane instructions: L-code row 0x100 (R179 to R190). -/

namespace Sys2Proof.Machine

/-- conv of R181 on bits: source type s, destination type t. -/
def convert (s t rm : Nat) (sat ftz : Bool) (x : Nat) : Nat :=
  let ws := tyWidth s
  let wt := tyWidth t
  let small := fun ty => decide (ty = 12 ∨ ty = 13)
  let z := ftz && !small s && !small t
  let flushS := fun x => if tyFloat s then flushBits (fmtOf s) (z && ftzFmt (fmtOf s)) x else x
  let flushT := fun x => if tyFloat t then flushBits (fmtOf t) (z && ftzFmt (fmtOf t)) x else x
  let put := fun v => flushT (if sat ∧ !cvtExact s t then roundSat (fmtOf t) rm v else round (fmtOf t) rm v)
  if tyFloat s then
    let v := Flt.ofBits (fmtOf s) (flushS x)
    if tyFloat t then put v
    else match v with
      | .nan => 0
      | .inf neg => keepInt true (tySigned t) wt (if neg then -(2 ^ 64) else 2 ^ 64)
      | .fin neg num den => keepInt true (tySigned t) wt (roundInt rm neg num den)
  else
    let v := elemVal s ws x
    if tyFloat t then put (Flt.ofInt v) else keepInt sat (tySigned t) wt v

/-- CVT (R179, R180). -/
def execLCvt (f : LF) (st : State) : Answer :=
  let s := f.md.toNat % 32
  let t := f.ty.toNat
  let ns := tyCount s
  let nt := tyCount t
  let p := f.imm.toNat % 8
  let hold := if s = 8 ∨ t = 8 then 2 else 1
  laneWise hold (fun k a b _ _ =>
    let conv := convert s t f.rm.toNat (f.md.getLsbD 5) (k.g.mode.getLsbD 0)
    if nt ≤ ns then packElems (tyWidth t) ((List.range nt).map (fun j => conv (elem (tyWidth s) a (p * nt + j))))
    else packElems (tyWidth t) ((List.range nt).map (fun j =>
      if p * ns ≤ j ∧ j < p * ns + ns then conv (elem (tyWidth s) a (j - p * ns)) else elem (tyWidth t) b j))) f st

/-- PACK (R182). -/
def execLPack (f : LF) (s : State) : Answer :=
  let ty := f.ty.toNat
  let w := tyWidth ty
  let narrow := fun x => keepInt (f.md.getLsbD 0) (tySigned ty) (w / 2) (elemVal ty w x)
  laneWise 1 (fun _ a b _ _ =>
    let half := fun v => (List.range (tyCount ty)).map (fun j => narrow (elem w v j))
    packElems (w / 2) (half a ++ half b)) f s

/-- UNPK (R183). -/
def execLUnpk (f : LF) (s : State) : Answer :=
  let ty := f.ty.toNat
  let w := tyWidth ty
  let n := tyCount ty / 2
  let at_ := if f.md.getLsbD 0 then n else 0
  laneWise 1 (fun _ a _ _ _ =>
    packElems (2 * w) ((List.range n).map (fun j => keepInt false false (2 * w) (elemVal ty w (elem w a (at_ + j)))))) f s

/-- SWZ (R184). -/
def execLSwz (f : LF) (s : State) : Answer :=
  let w := tyWidth f.ty.toNat
  let n := tyCount f.ty.toNat
  laneWise 1 (fun _ a b _ _ =>
    packElems w ((List.range n).map (fun j =>
      let sel := fld f.imm (4 * j) 4
      if sel < n then elem w a sel else elem w b (sel - n)))) f s

/-! ### Block formats across the group (R185) -/

/-- Word q of a superblock stands in lane q; a lane that does not act gives 0. -/
def LaneCtx.bxIn (c : LaneCtx) (f : LF) (q : Nat) : Word := if inLanes c.act q then c.a f q else 0

/-- Element i stands in lane i div 2 as element i mod 2; a lane that does not act gives 0. -/
def LaneCtx.bxElem (c : LaneCtx) (f : LF) (i : Nat) : Nat :=
  if inLanes c.act (i / 2) then elem 32 (c.a f (i / 2)) (i % 2) else 0

/-- A block-format instruction. -/
def bxWise (hold : Nat) (v : LaneCtx → Nat → Word) (f : LF) (s : State) : Answer :=
  guarded 1 1 0 f (fun c => s.laneResult c f hold c.act (v c)) s

/-- BXQ (R186). -/
def execLBxq (f : LF) (s : State) : Answer :=
  let mb := bxBits f.ty.toNat
  bxWise 4 (fun c =>
    let val := fun i => Flt.ofBits fmt32 (c.bxElem f i)
    let bs := (List.range 4).map (fun b => quantise mb ((List.range 16).map (fun i => val (16 * b + i))))
    fun l => if l < mb + 2 then bxWord mb bs l else 0) f s

/-- BXDQ (R187): K planes, or every plane for K = 0. -/
def execLBxdq (f : LF) (s : State) : Answer :=
  let k := if f.md = 0 then bxBits f.ty.toNat else f.md.toNat
  bxWise 2 (fun c l =>
    packElems 32 [round fmt32 0 (bxValue (c.bxIn f) k (2 * l)), round fmt32 0 (bxValue (c.bxIn f) k (2 * l + 1))]) f s

/-- BXEXP (R188). -/
def execLBxexp (f : LF) (s : State) : Answer :=
  laneWise 1 (fun _ a _ _ _ => packElems 16 ((List.range 4).map (fun b => bxE a b))) f s

/-- BXALIGN (R189). -/
def execLBxalign (f : LF) (s : State) : Answer :=
  let mb := bxBits f.ty.toNat
  bxWise 2 (fun c l =>
    let one := fun i => keepInt false true 32 (bxAlign mb (c.bxIn f) (min (elem 16 (c.b f l) (i / 16)) 255) i)
    packElems 32 [one (2 * l), one (2 * l + 1)]) f s

/-- Emax of block k for BXNORM: that of the lowest acting lane of the block's eight (R190). -/
def LaneCtx.bxEmax (c : LaneCtx) (f : LF) (k : Nat) : Nat :=
  match (lanesIn c.act).find? (fun l => l / 8 = k) with
  | some l => min (elem 16 (c.b f l) k) 255
  | none => 0

/-- BXNORM (R190). -/
def execLBxnorm (f : LF) (s : State) : Answer :=
  let mb := bxBits f.ty.toNat
  bxWise 4 (fun c =>
    let sum := fun i => sextNat 32 (c.bxElem f i)
    let bs := (List.range 4).map (fun k => bxNorm mb (c.bxEmax f k) ((List.range 16).map (fun i => sum (16 * k + i))))
    fun l => if l < mb + 2 then bxWord mb bs l else 0) f s

end Sys2Proof.Machine
end

