-- ==== Sys2Proof/Machine/LaneCross.lean ====
section
/-! DEFINITION. Compare, select, predicate and cross-lane instructions: L-code rows 0x140 and 0x180 (R193 to R204). -/

namespace Sys2Proof.Machine

/-! ### Compare, select, predicates (R193 to R195) -/

/-- The elements' conditions joined: all of them with ALL, some of them without (R193). -/
def joined (all : Bool) (n : Nat) (p : Nat → Bool) : Bool := if all then (List.range n).all p else (List.range n).any p

/-- CMP (R193). -/
def execLCmp (f : LF) (s : State) : Answer :=
  let w := tyWidth f.ty.toNat
  lanePred 1 (fun c l => joined (f.md.getLsbD 4) (tyCount f.ty.toNat)
    (fun j => intCond (f.md.toNat % 16) w (elem w (c.a f l) j) (elem w (c.b f l) j))) f s

/-- FCMP (R193). -/
def execLFcmp (f : LF) (s : State) : Answer :=
  let ty := f.ty.toNat
  let w := tyWidth ty
  let m := fmtOf ty
  lanePred 1 (fun c l =>
    let z := c.g.mode.getLsbD 0 && ftzFmt m
    joined (f.md.getLsbD 4) (tyCount ty) (fun j =>
      floatCond (f.md.toNat % 16) m (flushBits m z (elem w (c.a f l) j)) (flushBits m z (elem w (c.b f l) j)))) f s

/-- A predicate operand, negated where the bit is 1. -/
def LaneCtx.pred (c : LaneCtx) (n : BitVec 8) (neg : Bool) (l : Nat) : Bool := c.g.getP (n.toNat % 8) l != neg

/-- PAND (R194). -/
def execLPand (f : LF) (s : State) : Answer :=
  lanePred 1 (fun c l => c.pred f.a (f.md.getLsbD 0) l && c.pred f.b (f.md.getLsbD 1) l) f s
/-- POR (R194). -/
def execLPor (f : LF) (s : State) : Answer :=
  lanePred 1 (fun c l => c.pred f.a (f.md.getLsbD 0) l || c.pred f.b (f.md.getLsbD 1) l) f s
/-- PXOR (R194). -/
def execLPxor (f : LF) (s : State) : Answer :=
  lanePred 1 (fun c l => c.pred f.a (f.md.getLsbD 0) l != c.pred f.b (f.md.getLsbD 1) l) f s
/-- PSET (R194). -/
def execLPset (f : LF) (s : State) : Answer := lanePred 1 (fun c l => decide (c.a f l ≠ 0)) f s
/-- PGET (R194). -/
def execLPget (f : LF) (s : State) : Answer :=
  laneWise 1 (fun c _ _ _ l => if c.pred f.a false l then 1 else 0) f s

/-- SEL (R195). -/
def execLSel (f : LF) (s : State) : Answer := laneWise 1 (fun c a b _ l => if c.pred f.c false l then a else b) f s
/-- MOV (R195). -/
def execLMov (f : LF) (s : State) : Answer := laneWise 1 (fun _ a _ _ _ => a) f s

/-! ### Moves between lanes (R196, R197) -/

/-- The element of A at a flat index; a lane that does not act gives 0 (R196). -/
def LaneCtx.flat (c : LaneCtx) (f : LF) (i : Nat) : Nat :=
  let n := tyCount f.ty.toNat
  if inLanes c.act (i / n) then elem (tyWidth f.ty.toNat) (c.a f (i / n)) (i % n) else 0

/-- A cross-lane instruction that gives every acting lane a register. -/
def crossWise (hold : Nat) (v : LaneCtx → Nat → Word) (f : LF) (s : State) : Answer :=
  guarded 1 1 0 f (fun c => s.laneResult c f hold c.act (v c)) s

/-- SHFL (R197). -/
def execLShfl (f : LF) (s : State) : Answer :=
  let n := tyCount f.ty.toNat
  let w := tyWidth f.ty.toNat
  crossWise 2 (fun c l => packElems w ((List.range n).map (fun j => c.flat f (elem w (c.b f l) j % (32 * n))))) f s

/-- SHFLX (R197). -/
def execLShflx (f : LF) (s : State) : Answer :=
  let n := tyCount f.ty.toNat
  crossWise 2 (fun c l => packElems (tyWidth f.ty.toNat) ((List.range n).map (fun j => c.flat f ((n * l + j) ^^^ f.imm.toNat)))) f s

/-- BCAST (R197). -/
def execLBcast (f : LF) (s : State) : Answer :=
  crossWise 2 (fun c _ => if inLanes c.act (f.imm.toNat % 32) then c.a f (f.imm.toNat % 32) else 0) f s
/-- BCAST .first (R197). -/
def execLBcastFirst (f : LF) (s : State) : Answer := crossWise 2 (fun c _ => c.a f (lowLane c.act % 32)) f s

/-! ### VOTE and MATCH (R198, R199) -/

/-- VOTE (R198): the contributing lanes all receive the same value. -/
def execLVote (f : LF) (s : State) : Answer :=
  guarded 0 0 0 f (fun c =>
    let v := c.real &&& lanesOf (fun l => c.pred f.a (f.md.getLsbD 2) l)
    let r : Word := match f.md.toNat % 4 with
      | 0 => zext64 v
      | 1 => if v ≠ 0 then 1 else 0
      | 2 => if v = c.real then 1 else 0
      | _ => BitVec.ofNat 64 (countLanes v)
    s.laneResult c f 2 c.real (fun _ => r)) s

/-- Two keys match (R199). -/
def keysMatch (ty : Nat) (a b : Word) : Bool :=
  if tyFloat ty then
    let m := fmtOf ty
    let w := tyWidth ty
    (List.range (tyCount ty)).all (fun j =>
      Flt.eq (Flt.ofBits m (elem w a j)) (Flt.ofBits m (elem w b j)) || (isNanBits m (elem w a j) && isNanBits m (elem w b j)))
  else decide (a = b)

/-- MATCH (R199). -/
def execLMatch (f : LF) (s : State) : Answer :=
  guardedReal 1 0 0 f (fun c =>
    s.laneResult c f 2 c.real (fun l =>
      zext64 (c.real &&& lanesOf (fun k => keysMatch f.ty.toNat (c.a f l) (c.a f k))))) s

/-! ### Reductions and scans (R87, R88, R200, R201) -/

/-- combine of R200 on elements of a type: 0 add, 1 min, 2 max, 3 and, 4 or, 5 xor. -/
def combineOp (op ty : Nat) (ftz : Bool) (x y : Nat) : Nat :=
  let w := tyWidth ty
  let m := fmtOf ty
  let less := decide (elemVal ty w x < elemVal ty w y)
  match op with
  | 0 => if tyFloat ty then flushBits m (ftz && ftzFmt m) (round m 0 (Flt.sum [Flt.ofBits m x, Flt.ofBits m y])) else (x + y) % 2 ^ w
  | 1 => if tyFloat ty then selectBits m false x y else if less then x else y
  | 2 => if tyFloat ty then selectBits m true x y else if less then y else x
  | 3 => x &&& y
  | 4 => x ||| y
  | _ => x ^^^ y

/-- combine where an input may be absent (R87). -/
def combineOpt (op : Nat → Nat → Nat) : Option Nat → Option Nat → Option Nat
  | none, y => y
  | x, none => x
  | some x, some y => some (op x y)

/-- One level of the tree. -/
def treeLevel (op : Nat → Nat → Nat) : List (Option Nat) → List (Option Nat)
  | x :: y :: rest => combineOpt op x y :: treeLevel op rest
  | l => l

/-- The pairwise tree of 2^k inputs (R87). -/
def tree (op : Nat → Nat → Nat) : Nat → List (Option Nat) → Option Nat
  | 0, xs => xs.headD none
  | k + 1, xs => tree op k (treeLevel op xs)

/-- The lane at which each lane's segment begins (R200). -/
def segments (c : LaneCtx) (f : LF) : List Nat :=
  (laneList.foldl (fun (acc : List Nat × Nat) l =>
    let b := if l = 0 ∨ (inLanes c.real l ∧ c.b f l ≠ 0) then l else acc.2
    (acc.1 ++ [b], b)) ([], 0)).1

/-- Element j of a lane that contributes, flushed as R78 states. -/
def LaneCtx.input (c : LaneCtx) (f : LF) (j l : Nat) : Option Nat :=
  let ty := f.ty.toNat
  let m := fmtOf ty
  let x := elem (tyWidth ty) (c.a f l) j
  if inLanes c.real l then
    some (if tyFloat ty then flushBits m (c.g.mode.getLsbD 0 && ftzFmt m) x else x)
  else none

/-- Issue-slot cycles of REDS and SCAN (R220). -/
def redHold (f : LF) : Nat := if f.ty = 8 ∧ f.md = 0 then 40 else 5

/-- REDS and SCAN from the value of an element position in a lane. -/
def segmented (v : (Nat → Nat → Nat) → List Nat → (Nat → Option Nat) → Nat → Option Nat) (f : LF) (s : State) : Answer :=
  guardedReal 1 1 0 f (fun c =>
    let ty := f.ty.toNat
    let op := combineOp (f.md.toNat % 8) ty (c.g.mode.getLsbD 0)
    let seg := segments c f
    s.laneResult c f (redHold f) c.real (fun l =>
      packElems (tyWidth ty) ((List.range (tyCount ty)).map (fun j => (v op seg (c.input f j) l).getD 0)))) s

/-- REDS (R200). -/
def execLReds (f : LF) (s : State) : Answer :=
  segmented (fun op seg input l =>
    tree op 5 (laneList.map (fun k => if seg.getD k 0 = seg.getD l 0 then input k else none))) f s

/-- One step of SCAN at distance d (R88). -/
def scanStep (op : Nat → Nat → Nat) (seg : List Nat) (d : Nat) (xs : List (Option Nat)) : List (Option Nat) :=
  laneList.map (fun i =>
    if d ≤ i ∧ seg.getD (i - d) 0 = seg.getD i 0 then combineOpt op (xs.getD (i - d) none) (xs.getD i none) else xs.getD i none)

/-- SCAN (R201). -/
def execLScan (f : LF) (s : State) : Answer :=
  segmented (fun op seg input l =>
    ([1, 2, 4, 8, 16].foldl (fun xs d => scanStep op seg d xs) (laneList.map input)).getD l none) f s

/-! ### Quads (R202 to R204) -/

/-- Write a register and the sticky QI of some lanes. DESIGN CHOICE: where D is LSTAT, R203 and R204 do not order its write and the setting
of QI; D is written first (log entry 100). -/
def quadResult (s : State) (c : LaneCtx) (f : LF) (hold : Nat) (v : Nat → Word) (qi : Nat → Bool) : State :=
  let out := c.write f.d.toNat c.act v
  (s.putLane (stickLanes out.1 c.act (fun l => if qi l then lsQI else 0)) out.2).issued hold

/-- A quad difference between the lanes that `pair` names for a lane: first, then second (R203). -/
def quadDiff (pair : Nat → Nat × Nat) (f : LF) (s : State) : Answer :=
  let ty := f.ty.toNat
  let m := fmtOf ty
  let w := tyWidth ty
  guarded 1 0 0 f (fun c =>
    let here := fun l => inLanes c.act (pair l).1 && inLanes c.act (pair l).2
    let one := fun x y _ => round m f.rm.toNat (Flt.add f.rm.toNat (Flt.ofBits m y) (Flt.ofBits m x).negate)
    let v := fun l => if here l then mapElems ty one (c.a f (pair l).1) (c.a f (pair l).2) 0 else packElems w []
    quadResult s c f (if ty = 8 then 8 else 2) v (fun l => !here l)) s

/-- DDX (R203): left and right lane of the lane's own row, or of the upper row. -/
def execLDdx (f : LF) (s : State) : Answer :=
  quadDiff (fun l => let r := if f.md.getLsbD 0 then l / 4 * 4 else l / 2 * 2; (r, r + 1)) f s
/-- DDY (R203): upper and lower lane of the lane's own column, or of the left column. -/
def execLDdy (f : LF) (s : State) : Answer :=
  quadDiff (fun l => let r := l / 4 * 4 + (if f.md.getLsbD 0 then 0 else l % 2); (r, r + 2)) f s

/-- QSWAP (R204). -/
def execLQswap (f : LF) (s : State) : Answer :=
  guarded 1 0 0 f (fun c =>
    let other := fun l => l ^^^ (f.md.toNat % 4 + 1)
    quadResult s c f 1 (fun l => if inLanes c.act (other l) then c.a f (other l) else c.a f l)
      (fun l => !inLanes c.act (other l))) s

end Sys2Proof.Machine
end

