-- ==== Sys2Proof/Machine/Scalar.lean ====
section
/-! DEFINITION. Scalar arithmetic and logic: C-code 0x00 to 0x1A, 0x20 to 0x28 and SLIT (R100 to R105). -/

namespace Sys2Proof.Machine

/-- A word with two scalar sources and one result. -/
def binary (d a b : BitVec 6) (f : Word → Word → Word) (s : State) : Answer :=
  scalarResult [a, b] d 1 (fun g p => f (readS g p a) (readS g p b)) s

/-- A word with one scalar source and one result. -/
def unary (d a : BitVec 6) (f : Word → Word) (s : State) : Answer :=
  scalarResult [a] d 1 (fun g p => f (readS g p a)) s

/-- The high half of the signed product (R100). -/
def mulHiSigned (a b : Word) : Word := ((a.signExtend 128 * b.signExtend 128) >>> 64).truncate 64

/-- The high half of the unsigned product (R100). -/
def mulHiUnsigned (a b : Word) : Word := ((a.zeroExtend 128 * b.zeroExtend 128) >>> 64).truncate 64

/-- Signed quotient (R101). -/
def quotSigned (a b : Word) : Word :=
  if b = 0 then BitVec.allOnes 64
  else if a = 0x8000_0000_0000_0000 ∧ b = BitVec.allOnes 64 then 0x8000_0000_0000_0000
  else wordOfInt (a.toInt.tdiv b.toInt)

/-- Unsigned quotient (R101). -/
def quotUnsigned (a b : Word) : Word := if b = 0 then BitVec.allOnes 64 else BitVec.ofNat 64 (a.toNat / b.toNat)

/-- Signed remainder (R101). -/
def remSigned (a b : Word) : Word :=
  if b = 0 then a
  else if a = 0x8000_0000_0000_0000 ∧ b = BitVec.allOnes 64 then 0
  else wordOfInt (a.toInt.tmod b.toInt)

/-- Unsigned remainder (R101). -/
def remUnsigned (a b : Word) : Word := if b = 0 then a else BitVec.ofNat 64 (a.toNat % b.toNat)

/-- Shifts by the whole of the count (R102). -/
def shiftLeft (a n : Word) : Word := if n.toNat < 64 then a <<< n.toNat else 0
def shiftRight (a n : Word) : Word := if n.toNat < 64 then a >>> n.toNat else 0
def shiftArith (a n : Word) : Word := if n.toNat < 64 then a.sshiftRight n.toNat else a.sshiftRight 63

/-- Field extract of `w` bits (R103). -/
def fieldExtract (a b : Word) (w : Nat) : Word := BitVec.ofNat 64 ((a.toNat >>> (b.toNat % 64)) % 2 ^ w)

/-- Field insert of `w` bits (R103): bits beyond 63 are not written. -/
def fieldInsert (old a b : Word) (w : Nat) : Word :=
  let m : Word := BitVec.ofNat 64 ((2 ^ w - 1) <<< (b.toNat % 64))
  (old &&& ~~~m) ||| (BitVec.ofNat 64 (a.toNat <<< (b.toNat % 64)) &&& m)

/-- 1 or 0. -/
def wordOfBool (b : Bool) : Word := if b then 1 else 0

/-- SADD (R100). -/
def execCSadd (d a b : BitVec 6) (s : State) : Answer := binary d a b (· + ·) s
/-- SSUB (R100). -/
def execCSsub (d a b : BitVec 6) (s : State) : Answer := binary d a b (· - ·) s
/-- SMUL (R100). -/
def execCSmul (d a b : BitVec 6) (s : State) : Answer := binary d a b (· * ·) s
/-- SMULHI (R100). -/
def execCSmulhi (d a b : BitVec 6) (s : State) : Answer := binary d a b mulHiSigned s
/-- SMULHN (R100). -/
def execCSmulhn (d a b : BitVec 6) (s : State) : Answer := binary d a b mulHiUnsigned s
/-- SDIV (R101). -/
def execCSdiv (d a b : BitVec 6) (s : State) : Answer := binary d a b quotSigned s
/-- SDIVN (R101). -/
def execCSdivn (d a b : BitVec 6) (s : State) : Answer := binary d a b quotUnsigned s
/-- SREM (R101). -/
def execCSrem (d a b : BitVec 6) (s : State) : Answer := binary d a b remSigned s
/-- SREMN (R101). -/
def execCSremn (d a b : BitVec 6) (s : State) : Answer := binary d a b remUnsigned s
/-- SAND (R100). -/
def execCSand (d a b : BitVec 6) (s : State) : Answer := binary d a b (· &&& ·) s
/-- SOR (R100). -/
def execCSor (d a b : BitVec 6) (s : State) : Answer := binary d a b (· ||| ·) s
/-- SXOR (R100). -/
def execCSxor (d a b : BitVec 6) (s : State) : Answer := binary d a b (· ^^^ ·) s
/-- SANDN (R100). -/
def execCSandn (d a b : BitVec 6) (s : State) : Answer := binary d a b (fun x y => x &&& ~~~y) s
/-- SSHL (R102). -/
def execCSshl (d a b : BitVec 6) (s : State) : Answer := binary d a b shiftLeft s
/-- SSHR (R102). -/
def execCSshr (d a b : BitVec 6) (s : State) : Answer := binary d a b shiftRight s
/-- SSRA (R102). -/
def execCSsra (d a b : BitVec 6) (s : State) : Answer := binary d a b shiftArith s
/-- SMIN (R100). -/
def execCSmin (d a b : BitVec 6) (s : State) : Answer := binary d a b (fun x y => if x.slt y then x else y) s
/-- SMAX (R100). -/
def execCSmax (d a b : BitVec 6) (s : State) : Answer := binary d a b (fun x y => if x.slt y then y else x) s
/-- SMINN (R100). -/
def execCSminn (d a b : BitVec 6) (s : State) : Answer := binary d a b (fun x y => if x.ult y then x else y) s
/-- SMAXN (R100). -/
def execCSmaxn (d a b : BitVec 6) (s : State) : Answer := binary d a b (fun x y => if x.ult y then y else x) s
/-- SCMP (R100, R54). -/
def execCScmp (d a b c : BitVec 6) (s : State) : Answer := binary d a b (fun x y => wordOfBool (scalarCond c.toNat x y)) s
/-- SSEL (R100). -/
def execCSsel (d a b c : BitVec 6) (s : State) : Answer :=
  scalarResult [a, b, c] d 1 (fun g p => if readS g p c ≠ 0 then readS g p a else readS g p b) s
/-- SMOV (R100). -/
def execCSmov (d a : BitVec 6) (s : State) : Answer := unary d a id s
/-- SPOPC (R100). -/
def execCSpopc (d a : BitVec 6) (s : State) : Answer := unary d a (fun x => BitVec.ofNat 64 (popNat 64 x.toNat)) s
/-- SCLZ (R100). -/
def execCSclz (d a : BitVec 6) (s : State) : Answer := unary d a (fun x => BitVec.ofNat 64 (clzNat 64 x.toNat)) s
/-- SBFX (R103). -/
def execCSbfx (d a b w : BitVec 6) (s : State) : Answer := binary d a b (fun x y => fieldExtract x y (w.toNat + 1)) s
/-- SBFI (R103): the old d is a fourth source. -/
def execCSbfi (d a b w : BitVec 6) (s : State) : Answer :=
  scalarResult [a, b] d 1 (fun g p => fieldInsert (readS g p d) (readS g p a) (readS g p b) (w.toNat + 1)) s
/-- SADDI (R104). -/
def execCSaddi (d a : BitVec 6) (i : BitVec 12) (s : State) : Answer := unary d a (· + sext64 i) s
/-- SANDI (R104). -/
def execCSandi (d a : BitVec 6) (i : BitVec 12) (s : State) : Answer := unary d a (· &&& sext64 i) s
/-- SORI (R104). -/
def execCSori (d a : BitVec 6) (i : BitVec 12) (s : State) : Answer := unary d a (· ||| sext64 i) s
/-- SXORI (R104). -/
def execCSxori (d a : BitVec 6) (i : BitVec 12) (s : State) : Answer := unary d a (· ^^^ sext64 i) s
/-- SSHLI (R104). -/
def execCSshli (d a : BitVec 6) (n : BitVec 12) (s : State) : Answer := unary d a (fun x => shiftLeft x (zext64 n)) s
/-- SSHRI (R104). -/
def execCSshri (d a : BitVec 6) (n : BitVec 12) (s : State) : Answer := unary d a (fun x => shiftRight x (zext64 n)) s
/-- SSRAI (R104). -/
def execCSsrai (d a : BitVec 6) (n : BitVec 12) (s : State) : Answer := unary d a (fun x => shiftArith x (zext64 n)) s
/-- SCMPI (R104): an unsigned condition compares with the sign-extended immediate. -/
def execCScmpi (d a : BitVec 6) (c : BitVec 4) (i : BitVec 8) (s : State) : Answer :=
  unary d a (fun x => wordOfBool (scalarCond c.toNat x (sext64 i))) s
/-- SMOVI (R104). -/
def execCSmovi (d : BitVec 6) (i : BitVec 18) (s : State) : Answer := scalarResult [] d 1 (fun _ _ => sext64 i) s
/-- SLIT, HI = 0 (R105). -/
def execCSlit (d : BitVec 6) (lit : BitVec 32) (s : State) : Answer := scalarResult [] d 2 (fun _ _ => sext64 lit) s
/-- SLIT, HI = 1 (R105). -/
def execCSlitHi (d a : BitVec 6) (lit : BitVec 32) (s : State) : Answer :=
  scalarResult [a] d 2 (fun g p => (zext64 lit <<< 32) ||| zext64 ((readS g p a).truncate 32)) s

end Sys2Proof.Machine
end

