-- ==== Sys2Proof/Machine/Dispatch.lean ====
section
/-! DEFINITION. One arm per instruction and event. -/

namespace Sys2Proof.Machine

/-- The meaning of every instruction. -/
def exec (i : Instr) (s : State) : Host.Outcome State Fault Refusal :=
  match i with
  | .cSadd d a b => Sys2Proof.Machine.execCSadd d a b s
  | .cSsub d a b => Sys2Proof.Machine.execCSsub d a b s
  | .cSmul d a b => Sys2Proof.Machine.execCSmul d a b s
  | .cSmulhi d a b => Sys2Proof.Machine.execCSmulhi d a b s
  | .cSmulhn d a b => Sys2Proof.Machine.execCSmulhn d a b s
  | .cSdiv d a b => Sys2Proof.Machine.execCSdiv d a b s
  | .cSdivn d a b => Sys2Proof.Machine.execCSdivn d a b s
  | .cSrem d a b => Sys2Proof.Machine.execCSrem d a b s
  | .cSremn d a b => Sys2Proof.Machine.execCSremn d a b s
  | .cSand d a b => Sys2Proof.Machine.execCSand d a b s
  | .cSor d a b => Sys2Proof.Machine.execCSor d a b s
  | .cSxor d a b => Sys2Proof.Machine.execCSxor d a b s
  | .cSandn d a b => Sys2Proof.Machine.execCSandn d a b s
  | .cSshl d a b => Sys2Proof.Machine.execCSshl d a b s
  | .cSshr d a b => Sys2Proof.Machine.execCSshr d a b s
  | .cSsra d a b => Sys2Proof.Machine.execCSsra d a b s
  | .cSmin d a b => Sys2Proof.Machine.execCSmin d a b s
  | .cSmax d a b => Sys2Proof.Machine.execCSmax d a b s
  | .cSminn d a b => Sys2Proof.Machine.execCSminn d a b s
  | .cSmaxn d a b => Sys2Proof.Machine.execCSmaxn d a b s
  | .cScmp d a b c => Sys2Proof.Machine.execCScmp d a b c s
  | .cSsel d a b c => Sys2Proof.Machine.execCSsel d a b c s
  | .cSmov d a => Sys2Proof.Machine.execCSmov d a s
  | .cSpopc d a => Sys2Proof.Machine.execCSpopc d a s
  | .cSclz d a => Sys2Proof.Machine.execCSclz d a s
  | .cSbfx d a b w => Sys2Proof.Machine.execCSbfx d a b w s
  | .cSbfi d a b w => Sys2Proof.Machine.execCSbfi d a b w s
  | .cSaddi d a imm => Sys2Proof.Machine.execCSaddi d a imm s
  | .cSandi d a imm => Sys2Proof.Machine.execCSandi d a imm s
  | .cSori d a imm => Sys2Proof.Machine.execCSori d a imm s
  | .cSxori d a imm => Sys2Proof.Machine.execCSxori d a imm s
  | .cSshli d a n => Sys2Proof.Machine.execCSshli d a n s
  | .cSshri d a n => Sys2Proof.Machine.execCSshri d a n s
  | .cSsrai d a n => Sys2Proof.Machine.execCSsrai d a n s
  | .cScmpi d a c imm => Sys2Proof.Machine.execCScmpi d a c imm s
  | .cSmovi d imm => Sys2Proof.Machine.execCSmovi d imm s
  | .cSlit d lit => Sys2Proof.Machine.execCSlit d lit s
  | .cSlitHi d a lit => Sys2Proof.Machine.execCSlitHi d a lit s
  | .cSld d a o => Sys2Proof.Machine.execCSld d a o s
  | .cSst d a o => Sys2Proof.Machine.execCSst d a o s
  | .cSatom d a b r o => Sys2Proof.Machine.execCSatom d a b r o s
  | .cSfrom d a b => Sys2Proof.Machine.execCSfrom d a b s
  | .cSfromFirst d a => Sys2Proof.Machine.execCSfromFirst d a s
  | .cXlat d a b => Sys2Proof.Machine.execCXlat d a b s
  | .cXlatW d a b => Sys2Proof.Machine.execCXlatW d a b s
  | .cXfree d => Sys2Proof.Machine.execCXfree d s
  | .cPrefL2 a imm => Sys2Proof.Machine.execCPrefL2 a imm s
  | .cPrefL1 a imm => Sys2Proof.Machine.execCPrefL1 a imm s
  | .cPin d a b => Sys2Proof.Machine.execCPin d a b s
  | .cUnpin d a b => Sys2Proof.Machine.execCUnpin d a b s
  | .cBra a c o => Sys2Proof.Machine.execCBra a c o s
  | .cB m o => Sys2Proof.Machine.execCB m o s
  | .cBral a c m lit => Sys2Proof.Machine.execCBral a c m lit s
  | .cBdiv n p m o => Sys2Proof.Machine.execCBdiv n p m o s
  | .cJset o => Sys2Proof.Machine.execCJset o s
  | .cJbrk o => Sys2Proof.Machine.execCJbrk o s
  | .cCall o => Sys2Proof.Machine.execCCall o s
  | .cCalli a => Sys2Proof.Machine.execCCalli a s
  | .cCalll lit => Sys2Proof.Machine.execCCalll lit s
  | .cCallv a => Sys2Proof.Machine.execCCallv a s
  | .cRet a => Sys2Proof.Machine.execCRet a s
  | .cFn sx p v => Sys2Proof.Machine.execCFn sx p v s
  | .cRun l sx => Sys2Proof.Machine.execCRun l sx s
  | .cRunp p l sx => Sys2Proof.Machine.execCRunp p l sx s
  | .cWaitfV a => Sys2Proof.Machine.execCWaitfV a s
  | .cSpawn d a imm => Sys2Proof.Machine.execCSpawn d a imm s
  | .cLaunch d a b => Sys2Proof.Machine.execCLaunch d a b s
  | .cLaunchGraph d a b => Sys2Proof.Machine.execCLaunchGraph d a b s
  | .cLaunchPhase d a b => Sys2Proof.Machine.execCLaunchPhase d a b s
  | .cCancel d a => Sys2Proof.Machine.execCCancel d a s
  | .cCancelGraph d a => Sys2Proof.Machine.execCCancelGraph d a s
  | .cCancelPhase d a => Sys2Proof.Machine.execCCancelPhase d a s
  | .cCancelJob d a => Sys2Proof.Machine.execCCancelJob d a s
  | .cArrive d a b => Sys2Proof.Machine.execCArrive d a b s
  | .cAwait a b => Sys2Proof.Machine.execCAwait a b s
  | .cFence r k p g l sx => Sys2Proof.Machine.execCFence r k p g l sx s
  | .cCpy d a b r t => Sys2Proof.Machine.execCCpy d a b r t s
  | .cSeal d => Sys2Proof.Machine.execCSeal d s
  | .cWaitb d a => Sys2Proof.Machine.execCWaitb d a s
  | .cHinit a b h => Sys2Proof.Machine.execCHinit a b h s
  | .cHbindOff imm o b => Sys2Proof.Machine.execCHbindOff imm o b s
  | .cHbindGather imm o b => Sys2Proof.Machine.execCHbindGather imm o b s
  | .cHbindRaster imm o b => Sys2Proof.Machine.execCHbindRaster imm o b s
  | .cHwaitRoom d a h => Sys2Proof.Machine.execCHwaitRoom d a h s
  | .cHwaitData d a h => Sys2Proof.Machine.execCHwaitData d a h s
  | .cHadvP a h => Sys2Proof.Machine.execCHadvP a h s
  | .cHadvC a h => Sys2Proof.Machine.execCHadvC a h s
  | .cPut d a b => Sys2Proof.Machine.execCPut d a b s
  | .cCwait d a c => Sys2Proof.Machine.execCCwait d a c s
  | .cCwaitSub d a c => Sys2Proof.Machine.execCCwaitSub d a c s
  | .cBrace d a b => Sys2Proof.Machine.execCBrace d a b s
  | .cUnbrace d a => Sys2Proof.Machine.execCUnbrace d a s
  | .cGenpub d a => Sys2Proof.Machine.execCGenpub d a s
  | .cGenwait d a b => Sys2Proof.Machine.execCGenwait d a b s
  | .cGenwaitTest d a b => Sys2Proof.Machine.execCGenwaitTest d a b s
  | .cRcpub n => Sys2Proof.Machine.execCRcpub n s
  | .cRchold n => Sys2Proof.Machine.execCRchold n s
  | .cRcholdOff n => Sys2Proof.Machine.execCRcholdOff n s
  | .cRcstep b n => Sys2Proof.Machine.execCRcstep b n s
  | .cSget d r => Sys2Proof.Machine.execCSget d r s
  | .cSset a r => Sys2Proof.Machine.execCSset a r s
  | .cTrap v c => Sys2Proof.Machine.execCTrap v c s
  | .cRply d a => Sys2Proof.Machine.execCRply d a s
  | .cMap d a b => Sys2Proof.Machine.execCMap d a b s
  | .cMapFt d a => Sys2Proof.Machine.execCMapFt d a s
  | .cUnmap d a => Sys2Proof.Machine.execCUnmap d a s
  | .cTlbinv a b => Sys2Proof.Machine.execCTlbinv a b s
  | .cTlbinvRange a b => Sys2Proof.Machine.execCTlbinvRange a b s
  | .cBkpt t => Sys2Proof.Machine.execCBkpt t s
  | .lAdd f => Sys2Proof.Machine.execLAdd f s
  | .lSub f => Sys2Proof.Machine.execLSub f s
  | .lMul f => Sys2Proof.Machine.execLMul f s
  | .lMulhi f => Sys2Proof.Machine.execLMulhi f s
  | .lMad f => Sys2Proof.Machine.execLMad f s
  | .lDiv f => Sys2Proof.Machine.execLDiv f s
  | .lRem f => Sys2Proof.Machine.execLRem f s
  | .lAbs f => Sys2Proof.Machine.execLAbs f s
  | .lNeg f => Sys2Proof.Machine.execLNeg f s
  | .lMin f => Sys2Proof.Machine.execLMin f s
  | .lMax f => Sys2Proof.Machine.execLMax f s
  | .lAnd f => Sys2Proof.Machine.execLAnd f s
  | .lOr f => Sys2Proof.Machine.execLOr f s
  | .lXor f => Sys2Proof.Machine.execLXor f s
  | .lAndn f => Sys2Proof.Machine.execLAndn f s
  | .lShl f => Sys2Proof.Machine.execLShl f s
  | .lShr f => Sys2Proof.Machine.execLShr f s
  | .lSra f => Sys2Proof.Machine.execLSra f s
  | .lRotl f => Sys2Proof.Machine.execLRotl f s
  | .lPopc f => Sys2Proof.Machine.execLPopc f s
  | .lClz f => Sys2Proof.Machine.execLClz f s
  | .lBrev f => Sys2Proof.Machine.execLBrev f s
  | .lBfx f => Sys2Proof.Machine.execLBfx f s
  | .lBfi f => Sys2Proof.Machine.execLBfi f s
  | .lDot4 f => Sys2Proof.Machine.execLDot4 f s
  | .lFadd f => Sys2Proof.Machine.execLFadd f s
  | .lFsub f => Sys2Proof.Machine.execLFsub f s
  | .lFmul f => Sys2Proof.Machine.execLFmul f s
  | .lFfma f => Sys2Proof.Machine.execLFfma f s
  | .lFmin f => Sys2Proof.Machine.execLFmin f s
  | .lFmax f => Sys2Proof.Machine.execLFmax f s
  | .lFdiv f => Sys2Proof.Machine.execLFdiv f s
  | .lFrcp f => Sys2Proof.Machine.execLFrcp f s
  | .lFrsq f => Sys2Proof.Machine.execLFrsq f s
  | .lFsqrt f => Sys2Proof.Machine.execLFsqrt f s
  | .lFexp2 f => Sys2Proof.Machine.execLFexp2 f s
  | .lFlog2 f => Sys2Proof.Machine.execLFlog2 f s
  | .lFsin f => Sys2Proof.Machine.execLFsin f s
  | .lFcos f => Sys2Proof.Machine.execLFcos f s
  | .lFrnd f => Sys2Proof.Machine.execLFrnd f s
  | .lFfrac f => Sys2Proof.Machine.execLFfrac f s
  | .lFldexp f => Sys2Proof.Machine.execLFldexp f s
  | .lCvt f => Sys2Proof.Machine.execLCvt f s
  | .lPack f => Sys2Proof.Machine.execLPack f s
  | .lUnpk f => Sys2Proof.Machine.execLUnpk f s
  | .lSwz f => Sys2Proof.Machine.execLSwz f s
  | .lBxq f => Sys2Proof.Machine.execLBxq f s
  | .lBxdq f => Sys2Proof.Machine.execLBxdq f s
  | .lBxexp f => Sys2Proof.Machine.execLBxexp f s
  | .lBxalign f => Sys2Proof.Machine.execLBxalign f s
  | .lBxnorm f => Sys2Proof.Machine.execLBxnorm f s
  | .lCmp f => Sys2Proof.Machine.execLCmp f s
  | .lFcmp f => Sys2Proof.Machine.execLFcmp f s
  | .lSel f => Sys2Proof.Machine.execLSel f s
  | .lMov f => Sys2Proof.Machine.execLMov f s
  | .lPand f => Sys2Proof.Machine.execLPand f s
  | .lPor f => Sys2Proof.Machine.execLPor f s
  | .lPxor f => Sys2Proof.Machine.execLPxor f s
  | .lPset f => Sys2Proof.Machine.execLPset f s
  | .lPget f => Sys2Proof.Machine.execLPget f s
  | .lShfl f => Sys2Proof.Machine.execLShfl f s
  | .lShflx f => Sys2Proof.Machine.execLShflx f s
  | .lBcast f => Sys2Proof.Machine.execLBcast f s
  | .lBcastFirst f => Sys2Proof.Machine.execLBcastFirst f s
  | .lVote f => Sys2Proof.Machine.execLVote f s
  | .lMatch f => Sys2Proof.Machine.execLMatch f s
  | .lReds f => Sys2Proof.Machine.execLReds f s
  | .lScan f => Sys2Proof.Machine.execLScan f s
  | .lDdx f => Sys2Proof.Machine.execLDdx f s
  | .lDdy f => Sys2Proof.Machine.execLDdy f s
  | .lQswap f => Sys2Proof.Machine.execLQswap f s
  | .lLd f => Sys2Proof.Machine.execLLd f s
  | .lLdPlanes f => Sys2Proof.Machine.execLLdPlanes f s
  | .lSt f => Sys2Proof.Machine.execLSt f s
  | .lLds f => Sys2Proof.Machine.execLLds f s
  | .lSts f => Sys2Proof.Machine.execLSts f s
  | .lLdp f => Sys2Proof.Machine.execLLdp f s
  | .lStp f => Sys2Proof.Machine.execLStp f s
  | .lAtom f => Sys2Proof.Machine.execLAtom f s
  | .lAtoms f => Sys2Proof.Machine.execLAtoms f s
  | .lHpush f => Sys2Proof.Machine.execLHpush f s
  | .lHpop f => Sys2Proof.Machine.execLHpop f s
  | .lTrapif f => Sys2Proof.Machine.execLTrapif f s
  | .lLnop f => Sys2Proof.Machine.execLLnop f s
  | .lWld f => Sys2Proof.Machine.execLWld f s
  | .lWlds f => Sys2Proof.Machine.execLWlds f s
  | .lMma f => Sys2Proof.Machine.execLMma f s
  | .lMmas f => Sys2Proof.Machine.execLMmas f s
  | .lAccz f => Sys2Proof.Machine.execLAccz f s
  | .lAccrd f => Sys2Proof.Machine.execLAccrd f s
  | .lAccwr f => Sys2Proof.Machine.execLAccwr f s
  | .lTrace f => Sys2Proof.Machine.execLTrace f s
  | .lResumeReject f => Sys2Proof.Machine.execLResumeReject f s
  | .lResumeAccept f => Sys2Proof.Machine.execLResumeAccept f s
  | .lResumeEnd f => Sys2Proof.Machine.execLResumeEnd f s
  | .lHitget f => Sys2Proof.Machine.execLHitget f s
  | .lSample f => Sys2Proof.Machine.execLSample f s
  | .lHgrid f => Sys2Proof.Machine.execLHgrid f s
  | .lRcqt f => Sys2Proof.Machine.execLRcqt f s
  | .evBankLoad core bank => Sys2Proof.Machine.execEvBankLoad core bank s
  | .evBankRelatch core bank => Sys2Proof.Machine.execEvBankRelatch core bank s
  | .evMatrixAccept core => Sys2Proof.Machine.execEvMatrixAccept core s
  | .evProducerResultLands core gslot pid => Sys2Proof.Machine.execEvProducerResultLands core gslot pid s
  | .evRegisterLineFill core gslot line => Sys2Proof.Machine.execEvRegisterLineFill core gslot line s
  | .evLaneSlotSelect core => Sys2Proof.Machine.execEvLaneSlotSelect core s
  | .evCandidateOverdue core gslot place run => Sys2Proof.Machine.execEvCandidateOverdue core gslot place run s
  | .evYieldExpiry core gslot place => Sys2Proof.Machine.execEvYieldExpiry core gslot place s
  | .evUnitPlacement part => Sys2Proof.Machine.execEvUnitPlacement part s
  | .evDeferredTrapEntry core gslot => Sys2Proof.Machine.execEvDeferredTrapEntry core gslot s
  | .evCancelledEntry core gslot => Sys2Proof.Machine.execEvCancelledEntry core gslot s
  | .evPreemptEntry core gslot => Sys2Proof.Machine.execEvPreemptEntry core gslot s
  | .evShadowSave part => Sys2Proof.Machine.execEvShadowSave part s
  | .evPacketArrival pkt => Sys2Proof.Machine.execEvPacketArrival pkt s
  | .evSwitchArbitration sw out => Sys2Proof.Machine.execEvSwitchArbitration sw out s
  | .evBraceSetup pkt => Sys2Proof.Machine.execEvBraceSetup pkt s
  | .evPutArrival pkt => Sys2Proof.Machine.execEvPutArrival pkt s
  | .evCopyPiece core => Sys2Proof.Machine.execEvCopyPiece core s
  | .evGatherFiring core => Sys2Proof.Machine.execEvGatherFiring core s
  | .evRasterFiring cluster => Sys2Proof.Machine.execEvRasterFiring cluster s
  | .evRayMessageArrival pkt => Sys2Proof.Machine.execEvRayMessageArrival pkt s
  | .evTraversalPipeSelect stack pipe => Sys2Proof.Machine.execEvTraversalPipeSelect stack pipe s
  | .evTreeletVisit stack pipe => Sys2Proof.Machine.execEvTreeletVisit stack pipe s
  | .evContinuationReturn pkt => Sys2Proof.Machine.execEvContinuationReturn pkt s
  | .evFilterRequest stack => Sys2Proof.Machine.execEvFilterRequest stack s
  | .evRcaBatch cluster net => Sys2Proof.Machine.execEvRcaBatch cluster net s
  | .evSanderStep die => Sys2Proof.Machine.execEvSanderStep die s
  | .evSanderPublication part net => Sys2Proof.Machine.execEvSanderPublication part net s
  | .evHbmRequestServe stack => Sys2Proof.Machine.execEvHbmRequestServe stack s
  | .evHomeSliceRequest pkt => Sys2Proof.Machine.execEvHomeSliceRequest pkt s
  | .evUndefinedEncoding word => Sys2Proof.Machine.execEvUndefinedEncoding word s
  | .evPageWalk cluster asid va acc user => Sys2Proof.Machine.execEvPageWalk cluster asid va acc user s
  | .evSlackTick place => Sys2Proof.Machine.execEvSlackTick place s
  | .evBraceIdleTimeout sw out => Sys2Proof.Machine.execEvBraceIdleTimeout sw out s
  | .evPatrolScrub stack => Sys2Proof.Machine.execEvPatrolScrub stack s
  | .evRefresh stack bank => Sys2Proof.Machine.execEvRefresh stack bank s
  | .evStackTemperatureReport stack celsius => Sys2Proof.Machine.execEvStackTemperatureReport stack celsius s
  | .evPeerTimeout pkt => Sys2Proof.Machine.execEvPeerTimeout pkt s
  | .evPeerRequest req => Sys2Proof.Machine.execEvPeerRequest req s
  | .evHostSnoop line invalidate => Sys2Proof.Machine.execEvHostSnoop line invalidate s
  | .evHostMemAccess offset size write => Sys2Proof.Machine.execEvHostMemAccess offset size write s
  | .evFutasPacketCross port pkt => Sys2Proof.Machine.execEvFutasPacketCross port pkt s
  | .evFutasDetect port => Sys2Proof.Machine.execEvFutasDetect port s
  | .evFutasLaneLock port => Sys2Proof.Machine.execEvFutasLaneLock port s
  | .evFutasLaneLockTimeout port => Sys2Proof.Machine.execEvFutasLaneLockTimeout port s
  | .evFutasEqualisation port ok => Sys2Proof.Machine.execEvFutasEqualisation port ok s
  | .evFutasDeskew port ok => Sys2Proof.Machine.execEvFutasDeskew port ok s
  | .evFutasExchange port fid offer ok => Sys2Proof.Machine.execEvFutasExchange port fid offer ok s
  | .evFutasReplayLimit port => Sys2Proof.Machine.execEvFutasReplayLimit port s
  | .evIssueBudgetPeriod core => Sys2Proof.Machine.execEvIssueBudgetPeriod core s
  | .evMemoryBudgetPeriod site => Sys2Proof.Machine.execEvMemoryBudgetPeriod site s
  | .evRayStepBudgetPeriod stack => Sys2Proof.Machine.execEvRayStepBudgetPeriod stack s
  | .evFutasBudgetPeriod port => Sys2Proof.Machine.execEvFutasBudgetPeriod port s
  | .evGo port => Sys2Proof.Machine.execEvGo port s
  | .evJcan port => Sys2Proof.Machine.execEvJcan port s
  | .evPreSave port part => Sys2Proof.Machine.execEvPreSave port part s
  | .evPreRestore port part => Sys2Proof.Machine.execEvPreRestore port part s
  | .evPop => Sys2Proof.Machine.execEvPop s
  | .evSemaAcquire port => Sys2Proof.Machine.execEvSemaAcquire port s
  | .evSemaRelease port => Sys2Proof.Machine.execEvSemaRelease port s
  | .evPtsync port => Sys2Proof.Machine.execEvPtsync port s
  | .evWarmReset port => Sys2Proof.Machine.execEvWarmReset port s
  | .evWarmResetZeroHbm port => Sys2Proof.Machine.execEvWarmResetZeroHbm port s
  | .evPwrRun port => Sys2Proof.Machine.execEvPwrRun port s
  | .evPwrRetention port => Sys2Proof.Machine.execEvPwrRetention port s
  | .evPwrOff port => Sys2Proof.Machine.execEvPwrOff port s
  | .evPlim port value => Sys2Proof.Machine.execEvPlim port value s
  | .evRegisterWrite port offset value => Sys2Proof.Machine.execEvRegisterWrite port offset value s
  | .evIdleEntry => Sys2Proof.Machine.execEvIdleEntry s
  | .evIdleExit => Sys2Proof.Machine.execEvIdleExit s
  | .evRetentionWake => Sys2Proof.Machine.execEvRetentionWake s
  | .evPowerInterval milliwatts => Sys2Proof.Machine.execEvPowerInterval milliwatts s
  | .evPowerOn boot => Sys2Proof.Machine.execEvPowerOn boot s
  | .evPowerLoss => Sys2Proof.Machine.execEvPowerLoss s
  | .evDebugStop core gslot => Sys2Proof.Machine.execEvDebugStop core gslot s
  | .evDebugRelease core gslot => Sys2Proof.Machine.execEvDebugRelease core gslot s
  | .evDebugRegisterWrite core gslot reg lanes value => Sys2Proof.Machine.execEvDebugRegisterWrite core gslot reg lanes value s
  | .evDebugRegisterRead core gslot reg lane => Sys2Proof.Machine.execEvDebugRegisterRead core gslot reg lane s
  | .evDebugLevelRequest port level => Sys2Proof.Machine.execEvDebugLevelRequest port level s
  | .evUnlockToken nonce signature => Sys2Proof.Machine.execEvUnlockToken nonce signature s
  | .evFuseCommand target signature => Sys2Proof.Machine.execEvFuseCommand target signature s
  | .evSpdmRequest nonce => Sys2Proof.Machine.execEvSpdmRequest nonce s
  | .evHostReply line => Sys2Proof.Machine.execEvHostReply line s
  | .evDoubleBitError site double => Sys2Proof.Machine.execEvDoubleBitError site double s
  | .cGuestinv => Sys2Proof.Machine.execCGuestinv s
  | .cJoin => Sys2Proof.Machine.execCJoin s
  | .cExit => Sys2Proof.Machine.execCExit s
  | .cYield => Sys2Proof.Machine.execCYield s
  | .cNop => Sys2Proof.Machine.execCNop s
  | .cWaitf => Sys2Proof.Machine.execCWaitf s
  | .cTrigger => Sys2Proof.Machine.execCTrigger s
  | .cBaru => Sys2Proof.Machine.execCBaru s
  | .cBarg => Sys2Proof.Machine.execCBarg s
  | .cRft => Sys2Proof.Machine.execCRft s
  | .cAck => Sys2Proof.Machine.execCAck s
  | .cTlbinvAsid => Sys2Proof.Machine.execCTlbinvAsid s

end Sys2Proof.Machine
end

