-- ==== Sys2Proof/Machine/Step.lean ====
section
/-! DEFINITION. One step of the device: the next move of the agenda, or the move that an idle agenda gives. -/

namespace Sys2Proof.Machine

/-- Make one move. -/
def turn (t : Turn) (s : State) : Host.Outcome State Fault Refusal :=
  match t with
  | .control core gslot place => s.controlTurn exec core gslot place
  | .lane core lslot => s.laneTurn exec laneWaits jointHold core lslot
  | .event i => s.eventTurn exec i

/-- One step: the agenda's head; the default move where the agenda is empty; no change where nothing can move. -/
def step (s : State) : Host.Outcome State Fault Refusal :=
  match s.agenda with
  | t :: ts => turn t { s with agenda := ts }
  | [] => defaultTurn exec s

/-- The state with a word placed where the next step fetches it (log entry 3). -/
def State.withFetchWord (s : State) (nbits w : Nat) : State := s.placeWord nbits w

end Sys2Proof.Machine
end

