-- ==== Sys2Proof/Safety.lean ====
section
/-! DEFINITION. What counts as a safe state and a safe run. -/

namespace Sys2Proof

/-- The memory of a state has its canonical form. -/
def MemOk (s : Machine.State) : Prop := Machine.Memory.wf s.mem = true

/-- A step keeps going: it neither faults nor is refused. -/
def Goes (s : Machine.State) : Prop := ∃ t, Machine.step s = .next t

end Sys2Proof
end

