-- ==== Sys2Proof/Certificates/Slice0/Obligations.lean ====
section
/-! DEFINITION. What is claimed of the model, for the provers, with the vocabulary that the claims share. -/

namespace Sys2Proof.Claims

open Sys2Proof.Machine

/-! ### Control-stream words -/

/-- Group `g` and split `p` act; the registers that a word reads and the one that it writes are full, and the group may
write that one (R27, R37, R96). -/
structure Free (s : State) (g : Group) (p : Split) (srcs : List (BitVec 6)) (d : BitVec 6) : Prop where
  acts : s.actor = some (g, p)
  full : ∀ r ∈ srcs, emptyS g p r = false
  dest : emptyS g p d = false
  own : sharedS g d = false

/-- From `s` to `t` a word of `words` words has written `v` to scalar register `d` and nothing else: S0 stays 0, the split
goes on at the next word, and every other register, flag, mode, split, group, byte of memory and part of the device is
unchanged. -/
structure ScalarStep (s t : State) (g g' : Group) (p p' : Split) (d : BitVec 6) (words : Nat) (v : Word) : Prop where
  acts : t.actor = some (g', p')
  dest : readS g' p' d = if d = 0 then 0 else v
  pc : p'.pc = nextWord p.pc words
  shared : ∀ n, n ≠ d.toNat → FMap.rd 0 g'.s n = FMap.rd 0 g.s n
  mine : ∀ n, n ≠ d.toNat ∨ selKs p d.toNat = true → FMap.rd 0 p'.s n = FMap.rd 0 p.s n
  bank : ∀ n, n + 56 ≠ d.toNat ∨ selKs p d.toNat = false → FMap.rd 0 p'.ks n = FMap.rd 0 p.ks n
  split : p' = { p with s := p'.s, ks := p'.ks, pc := p'.pc, seq := true, issued := none, marked := none, fetched := p'.fetched,
                        next := s.now + 1, ready := false, since := none, waited := 0, overdue := none }
  fetched : p'.fetched = if p'.pc.toNat / 128 = p.pc.toNat / 128 then p.fetched else none
  group : g' = { g with s := g'.s, splits := g'.splits }
  places : ∀ q, q ≠ s.cur.place → FMap.get g'.splits q = FMap.get g.splits q
  device : t = { s with groups := t.groups }
  slots : ∀ x, x ≠ s.gid → FMap.get t.groups x = FMap.get s.groups x
  memory : ∀ a, t.byteAt a = s.byteAt a

/-- With its registers free, `i` completes, and leaves in `d` a value that `val` allows of the sources as they stood. -/
def ScalarRel (i : Instr) (srcs : List (BitVec 6)) (d : BitVec 6) (words : Nat)
    (val : (BitVec 6 → Word) → Word → Prop) : Prop :=
  ∀ s g p, Free s g p srcs d →
    ∃ t g' p' v, exec i s = .next t ∧ val (readS g p) v ∧ ScalarStep s t g g' p p' d words v

/-- The same where the sources fix the value. -/
def ScalarIs (i : Instr) (srcs : List (BitVec 6)) (d : BitVec 6) (words : Nat) (val : (BitVec 6 → Word) → Word) : Prop :=
  ScalarRel i srcs d words (fun r v => v = val r)

/-- The integer conditions of R54. -/
def condHolds (code : Nat) (a b : Word) : Prop :=
  match code with
  | 0 => a = b
  | 1 => a ≠ b
  | 2 => a.toInt < b.toInt
  | 3 => b.toInt ≤ a.toInt
  | 4 => a.toInt ≤ b.toInt
  | 5 => b.toInt < a.toInt
  | 6 => a.toNat < b.toNat
  | 7 => b.toNat ≤ a.toNat
  | 8 => a.toNat ≤ b.toNat
  | 9 => b.toNat < a.toNat
  | _ => False

/-- 1 where a condition of R54 holds, else 0. -/
def CondWord (code : Nat) (a b v : Word) : Prop := (condHolds code a b ∧ v = 1) ∨ (¬condHolds code a b ∧ v = 0)

/-- −2^63. -/
def least : Word := 0x8000_0000_0000_0000

/-- The quotient of R101. -/
def quot (signed : Bool) (a b : Word) : Word :=
  if b = 0 then BitVec.allOnes 64
  else if signed then (if a = least ∧ b = BitVec.allOnes 64 then least else BitVec.ofInt 64 (a.toInt.tdiv b.toInt))
  else BitVec.ofNat 64 (a.toNat / b.toNat)

/-- The remainder of R101. -/
def rest (signed : Bool) (a b : Word) : Word :=
  if b = 0 then a
  else if signed then (if a = least ∧ b = BitVec.allOnes 64 then 0 else a - quot true a b * b)
  else a - quot false a b * b

/-- The shifts of R102 by a count of any size. -/
def shl (a : Word) (n : Nat) : Word := if n < 64 then BitVec.ofNat 64 (a.toNat * 2 ^ n) else 0
def shr (a : Word) (n : Nat) : Word := if n < 64 then BitVec.ofNat 64 (a.toNat / 2 ^ n) else 0
def sra (a : Word) (n : Nat) : Word :=
  if n < 64 then BitVec.ofInt 64 (a.toInt / 2 ^ n) else if a.getLsbD 63 then BitVec.allOnes 64 else 0

end Sys2Proof.Claims

open Sys2Proof Sys2Proof.Machine Sys2Proof.Claims

/-- R100: sums, differences, products with their high halves, minima, maxima and moves, with R104's SADDI and SMOVI and
R105's SLIT. -/
def Obligations.ScalarSumsProductsAndMoves : Prop :=
  ∀ (d a b : BitVec 6) (i12 : BitVec 12) (i18 : BitVec 18) (lit : BitVec 32),
    ScalarIs (.cSadd d a b) [a, b] d 1 (fun r => r a + r b) ∧
    ScalarIs (.cSsub d a b) [a, b] d 1 (fun r => r a - r b) ∧
    ScalarIs (.cSmul d a b) [a, b] d 1 (fun r => BitVec.ofNat 64 ((r a).toNat * (r b).toNat)) ∧
    ScalarIs (.cSmulhi d a b) [a, b] d 1 (fun r => BitVec.ofInt 64 ((r a).toInt * (r b).toInt / 2 ^ 64)) ∧
    ScalarIs (.cSmulhn d a b) [a, b] d 1 (fun r => BitVec.ofNat 64 ((r a).toNat * (r b).toNat / 2 ^ 64)) ∧
    ScalarIs (.cSmin d a b) [a, b] d 1 (fun r => if (r a).toInt ≤ (r b).toInt then r a else r b) ∧
    ScalarIs (.cSmax d a b) [a, b] d 1 (fun r => if (r a).toInt ≤ (r b).toInt then r b else r a) ∧
    ScalarIs (.cSminn d a b) [a, b] d 1 (fun r => if (r a).toNat ≤ (r b).toNat then r a else r b) ∧
    ScalarIs (.cSmaxn d a b) [a, b] d 1 (fun r => if (r a).toNat ≤ (r b).toNat then r b else r a) ∧
    ScalarIs (.cSmov d a) [a] d 1 (fun r => r a) ∧
    ScalarIs (.cSaddi d a i12) [a] d 1 (fun r => r a + BitVec.ofInt 64 i12.toInt) ∧
    ScalarIs (.cSmovi d i18) [] d 1 (fun _ => BitVec.ofInt 64 i18.toInt) ∧
    ScalarIs (.cSlit d lit) [] d 2 (fun _ => BitVec.ofInt 64 lit.toInt) ∧
    ScalarIs (.cSlitHi d a lit) [a] d 2 (fun r => BitVec.ofNat 64 (lit.toNat * 2 ^ 32 + (r a).toNat % 2 ^ 32))

/-- R101: the four division words, which set no status and raise no trap. -/
def Obligations.ScalarDivisionByR101 : Prop :=
  ∀ (d a b : BitVec 6),
    ScalarIs (.cSdiv d a b) [a, b] d 1 (fun r => quot true (r a) (r b)) ∧
    ScalarIs (.cSdivn d a b) [a, b] d 1 (fun r => quot false (r a) (r b)) ∧
    ScalarIs (.cSrem d a b) [a, b] d 1 (fun r => rest true (r a) (r b)) ∧
    ScalarIs (.cSremn d a b) [a, b] d 1 (fun r => rest false (r a) (r b))

/-- R102: shifts by the whole of S[b], read as unsigned. -/
def Sys2Proof.Claims.ScalarShiftsByR102 : Prop :=
  ∀ (d a b : BitVec 6),
    ScalarIs (.cSshl d a b) [a, b] d 1 (fun r => shl (r a) (r b).toNat) ∧
    ScalarIs (.cSshr d a b) [a, b] d 1 (fun r => shr (r a) (r b).toNat) ∧
    ScalarIs (.cSsra d a b) [a, b] d 1 (fun r => sra (r a) (r b).toNat)

/-- R103: field extract and field insert, bit by bit; the width is w + 1 of the word's field. -/
def Sys2Proof.Claims.ScalarFieldsByR103 : Prop :=
  ∀ (d a b w : BitVec 6),
    ScalarRel (.cSbfx d a b w) [a, b] d 1 (fun r v => ∀ i, i < 64 →
      v.getLsbD i = (decide (i ≤ w.toNat) && (r a).getLsbD ((r b).toNat % 64 + i))) ∧
    ScalarRel (.cSbfi d a b w) [a, b] d 1 (fun r v => ∀ i, i < 64 →
      v.getLsbD i = if (r b).toNat % 64 ≤ i ∧ i ≤ (r b).toNat % 64 + w.toNat then (r a).getLsbD (i - (r b).toNat % 64)
                    else (r d).getLsbD i)

/-- R102, R103: shifts, and fields of bits. -/
def Obligations.ScalarShiftsAndFields : Prop := Sys2Proof.Claims.ScalarShiftsByR102 ∧ Sys2Proof.Claims.ScalarFieldsByR103

/-- R100, R104: bitwise words, the immediate shifts, and the counts of 1 bits and of leading zeros. -/
def Sys2Proof.Claims.ScalarLogicAndCounts : Prop :=
  ∀ (d a b : BitVec 6) (i n : BitVec 12), n.toNat < 64 →
    ScalarIs (.cSand d a b) [a, b] d 1 (fun r => r a &&& r b) ∧
    ScalarIs (.cSor d a b) [a, b] d 1 (fun r => r a ||| r b) ∧
    ScalarIs (.cSxor d a b) [a, b] d 1 (fun r => r a ^^^ r b) ∧
    ScalarIs (.cSandn d a b) [a, b] d 1 (fun r => r a &&& ~~~(r b)) ∧
    ScalarIs (.cSandi d a i) [a] d 1 (fun r => r a &&& BitVec.ofInt 64 i.toInt) ∧
    ScalarIs (.cSori d a i) [a] d 1 (fun r => r a ||| BitVec.ofInt 64 i.toInt) ∧
    ScalarIs (.cSxori d a i) [a] d 1 (fun r => r a ^^^ BitVec.ofInt 64 i.toInt) ∧
    ScalarIs (.cSshli d a n) [a] d 1 (fun r => shl (r a) n.toNat) ∧
    ScalarIs (.cSshri d a n) [a] d 1 (fun r => shr (r a) n.toNat) ∧
    ScalarIs (.cSsrai d a n) [a] d 1 (fun r => sra (r a) n.toNat) ∧
    ScalarIs (.cSpopc d a) [a] d 1 (fun r => BitVec.ofNat 64 ((List.range 64).filter (fun i => (r a).getLsbD i)).length) ∧
    ScalarRel (.cSclz d a) [a] d 1 (fun r v => v.toNat ≤ 64 ∧ (∀ i, 64 - v.toNat ≤ i → (r a).getLsbD i = false) ∧
      (v.toNat < 64 → (r a).getLsbD (63 - v.toNat) = true))

/-- R54, R100, R104: comparison words give 1 or 0 by the ten integer conditions; SSEL selects by S[c]. -/
def Sys2Proof.Claims.ScalarComparisonsAndSelection : Prop :=
  ∀ (d a b c : BitVec 6) (k : BitVec 4) (i : BitVec 8), c.toNat ≤ 9 → k.toNat ≤ 9 → ∀ e : BitVec 6,
    ScalarRel (.cScmp d a b c) [a, b] d 1 (fun r v => CondWord c.toNat (r a) (r b) v) ∧
    ScalarRel (.cScmpi d a k i) [a] d 1 (fun r v => CondWord k.toNat (r a) (BitVec.ofInt 64 i.toInt) v) ∧
    ScalarIs (.cSsel d a b e) [a, b, e] d 1 (fun r => if r e ≠ 0 then r a else r b)

/-- R54, R100, R102, R104: bitwise words, immediate shifts and counts; comparisons and selection. -/
def Obligations.ScalarLogicCountsAndSelection : Prop := Sys2Proof.Claims.ScalarLogicAndCounts ∧ Sys2Proof.Claims.ScalarComparisonsAndSelection

namespace Sys2Proof.Claims

open Sys2Proof.Machine

/-- The target of a branch at a word offset (R117). -/
def jumpTo {n : Nat} (p : Split) (o : BitVec n) : Word := p.pc + BitVec.ofInt 64 (4 * o.toInt)

/-- The word at `w` may be entered by a branch of the acting split; `s'` is the device once its page is translated (R11,
R16). -/
def MayEnter (s : State) (g : Group) (p : Split) (w : Word) (s' : State) : Prop :=
  s.checkTarget s.cur.core (s.asidOf g) (s.codeFrom g) p.user false w = (s', none)

/-- The word at `w` has TGT = 1, as R16 asks of the join address of JSET. -/
def MayJoinAt (s : State) (g : Group) (p : Split) (w : Word) (s' : State) : Prop :=
  s.checkReturn s.cur.core (s.asidOf g) (s.codeFrom g) p.user w = (s', none)

/-- The word at `w` may be fetched, as R11 asks of a transfer to any word. -/
def MayFetch (s : State) (g : Group) (p : Split) (w : Word) (s' : State) : Prop :=
  s.checkFetch s.cur.core (s.asidOf g) (s.codeFrom g) p.user w = (s', none)

/-- The function at `w` may be called, to return to `ret`: steps 1 to 5 of R118 find nothing. -/
def MayCall (s : State) (g : Group) (p : Split) (ret w : Word) (s' : State) : Prop :=
  ∃ u, s.unitOf g = some u ∧
    s.checkCall s.cur.core (s.asidOf g) (s.codeFrom g) u.vregs u.priv p.user p.user (some ret) w = (s', none)

/-- The line that a fetch of the word at `w` brings; none where the fetch would fault (R11, R12). -/
def lineAt (s : State) (g : Group) (p : Split) (w : Word) : Option (List Byte) :=
  match s.fetchLine (coreOfGid s.gid) (s.asidOf g) (s.codeFrom g) p.user w with
  | (_, .ok line) => some line
  | (_, .error _) => none

/-- A split but for the line that it holds fetched. -/
def unfetched (p : Split) : Split := { p with fetched := none }

/-- No run of the split waits or issues, and its own scalar registers are full (R27, R97). -/
def Settled (p : Split) : Prop := p.runsLeft = 0 ∧ p.allFull = true

end Sys2Proof.Claims

open Sys2Proof Sys2Proof.Machine Sys2Proof.Claims

/-- R117, R118, R119, R120, R122: a branch whose condition holds goes to PC + 4 × offset, one whose condition fails goes
on and checks nothing; a marked branch also looks for a partner; a call writes the return address to the link register and
enters; RET branches to S[a]; FN and NOP do nothing; YIELD makes the split ineligible for 8 cycles. -/
def Obligations.BranchesAndCalls : Prop :=
  ∀ (s s' : State) (g : Group) (p : Split) (a : BitVec 6) (c : BitVec 4) (o14 : BitVec 14) (o23 : BitVec 23)
    (o24 : BitVec 24) (lit : BitVec 32), s.actor = some (g, p) → emptyS g p a = false → c.toNat ≤ 9 →
    (condHolds c.toNat (readS g p a) 0 → MayEnter s g p (jumpTo p o14) s' →
      exec (.cBra a c o14) s = .next (s'.goTo (jumpTo p o14))) ∧
    (¬condHolds c.toNat (readS g p a) 0 → exec (.cBra a c o14) s = .next (s.goOn 1)) ∧
    (MayEnter s g p (jumpTo p o23) s' → exec (.cB 0 o23) s = .next (s'.goTo (jumpTo p o23))) ∧
    (MayEnter s g p (jumpTo p o23) s' → p.allFull = true →
      exec (.cB 1 o23) s = .next ((s'.goTo (jumpTo p o23)).mark s'.gid s'.cur.place (jumpTo p o23))) ∧
    (condHolds c.toNat (readS g p a) 0 → MayEnter s g p (jumpTo p lit) s' →
      exec (.cBral a c 0 lit) s = .next (s'.goTo (jumpTo p lit))) ∧
    (condHolds c.toNat (readS g p a) 0 → MayEnter s g p (jumpTo p lit) s' → p.allFull = true →
      exec (.cBral a c 1 lit) s = .next ((s'.goTo (jumpTo p lit)).mark s'.gid s'.cur.place (jumpTo p lit))) ∧
    (∀ m, ¬condHolds c.toNat (readS g p a) 0 → exec (.cBral a c m lit) s = .next (s.goOn 2)) ∧
    (emptyS g p 63 = false → MayCall s g p (nextWord p.pc 1) (jumpTo p o24) s' →
      exec (.cCall o24) s = .next ((s'.writeS p 63 (nextWord p.pc 1)).goTo (jumpTo p o24))) ∧
    (emptyS g p 63 = false → MayCall s g p (nextWord p.pc 1) (readS g p a) s' →
      exec (.cCalli a) s = .next ((s'.writeS p 63 (nextWord p.pc 1)).goTo (readS g p a))) ∧
    (emptyS g p 63 = false → MayCall s g p (nextWord p.pc 2) (jumpTo p lit) s' →
      exec (.cCalll lit) s = .next ((s'.writeS p 63 (nextWord p.pc 2)).goTo (jumpTo p lit))) ∧
    (p.stack = [] → MayEnter s g p (readS g p a) s' → exec (.cRet a) s = .next (s'.goTo (readS g p a))) ∧
    (∀ b f v, exec (.cFn b f v) s = .next (s.goOn 1)) ∧
    exec .cNop s = .next (s.goOn 1) ∧
    exec .cYield s = .next ((s.onSplit (fun p => { p with yielding := s.now + 9 })).goOn 1)

/-- R11, R12, R37, R96, R98, R117 to R120, R276: what going to a word, going on, waiting in a word and writing a scalar register do
to the acting split, and that they change nothing else. The next word issues one core cycle later, after a transfer two. Going on keeps
the fetched line within the line alone; a transfer fetches its target's line, which the split of an undivided group then holds, and
changes in any group nothing but what the splits of this group hold fetched. -/
def Sys2Proof.Claims.MovingTheProgramCounter : Prop :=
  ∀ (s : State) (g : Group) (p : Split) (w : Word) (n : Nat), s.actor = some (g, p) →
    (∃ g' p', (s.goTo w).actor = some (g', p') ∧
      p' = { p with pc := w, seq := false, issued := none, marked := none, fetched := p'.fetched, next := s.now + 2, ready := false,
                    since := none, waited := 0, overdue := none } ∧
      g' = { g with splits := g'.splits } ∧
      (∀ q, q ≠ s.cur.place → (FMap.get g'.splits q).map unfetched = (FMap.get g.splits q).map unfetched) ∧
      (∀ x, x ≠ s.gid → FMap.get (s.goTo w).groups x = FMap.get s.groups x) ∧
      (g.splits = [(s.cur.place, p)] → p.parked = none → p'.fetched =
        lineAt (s.onSplit (fun q => q.movedTo w false (s.now + 2))) g p w)) ∧
    (∃ g' p', (s.goOn n).actor = some (g', p') ∧
      p' = { p with pc := nextWord p.pc n, seq := true, issued := none, marked := none, fetched := p'.fetched, next := s.now + 1,
                    ready := false, since := none, waited := 0, overdue := none } ∧
      (p'.fetched = if (nextWord p.pc n).toNat / 128 = p.pc.toNat / 128 then p.fetched else none) ∧
      g' = { g with splits := g'.splits } ∧ (∀ q, q ≠ s.cur.place → FMap.get g'.splits q = FMap.get g.splits q)) ∧
    (∀ k v src, ∃ g' p', (s.holdWith k v src).actor = some (g', p') ∧ p' = { p with issued := some ⟨k, v, src⟩ } ∧
      g' = { g with splits := g'.splits } ∧ (∀ q, q ≠ s.cur.place → FMap.get g'.splits q = FMap.get g.splits q)) ∧
    (∀ t, t = s.goOn n ∨ (∃ k v src, t = s.holdWith k v src) ∨ (∃ d v, t = s.writeS p d v) →
      t = { s with groups := t.groups } ∧ (∀ x, x ≠ s.gid → FMap.get t.groups x = FMap.get s.groups x) ∧
      (∀ a, t.byteAt a = s.byteAt a))

/-- R15, R117: the word after word 31 of a line is word 2 of the next line; any other is the next word. -/
def Sys2Proof.Claims.SequentialFlowSkipsHeaders : Prop :=
  ∀ (pc : Word) (n : Nat), pc.toNat % 4 = 0 → 1 ≤ n → n ≤ 2 → wordIdx pc + n ≤ 32 →
    (wordIdx pc + n = 32 → nextWord pc n = pc + BitVec.ofNat 64 (4 * n + 8) ∧ wordIdx (nextWord pc n) = 2) ∧
    (wordIdx pc + n < 32 → nextWord pc n = pc + BitVec.ofNat 64 (4 * n) ∧ wordIdx (nextWord pc n) = wordIdx pc + n)

/-- R15, R37, R96, R117 to R120: what going to a word, going on and writing a scalar register do, and that sequential flow skips headers. -/
def Obligations.ProgramCounterAndSequentialFlow : Prop := Sys2Proof.Claims.MovingTheProgramCounter ∧ Sys2Proof.Claims.SequentialFlowSkipsHeaders

/-- R11, R16, R126, R127, R128, R129, R130, R133, R340: the words that push and complete tokens and divide a split. JSET
pushes a plain token with J, E and A; JOIN with nothing deferred above its token parks the split until the others have come,
and the last arrival goes on at J with mask E, once J has passed its check, alone or merged with a split parked there, at the place
of the one with the lowest lane; JBRK takes the split's lanes out of its token and branches; RET joins a call token that names its
target; BDIV goes on, branches or divides by T and F, each part under a tag of its own, with m = 1 as a marked branch; CALLV enters
each of its targets with a split of its own while places are free. The model's choice (log entry 18): the new split takes the lowest
free place of four, and lanes that have arrived at a token stay with the split that holds them (`copyStack` in `Split.beside`). -/
def Obligations.TokensAndDivision : Prop :=
  ∀ (s s' : State) (g : Group) (p : Split), s.actor = some (g, p) →
    (∀ o, MayJoinAt s g p (jumpTo p o) s' → p.stack.length < 16 →
      exec (.cJset o) s = .next ((s'.updGroup s'.gid (fun g =>
        { g with tokens := FMap.put g.tokens g.nextTok ⟨false, jumpTo p o, p.mask, 0, [], 0⟩, nextTok := g.nextTok + 1,
                 splits := FMap.upd g.splits s'.cur.place (fun q => { q with stack := .tok g.nextTok 0 :: q.stack }) })).goOn 1)) ∧
    (∀ t h low k, Settled p → p.stack = .tok t h :: low → FMap.get g.tokens t = some k → k.call = false →
      k.a ||| p.mask ≠ k.e →
      exec .cJoin s = .next ((s.putGroup s.gid
        { g with tokens := FMap.upd g.tokens t (fun k =>
                   { k with a := k.a ||| p.mask, tags := dedup (k.tags ++ p.tags), fenced := max k.fenced p.fenced }),
                 splits := FMap.upd g.splits s.cur.place (fun p =>
                   { p with parked := some t, issued := none, marked := none, ready := false }) }).preload s.gid)) ∧
    (∀ t h low k, Settled p → p.stack = .tok t h :: low → FMap.get g.tokens t = some k → k.call = false →
      k.a ||| p.mask = k.e → k.e ≠ 0 → low.length ≤ 16 → g.splits = [(s.cur.place, p)] → MayEnter s g p k.j s' →
      ∃ u g' p', exec .cJoin s = .next u ∧ u.actor = some (g', p') ∧ p'.pc = k.j ∧ p'.mask = k.e ∧ p'.parked = none ∧
        tokenRefs p'.stack = (tokenRefs low).filter (fun x => decide (x ≠ t)) ∧ FMap.get g'.tokens t = none ∧
        (∀ x, x ∈ p'.tags ↔ x ∈ p.tags ∨ x ∈ k.tags)) ∧
    (∀ t h low k o x h2 low2, Settled p → p.stack = .tok t h :: low → FMap.get g.tokens t = some k → k.call = false →
      k.a ||| p.mask = k.e → k.e ≠ 0 → o ≠ s.cur.place → x.parked = some t → x.stack = .tok t h2 :: low2 → x.sm = p.sm →
      low.length + low2.length ≤ 16 → FMap.wf g.splits = true →
      (g.splits = [(o, x), (s.cur.place, p)] ∨ g.splits = [(s.cur.place, p), (o, x)]) →
      MayEnter s g p k.j s' →
      ∃ u g' e, exec .cJoin s = .next u ∧ FMap.get u.groups s.gid = some g' ∧ g'.splits = [e] ∧ e.2.pc = k.j ∧ e.2.mask = k.e ∧
        e.2.parked = none ∧ FMap.get g'.tokens t = none ∧ (∀ y, y ∈ e.2.tags ↔ y ∈ p.tags ∨ y ∈ x.tags ∨ y ∈ k.tags) ∧
        (lowLane p.mask < lowLane x.mask → e.1 = s.cur.place) ∧ (lowLane x.mask < lowLane p.mask → e.1 = o)) ∧
    (∀ o t h low k, p.runsLeft = 0 → MayEnter s g p (jumpTo p o) s' → p.stack = .tok t h :: low →
      FMap.get g.tokens t = some k → k.call = false → k.e &&& ~~~p.mask ≠ k.a →
      exec (.cJbrk o) s = .next ((s'.putGroup s'.gid
        { g with tokens := FMap.upd g.tokens t (fun k => { k with e := k.e &&& ~~~p.mask }),
                 splits := FMap.upd g.splits s'.cur.place (fun q =>
                   { q.movedTo (jumpTo p o) false (s'.now + 2) with stack := low }) }).preload s'.gid)) ∧
    (∀ a t h low k, emptyS g p a = false → Settled p → p.stack = .tok t h :: low → FMap.get g.tokens t = some k →
      k.call = true → k.j = readS g p a → exec (.cRet a) s = .next (arriveAt s g p [] t h low)) ∧
    (∀ (n : BitVec 1) (r : BitVec 3) (m : BitVec 1) (o : BitVec 14) (T F : Lanes), Settled p →
      (∀ l, l < 32 → T.getLsbD l = (p.mask.getLsbD l && (g.getP r.toNat l != decide (n = 1)))) → F = p.mask &&& ~~~T →
      (T = 0 → exec (.cBdiv n r m o) s = .next (s.goOn 1)) ∧
      (T ≠ 0 → F = 0 → MayEnter s g p (jumpTo p o) s' →
        exec (.cBdiv n r m o) s = .next (if m = 1 then (s'.goTo (jumpTo p o)).mark s'.gid s'.cur.place (jumpTo p o)
          else s'.goTo (jumpTo p o))) ∧
      (∀ t, T ≠ 0 → F ≠ 0 → MayEnter s g p (jumpTo p o) s' → g.handler = none → g.splits.length < 4 →
        t = (s'.updGroup s'.gid (fun x =>
          { x with splits := FMap.put x.splits (FMap.free g.splits 4 0)
                     ((p.beside (s'.now + 2) (jumpTo p o) T).retag g.nextTag (s'.liveTags s'.gid g p.tags)),
                   nextTag := x.nextTag + 2 })).onSplit
            (fun q => { (q.movedTo (nextWord q.pc 1) true (s'.now + 2)).retag (g.nextTag + 1) (s'.liveTags s'.gid g p.tags) with
                        mask := F }) →
        exec (.cBdiv n r m o) s = .next ((if m = 1 then t.mark s'.gid (FMap.free g.splits 4 0) (jumpTo p o) else t).preload s'.gid)) ∧
      (T ≠ 0 → F ≠ 0 → MayEnter s g p (jumpTo p o) s' → g.splits.length = 4 → p.stack.length < 16 →
        exec (.cBdiv n r m o) s = .next ((s'.onSplit (fun q =>
          { q with stack := .deferred (nextWord p.pc 1) F false :: p.stack, mask := T })).goTo (jumpTo p o)))) ∧
    (∀ a u, emptyS g p 63 = false → s.unitOf g = some u → a.toNat < u.vregs → Settled p → vReady g a.toNat p.mask = true →
      checkCalls s.cur.core (s.asidOf g) (s.codeFrom g) u.vregs u.priv p.user (nextWord p.pc 1) (callTargets g p a.toNat) s = (s', none) →
      (callTargets g p a.toNat).length = 1 → p.stack.length < 16 → (∀ l, l < 32 → FMap.rd false g.vBad (32 * a.toNat + l) = false) →
      ∃ t g' p', exec (.cCallv a) s = .next t ∧ t.actor = some (g', p') ∧
        some (p'.pc, p'.mask) = (callTargets g p a.toNat).head? ∧ p'.seq = false ∧
        readS g' p' 63 = nextWord p.pc 1 ∧ p'.stack = .tok g.nextTok 0 :: p.stack ∧ p'.parked = p.parked ∧
        FMap.get g'.tokens g.nextTok = some ⟨true, nextWord p.pc 1, p.mask, 0, [], 0⟩ ∧
        (∀ q, q ≠ s.cur.place → (FMap.get g'.splits q).map unfetched = (FMap.get g.splits q).map unfetched)) ∧
    (∀ a u, emptyS g p 63 = false → s.unitOf g = some u → a.toNat < u.vregs → Settled p → vReady g a.toNat p.mask = true →
      checkCalls s.cur.core (s.asidOf g) (s.codeFrom g) u.vregs u.priv p.user (nextWord p.pc 1) (callTargets g p a.toNat) s = (s', none) →
      g.handler = none → (callTargets g p a.toNat).length + g.splits.length ≤ 5 → p.stack.length < 16 →
      (∀ l, l < 32 → FMap.rd false g.vBad (32 * a.toNat + l) = false) →
      ∃ t g', exec (.cCallv a) s = .next t ∧ FMap.get t.groups s.gid = some g' ∧
        FMap.get g'.tokens g.nextTok = some ⟨true, nextWord p.pc 1, p.mask, 0, [], 0⟩ ∧
        (∀ w ∈ callTargets g p a.toNat, ∃ place q, FMap.get g'.splits place = some q ∧ (place = s.cur.place ∨ FMap.get g.splits place = none) ∧
          q.pc = w.1 ∧ q.mask = w.2 ∧ q.seq = false ∧ readS g' q 63 = nextWord p.pc 1 ∧ q.sm = p.sm ∧
          tokenRefs q.stack = g.nextTok :: tokenRefs p.stack))

namespace Sys2Proof.Claims

open Sys2Proof.Machine

/-- Register `d` takes `v` and the split goes on at the next word. -/
def answered (s : State) (p : Split) (d : BitVec 6) (v : Word) : State := (s.writeS p d v).goOn 1

/-- A run made of `bits` and trailer `t` for the acting split: its place, its active set, its snapshot of S56 to S59 and
its mode (R21, R23, R30). -/
structure IsRun (r : Run) (g : Group) (p : Split) (line slot : Nat) (bits : List LBits) (t : Nat) : Prop where
  place : r.line = line ∧ r.slot = slot
  snapshot : ∀ i, i < 4 → FMap.rd 0 r.q i = getS g p (56 + i) p.sm
  todo : r.todo.map (·.bits) = bits
  order : r.todo.map (·.idx) = List.range bits.length
  quad : r.qd = (fieldAt t 29 1 = 1 : Bool)
  pair : r.np = (fieldAt t 28 1 = 1 : Bool)
  mode : r.sup = p.sm
  fresh : r.t = [] ∧ r.suspended = false ∧ r.latch = none

end Sys2Proof.Claims

open Sys2Proof Sys2Proof.Machine Sys2Proof.Claims

/-- R23, R30, R41, R123, R124: RUN queues the checked run with the split's mask, RUNP with the lanes of it whose predicate
is 1; a run that fails its checks traps; WAITF waits for the split's runs and for the accesses of its runs, with a register
also for it. -/
def Sys2Proof.Claims.RunsAndTheirWaits : Prop :=
  ∀ (s s' : State) (g : Group) (p : Split) (u : UnitRec) (l : Launch), s.actor = some (g, p) → s.unitOf g = some u →
    s.launchOf u = some l →
    (∀ (line : BitVec 18) (slot : BitVec 4) (bits : List LBits) (t : Nat), runHeld g p = false → u.twin = none →
      s.checkRun s.cur.core (s.asidOf g) (s.codeFrom g) p.user l.lcbase u.vregs line.toNat slot.toNat = (s', .ok (bits, t)) →
      ∃ r, IsRun r g p line.toNat slot.toNat bits t ∧ r.active = p.mask ∧ r.dove = none ∧
        exec (.cRun line slot) s = .next ((s'.onSplit (fun q => { q with runq := q.runq ++ [r] })).goOn 1)) ∧
    (∀ (n : BitVec 3) (line : BitVec 17) (slot : BitVec 4) (bits : List LBits) (t : Nat), runHeld g p = false →
      p.runsLeft = 0 → u.twin = none →
      s.checkRun s.cur.core (s.asidOf g) (s.codeFrom g) p.user l.lcbase u.vregs line.toNat slot.toNat = (s', .ok (bits, t)) →
      ∃ r, IsRun r g p line.toNat slot.toNat bits t ∧ r.dove = none ∧
        (∀ k, k < 32 → r.active.getLsbD k = (p.mask.getLsbD k && g.getP n.toNat k)) ∧
        exec (.cRunp n line slot) s = .next ((s'.onSplit (fun q => { q with runq := q.runq ++ [r] })).goOn 1)) ∧
    (∀ (line : BitVec 18) (slot : BitVec 4) (c : Nat) (v : Word), runHeld g p = false →
      s.checkRun s.cur.core (s.asidOf g) (s.codeFrom g) p.user l.lcbase u.vregs line.toNat slot.toNat = (s', .error (c, v)) →
      exec (.cRun line slot) s = .next (s'.trap c v)) ∧
    (s.lanesDrained g p = true → exec .cWaitf s = .next (s.goOn 1)) ∧
    (s.lanesDrained g p = false → exec .cWaitf s = .next (s.hold 0 0)) ∧
    (∀ a : BitVec 6, a.toNat < u.vregs → s.lanesDrained g p = true → vReady g a.toNat p.mask = true →
      exec (.cWaitfV a) s = .next (s.goOn 1)) ∧
    (∀ a : BitVec 6, u.vregs ≤ a.toNat → exec (.cWaitfV a) s = .next (s.trap cILLEGAL 0))

/-- R18, R21, R22: a run that passes its checks stands at a START bit (and, for user mode, an ENTRY bit) of one of a
line's ten slots, has 1 to 24 instructions, all of which decode and name no V register beyond the cut, and its trailer
counts them. -/
def Sys2Proof.Claims.CheckedRunsKeepTheRunRules : Prop :=
  ∀ (s s' : State) (core asid since : Nat) (user : Bool) (lcbase : Word) (vregs line slot : Nat) (bits : List LBits) (t : Nat),
    s.checkRun core asid since user lcbase vregs line slot = (s', .ok (bits, t)) →
    slot < 10 ∧ 1 ≤ bits.length ∧ bits.length ≤ 24 ∧ fieldAt t 81 5 = bits.length ∧ fieldAt t 86 10 = 0x3FF ∧
    fieldAt t 0 28 = 0 ∧ fieldAt t 78 3 ≠ 7 ∧
    (∀ b ∈ bits, ∃ i, decodeLane b.toNat = some i ∧ fieldAt b.toNat 86 10 ≠ 0x3FF) ∧
    (∀ i ∈ bits.filterMap (fun b => decodeLane b.toNat), ∀ n ∈ (usesOf false i).srcs.map (·.1) ++ (usesOf false i).dsts,
      n < 232 → n < vregs ∨ (user = false ∧ 216 ≤ n)) ∧
    ∃ s1 bytes, s.fetchLine core asid since user (lcbase + BitVec.ofNat 64 (128 * line)) = (s1, .ok bytes) ∧
      bitOf (headerOf bytes) slot = true ∧ (user = true → bitOf (headerOf bytes) (16 + slot) = true) ∧
      lcodeBad (headerOf bytes) = false

/-- R18, R21 to R23, R30, R41, R123, R124: RUN checks and queues a run, the waits that concern runs, and what every checked run keeps. -/
def Obligations.RunsAreCheckedQueuedAndAwaited : Prop := Sys2Proof.Claims.RunsAndTheirWaits ∧ Sys2Proof.Claims.CheckedRunsKeepTheRunRules

/-- R99, R106, R107, R108: the scalar memory words issue one 8-byte access at S[a] + 8 × offset (SATOM at S[a]), or take
the access's fault (SST and SATOM with the sources that the word read at its issue); a load leaves its destination empty until its result lands; SFROM waits for its lane value. -/
def Obligations.ScalarMemoryAccess : Prop :=
  ∀ (s s' : State) (g : Group) (p : Split) (d a b : BitVec 6) (o : BitVec 12) (leaf va : Word) (loc : Nat),
    (Free s g p [a] d → g.replayFull = false → va = readS g p a + BitVec.ofInt 64 (8 * o.toInt) → va.toNat % 8 = 0 →
      translate s s.cur.core (s.asidOf g) va.toNat .read p.user = (s', .ok (leaf, loc)) → s'.scalarWait leaf va.toNat = false →
      ∃ t g' p', exec (.cSld d a o) s = .next t ∧ t.actor = some (g', p') ∧ p'.pc = nextWord p.pc 1 ∧
        emptyS g' p' d = decide (d ≠ 0) ∧ t.mem = s'.mem ∧
        t = scalarSend (.cSld d a o) d 0 va (readS g p a) 0 (.load []) p s' leaf loc) ∧
    (Free s g p [a, d] 0 → va = sourceAt g p 0 a + BitVec.ofInt 64 (8 * o.toInt) → va.toNat % 8 = 0 → s'.doveTwin s.gid = none →
      translate s s.cur.core (s.asidOf g) va.toNat .write p.user = (s', .ok (leaf, loc)) → s'.scalarWait leaf va.toNat = false →
      exec (.cSst d a o) s = .next ((s'.issueAll s.gid s.cur.place none ⟨p.dslack.toNat, 0, 0, false, 0⟩
        [⟨32, 0, va.toNat, loc, leaf, 8, .store (sourceAt g p 1 d)⟩]).goOn 1)) ∧
    (∀ (r : BitVec 2) (k : BitVec 4), Free s g p [a, b] d → g.replayFull = false → (2 ≤ r.toNat → s.drained g p = true) →
      va = sourceAt g p 0 a → va.toNat % 8 = 0 → s'.doveTwin s.gid = none →
      translate s s.cur.core (s.asidOf g) va.toNat .write p.user = (s', .ok (leaf, loc)) →
      s'.scalarWait leaf va.toNat = false →
      ∃ t g' p', exec (.cSatom d a b r k) s = .next t ∧ t.actor = some (g', p') ∧ p'.pc = nextWord p.pc 1 ∧
        emptyS g' p' d = decide (d ≠ 0) ∧ t.mem = s'.mem ∧
        t = scalarSend (.cSatom d a b r k) d r.toNat va va (sourceAt g p 1 b)
          (.atomic (satomOp k.toNat).1 (satomOp k.toNat).2 (sourceAt g p 1 b) (sourceAt g p 2 d)) p s' leaf loc) ∧
    (∀ (u : UnitRec), Free s g p [b] d → g.replayFull = false → s.unitOf g = some u → a.toNat < u.vregs →
      ∃ t g' p', exec (.cSfrom d a b) s = .next t ∧ t.actor = some (g', p') ∧ p'.pc = nextWord p.pc 1 ∧
        emptyS g' p' d = decide (d ≠ 0) ∧ t = { s with groups := t.groups }) ∧
    (∀ (u : UnitRec), Free s g p [] d → g.replayFull = false → s.unitOf g = some u → a.toNat < u.vregs →
      ∃ t g' p', exec (.cSfromFirst d a) s = .next t ∧ t.actor = some (g', p') ∧ p'.pc = nextWord p.pc 1 ∧
        emptyS g' p' d = decide (d ≠ 0) ∧ t = { s with groups := t.groups }) ∧
    (Free s g p [a] d → g.replayFull = false → va = readS g p a + BitVec.ofInt 64 (8 * o.toInt) → va.toNat % 8 ≠ 0 →
      exec (.cSld d a o) s = .next (s.trap cMISALIGN va)) ∧
    (∀ c, Free s g p [a] d → g.replayFull = false → va = readS g p a + BitVec.ofInt 64 (8 * o.toInt) → va.toNat % 8 = 0 →
      translate s s.cur.core (s.asidOf g) va.toNat .read p.user = (s', .error c) →
      exec (.cSld d a o) s = .next (s'.trap c va))

/-- R109 to R112: XLAT fills an X register with the limit, the address and the leaf, or LIM 0 where the access would
fault; XFREE leaves 0 in every bit; a read of another X register is unchanged. -/
def Sys2Proof.Claims.TranslationRegisters : Prop :=
  ∀ (s s' : State) (g : Group) (p : Split) (d a b : BitVec 6) (leaf : Word) (loc : Nat), s.actor = some (g, p) →
    g.splits.length = 1 →
    (∀ (w : Bool), emptyS g p a = false → emptyS g p b = false →
      translate s s.cur.core (s.asidOf g) (readS g p a).toNat (if w then .write else .read) p.user = (s', .ok (leaf, loc)) →
      exec (if w then .cXlatW d a b else .cXlat d a b) s = .next ((s'.updGroup s.gid (fun g => g.setX d.toNat
        ⟨BitVec.ofNat 32 (if (readS g p b).toNat = 0 then pageBytes leaf - (readS g p a).toNat % pageBytes leaf
           else min (readS g p b).toNat (pageBytes leaf - (readS g p a).toNat % pageBytes leaf)),
         readS g p a, leaf⟩)).goOn 1)) ∧
    (∀ (w : Bool) c, emptyS g p a = false → emptyS g p b = false →
      translate s s.cur.core (s.asidOf g) (readS g p a).toNat (if w then .write else .read) p.user = (s', .error c) →
      exec (if w then .cXlatW d a b else .cXlat d a b) s =
        .next ((s.updGroup s.gid (fun g => g.setX d.toNat ⟨0, readS g p a, 0⟩)).goOn 1)) ∧
    exec (.cXfree d) s = .next ((s.updGroup s.gid (fun g => g.setX d.toNat ⟨0, 0, 0⟩)).goOn 1) ∧
    (∀ x n, (g.setX d.toNat x).getX n = if n = d.toNat then x else g.getX n)

/-- R113 to R116: prefetches fill the home slice and, for .l1, the L1, and do nothing where a read would fault; PIN and
UNPIN answer their status and count (a prefetched line stands in the L1 as read by no one yet, log entry 99); GUESTINV drops every guest line of the core's sector. -/
def Sys2Proof.Claims.CacheControls : Prop :=
  ∀ (s : State) (g : Group) (p : Split) (d a b : BitVec 6) (i : BitVec 12), s.actor = some (g, p) →
    emptyS g p a = false →
    (∀ va c, va = (readS g p a + BitVec.ofInt 64 i.toInt).toNat →
      s.probe s.cur.core (s.asidOf g) va .read p.user = .error c →
      exec (.cPrefL2 a i) s = .next (s.goOn 1) ∧ exec (.cPrefL1 a i) s = .next (s.goOn 1)) ∧
    (∀ va leaf loc, va = (readS g p a + BitVec.ofInt 64 i.toInt).toNat →
      s.probe s.cur.core (s.asidOf g) va .read p.user = .ok (leaf, loc) → leafPeer leaf = 0 → backed loc = true →
      exec (.cPrefL2 a i) s = .next ((s.prefetchL2 (s.asidOf g) (s.partOf g) loc).goOn 1) ∧
      exec (.cPrefL1 a i) s = .next ((if accessKind leaf va ≠ 1 ∧ inHbm loc then
        (s.prefetchL2 (s.asidOf g) (s.partOf g) loc).fillL1 s.cur.core loc (decide (accessKind leaf va = 2))
          ((s.prefetchL2 (s.asidOf g) (s.partOf g) loc).relOfLine (loc / 128))
        else s.prefetchL2 (s.asidOf g) (s.partOf g) loc).goOn 1)) ∧
    (Free s g p [a, b] d →
      ((readS g p b).toNat = 0 ∨ 2 ^ 24 < (readS g p b).toNat → exec (.cPin d a b) s = .next (answered s p d 5)) ∧
      (∀ st locs, pinStatus s s.cur.core (s.asidOf g) (readS g p a).toNat (readS g p b).toNat p.user = (st, locs) →
        st ≤ 5 ∧ (st ≠ 0 → locs = []) ∧
        exec (.cPin d a b) s = .next (answered (locs.foldl (fun s loc =>
          (s.prefetchL2 (s.asidOf g) (s.partOf g) loc).updHomeLine loc
            (fun l => { l with pin := some (s.asidOf g) })) s) p d (BitVec.ofNat 64 st))) ∧
      (2 ^ 24 < (readS g p b).toNat → exec (.cUnpin d a b) s = .next (answered s p d (BitVec.allOnes 64))) ∧
      ((readS g p b).toNat = 0 → exec (.cUnpin d a b) s = .next (answered s p d 0)) ∧
      (∀ locs, 0 < (readS g p b).toNat → (readS g p b).toNat ≤ 2 ^ 24 →
        locs = dedup ((rangeLines (readS g p a).toNat (readS g p b).toNat).filterMap (fun va =>
          match s.probe s.cur.core (s.asidOf g) va .read false with
          | .ok (_, loc) => if s.pinOf loc = some (s.asidOf g) then some loc else none
          | .error _ => none)) →
        exec (.cUnpin d a b) s = .next (answered (locs.foldl (fun s loc =>
          s.updHomeLine loc (fun l => { l with pin := none })) s) p d (BitVec.ofNat 64 locs.length)))) ∧
    exec .cGuestinv s = .next ((s.dropGuests (sectorOf s.cur.core)).goOn 1) ∧
    (FMap.wf s.l2 = true → ∀ sector slice set, set < 2048 → (s.dropGuests sector).l2Set slice set =
      if sectorOfSlice slice = sector then (s.l2Set slice set).filter (fun l => !l.guest) else s.l2Set slice set)

/-- R109 to R116: X registers and their release, prefetches, pins and guest lines. -/
def Obligations.TranslationsAndCacheControls : Prop := Sys2Proof.Claims.TranslationRegisters ∧ Sys2Proof.Claims.CacheControls

namespace Sys2Proof.Claims

open Sys2Proof.Machine

/-- LAUNCH of a level: 0 a launch, 1 a graph, 2 a phase. -/
def launchWord (level : Nat) (d a b : BitVec 6) : Instr :=
  match level with
  | 0 => .cLaunch d a b
  | 1 => .cLaunchGraph d a b
  | _ => .cLaunchPhase d a b

/-- CANCEL of a level: 0 a launch, 1 a graph, 2 a phase, 3 the job. -/
def cancelWord (level : Nat) (d a : BitVec 6) : Instr :=
  match level with
  | 0 => .cCancel d a
  | 1 => .cCancelGraph d a
  | 2 => .cCancelPhase d a
  | _ => .cCancelJob d a

/-- The launches that a cancel of a launch `h` names at a level (R141). -/
def Named (level h : Nat) (t l : Launch) (key : Nat) : Prop :=
  l.job = t.job ∧ (level = 0 → key = h) ∧ (level = 1 → l.phase = t.phase ∧ l.graph = t.graph) ∧ (level = 2 → l.phase = t.phase)

/-- How a fence of kind `k` over the storages `p` and `g` goes on: it acquires but for .rel, and a release over memory marks
the split's later writes (R144, R346). -/
def fenced (k : BitVec 2) (p g : BitVec 1) (sc : BitVec 3) (drain : Bool) (s : State) : State :=
  let t := if k = 2 then s else s.acquire sc.toNat (decide (g = 1)) drain
  (if k ≠ 1 ∧ (g = 1 ∨ p = 1) then t.onSplit (fun q => { q with fenced := max q.fenced (if g = 1 then sc.toNat + 1 else 1) }) else t).goOn 1

end Sys2Proof.Claims

open Sys2Proof Sys2Proof.Machine Sys2Proof.Claims

/-- R138, R262, R266: LAUNCH at each level reads the record in a user access, refuses with the codes of the table, and else accepts
the launch in its phase and graph, behind its predecessor where level 0 names one of the same graph, a persistent one with its cores
reserved, and answers its handle; in a cancelled graph, phase or job the launch is cancelled. The model's choice (log entry 26): the
checks go in the order record, entry, predecessor, handles, places. -/
def Obligations.LaunchesAreAcceptedOrRefused : Prop :=
  ∀ (level : Nat) (s s1 s2 : State) (g : Group) (p : Split) (d a b : BitVec 6) (u : UnitRec) (me : Launch) (j : Job)
    (bs : List Byte), level ≤ 2 → Free s g p [a, b] d →
    s.readWaits s.gid s.cur.place (s.asidOf g) p.user (readS g p a).toNat 64 = false →
    s.readVa s.cur.core (s.asidOf g) p.user 3 (readS g p a).toNat 64 = (s1, .ok (bs, false)) → s.unitOf g = some u →
    s1.launchOf u = some me → s1.jobOfGroup g = some j →
    (recordOk (readS g p a) bs = false →
      exec (launchWord level d a b) s = .next (answered s1 p d (BitVec.ofNat 64 (2 ^ 63 + 2)))) ∧
    (recordOk (readS g p a) bs = true → ∀ l, l = recordLaunch bs me.job 0 0 0 none →
      s1.checkEntry s.cur.core (s.asidOf g) s1.stores p.user l.cut l.entryVa = (s2, none) →
      (level ≠ 0 → readS g p b ≠ 0 →
        exec (launchWord level d a b) s = .next (answered s2 p d (BitVec.ofNat 64 (2 ^ 63 + 4)))) ∧
      (readS g p b = 0 → 4096 ≤ s2.openLaunches j.part →
        exec (launchWord level d a b) s = .next (answered s2 p d (BitVec.ofNat 64 (2 ^ 63 + 3)))) ∧
      (readS g p b = 0 → s2.openLaunches j.part < 4096 → l.pers = true → s2.reserveAll j.part l = none →
        exec (launchWord level d a b) s = .next (answered s2 p d (BitVec.ofNat 64 (2 ^ 63 + 1)))) ∧
      (level = 0 → readS g p b ≠ 0 → (∀ q, FMap.get s2.launches (readS g p b).toNat = some q →
          ¬(q.job = me.job ∧ q.phase = me.phase ∧ q.graph = me.graph)) →
        exec (launchWord level d a b) s = .next (answered s2 p d (BitVec.ofNat 64 (2 ^ 63 + 4)))) ∧
      (∀ res, (readS g p b = 0 ∨ (level = 0 ∧ ∃ q, FMap.get s2.launches (readS g p b).toNat = some q ∧
          q.job = me.job ∧ q.phase = me.phase ∧ q.graph = me.graph)) →
        s2.openLaunches j.part < 4096 → (l.pers = true → s2.reserveAll j.part l = some res) → (l.pers = false → res = []) →
        ∃ (l' : Launch) (j' : Job),
          exec (launchWord level d a b) s = .next (answered (({ s2 with jobs := FMap.put s2.jobs me.job j' }).accept l').1 p d
            (BitVec.ofNat 64 (({ s2 with jobs := FMap.put s2.jobs me.job j' }).accept l').2)) ∧
          l' = { l with phase := l'.phase, graph := l'.graph, cancelled := l'.cancelled, mark := l'.cancelled, reserved := res,
                        pred := if (readS g p b).toNat = 0 then none else some (readS g p b).toNat } ∧
          (l'.cancelled = true ↔ j.cancelled = true ∨ (l'.phase, l'.graph) ∈ j.levels ∨ (l'.phase, wholePhase) ∈ j.levels) ∧
          (level = 0 → l'.phase = me.phase ∧ l'.graph = me.graph ∧ j' = j) ∧
          (level = 1 → l'.phase = me.phase ∧ l'.graph = FMap.rd 1 j.graphs me.phase ∧
            FMap.rd 1 j'.graphs me.phase = FMap.rd 1 j.graphs me.phase + 1 ∧ j'.phases = j.phases) ∧
          (level = 2 → l'.phase = j.phases ∧ l'.graph = 0 ∧ j'.phases = j.phases + 1)))

/-- R121, R139, R140, R408: SPAWN starts a group in a free index and spawn slot of the unit's core with its argument in S48, and
answers the index, or all ones where there is no room; TRIGGER marks the group, goes on at once and leaves its signal to the
accesses before it; EXIT (log entry 19) waits for the split's runs and accesses, and the last split's EXIT ends the group. -/
def Sys2Proof.Claims.GroupsBeginAndEnd : Prop :=
  ∀ (s s' : State) (g : Group) (p : Split) (d a : BitVec 6) (i : BitVec 12) (u : UnitRec), s.actor = some (g, p) →
    s.unitOf g = some u →
    (Free s g p [a] d →
      s.checkCall s.cur.core (s.asidOf g) (s.codeFrom g) u.vregs u.priv p.user true none (spawnEntry p i) = (s', none) →
      (∀ n k, s'.spawnRoom s.cur.core g.uid u = some (n, k) →
        u.groups < 16 ∧ n < 16 ∧ 56 ≤ k ∧ k < 64 ∧ FMap.get s'.groups (gidOf s.cur.core k) = none ∧
        ∃ new, exec (.cSpawn d a i) s = .next (answered (s'.addSpawned s.cur.core k g.uid new) p d (BitVec.ofNat 64 n)) ∧
          new.uid = g.uid ∧ new.idx = n ∧ new.spawned = true ∧ new.mode = g.mode ∧ new.slktab = g.slktab ∧
          ∃ q, FMap.get new.splits 0 = some q ∧ q.pc = spawnEntry p i ∧ q.sm = false ∧ q.dslack = p.dslack ∧
            FMap.rd 0 q.s 48 = readS g p a) ∧
      ((16 ≤ u.groups ∨ ∀ k, 56 ≤ k → k < 64 → (FMap.get s'.groups (gidOf s.cur.core k)).isSome = true) →
        exec (.cSpawn d a i) s = .next (answered s' p d (BitVec.allOnes 64)))) ∧
    (g.triggered = true → exec .cTrigger s = .next (s.goOn 1)) ∧
    (g.triggered = false → exec .cTrigger s = .next (((s.updGroup s.gid (fun g =>
      { g with triggered := true, signal := some ⟨s.cur.place, p.sm, p.runsLeft, p.tags, none⟩ })).settleSignal s.gid).goOn 1)) ∧
    (p.runsLeft ≠ 0 ∨ s.outstanding s.gid s.cur.place = true → exec .cExit s = .next (s.hold 0 0)) ∧
    (p.runsLeft = 0 → s.outstanding s.gid s.cur.place = false → g.splits = [(s.cur.place, p)] → p.stack = [] →
      g.handler = none → s.copying s.gid (fun _ => true) = false → (∀ e ∈ s.rays, e.2.gid ≠ s.gid) →
      ∃ (t : State) (g' : Group), exec .cExit s = .next (t.endGroup s.gid) ∧ t = { s with groups := t.groups } ∧
        FMap.get t.groups s.gid = some g' ∧ g'.splits = [] ∧ g'.uid = g.uid ∧
        (∀ x, x ≠ s.gid → FMap.get t.groups x = FMap.get s.groups x))

/-- R141: CANCEL of a launch that is unknown or another job's answers 2, of completed launches 1; else it cancels every
launch it names and their groups, and answers 0 once they have ended. -/
def Sys2Proof.Claims.CancelEndsWhatItNames : Prop :=
  ∀ (level : Nat) (s : State) (g : Group) (p : Split) (d a : BitVec 6) (u : UnitRec) (l : Launch), level ≤ 3 →
    Free s g p [a] d → p.issued = none → s.unitOf g = some u → s.launchOf u = some l →
    (FMap.get s.launches (readS g p a).toNat = none → exec (cancelWord level d a) s = .next (answered s p d 2)) ∧
    (∀ t, FMap.get s.launches (readS g p a).toNat = some t →
      (t.job ≠ l.job → exec (cancelWord level d a) s = .next (answered s p d 2)) ∧
      (t.job = l.job → ∃ keys : List Nat,
        (∀ k, k ∈ keys ↔ ∃ x, (k, x) ∈ s.launches ∧ Named level (readS g p a).toNat t x k) ∧
        ((∀ k ∈ keys, ∀ x, FMap.get s.launches k = some x → x.done = true) →
          exec (cancelWord level d a) s = .next (answered s p d 1)) ∧
        (∀ k x, k ∈ keys → FMap.get s.launches k = some x → x.done = false →
          ∀ s1, s1 = s.cancelLaunches keys (cancelLevel level t) (decide (level = 3)) t.job (some s.gid) →
          (∀ n x y, FMap.wf s.launches = true → n ∈ keys → FMap.get s.launches n = some x → x.done = false →
            FMap.get s1.launches n = some y → y.cancelled = true) ∧
          ((s1.groups.any (fun e => decide (e.1 ≠ s.gid) && s1.inLaunches keys e.2)) = true →
            exec (cancelWord level d a) s = .next (s1.holdWith cancelWait 0 [readS g p a])) ∧
          ((s1.groups.any (fun e => decide (e.1 ≠ s.gid) && s1.inLaunches keys e.2)) = false →
            exec (cancelWord level d a) s = .next (if keys.contains u.launch
              then (answered s1 p d 0).updGroup s1.gid Group.cancelDue else answered s1 p d 0)))))

/-- R121, R139 to R141: SPAWN, TRIGGER, EXIT and CANCEL. -/
def Obligations.GroupsBeginEndAndAreCancelled : Prop := Sys2Proof.Claims.GroupsBeginAndEnd ∧ Sys2Proof.Claims.CancelEndsWhatItNames

/-- R7, R142, R143, R349, R380: a barrier's split arrives once its accesses are performed and goes on when the instance completes, which
it does at once where every other lane has arrived; ARRIVE
adds to an object's count of 24 bits (R7), which at the expected count returns to 0 and advances the phase, and answers the phase that it
met; AWAIT goes on when the phase has moved and no acquire of its control stream has still to read. The model's choice (log entry 19):
the barrier waits for every access of the split. -/
def Sys2Proof.Claims.BarriersAndBarrierObjects : Prop :=
  ∀ (s : State) (g : Group) (p : Split) (d a b : BitVec 6) (u : UnitRec), s.actor = some (g, p) → s.unitOf g = some u →
    (p.issued = none → hasDeferred p.stack = false → s.drained g p = true →
      ((s.arriveBarrier false g p.mask).instance_ false g ≠ s.instance_ false g →
        exec .cBaru s = .next (((s.arriveBarrier false g p.mask).acquire 1 true false).goOn 1)) ∧
      ((s.arriveBarrier false g p.mask).instance_ false g = s.instance_ false g →
        exec .cBaru s = .next ((s.arriveBarrier false g p.mask).hold 1 (s.instance_ false g))) ∧
      (∀ l, s.launchOf u = some l → l.pers = true →
        ((s.arriveBarrier true g p.mask).instance_ true g ≠ s.instance_ true g →
          exec .cBarg s = .next (((s.arriveBarrier true g p.mask).acquire 4 true false).goOn 1)) ∧
        ((s.arriveBarrier true g p.mask).instance_ true g = s.instance_ true g →
          exec .cBarg s = .next ((s.arriveBarrier true g p.mask).hold 1 (s.instance_ true g)))) ∧
      (∀ l, s.launchOf u = some l → l.pers = false → exec .cBarg s = .next (s.trap cILLEGAL 0)) ∧
      (u.twin = none → (∀ e ∈ s.groups, e.2.uid = g.uid →
          e.2.alive &&& ~~~(FMap.rd 0 u.baruArr e.1 ||| if e.1 = s.gid then p.mask else 0) = 0) →
        exec .cBaru s = .next (((s.updUnit g.uid (fun u => { u with baru := u.baru + 1, baruArr := [] })).acquire 1 true false).goOn 1)) ∧
      (∀ l s1, s.launchOf u = some l → l.pers = true →
        s1 = s.updUnit g.uid (fun u => { u with bargArr := FMap.put u.bargArr s.gid (FMap.rd 0 u.bargArr s.gid ||| p.mask) }) →
        (∀ e ∈ s1.unitsOf u.launch, s1.allArrived e.1 e.2.bargArr = true) →
        exec .cBarg s = .next (({ s1 with
          units := (s1.unitsOf u.launch).foldl (fun (m : FMap UnitRec) (e : Nat × UnitRec) => FMap.upd m e.1 (fun (u : UnitRec) => { u with bargArr := [] })) s1.units,
          launches := FMap.upd s1.launches u.launch (fun (l : Launch) => { l with barg := l.barg + 1 }) }.acquire 4 true false).goOn 1))) ∧
    (∀ v src, p.issued = some ⟨1, v, src⟩ →
      (s.instance_ false g = v → exec .cBaru s = .next s) ∧
      (s.instance_ false g ≠ v → exec .cBaru s = .next ((s.acquire 1 true false).goOn 1))) ∧
    (∀ (o n : Nat) (old : Word), Free s g p [a, b] d → p.issued = none → o = (readS g p a).toNat → n = (readS g p b).toNat → o % 8 = 0 →
      o + 8 ≤ u.scrSize → 0 < n → n < 2 ^ 24 → s.drained g p = true → u.scrBad o 8 = false →
      old = BitVec.ofNat 64 (u.scrAt o 8) → fld old 0 24 ≠ 0 →
      ∃ (new : Word) (u' : UnitRec), exec (.cArrive d a b) s = .next (answered (s.updUnit g.uid (fun _ => u')) p d (BitVec.ofNat 64 (fld old 48 16))) ∧
        u' = { u with scratch := u'.scratch } ∧ u'.scrAt o 8 = new.toNat ∧
        (∀ q, q < o ∨ o + 8 ≤ q → FMap.rd 0 u'.scratch q = FMap.rd 0 u.scratch q) ∧
        fld new 0 24 = fld old 0 24 ∧
        ((fld old 24 24 + n) % 2 ^ 24 < fld old 0 24 →
          fld new 24 24 = (fld old 24 24 + n) % 2 ^ 24 ∧ fld new 48 16 = fld old 48 16) ∧
        (fld old 0 24 ≤ (fld old 24 24 + n) % 2 ^ 24 → fld new 24 24 = 0 ∧ fld new 48 16 = (fld old 48 16 + 1) % 2 ^ 16)) ∧
    (∀ (o : Nat), p.issued = none → emptyS g p a = false → emptyS g p b = false → o = (readS g p a).toNat → o % 8 = 0 → o + 8 ≤ u.scrSize →
      (fld (u.scrWord o) 48 16 ≠ fld (readS g p b) 0 16 → s.wordAcquires s.gid s.cur.place = false → u.scrBad o 8 = false →
        exec (.cAwait a b) s = .next ((s.acquire 1 true false).goOn 1)) ∧
      (fld (u.scrWord o) 48 16 = fld (readS g p b) 0 16 ∨ s.wordAcquires s.gid s.cur.place = true → exec (.cAwait a b) s = .next (s.holdWith 0 0 [readS g p a, readS g p b])))

/-- R116, R144, R303, R304, R308, R346, R351: a fence goes on once the split's runs and accesses are done; .drain first writes the
buffered UO lines of the core and waits for them; an acquire at scope clu or wider that covers storage g leaves only UO lines in the
L1, one with .drain none; an acquire of scope die, dev or sys drops every guest line of the core's sector and no other line of the
L2, a narrower one drops nothing there; a release that covers memory marks the split's later writes with its scope. -/
def Sys2Proof.Claims.FencesWaitAndAcquire : Prop :=
  ∀ (s : State) (gr : Group) (p : Split) (k : BitVec 2) (pp gg ll : BitVec 1) (sc : BitVec 3),
    s.actor = some (gr, p) → p.issued = none →
    (s.drained gr p = false → ∀ r, exec (.cFence r k pp gg ll sc) s = .next (s.hold 0 0)) ∧
    (s.drained gr p = true →
      exec (.cFence 0 k pp gg ll sc) s = .next (fenced k pp gg sc false s) ∧
      (∀ s1, s1 = s.uoDrain s.gid p.tag s.cur.core p.dslack.toNat →
        (s1.core s.cur.core).uo = [] ∧
        (s1.uoOutstanding s.gid s.cur.place = true → exec (.cFence 1 k pp gg ll sc) s = .next (s1.hold 1 0)) ∧
        (s1.uoOutstanding s.gid s.cur.place = false →
          exec (.cFence 1 k pp gg ll sc) s = .next (fenced k pp gg sc true s1)))) ∧
    (∀ scope cov drain t, t = s.acquire scope cov drain →
      (drain = true → (t.core s.cur.core).l1 = []) ∧
      (drain = false → cov = true → 2 ≤ scope → (t.core s.cur.core).l1 = (s.core s.cur.core).l1.filter (fun l => l.uo)) ∧
      (drain = false → (cov = false ∨ scope < 2) → (t.core s.cur.core).l1 = (s.core s.cur.core).l1) ∧
      (scope < 3 → t.l2 = s.l2) ∧
      (3 ≤ scope → FMap.wf s.l2 = true → ∀ slice set, set < 2048 → t.l2Set slice set =
        if sectorOfSlice slice = sectorOf s.cur.core then (s.l2Set slice set).filter (fun l => !l.guest) else s.l2Set slice set) ∧ t.mem = s.mem ∧ t.groups = s.groups)

/-- R7, R116, R142 to R144, R303, R304, R346, R351: barriers, barrier objects and fences. -/
def Obligations.BarriersAndFences : Prop := Sys2Proof.Claims.BarriersAndBarrierObjects ∧ Sys2Proof.Claims.FencesWaitAndAcquire

/-- R145, R146, R349, R357; the model's choice for shapes outside R145 is log entry 92, for a copy's waits log entry 34: CPY checks and translates both ranges and queues the copy in the open batch; SEAL closes the batch and
answers its number; WAITB waits for every copy of the group up to a batch. -/
def Obligations.CopiesAndBatches : Prop :=
  ∀ (s s1 s2 : State) (g : Group) (p : Split) (d a b : BitVec 6) (r : BitVec 2) (t : BitVec 1)
    (rows : List (Int × Int × Nat)) (from_ to_ : List Span), s.actor = some (g, p) →
    (Free s g p [d, a, b] 0 → (t = 1 → emptyS g p (b + 1) = false) → p.issued = none →
      copyRows (decide (t = 1)) (readS g p a) (readS g p d) (readS g p b) (readS g p (b + 1)) = some rows →
      copySide s g p (decide (2 ≤ r.toNat)) .read (rows.map (fun r => (r.1, r.2.2))) = (s1, .ok from_) →
      copySide s1 g p (decide (r.toNat % 2 = 1)) .write (rows.map (fun r => (r.2.1, r.2.2))) = (s2, .ok to_) → rows ≠ [] →
      (copyWaits s2 p (decide (2 ≤ r.toNat)) (decide (r.toNat % 2 = 1)) = false →
        exec (.cCpy d a b r t) s = .next ((s2.setCore s.cur.core { s2.core s.cur.core with
          copies := (s2.core s.cur.core).copies ++ [⟨s.gid, p.dslack.toNat, g.batch + 1, decide (2 ≤ r.toNat), decide (r.toNat % 2 = 1),
            rows.map (fun r => (vaOf r.1, vaOf r.2.1, r.2.2)), from_, to_, s2.asidOf g, [], []⟩] }).goOn 1)) ∧
      (copyWaits s2 p (decide (2 ≤ r.toNat)) (decide (r.toNat % 2 = 1)) = true →
        exec (.cCpy d a b r t) s = .next (s2.holdWith 0 0 [readS g p a, readS g p d, readS g p b, readS g p (b + 1)]))) ∧
    (∀ c v, Free s g p [d, a, b] 0 → t = 0 → p.issued = none →
      copyRows false (readS g p a) (readS g p d) (readS g p b) (readS g p (b + 1)) = some rows →
      copySide s g p (decide (2 ≤ r.toNat)) .read (rows.map (fun r => (r.1, r.2.2))) = (s1, .error (c, v)) →
      exec (.cCpy d a b r t) s = .next (s1.trap c v)) ∧
    (Free s g p [] d → exec (.cSeal d) s = .next (answered (s.updGroup s.gid (fun g => { g with batch := g.batch + 1 })) p d
      (BitVec.ofNat 64 (g.batch + 1)))) ∧
    (∀ n, Free s g p [a] d → p.issued = none → n = min (readS g p a).toNat g.batch →
      (s.copying s.gid (fun x => decide (x ≤ n)) = false → exec (.cWaitb d a) s = .next (answered s p d (BitVec.ofNat 64 n))) ∧
      (s.copying s.gid (fun x => decide (x ≤ n)) = true → exec (.cWaitb d a) s = .next (s.hold 0 (BitVec.ofNat 64 n)))) ∧
    (∀ src dst sh, copyRows false src dst sh 0 =
      if 2 ^ 30 < sh.toNat then none else if sh = 0 then some [] else some [((src.toNat : Int), (dst.toNat : Int), sh.toNat)]) ∧
    (∀ src dst sh st rows', copyRows true src dst sh st = some rows' → rows'.length = fld sh 32 32 ∧
      ∀ i, i < rows'.length → rows'[i]? = some ((src.toNat : Int) + i * sextNat 32 (fld st 32 32),
        (dst.toNat : Int) + i * sextNat 32 (fld st 0 32), fld sh 0 32))

/-- R147 to R150 (what HBIND.off does to a hod that no engine serves is log entry 35): HINIT sets up an unbound, empty ring; HBIND binds two different free hods to an engine or unbinds them;
HWAIT answers P or C once there is room or data; HADV moves P or C by S[a], and by nothing where R150 refuses. -/
def Obligations.HodWords : Prop :=
  ∀ (s s' : State) (g : Group) (p : Split) (a b d i o : BitVec 6) (hn : BitVec 4) (u : UnitRec) (bs : List Byte),
    s.actor = some (g, p) → s.unitOf g = some u → s'.unitOf g = some u →
    (emptyS g p a = false → emptyS g p b = false → (readS g p a).toNat % 16 = 0 →
      s.readWaits s.gid s.cur.place (s.asidOf g) p.user (readS g p a).toNat 16 = false →
      s.readVa s.cur.core (s.asidOf g) p.user 3 (readS g p a).toNat 16 = (s', .ok (bs, false)) →
      ∀ logn slotb base, logn = natOfBytes (bs.take 4) → slotb = natOfBytes ((bs.drop 4).take 4) → base = (readS g p b).toNat →
      ((1 ≤ logn ∧ logn ≤ 12 ∧ slotb % 16 = 0 ∧ 16 ≤ slotb ∧ slotb ≤ 4096 ∧ natOfBytes (bs.drop 8) = 0 ∧ base % 16 = 0 ∧
          base + slotb * 2 ^ logn ≤ u.scrSize ∧
          (∀ h, FMap.get u.hods i.toNat = some h → h.bound = none ∧ h.p = h.c)) →
        exec (.cHinit a b i) s = .next ((s'.updUnit g.uid (fun u => { u with
          hods := FMap.put u.hods i.toNat ⟨base, 2 ^ logn, slotb, 0, 0, none, none⟩ })).goOn 1)) ∧
      ((logn = 0 ∨ 12 < logn ∨ slotb % 16 ≠ 0 ∨ slotb < 16 ∨ 4096 < slotb ∨ base % 16 ≠ 0 ∨
          u.scrSize < base + slotb * 2 ^ logn) → exec (.cHinit a b i) s = .next (s'.trap cHODFAULT 0))) ∧
    (∀ h, p.issued = none → emptyS g p a = false → FMap.get u.hods hn.toNat = some h → 0 < (readS g p a).toNat → (readS g p a).toNat ≤ h.n →
      (emptyS g p d = false → sharedS g d = false →
        (h.fill + (readS g p a).toNat ≤ h.n → exec (.cHwaitRoom d a hn) s = .next (answered s p d (h.p.zeroExtend 64))) ∧
        (h.n < h.fill + (readS g p a).toNat → exec (.cHwaitRoom d a hn) s = .next (s.holdWith 0 0 [readS g p a])) ∧
        ((readS g p a).toNat ≤ h.fill → h.fault = none →
          exec (.cHwaitData d a hn) s = .next (answered (s.acquire 1 false false) p d (h.c.zeroExtend 64))) ∧
        (h.fill < (readS g p a).toNat → h.fault = none → exec (.cHwaitData d a hn) s = .next (s.holdWith 0 0 [readS g p a])) ∧
        (∀ c va, h.fault = some (c, va) → exec (.cHwaitData d a hn) s = .next (s.trap cHODFAULT va))) ∧
      (h.owned true = false → s.drained g p = true → h.fill + (readS g p a).toNat ≤ h.n →
        exec (.cHadvP a hn) s = .next ((s.updHod g.uid hn.toNat (fun h => { h with
          p := h.p + BitVec.ofNat 32 (readS g p a).toNat })).goOn 1)) ∧
      (h.owned true = false → s.drained g p = true → h.n < h.fill + (readS g p a).toNat →
        exec (.cHadvP a hn) s = .next (s.trap cHODFAULT 0)) ∧
      (h.owned false = false → p.willIssue scratchLoad = false → s.popping s.gid s.cur.place = false →
        (readS g p a).toNat ≤ h.fill →
        exec (.cHadvC a hn) s = .next ((s.updHod g.uid hn.toNat (fun h => { h with
          c := h.c + BitVec.ofNat 32 (readS g p a).toNat })).goOn 1)) ∧
      (h.owned true = true → exec (.cHadvP a hn) s = .next (s.trap cHODFAULT 0)) ∧
      (h.owned false = true → exec (.cHadvC a hn) s = .next (s.trap cHODFAULT 0))) ∧
    (∀ hi ho, emptyS g p b = false → FMap.get u.hods i.toNat = some hi → FMap.get u.hods o.toNat = some ho →
      (readS g p b ≠ 0 → exec (.cHbindOff i o b) s = .next (s.trap cILLEGAL 0)) ∧
      (readS g p b = 0 → s.gatherServes s.cur.core g.uid i.toNat o.toNat = true → s.rasters = [] →
        exec (.cHbindOff i o b) s = .next (((((s.setCore s.cur.core { s.core s.cur.core with gather := none }).unbind
          g.uid i.toNat o.toNat)).updHod g.uid o.toNat (fun h => { h with fault := none })).goOn 1)) ∧
      (readS g p b = 0 → s.gatherServes s.cur.core g.uid i.toNat o.toNat = false → s.rasters = [] →
        exec (.cHbindOff i o b) s = .next ((s.updHod g.uid o.toNat (fun h => { h with fault := none })).goOn 1)) ∧
      ((readS g p b).toNat % 32 = 0 →
        s.readWaits s.gid s.cur.place (s.asidOf g) p.user (readS g p b).toNat 32 = false →
        s.readVa s.cur.core (s.asidOf g) p.user 3 (readS g p b).toNat 32 = (s', .ok (bs, false)) →
        ∀ esz idx64 count slk : Nat, esz ≤ 3 → idx64 ≤ 1 → 1 ≤ count → count ≤ 4096 → slk < 2 ^ 12 →
        natOfBytes ((bs.drop 8).take 8) = esz + 4 * idx64 + 2 ^ 16 * count + 2 ^ 32 * slk →
        natOfBytes ((bs.drop 16).take 8) = 0 → natOfBytes ((bs.drop 24).take 8) = 0 →
        i ≠ o → hi.bound = none → ho.bound = none → count * (4 + 4 * idx64) ≤ hi.slotb → count * 2 ^ esz ≤ ho.slotb →
        (s'.core s.cur.core).gather = none →
        exec (.cHbindGather i o b) s = .next (((s'.setCore s.cur.core { s'.core s.cur.core with
          gather := some ⟨g.uid, i.toNat, o.toNat, BitVec.ofNat 64 (natOfBytes (bs.take 8)), 2 ^ esz, decide (idx64 = 1),
            count, slk, p.user, s'.asidOf g⟩ }).bindHods g.uid i.toNat o.toNat .gather).goOn 1)))

/-- R151 to R154: PUT sends the bytes of a local range in packets; CWAIT goes on when counter − S[a], read as signed 32
bits, is not negative, answers the counter and with .sub subtracts; BRACE and UNBRACE answer by their tables. That PUT waits for an
acquire of its control stream is the model's reading (log entry 83). -/
def Obligations.PutsCountersAndBraces : Prop :=
  ∀ (s : State) (g : Group) (p : Split) (d a b : BitVec 6) (c : BitVec 4) (u : UnitRec), s.unitOf g = some u →
    (Free s g p [d, a, b] 0 → p.issued = none → s.doveTwin s.gid = none →
      ∀ off len roff cnt : Nat, off < 2 ^ 24 → len < 2 ^ 24 → roff < 2 ^ 24 → cnt < 16 →
      (readS g p a).toNat = off + 2 ^ 24 * len → (readS g p d).toNat = roff + 2 ^ 24 * cnt →
      (0 < len → len ≤ 65536 → off % 8 = 0 → len % 8 = 0 → off + len ≤ u.scrSize →
        (p.willIssue scratchStore = false → s.wordAcquires s.gid s.cur.place = false → exec (.cPut d a b) s =
          .next ((s.sendPut p u (readS g p b) (s.endpoint g.uid) off len roff cnt s.nextPkt).goOn 1)) ∧
        (p.willIssue scratchStore = true ∨ s.wordAcquires s.gid s.cur.place = true →
          exec (.cPut d a b) s = .next (s.holdWith 0 0 [readS g p a, readS g p d, readS g p b]))) ∧
      (len = 0 ∨ 65536 < len → exec (.cPut d a b) s = .next (s.trap cILLEGAL 0)) ∧
      (0 < len → len ≤ 65536 → (off % 8 ≠ 0 ∨ len % 8 ≠ 0) →
        exec (.cPut d a b) s = .next (s.trap cMISALIGN (BitVec.ofNat 64 off))) ∧
      (0 < len → len ≤ 65536 → off % 8 = 0 → len % 8 = 0 → u.scrSize < off + len →
        exec (.cPut d a b) s = .next (s.trap cPROTECT (BitVec.ofNat 64 off)))) ∧
    (∀ n target : BitVec 32, Free s g p [a] d → p.issued = none → n = FMap.rd 0 u.counters c.toNat → target = (readS g p a).truncate 32 →
      (0 ≤ (n - target).toInt →
        exec (.cCwait d a c) s = .next (answered (s.acquire 5 false false) p d (n.zeroExtend 64)) ∧
        exec (.cCwaitSub d a c) s = .next (answered ((s.updUnit g.uid (fun u => { u with
          counters := FMap.wr 0 u.counters c.toNat (n - target) })).acquire 5 false false) p d (n.zeroExtend 64))) ∧
      ((n - target).toInt < 0 →
        exec (.cCwait d a c) s = .next (s.holdWith 0 0 [readS g p a]) ∧ exec (.cCwaitSub d a c) s = .next (s.holdWith 0 0 [readS g p a]))) ∧
    (Free s g p [a, b] d →
      (p.issued = none →
        ((readS g p b).toNat = 0 ∨ 4096 < (readS g p b).toNat → exec (.cBrace d a b) s = .next (answered s p d 3)) ∧
        (0 < (readS g p b).toNat → (readS g p b).toNat ≤ 4096 → 4 ≤ (s.core s.cur.core).braces.length →
          exec (.cBrace d a b) s = .next (answered s p d 2)) ∧
        (0 < (readS g p b).toNat → (readS g p b).toNat ≤ 4096 → (s.core s.cur.core).braces.length < 4 →
          epDev (readS g p a) ≠ s.mgmt.fid.toNat ∨ epCore (readS g p a) < Config.nCores →
          ∃ (t : State) (g' : Group) (p' : Split), exec (.cBrace d a b) s = .next t ∧ t.actor = some (g', p') ∧
            p'.issued = some ⟨1, BitVec.ofNat 64 s.nextPkt, []⟩ ∧ p'.pc = p.pc ∧
            (t.core s.cur.core).braces = (s.core s.cur.core).braces ++
              [⟨s.gid, readS g p a, (readS g p b).toNat, s.nextPkt, false⟩])) ∧
      (∀ v src, p.issued = some ⟨2, v, src⟩ → exec (.cBrace d a b) s = .next (answered s p d 0)) ∧
      (∀ v src, p.issued = some ⟨3, v, src⟩ → exec (.cBrace d a b) s = .next (answered s p d 1))) ∧
    (Free s g p [a] d →
      ((∀ x ∈ (s.core s.cur.core).braces, x.goesTo s.gid (readS g p a) = false) →
        exec (.cUnbrace d a) s = .next (answered s p d 0)) ∧
      (∀ x rest, (s.core s.cur.core).braces = x :: rest → x.goesTo s.gid (readS g p a) = true →
        ∃ t, exec (.cUnbrace d a) s = .next (answered t p d (BitVec.ofNat 64 x.left)) ∧
          (∀ y ∈ (t.core s.cur.core).braces, y.goesTo s.gid (readS g p a) = false) ∧ t.groups = s.groups ∧
          t.mem = s.mem ∧ t.units = s.units))

/-- R155, R156, R393, R416, R417, R420: GENPUB publishes the next generation once no ray of its number is in flight; GENWAIT answers 1 when the
generation and every older one has retired, which a wait asks by the CUR that its cluster has now; RCPUB, RCHOLD and RCSTEP (of step codes 1 to 3; code 0 decodes to nothing) do what their table says; an unknown structure or
network traps ENGINE. -/
def Obligations.GenerationsAndNetworks : Prop :=
  ∀ (s s' : State) (g : Group) (p : Split) (d a b : BitVec 6) (sc : Scene), s.actor = some (g, p) →
    (Free s g p [a] d → p.issued = none → s.scene s.gid (s.asidOf g) p.user (fld (readS g p a) 0 32) = (s', some sc) →
      s'.drained g p = true →
      (s'.inFlight (s'.asidOf g) (fld (readS g p a) 0 32) ((sc.cur + 1) % 65536) = 0 →
        exec (.cGenpub d a) s = .next (answered ((s'.putCur g p.user (fld (readS g p a) 0 32) ((sc.cur + 1) % 65536)).publishCur
          s'.cur.core (s'.asidOf g) p.user (fld (readS g p a) 0 32) sc ((sc.cur + 1) % 65536)) p d
          (BitVec.ofNat 64 ((sc.cur + 1) % 65536)))) ∧
      (s'.inFlight (s'.asidOf g) (fld (readS g p a) 0 32) ((sc.cur + 1) % 65536) ≠ 0 →
        exec (.cGenpub d a) s = .next (s'.holdWith 0 (BitVec.ofNat 64 ((sc.cur + 1) % 65536)) [readS g p a]))) ∧
    (Free s g p [a] d → p.issued = none → s.scene s.gid (s.asidOf g) p.user (fld (readS g p a) 0 32) = (s', none) →
      exec (.cGenpub d a) s = .next (s'.trap cENGINE 0)) ∧
    (Free s g p [a, b] d → p.issued = none → s.scene s.gid (s.asidOf g) p.user (fld (readS g p a) 0 32) = (s', some sc) →
      (sc.cur = fld (readS g p b) 0 16 → exec (.cGenwait d a b) s = .next (s'.trap cENGINE 0) ∧
        exec (.cGenwaitTest d a b) s = .next (s'.trap cENGINE 0)) ∧
      (sc.cur ≠ fld (readS g p b) 0 16 →
        (s'.gensRetired (s'.asidOf g) (fld (readS g p a) 0 32) sc.cur (fld (readS g p b) 0 16) = true →
          exec (.cGenwait d a b) s = .next (answered (s'.acquire 4 true false) p d 1) ∧
          exec (.cGenwaitTest d a b) s = .next (answered (s'.acquire 4 true false) p d 1)) ∧
        (s'.gensRetired (s'.asidOf g) (fld (readS g p a) 0 32) sc.cur (fld (readS g p b) 0 16) = false →
          exec (.cGenwait d a b) s = .next ((s'.keepCur s'.cur.core (s'.asidOf g) p.user (fld (readS g p a) 0 32) sc).holdWith 0
            (BitVec.ofNat 64 sc.cur) [readS g p a, readS g p b]) ∧
          exec (.cGenwaitTest d a b) s = .next (answered s' p d 0)))) ∧
    (∀ (c av bv : Word), Free s g p [a, b] d → p.issued = some ⟨0, c, [av, bv]⟩ →
      s.gensRetired (s.asidOf g) (fld av 0 32) (s.curNow g p.user (fld av 0 32) c.toNat) (fld bv 0 16) = false →
      exec (.cGenwait d a b) s = .next s) ∧
    (∀ (n : BitVec 2) (net : Net) (k : BitVec 2), k ≠ 0 → FMap.get s.nets (netKey (s.partOf g) n.toNat) = some net →
      (net.held.isSome = true → exec (.cRcpub n) s = .next (s.goOn 1)) ∧
      (net.held = none → p.issued = none → net.changed = false → net.version ≤ net.published →
        exec (.cRcpub n) s = .next (s.goOn 1)) ∧
      (net.held = none → p.issued = none → net.changed = true → net.version + 1 > net.published → net.switching = false →
        exec (.cRcpub n) s = .next ((s.publish (s.partOf g) n.toNat).hold 1 (BitVec.ofNat 64 (net.version + 1)))) ∧
      (net.switching = false → exec (.cRchold n) s = .next ((s.updNet (netKey (s.partOf g) n.toNat)
        (fun n => { n with held := some net.version })).goOn 1)) ∧
      (net.switching = true → exec (.cRchold n) s = .next (s.hold 0 0)) ∧
      exec (.cRcholdOff n) s = .next ((s.updNet (netKey (s.partOf g) n.toNat) (fun n => { n with held := none })).goOn 1) ∧
      (net.pending.length < 16 → exec (.cRcstep k n) s = .next ((s.updNet (netKey (s.partOf g) n.toNat)
        (fun n => { n with pending := n.pending ++ [64 * 4 ^ k.toNat] })).goOn 1)) ∧
      (16 ≤ net.pending.length → exec (.cRcstep k n) s = .next (s.hold 0 0))) ∧
    (∀ (n k : BitVec 2), k ≠ 0 → FMap.get s.nets (netKey (s.partOf g) n.toNat) = none →
      exec (.cRcpub n) s = .next (s.trap cENGINE 0) ∧ exec (.cRchold n) s = .next (s.trap cENGINE 0) ∧
      exec (.cRcholdOff n) s = .next (s.trap cENGINE 0) ∧ exec (.cRcstep k n) s = .next (s.trap cENGINE 0))

/-- R6, R27, R136, R157: SGET reads and SSET writes each assigned register; an unassigned number traps ILLEGAL, a number
from 0x100 up traps PRIV in user mode, before anything else is looked at (log entry 26); what SSET writes reads back with the reserved bits 0, and a read-only register
keeps its value. -/
def Obligations.SystemRegisters : Prop :=
  ∀ (s : State) (g : Group) (p : Split) (d a : BitVec 6) (r : BitVec 12), s.actor = some (g, p) →
    (∀ v, (r.toNat < 0x100 ∨ p.sm = true) → readSys s g p r.toNat = some v →
      (emptyS g p d = false → sharedS g d = false → exec (.cSget d r) s = .next (answered s p d v)) ∧
      (emptyS g p a = false → exec (.cSset a r) s = .next ((writeSys s g r.toNat (readS g p a)).goOn 1))) ∧
    ((r.toNat < 0x100 ∨ p.sm = true) → readSys s g p r.toNat = none →
      exec (.cSget d r) s = .next (s.trap cILLEGAL 0) ∧ exec (.cSset a r) s = .next (s.trap cILLEGAL 0)) ∧
    (0x100 ≤ r.toNat → p.sm = false →
      exec (.cSget d r) s = .next (s.trap cPRIV 0) ∧ exec (.cSset a r) s = .next (s.trap cPRIV 0)) ∧
    ((readSys s g p r.toNat).isSome = true ↔ r.toNat ≤ 0x00E ∨ (0x100 ≤ r.toNat ∧ r.toNat ≤ 0x10B)) ∧
    (∀ v n g' p', s.unitOf g ≠ none → (writeSys s g n v).actor = some (g', p') →
      (n ∈ [0x000] → readSys (writeSys s g n v) g' p' n = some (v &&& 7)) ∧
      (n ∈ [0x001] → readSys (writeSys s g n v) g' p' n = some (v &&& 0xF_FFFF_FFFF)) ∧
      (n ∈ [0x002] → readSys (writeSys s g n v) g' p' n = some (v &&& 0xFFF)) ∧
      (n ∈ [0x003, 0x004, 0x104] → readSys (writeSys s g n v) g' p' n = some (v &&& 0xFFFF_FFFF)) ∧
      (n ∈ [0x100] → readSys (writeSys s g n v) g' p' n = some (v &&& 7)) ∧
      (n ∈ [0x102] → readSys (writeSys s g n v) g' p' n = some (v &&& 0x1FF)) ∧
      (n ∈ [0x101, 0x103, 0x105, 0x108] → readSys (writeSys s g n v) g' p' n = some v) ∧
      (n ∉ [0x000, 0x001, 0x002, 0x003, 0x004, 0x100, 0x101, 0x102, 0x103, 0x104, 0x105, 0x108] → writeSys s g n v = s)) ∧
    (∀ n v m g' p', n ≠ m → s.unitOf g ≠ none → (writeSys s g n v).actor = some (g', p') →
      readSys (writeSys s g n v) g' p' m = readSys s g p m)

namespace Sys2Proof.Claims

/-- The group of the acting word once the trap registers hold a trap of `cause` with TVAL `v` for its mask (R364, R368, R372). -/
def trapGroup (u : State) (g : Group) (p : Split) (cause : Nat) (v : Word) : Group :=
  { g with due := [], tcause := BitVec.ofNat 9 cause, tval := v, tmask := p.mask, replay := u.withdrawn u.gid g }

/-- The acting word may take a trap at once: user mode, no handler, nothing else due, no run that issues, a vector that R368 accepts,
and a frame that the device can write (R367, R368, R370). -/
structure CanTrap (u : State) (g : Group) (p : Split) (cause : Nat) (v : Word) : Prop where
  acts : u.actor = some (g, p)
  user : p.sm = false
  calm : g.handler = none ∧ g.due = [] ∧ g.halted = false ∧ g.stopped = false ∧ g.issuing = false
  vector : (u.putGroup u.gid (trapGroup u g p cause v)).vectorOk u.gid (trapGroup u g p cause v) = true
  frame : ((u.putGroup u.gid (trapGroup u g p cause v)).writeFrame u.gid (trapGroup u g p cause v) none false).isSome = true

/-- From `u` to `t` the group has entered its handler for a trap of the acting word (R366, R368): the trap registers, PM and SM, TPC,
WR, TVEC as the program counter, the mask, an empty stack; the word's own program counter, mask and stack are kept aside; no user register
changes, and no other split. -/
def Handles (u t : State) (g : Group) (p : Split) (cause : Nat) (v tpc : Word) : Prop :=
  ∃ g' p' h, t.actor = some (g', p') ∧ g'.handler = some h ∧
    g'.tcause = BitVec.ofNat 9 cause ∧ g'.tval = v ∧ g'.tmask = p.mask ∧ g'.due = [] ∧
    p'.pc = g.tvec ∧ p'.sm = true ∧ p'.pm = p.sm ∧ p'.tpc = tpc ∧ p'.wr = (p.issued.isSome || p.parked.isSome) ∧
    p'.mask = p.mask ∧ p'.stack = [] ∧ p'.issued = none ∧ p'.parked = none ∧
    h.place = u.cur.place ∧ h.cause = cause ∧ h.kept.pc = p.pc ∧ h.kept.mask = p.mask ∧ h.kept.stack = p.stack ∧
    p'.s = p.s ∧ p'.ks = p.ks ∧ g'.s = g.s ∧ g'.v = g.v ∧ g'.x = g.x ∧ g'.k = g.k ∧ g'.p = g.p ∧
    (∀ q, q ≠ u.cur.place → FMap.get g'.splits q = FMap.get g.splits q)

/-- RFT, and ACK where it ends its handler too (R160, R161). -/
def endsHandler (h : Handler) (i : Instr) : Prop :=
  i = .cRft ∨ (i = .cAck ∧ h.lane = true ∧ accessCause h.cause = true ∧ h.held = false)

/-- The acting split may end its handler `h` (R160): supervisor mode, a TPC that names a word, its own work done, nothing else due, and
a frame that the device can read, at the places `ps`; `s'` is the device once it has read the frame. -/
structure CanReturn (s s' : State) (g : Group) (p : Split) (h : Handler) (ps : List (Nat × Nat)) : Prop where
  acts : s.actor = some (g, p)
  sup : p.sm = true
  here : g.handlerAt s.cur.place = some h
  tpc : s.tpcOk g p = true
  done : s.mayReturn g p h = true
  cause : h.cause ≠ cPREEMPT ∧ h.cause ≠ cCANCELLED
  frame : ∃ u, (s.updGroup s.gid (fun g => g)).frameParts s.gid g h.frameEntries .read = (u, .ok ps) ∧ s' = u.partFill s.gid ps true

/-- The run that a frame's held instructions form (R371, R373): T and Q as the frame has them, each instruction with its entry's MASK, those
that the handler left HELD. -/
def ResumedRun (s : State) (ps : List (Nat × Nat)) (first : Nat) (held : Bool) (r r' : Run) : Prop :=
  r'.q = s.partWords ps 0x18 4 ∧ r'.t = s.partWords ps 0x40 256 ∧ r'.active = r.active ∧
    r'.todo = if held then ((List.range r.todo.length).zip r.todo).filterMap (fun e =>
        if s.frameState ps (first + e.1) = 0 then some { e.2 with mask := e.2.mask &&& s.frameMask ps (first + e.1) } else none)
      else r.todo

end Sys2Proof.Claims

/-- R43, R136, R159, R366, R368, R370: TRAP of a defined cause enters the handler at TVEC in user mode, with TPC the next word, and halts
the group in supervisor mode; BKPT under invasive debug stops the group for the debugger, and else traps DEBUG with its tag. The model's
choices: TPC and TVAL of TRAP, log entries 15 and 25; where BKPT leaves the program counter, log entry 37. -/
def Sys2Proof.Claims.TrapAndBreakpointWords : Prop :=
  ∀ (s : State) (g : Group) (p : Split) (v : BitVec 16) (c : BitVec 8) (tag : BitVec 24), s.actor = some (g, p) →
    (c.toNat ∈ causes → CanTrap s g p c.toNat (v.zeroExtend 64) →
      ∃ t, exec (.cTrap v c) s = .next t ∧ Handles s t g p c.toNat (v.zeroExtend 64) (nextWord p.pc 1)) ∧
    (c.toNat ∈ causes → p.sm = true → g.due = [] → g.halted = false → g.stopped = false → g.issuing = false →
      exec (.cTrap v c) s = .next ((s.putGroup s.gid (trapGroup s g p c.toNat (v.zeroExtend 64))).haltGroup s.gid c.toNat (v.zeroExtend 64))) ∧
    (c.toNat ∈ causes → exec (.cTrap v c) s =
      .next (s.addDue s.gid ⟨.T, c.toNat, false, v.zeroExtend 64, p.mask, s.cur.place, p.sm⟩ p.sm)) ∧
    (c.toNat ∉ causes → exec (.cTrap v c) s = .next (s.trap cILLEGAL 0)) ∧
    (∀ u gu pu, s.mgmt.debug = .invasive → u = s.goOn 1 → u.actor = some (gu, pu) → gu.due = [] → gu.halted = false →
      gu.stopped = false → gu.issuing = false →
      (gu.handler ≠ none → exec (.cBkpt tag) s = .next (u.putGroup s.gid { gu with stopped := true, stopFrame := [] })) ∧
      (∀ gq t, gu.handler = none → gq = { gu with replay := u.withdrawn u.gid gu } →
        (u.putGroup u.gid gq).writeFrame u.gid gq none false = some t →
        exec (.cBkpt tag) s = .next (t.putGroup s.gid { gq with stopped := true, stopFrame := gq.replay.map (·.1) }))) ∧
    (∀ u gu pu, s.mgmt.debug ≠ .invasive → u = s.onSplit (fun q => { q with issued := none }) →
      CanTrap u gu pu cDEBUG (tag.zeroExtend 64) →
      ∃ t, exec (.cBkpt tag) s = .next t ∧ Handles u t gu pu cDEBUG (tag.zeroExtend 64) p.pc) ∧
    (s.mgmt.debug ≠ .invasive → exec (.cBkpt tag) s = .next (s.trap cDEBUG (tag.zeroExtend 64)))

/-- R160, R161, R366, R369, R373: RFT, and ACK of a fault at a lane access, perform the frame's entries in order and let the split go on at
TPC in PM's mode, with its kept mask and stack; a kept wait goes on where WR is 1 and TPC unchanged (log entry 102), else the word at TPC
issues afresh; held instructions form the run that issues next, with T, Q and MASK from the frame, and the run of a fault goes on. Both
trap ILLEGAL outside a handler, PRIV in user mode, BADTARGET at a TPC that names no word. -/
def Sys2Proof.Claims.HandlersEnd : Prop :=
  ∀ (s s' : State) (g : Group) (p : Split) (h : Handler), s.actor = some (g, p) →
    (p.sm = false → exec .cRft s = .next (s.trap cPRIV 0) ∧ exec .cAck s = .next (s.trap cPRIV 0)) ∧
    (p.sm = true → g.handlerAt s.cur.place = none → exec .cRft s = .next (s.trap cILLEGAL 0) ∧
      exec .cAck s = .next (s.trap cILLEGAL 0)) ∧
    (p.sm = true → g.handlerAt s.cur.place = some h →
      (s.tpcOk g p = false → exec .cRft s = .next (s.trap cBADTARGET p.tpc)) ∧
      ((h.lane = false ∨ accessCause h.cause = false) → exec .cAck s = .next (s.trap cILLEGAL 0))) ∧
    (∀ i ps w g1 p1, endsHandler h i → CanReturn s s' g p h ps →
      w = (((List.range h.entries.length).zip h.entries).filter (fun e => !h.replied.contains e.2)).foldl
        (fun u e => u.reinject s.gid ps e.1 e.2) s' →
      FMap.get w.groups s.gid = some g1 → g1.due = [] → FMap.get g1.splits s.cur.place = some p1 →
      ∃ t g' p', exec i s = .next t ∧ FMap.get t.groups s.gid = some g' ∧ FMap.get g'.splits s.cur.place = some p' ∧
        g'.handler = none ∧ p'.pc = p1.tpc ∧ p'.sm = p1.pm ∧ p'.wr = false ∧ p'.mask = h.kept.mask ∧ p'.stack = h.kept.stack ∧
        p'.s = p1.s ∧ p'.ks = p1.ks ∧
        (p1.wr = true → p1.tpc = h.kept.pc → p'.issued = h.kept.issued ∧ p'.parked = h.kept.parked) ∧
        ((p1.wr = false ∨ p1.tpc ≠ h.kept.pc) → p'.issued = none ∧ p'.parked = none) ∧
        (h.run = none → p'.running = none ∧ p'.runq = h.kept.runq) ∧
        (∀ r, h.run = some r → r.dove = none → h.held = true → ∃ r', ResumedRun s' ps h.entries.length true r r' ∧
          p'.running = none ∧ p'.runq = if r'.todo = [] then h.kept.runq else { r' with suspended := false } :: h.kept.runq) ∧
        (∀ r, h.run = some r → r.dove = none → r.todo ≠ [] → h.held = false → h.lane = true → accessCause h.cause = true →
          ∃ r', ResumedRun s' ps h.entries.length false r r' ∧ p'.running = some r' ∧ r'.suspended = true ∧ p'.runq = h.kept.runq))

/-- R371 to R374: what performing one entry of a frame does. An entry that is not HELD is skipped; one that the handler set to DONE has its
access not performed and its destination full with the value it held, in every lane, or after a fault in the faulted ones; one that it
set to PENDING or SUPERSEDED is dropped (log entry 88); a HELD one is sent again in the lanes that the handler left in MASK, with the operands that
stand in the frame, and where lanes fault again class F is due once more. -/
def Sys2Proof.Claims.EntriesArePerformed : Prop :=
  ∀ (u : State) (gid i pid : Nat) (ps : List (Nat × Nat)) (g : Group) (q : Producer), FMap.get u.groups gid = some g →
    FMap.get g.replay pid = some q →
    (q.state ≠ 0 → u.reinject gid ps i pid = u) ∧
    (q.state = 0 → u.frameState ps i = 2 → q.flt &&& ~~~q.mask = 0 →
      ∃ g', FMap.get (u.reinject gid ps i pid).groups gid = some g' ∧ (u.reinject gid ps i pid).mem = u.mem ∧
        g' = { g.fillDest q (if q.flt = 0 then q.mask else q.mask &&& q.flt) with replay := g'.replay } ∧
        (∀ e ∈ (u.reinject gid ps i pid).pkts, e ∈ u.pkts) ∧
        (q.flt = 0 → ∀ e ∈ (u.reinject gid ps i pid).pkts, (e.2.serves gid pid && e.2.heldBack) = false)) ∧
    (q.state = 0 → (u.frameState ps i = 1 ∨ u.frameState ps i = 3) →
      ∃ g', FMap.get (u.reinject gid ps i pid).groups gid = some g' ∧ FMap.get g'.replay pid = none ∧
        (u.reinject gid ps i pid).mem = u.mem ∧ (∀ e ∈ (u.reinject gid ps i pid).pkts, e ∈ u.pkts)) ∧
    (∀ sh gone lanes q' dove v fs, q.state = 0 → u.frameState ps i = 0 → q.kind = .access → shapeOfBits q.bits = some sh → sh.deed ≠ .store →
      gone = (if q.flt = 0 then q.mask &&& ~~~(u.frameMask ps i) else (q.mask &&& ~~~(u.frameMask ps i)) &&& q.flt) →
      lanes = (if q.flt = 0 then q.mask else q.flt) &&& ~~~gone → lanes ≠ 0 →
      dove = (if (g.handler.bind (·.run)).any (fun r => r.dove.isSome) = true then 2 else 0) →
      q' = { q with mask := q.mask &&& ~~~gone, flt := q.flt &&& ~~~gone, opA := q.addrA (u.partWords ps (entryOff i + 0x40) 32),
                    opB := u.partWords ps (entryOff i + 0x140) 32, opC := u.partWords ps (entryOff i + 0x240) 32,
                    idx := if q.sfrom then q.sfromLane (u.partWords ps (entryOff i + 0x140) 32) else q.idx, sent := true } →
      (u.putGroup gid { g.fillDest q gone with replay := FMap.put (g.fillDest q gone).replay pid q' }).resend gid pid q' sh lanes dove = (v, fs) →
      (fs = [] → u.reinject gid ps i pid = v) ∧
      (fs ≠ [] → u.reinject gid ps i pid = v.updGroup gid (fun x =>
        { x with due := x.due ++ [⟨.F, (fs.map (·.2)).headD 0, true, faultValue q' fs, faultLanes fs, q.place, !q.um⟩] })))

/-- R160, R370, R373: RPLY's four statuses. It answers 1 beyond the frame, 2 for an entry that is done or superseded or that RPLY has
re-injected before, 3 for one whose request is in flight, changing nothing but S[d]; else it re-injects the entry, marks it DONE in the
frame and answers 0; a held instruction alone becomes a run at the end of the split's queue. A fault of its frame access halts the group. -/
def Sys2Proof.Claims.RepliesToEntries : Prop :=
  ∀ (s s' u : State) (g : Group) (p : Split) (d a : BitVec 6) (h : Handler) (n c : Nat) (x : Word) (ps : List (Nat × Nat)), s.actor = some (g, p) →
    (p.sm = false → exec (.cRply d a) s = .next (s.trap cPRIV 0)) ∧
    (p.sm = true → g.handlerAt s.cur.place = none → exec (.cRply d a) s = .next (s.trap cILLEGAL 0)) ∧
    (Free s g p [a] d → p.sm = true → g.handlerAt s.cur.place = some h → p.runq.length < Config.runQueueEntries → n = (readS g p a).toNat →
      (s.frameParts s.gid g h.frameEntries .read = (u, .error (c, x)) →
        exec (.cRply d a) s = .next (u.haltGroup s.gid (g.tcause.toNat % 256) g.tval)) ∧
      (s.frameParts s.gid g h.frameEntries .read = (u, .ok ps) → s' = u.partFill s.gid ps true →
        (h.frameEntries ≤ n → exec (.cRply d a) s = .next (answered s' p d 1)) ∧
        (∀ pid, n < h.frameEntries → h.entries[n]? = some pid →
          (FMap.get g.replay pid = none ∨ h.replied.contains pid = true → exec (.cRply d a) s = .next (answered s' p d 2)) ∧
          (∀ q, FMap.get g.replay pid = some q → h.replied.contains pid = false →
            (q.state = 1 → exec (.cRply d a) s = .next (answered s' p d 3)) ∧
            (q.state ≠ 1 → (q.state ≠ 0 ∨ 2 ≤ s'.frameState ps n) → exec (.cRply d a) s = .next (answered s' p d 2)) ∧
            (∀ t1 t2, q.state = 0 → s'.frameState ps n < 2 → t1 = s'.reinject s'.gid ps n pid →
              t2 = t1.updGroup t1.gid (fun g => { g with handler := g.handler.map (·.reply pid) }) →
              exec (.cRply d a) s = .next (answered (t2.partWrite t2.gid ps (entryOff n) (bytesOf 1 (4 * q.kindNo + 2))) p d 0)))) ∧
        (n < h.frameEntries → h.entries[n]? = none →
          (s'.frameState ps n ≠ 0 → exec (.cRply d a) s = .next (answered s' p d 2)) ∧
          (∀ r k, s'.frameState ps n = 0 → h.run = some r → r.todo[n - h.entries.length]? = some k →
            ∃ r' r1, ResumedRun s' ps h.entries.length true r r1 ∧
              r' = { r1 with todo := [{ k with mask := k.mask &&& s'.frameMask ps n }], suspended := false, sup := r.sup,
                             dove := r.dove.map (fun _ => Dove.start) } ∧
              exec (.cRply d a) s = .next (answered ((s'.onSplit (fun q => { q with runq := q.runq ++ [r'] })).partWrite s'.gid ps (entryOff n)
                (bytesOf 1 2)) p d 0)))))

/-- R43, R136, R159 to R161, R366 to R374: TRAP and BKPT, what ends a handler, what performing an entry of its frame does, and RPLY's statuses; each part names the model's choices. -/
def Obligations.TrapsByWordAndReturns : Prop := Sys2Proof.Claims.TrapAndBreakpointWords ∧ Sys2Proof.Claims.HandlersEnd ∧ Sys2Proof.Claims.EntriesArePerformed ∧ Sys2Proof.Claims.RepliesToEntries

/-- R136, R162, R300, R345: MAP and MAP.FT trap PRIV in user mode, and wait until the split's accesses are performed. MAP answers 2 under a
256 MiB leaf or on a valid one, 3 where a table is missing, 4 for a reserved leaf, and else 0, when the eight bytes at the leaf's slot are S[b]
and no other byte has changed. MAP.FT answers 3 where a table is missing, 4 at a 256 MiB leaf, 2 at a leaf that does not wait for a
frame, 1 on an empty stack, 5 for a frame that the leaf's home refuses, leaving the stack and the leaf, and else 0: COUNT is one
less, the frame holds zeros, and the leaf has the frame, with FT, A and D 0 and its other bits kept. -/
def Sys2Proof.Claims.MapStatuses : Prop :=
  ∀ (s w : State) (g : Group) (p : Split) (d a b : BitVec 6) (va : Nat) (pte : Word) (slot2 slot : Option Nat), s.actor = some (g, p) →
    (p.sm = false → exec (.cMap d a b) s = .next (s.trap cPRIV 0) ∧ exec (.cMapFt d a) s = .next (s.trap cPRIV 0)) ∧
    (p.sm = true → Free s g p [a, b] d → s.drained g p = false →
      exec (.cMap d a b) s = .next (s.hold 0 0) ∧ exec (.cMapFt d a) s = .next (s.hold 0 0)) ∧
    (p.sm = true → s.drained g p = true → va = (readS g p a).toNat → w = s.walked g va → slot2 = w.slot2 (s.ptroot g) va →
      (Free s g p [a, b] d → pte = readS g p b →
        (∀ e, leafL pte = false → slot2 = some e → leafV (w.entry e) = true → leafL (w.entry e) = true →
          exec (.cMap d a b) s = .next (answered w p d 2)) ∧
        ((leafL pte = true ∨ ∀ e, slot2 = some e → ¬(leafV (w.entry e) = true ∧ leafL (w.entry e) = true)) →
          slot = (if leafL pte then slot2 else slot2.bind (fun e => w.slot1 e va)) →
          (slot = none → exec (.cMap d a b) s = .next (answered w p d 3)) ∧
          (∀ e, slot = some e →
            (leafRsv pte = true ∨ leafKind pte = 3 → exec (.cMap d a b) s = .next (answered w p d 4)) ∧
            (leafRsv pte = false → leafKind pte ≠ 3 → leafV (w.entry e) = true →
              (leafFT (w.entry e) = false ∨ (leafL pte = true ∧ leafL (w.entry e) = false)) →
              exec (.cMap d a b) s = .next (answered w p d 2)) ∧
            (leafRsv pte = false → leafKind pte ≠ 3 →
              (leafV (w.entry e) = false ∨ (leafFT (w.entry e) = true ∧ (leafL pte = false ∨ leafL (w.entry e) = true))) →
              ∃ t, exec (.cMap d a b) s = .next (answered t p d 0) ∧
                (inHbm (e + 7) = true → (∀ i, i < 8 → t.byteAt (e + i) = (pte >>> (8 * i)).truncate 8) ∧
                  (∀ x, x < e ∨ e + 8 ≤ x → t.byteAt x = w.byteAt x)))))) ∧
      (Free s g p [a] d →
        slot = slot2.bind (fun e => if leafV (w.entry e) = true ∧ leafL (w.entry e) = true then some e else w.slot1 e va) →
        (slot = none → exec (.cMapFt d a) s = .next (answered w p d 3)) ∧
        (∀ e leaf, slot = some e → leaf = w.entry e →
          (leafL leaf = true → exec (.cMapFt d a) s = .next (answered w p d 4)) ∧
          (leafL leaf = false → ¬(leafV leaf = true ∧ leafFT leaf = true) → exec (.cMapFt d a) s = .next (answered w p d 2)) ∧
          (∀ s1 bs, leafL leaf = false → leafV leaf = true → leafFT leaf = true → g.ftpool.toNat % 8 = 0 →
            w.readVa w.cur.core (w.asidOf g) false 2 g.ftpool.toNat 4 = (s1, .ok (bs, false)) →
            (natOfBytes bs = 0 → exec (.cMapFt d a) s = .next (answered s1 p d 1)) ∧
            (∀ s2 fb frame, natOfBytes bs ≠ 0 → frame = natOfBytes fb →
              s1.readVa s1.cur.core (w.asidOf g) false 2 ((g.ftpool.toNat + 8 + 4 * (natOfBytes bs - 1)) % 2 ^ 64) 4 = (s2, .ok (fb, false)) →
              ((leafPeer leaf = 0 ∧ (backed (frame * 2 ^ 16) = false ∨
                  (inHbm (frame * 2 ^ 16) = true ∧ homeLoc (leafHome leaf) (frame * 2 ^ 16) = none))) →
                exec (.cMapFt d a) s = .next (answered s2 p d 5)) ∧
              (∀ s3 loc, ¬(leafPeer leaf = 0 ∧ (backed (frame * 2 ^ 16) = false ∨
                  (inHbm (frame * 2 ^ 16) = true ∧ homeLoc (leafHome leaf) (frame * 2 ^ 16) = none))) →
                s2.reach s2.cur.core (w.asidOf g) g.ftpool .write false = (s3, .ok loc) →
                ∃ t e', exec (.cMapFt d a) s = .next (answered (t.putEntry e e') p d 0) ∧
                  t = (s3.deviceWrite s3.gid loc (bytesOf 4 (natOfBytes bs - 1))).zeroFrame (leafHome leaf) frame ∧
                  leafFrame e' = frame % 2 ^ 32 ∧ leafFT e' = false ∧ leafA e' = false ∧ leafD e' = false ∧
                  (∀ k, k < 16 ∨ 48 ≤ k → k ≠ 60 → k ≠ 6 → k ≠ 7 → e'.getLsbD k = leaf.getLsbD k) ∧
                  (∀ l ∈ frameLines (leafHome leaf) frame, ∀ k, k < 128 → t.byteAt (l + k) = 0)))))))

/-- R110, R136, R145, R163: UNMAP and TLBINV trap PRIV in user mode; in supervisor mode UNMAP clears V of the leaf that covers S[a] and answers the
old leaf, or 0 where there is none; they and TLBINV remove the translations they name, and complete where no copy uses one of them. -/
def Sys2Proof.Claims.Unmappings : Prop :=
  ∀ (s : State) (g : Group) (p : Split) (d a b : BitVec 6), s.actor = some (g, p) →
    (p.sm = false →
      exec (.cUnmap d a) s = .next (s.trap cPRIV 0) ∧ exec (.cTlbinv a b) s = .next (s.trap cPRIV 0) ∧
      exec (.cTlbinvRange a b) s = .next (s.trap cPRIV 0) ∧ exec .cTlbinvAsid s = .next (s.trap cPRIV 0)) ∧
    (p.sm = true →
      (Free s g p [a] d → p.issued = none → (∀ x, s.copyUses (s.asidOf g) x = false) →
        ∀ w, w = s.walked g (readS g p a).toNat →
        (w.leafSlot (s.ptroot g) (readS g p a).toNat = none →
          exec (.cUnmap d a) s = .next (answered (w.invalidate (s.asidOf g) (pageSpan (readS g p a).toNat)) p d 0)) ∧
        (∀ e x, w.leafSlot (s.ptroot g) (readS g p a).toNat = some (e, x) → leafV (w.entry e) = true →
          exec (.cUnmap d a) s = .next (answered ((w.putEntry e (setFld (w.entry e) 63 1 0)).invalidate (s.asidOf g) x) p d
            (w.entry e))) ∧
        (∀ e x, w.leafSlot (s.ptroot g) (readS g p a).toNat = some (e, x) → leafV (w.entry e) = false →
          exec (.cUnmap d a) s = .next (answered (w.invalidate (s.asidOf g) x) p d 0))) ∧
      (p.issued = none → (∀ x, s.copyUses (s.asidOf g) x = false) → emptyS g p a = false → emptyS g p b = false →
        exec (.cTlbinv a b) s = .next ((s.invalidate (s.asidOf g) (pageSpan (readS g p a).toNat)).goOn 1) ∧
        exec (.cTlbinvRange a b) s = .next (((rangeSpans (readS g p a).toNat (readS g p b).toNat).foldl
          (fun s x => s.invalidate (s.asidOf g) x) s).goOn 1) ∧
        exec .cTlbinvAsid s = .next ((s.invalidate (s.asidOf g) wholeSpan).goOn 1)))

/-- R110, R136, R145, R162, R163, R300, R345: the statuses of MAP and MAP.FT with what they write, UNMAP and TLBINV. -/
def Obligations.MappingWords : Prop := Sys2Proof.Claims.MapStatuses ∧ Sys2Proof.Claims.Unmappings

/-- R37: a word that has not issued, and reads or writes an empty scalar register, waits, changing nothing. R27: a word that would write a
shared register of a divided group traps SHAREDWRITE. -/
def Sys2Proof.Claims.EmptyRegistersWaitAndSharedRegistersTrap : Prop :=
  ∀ (s : State) (g : Group) (p : Split) (d a b c : BitVec 6), s.actor = some (g, p) → p.issued = none →
    ∀ w ∈ [Instr.cSadd d a b, .cSmul d a b, .cSdiv d a b, .cSand d a b, .cSshl d a b, .cScmp d a b c, .cSbfi d a b c,
        .cSatom d a b 0 0, .cPin d a b, .cUnpin d a b, .cLaunch d a b, .cArrive d a b, .cBrace d a b, .cGenwait d a b],
      ((emptyS g p a = true ∨ emptyS g p b = true ∨ emptyS g p d = true) → exec w s = .next s) ∧
      (emptyS g p a = false → emptyS g p b = false → emptyS g p d = false → 1 ≤ d.toNat → d.toNat ≤ 47 →
        1 < g.splits.length → exec w s = .next (s.trap cSHAREDWRITE 0))

namespace Sys2Proof.Claims

open Sys2Proof.Machine

/-! ### Lane instructions -/

/-- The group and the run after register `d` took `v l` in each lane `l` of `lanes`: V and K registers of both banks, T
registers and LSTAT by R31 and R33, a V register without poison (R310), with nothing else changed. -/
structure Wrote (c : LaneCtx) (d : Nat) (lanes : Lanes) (v : Nat → Word) (g : Group) (r : Run) : Prop where
  vk : ∀ b n l, n < 232 → l < 32 →
    g.getV b n l = if n = d ∧ lanes.getLsbD l = true ∧ (b = c.r.sup ∨ n < 216) then v l else c.g.getV b n l
  temp : ∀ n l, n < 8 → l < 32 →
    FMap.rd 0 r.t (32 * n + l) = if n + 232 = d ∧ lanes.getLsbD l = true then v l else FMap.rd 0 c.r.t (32 * n + l)
  stat : ∀ l, l < 32 → g.getLstat l = if d = 249 ∧ lanes.getLsbD l = true then (v l).truncate 5 else c.g.getLstat l
  clean : ∀ n l, n < 232 → l < 32 → FMap.rd false g.vBad (32 * n + l) =
    if n = d ∧ lanes.getLsbD l = true ∧ (c.r.sup = false ∨ n < 216) then false else FMap.rd false c.g.vBad (32 * n + l)
  group : g = { c.g with v := g.v, vBad := g.vBad, k := g.k, lines := g.lines, written := g.written, lstat := g.lstat }
  run : r = { c.r with t := r.t }

/-- Where the run's next instruction may issue, `i` completes: register d takes `v` in the lanes named, and the slot is
held. `na`, `nb`, `nc` count the registers of its sources. -/
def LaneIs (i : Instr) (f : LF) (na nb nc hold : Nat) (lanes : LaneCtx → Lanes) (v : LaneCtx → Nat → Word) : Prop :=
  ∀ s c, s.laneActor f = some c → c.emptyRead f na nb nc = false →
    ∃ g r, exec i s = .next ((s.putLane g r).issued hold) ∧ Wrote c f.d.toNat (lanes c) (v c) g r

/-- The same where `ok` says what each lane may take. -/
def LaneRel (i : Instr) (f : LF) (na nb nc hold : Nat) (lanes : LaneCtx → Lanes) (ok : LaneCtx → Nat → Word → Prop) : Prop :=
  ∀ s c, s.laneActor f = some c → c.emptyRead f na nb nc = false →
    ∃ g r v, exec i s = .next ((s.putLane g r).issued hold) ∧ Wrote c f.d.toNat (lanes c) v g r ∧
      ∀ l, l < 32 → (lanes c).getLsbD l = true → ok c l (v l)

/-- Elements j of the sources determine element j of the result: `ok a b c e`. -/
def ElemRel (i : Instr) (f : LF) (hold : Nat) (ok : Nat → Nat → Nat → Nat → Prop) : Prop :=
  LaneRel i f 1 1 1 hold (fun c => c.act) (fun c l v => ∀ j, j < tyCount f.ty.toNat →
    ok (elem (tyWidth f.ty.toNat) (c.a f l) j) (elem (tyWidth f.ty.toNat) (c.b f l) j) (elem (tyWidth f.ty.toNat) (c.c f l) j)
      (elem (tyWidth f.ty.toNat) v j))

/-- An element `e` holds the exact number `x` of a type: modulo 2^w, or with SAT clamped to the range (R70, R167). -/
def Holds (ty : Nat) (sat : Bool) (x : Int) (e : Nat) : Prop :=
  let w := tyWidth ty
  e < 2 ^ w ∧ (sat = false → (e : Int) = x % 2 ^ w) ∧
  (sat = true → elemVal ty w e =
    if tySigned ty then max (-(2 ^ (w - 1))) (min (2 ^ (w - 1) - 1) x) else max 0 (min (2 ^ w - 1) x))

/-- An integer instruction whose elements hold an exact function of the sources' values. -/
def IntIs (i : Instr) (f : LF) (hold : Nat) (x : Int → Int → Int → Int) : Prop :=
  ElemRel i f hold (fun a b c e => Holds f.ty.toNat (f.md.getLsbD 0)
    (x (elemVal f.ty.toNat (tyWidth f.ty.toNat) a) (elemVal f.ty.toNat (tyWidth f.ty.toNat) b)
      (elemVal f.ty.toNat (tyWidth f.ty.toNat) c)) e)

/-- Issue-slot cycles of the multiplications (R166). -/
def slotMul (ty : Nat) : Nat := if ty < 2 then 4 else if ty < 4 then 2 else 1

/-- Bit i of a number. -/
def bit (x i : Nat) : Bool := Nat.testBit x i

end Sys2Proof.Claims

open Sys2Proof Sys2Proof.Machine Sys2Proof.Claims

/-- R70, R165 to R167: the integer arithmetic of the lanes on every integer type, from exact results. -/
def Obligations.LaneIntegerArithmetic : Prop :=
  ∀ f : LF, f.ty.toNat < 8 →
    IntIs (.lAdd f) f 1 (fun a b _ => a + b) ∧
    IntIs (.lSub f) f 1 (fun a b _ => a - b) ∧
    IntIs (.lMul f) f (slotMul f.ty.toNat) (fun a b _ => a * b) ∧
    IntIs (.lMad f) f (slotMul f.ty.toNat) (fun a b c => a * b + c) ∧
    (f.md = 0 → IntIs (.lMulhi f) f (slotMul f.ty.toNat) (fun a b _ => a * b / 2 ^ tyWidth f.ty.toNat)) ∧
    IntIs (.lAbs f) f 1 (fun a _ _ => a.natAbs) ∧
    IntIs (.lNeg f) f 1 (fun a _ _ => -a) ∧
    IntIs (.lMin f) f 1 (fun a b _ => min a b) ∧
    IntIs (.lMax f) f 1 (fun a b _ => max a b)

/-- R167, R168, R169: bitwise words, shifts, rotates, counts, reversals and bit fields on each element, bit by bit. -/
def Obligations.LaneBitInstructions : Prop :=
  ∀ f : LF, f.ty.toNat < 8 ∨ f.ty.toNat = 17 → ∀ w, w = tyWidth f.ty.toNat →
    LaneIs (.lAnd f) f 1 1 1 1 (fun c => c.act) (fun c l => c.a f l &&& c.b f l) ∧
    LaneIs (.lOr f) f 1 1 1 1 (fun c => c.act) (fun c l => c.a f l ||| c.b f l) ∧
    LaneIs (.lXor f) f 1 1 1 1 (fun c => c.act) (fun c l => c.a f l ^^^ c.b f l) ∧
    LaneIs (.lAndn f) f 1 1 1 1 (fun c => c.act) (fun c l => c.a f l &&& ~~~(c.b f l)) ∧
    ElemRel (.lShl f) f 1 (fun a n _ e => e = if n < w then a * 2 ^ n % 2 ^ w else 0) ∧
    ElemRel (.lShr f) f 1 (fun a n _ e => e = if n < w then a / 2 ^ n else 0) ∧
    ElemRel (.lSra f) f 1 (fun a n _ e => sextNat w e = sextNat w a / 2 ^ min n (w - 1)) ∧
    ElemRel (.lRotl f) f 1 (fun a n _ e => ∀ i, i < w → bit e ((i + n) % w) = bit a i) ∧
    ElemRel (.lPopc f) f 1 (fun a _ _ e => e = ((List.range w).filter (bit a)).length) ∧
    ElemRel (.lClz f) f 1 (fun a _ _ e => e ≤ w ∧ (∀ i, w - e ≤ i → i < w → bit a i = false) ∧
      (e < w → bit a (w - 1 - e) = true)) ∧
    ElemRel (.lBrev f) f 1 (fun a _ _ e => ∀ i, i < w → bit e (w - 1 - i) = bit a i) ∧
    (∀ h, h = (if w = 8 then 4 else 8) → ∀ pos wid : Nat → Nat, (∀ b, pos b = b % 2 ^ h) →
      (∀ b, wid b = if w ≤ pos b then 0 else min (b / 2 ^ h % 2 ^ h) (w - pos b)) →
      ElemRel (.lBfx f) f 1 (fun a b _ e =>
        (∀ i, i < wid b → bit e i = bit a (pos b + i)) ∧
        (∀ i, wid b ≤ i → i < w → bit e i = (tySigned f.ty.toNat && decide (0 < wid b) && bit a (pos b + wid b - 1)))) ∧
      ElemRel (.lBfi f) f 1 (fun a b c e => ∀ i, i < w →
        bit e i = if pos b ≤ i ∧ i < pos b + wid b then bit a (i - pos b) else bit c i))

/-- R170, R171, R33: quotient and remainder of each element, the sticky DZ and OV of each acting lane, and the ARITH trap of
class A where MODE.AE is 1 and a case arose. A destination LSTAT is written before them (log entry 100). -/
def Sys2Proof.Claims.LaneDivision : Prop :=
  ∀ (rem : Bool) (f : LF) (s : State) (c : LaneCtx) (w : Nat), f.ty.toNat < 8 → w = tyWidth f.ty.toNat →
    s.laneActor f = some c → c.emptyRead f 1 1 0 = false →
    ∃ (g g' : Group) (r : Run) (v : Nat → Word) (bad : Lanes), Wrote c f.d.toNat c.act v g r ∧
      g' = { g with lstat := g'.lstat } ∧
      (∀ l, l < 32 → c.act.getLsbD l = true → ∀ j, j < tyCount f.ty.toNat → ∀ a b e,
        a = elem w (c.a f l) j → b = elem w (c.b f l) j → e = elem w (v l) j →
        (b = 0 → e = if rem then a else 2 ^ w - 1) ∧
        (b ≠ 0 → tySigned f.ty.toNat = false → e = if rem then a % b else a / b) ∧
        (b ≠ 0 → tySigned f.ty.toNat = true → ¬(a = 2 ^ (w - 1) ∧ b = 2 ^ w - 1) →
          sextNat w e = if rem then (sextNat w a).tmod (sextNat w b) else (sextNat w a).tdiv (sextNat w b)) ∧
        (tySigned f.ty.toNat = true → a = 2 ^ (w - 1) → b = 2 ^ w - 1 → e = if rem then 0 else 2 ^ (w - 1))) ∧
      (∀ l, l < 32 → ∀ dz ov : Bool,
        (dz = true ↔ c.act.getLsbD l = true ∧ ∃ j, j < tyCount f.ty.toNat ∧ elem w (c.b f l) j = 0) →
        (ov = true ↔ c.act.getLsbD l = true ∧ tySigned f.ty.toNat = true ∧ ∃ j, j < tyCount f.ty.toNat ∧
          elem w (c.a f l) j = 2 ^ (w - 1) ∧ elem w (c.b f l) j = 2 ^ w - 1) →
        bad.getLsbD l = (dz || ov) ∧
        g'.getLstat l = (g.getLstat l ||| (if dz then 1 else 0) ||| (if ov then 2 else 0))) ∧
      ((c.g.mode.getLsbD 1 = false ∨ bad = 0) →
        exec (if rem then .lRem f else .lDiv f) s = .next ((s.putLane g' r).issued (8 * slotMul f.ty.toNat))) ∧
      (c.g.mode.getLsbD 1 = true → bad ≠ 0 →
        exec (if rem then .lRem f else .lDiv f) s =
          .next ((s.putLane g' r).laneTrapAfter (8 * slotMul f.ty.toNat) cARITH 0 bad))

/-- R172: integer dot products of 8-bit elements into 32 bits and of 16-bit elements into 64, modulo the width; the float
form is R87's tree in binary32, in the half that .hi selects, with the other half kept (log entry 101). -/
def Sys2Proof.Claims.LaneDotProducts : Prop :=
  ∀ f : LF,
    (f.ty.toNat = 6 ∨ f.ty.toNat = 7 → LaneRel (.lDot4 f) f 1 1 1 1 (fun c => c.act) (fun c l v => ∀ j, j < 2 →
      ∀ p : Nat → Int, (∀ k, p k = elemVal f.ty.toNat 8 (elem 8 (c.a f l) k) * elemVal f.ty.toNat 8 (elem 8 (c.b f l) k)) →
      (elem 32 v j : Int) = ((elem 32 (c.c f l) j : Int) + p (4 * j) + p (4 * j + 1) + p (4 * j + 2) + p (4 * j + 3)) % 2 ^ 32)) ∧
    (f.ty.toNat = 4 ∨ f.ty.toNat = 5 → LaneRel (.lDot4 f) f 1 1 1 1 (fun c => c.act) (fun c l v =>
      ∀ p : Nat → Int, (∀ k, p k = elemVal f.ty.toNat 16 (elem 16 (c.a f l) k) * elemVal f.ty.toNat 16 (elem 16 (c.b f l) k)) →
      (v.toNat : Int) = ((c.c f l).toNat + p 0 + p 1 + p 2 + p 3) % 2 ^ 64)) ∧
    (f.ty.toNat = 10 ∨ f.ty.toNat = 11 → LaneRel (.lDot4 f) f 1 1 1 1 (fun c => c.act) (fun c l v =>
      elem 32 v (if f.md.getLsbD 0 then 0 else 1) = elem 32 (c.c f l) (if f.md.getLsbD 0 then 0 else 1) ∧
      v = dotFlt (c.g.mode.getLsbD 0) f.ty.toNat (f.md.getLsbD 0) (c.a f l) (c.b f l) (c.c f l)))

/-- R33, R170 to R172: lane division and the dot products. -/
def Obligations.LaneDivisionAndDotProducts : Prop := Sys2Proof.Claims.LaneDivision ∧ Sys2Proof.Claims.LaneDotProducts

namespace Sys2Proof.Claims

open Sys2Proof.Machine

/-- A floating-point instruction: element j of the result is `g` of the elements j of the sources, in the type's format and
the rounding of rm, with the flushing of R78 before and after. -/
def FloatIs (i : Instr) (f : LF) (hold : Nat) (g : Fmt → Nat → Nat → Nat → Nat → Nat) : Prop :=
  LaneRel i f 1 1 1 hold (fun c => c.act) (fun c l v => ∀ j, j < tyCount f.ty.toNat → ∀ m w z, m = fmtOf f.ty.toNat →
    w = tyWidth f.ty.toNat → z = (c.g.mode.getLsbD 0 && ftzFmt m) →
    elem w v j = flushBits m z (g m f.rm.toNat (flushBits m z (elem w (c.a f l) j)) (flushBits m z (elem w (c.b f l) j))
      (flushBits m z (elem w (c.c f l) j))) % 2 ^ w)

/-- Issue-slot cycles of a floating-point instruction (R166). -/
def slotFlt (n d ty : Nat) : Nat := if ty = 8 then d else n

end Sys2Proof.Claims

open Sys2Proof Sys2Proof.Machine Sys2Proof.Claims

/-- R166, R173 to R178: each floating-point instruction gives the exact result, rounded once by rm where the rule lists a
rounding, on every element of the float types, with the slot held as R166 says. The values of the approximations within their
bounds, and FLDEXP of a NaN, are the model's (log entries 6, 41). -/
def Obligations.LaneFloatingPoint : Prop :=
  ∀ (f : LF) (ty : Nat), ty = f.ty.toNat → 8 ≤ ty → ty ≤ 11 →
    FloatIs (.lFadd f) f (slotFlt 1 8 ty) (fun m r a b _ => round m r (Flt.add r (.ofBits m a) (.ofBits m b))) ∧
    FloatIs (.lFsub f) f (slotFlt 1 8 ty) (fun m r a b _ => round m r (Flt.add r (.ofBits m a) (Flt.ofBits m b).negate)) ∧
    FloatIs (.lFmul f) f (slotFlt 1 8 ty) (fun m r a b _ => round m r (Flt.mul (.ofBits m a) (.ofBits m b))) ∧
    FloatIs (.lFfma f) f (slotFlt 1 8 ty)
      (fun m r a b c => round m r (Flt.add r (Flt.mul (.ofBits m a) (.ofBits m b)) (.ofBits m c))) ∧
    FloatIs (.lFmin f) f (slotFlt 1 8 ty) (fun m _ a b _ => selectBits m false a b) ∧
    FloatIs (.lFmax f) f (slotFlt 1 8 ty) (fun m _ a b _ => selectBits m true a b) ∧
    FloatIs (.lFdiv f) f (slotFlt 8 32 ty) (fun m r a b _ => round m r (Flt.div (.ofBits m a) (.ofBits m b))) ∧
    FloatIs (.lFrcp f) f (slotFlt 4 16 ty) (fun m r a _ _ => round m r (Flt.div (.fin false 1 1) (.ofBits m a))) ∧
    FloatIs (.lFsqrt f) f (slotFlt 8 32 ty) (fun m r a _ _ => sqrtBits m r a) ∧
    FloatIs (.lFrsq f) f 4 (fun m _ a _ _ => approxElem frsq32 m a) ∧
    FloatIs (.lFexp2 f) f 4 (fun m _ a _ _ => approxElem fexp232 m a) ∧
    FloatIs (.lFlog2 f) f 4 (fun m _ a _ _ => approxElem flog232 m a) ∧
    FloatIs (.lFsin f) f 4 (fun m _ a _ _ => approxElem (ftrig32 false) m a) ∧
    FloatIs (.lFcos f) f 4 (fun m _ a _ _ => approxElem (ftrig32 true) m a) ∧
    FloatIs (.lFrnd f) f (slotFlt 1 8 ty) (fun m r a _ _ => integral m r a) ∧
    FloatIs (.lFfrac f) f (slotFlt 1 8 ty) (fun m _ a _ _ => fraction m a) ∧
    LaneRel (.lFldexp f) f 1 1 1 (slotFlt 1 8 ty) (fun c => c.act) (fun c l v => ∀ j, j < tyCount ty → ∀ m w z, m = fmtOf ty →
      w = tyWidth ty → z = (c.g.mode.getLsbD 0 && ftzFmt m) →
      elem w v j = flushBits m z (scaleBits m f.rm.toNat (flushBits m z (elem w (c.a f l) j)) (elem w (c.b f l) j)) % 2 ^ w) ∧
    (∀ m r x, m = fmtOf ty → Flt.ofBits m x = .nan →
      sqrtBits m r x = m.nanBits ∧ integral m r x = m.nanBits ∧ fraction m x = m.nanBits)

/-- R179 to R184: conversion of each element (a narrower type fills its part p, or takes part p), packing with two sources,
unpacking a half with sign or zero extension, and the swizzle of the elements of two sources.
That it takes registers of any type is the model's reading (log entry 74). -/
def Sys2Proof.Claims.LaneConversions : Prop :=
  ∀ (f : LF) (t : Nat), t = f.ty.toNat →
    (∀ s p, s = f.md.toNat % 32 → p = f.imm.toNat % 8 → s ≤ 13 → t ≤ 13 →
      LaneRel (.lCvt f) f 1 1 1 (if s = 8 ∨ t = 8 then 2 else 1) (fun c => c.act) (fun c l v => ∀ j, j < tyCount t →
        ∀ conv, conv = convert s t f.rm.toNat (f.md.getLsbD 5) (c.g.mode.getLsbD 0) →
        (tyCount t ≤ tyCount s →
          elem (tyWidth t) v j = conv (elem (tyWidth s) (c.a f l) (p * tyCount t + j)) % 2 ^ tyWidth t) ∧
        (tyCount s < tyCount t → p * tyCount s ≤ j → j < p * tyCount s + tyCount s →
          elem (tyWidth t) v j = conv (elem (tyWidth s) (c.a f l) (j - p * tyCount s)) % 2 ^ tyWidth t) ∧
        (tyCount s < tyCount t → j < p * tyCount s ∨ p * tyCount s + tyCount s ≤ j →
          elem (tyWidth t) v j = elem (tyWidth t) (c.b f l) j))) ∧
    (t < 6 → LaneRel (.lPack f) f 1 1 1 1 (fun c => c.act) (fun c l v => ∀ j w n, w = tyWidth t → n = tyCount t → j < n →
      ∀ kept : Nat → Nat, (∀ x, kept x = keepInt (f.md.getLsbD 0) (tySigned t) (w / 2) (elemVal t w x)) →
      elem (w / 2) v j = kept (elem w (c.a f l) j) ∧ elem (w / 2) v (n + j) = kept (elem w (c.b f l) j))) ∧
    (2 ≤ t → t < 8 → LaneRel (.lUnpk f) f 1 1 1 1 (fun c => c.act) (fun c l v => ∀ j w n, w = tyWidth t → n = tyCount t / 2 →
      j < n → (elem (2 * w) v j : Int) =
        elemVal t w (elem w (c.a f l) ((if f.md.getLsbD 0 then n else 0) + j)) % 2 ^ (2 * w))) ∧
    (t < 14 → LaneRel (.lSwz f) f 1 1 1 1 (fun c => c.act) (fun c l v => ∀ j n w sel, n = tyCount t → w = tyWidth t → j < n →
      sel = fld f.imm (4 * j) 4 →
      (sel < n → elem w v j = elem w (c.a f l) sel) ∧ (n ≤ sel → sel < 2 * n → elem w v j = elem w (c.b f l) (sel - n))))

/-- R185 to R190: the block-format instructions across the group's lanes: BXQ quantises 64 values into a superblock, BXDQ
gives them back from K planes, BXEXP gives the block exponents, BXALIGN the aligned integers and BXNORM the superblock of
64 sums; a lane that does not act gives 0. -/
def Sys2Proof.Claims.LaneBlockFormats : Prop :=
  ∀ (f : LF) (mb : Nat), 14 ≤ f.ty.toNat → f.ty.toNat ≤ 16 → mb = bxBits f.ty.toNat →
    LaneIs (.lBxq f) f 1 1 0 4 (fun c => c.act) (fun c l => if l < mb + 2 then
      bxWord mb ((List.range 4).map (fun b => quantise mb ((List.range 16).map (fun i =>
        Flt.ofBits fmt32 (c.bxElem f (16 * b + i)))))) l else 0) ∧
    (∀ k, k = (if f.md = 0 then mb else f.md.toNat) → LaneRel (.lBxdq f) f 1 1 0 2 (fun c => c.act) (fun c l v =>
      elem 32 v 0 = round fmt32 0 (bxValue (c.bxIn f) k (2 * l)) % 2 ^ 32 ∧
      elem 32 v 1 = round fmt32 0 (bxValue (c.bxIn f) k (2 * l + 1)) % 2 ^ 32)) ∧
    LaneRel (.lBxexp f) f 1 1 1 1 (fun c => c.act) (fun c l v => ∀ b, b < 4 → elem 16 v b = bxE (c.a f l) b % 2 ^ 16) ∧
    LaneRel (.lBxalign f) f 1 1 0 2 (fun c => c.act) (fun c l v => ∀ h, h < 2 → (elem 32 v h : Int) =
      bxAlign mb (c.bxIn f) (min (elem 16 (c.b f l) ((2 * l + h) / 16)) 255) (2 * l + h) % 2 ^ 32) ∧
    LaneIs (.lBxnorm f) f 1 1 0 4 (fun c => c.act) (fun c l => if l < mb + 2 then
      bxWord mb ((List.range 4).map (fun k => bxNorm mb (c.bxEmax f k) ((List.range 16).map (fun i =>
        sextNat 32 (c.bxElem f (16 * k + i)))))) l else 0) ∧
    (∀ (c : LaneCtx) i, c.act.getLsbD (i / 2) = false → c.bxElem f i = 0) ∧
    (∀ (c : LaneCtx) q, c.act.getLsbD q = false → c.bxIn f q = 0)

/-- R179 to R190: conversions, and the exchange of block formats. -/
def Obligations.LaneConversionsAndBlockFormats : Prop := Sys2Proof.Claims.LaneConversions ∧ Sys2Proof.Claims.LaneBlockFormats

namespace Sys2Proof.Claims

open Sys2Proof.Machine

/-- An instruction that writes predicate d: `ok` holds of the new value in each acting lane, P0 stays 1, and no other
predicate, register or part of the device changes. -/
def PredIs (i : Instr) (f : LF) (ok : LaneCtx → Nat → Bool → Prop) : Prop :=
  ∀ s c, s.laneActor f = some c → c.emptyRead f 1 1 1 = false →
    ∃ (g : Group) (v : Nat → Bool), exec i s = .next ((s.putLane g c.r).issued 1) ∧
      (∀ l, l < 32 → c.act.getLsbD l = true → ok c l (v l)) ∧
      (∀ n l, l < 32 → g.getP n l = if n = f.d.toNat ∧ n ≠ 0 ∧ c.act.getLsbD l = true then v l else c.g.getP n l) ∧
      g = { c.g with p := g.p }

/-- The element of A at flat index `i` of the group; 0 for a lane that does not act (R196). -/
def flatAt (c : LaneCtx) (f : LF) (i : Nat) : Nat :=
  if c.act.getLsbD (i / tyCount f.ty.toNat) then
    elem (tyWidth f.ty.toNat) (c.a f (i / tyCount f.ty.toNat)) (i % tyCount f.ty.toNat) else 0

/-- Lane `k` begins a segment (R200). -/
def Begins (c : LaneCtx) (f : LF) (k : Nat) : Prop := k = 0 ∨ (c.real.getLsbD k = true ∧ c.b f k ≠ 0)

/-- Lanes `k` and `l` belong to one segment (R200). -/
def SameSegment (c : LaneCtx) (f : LF) (k l : Nat) : Prop :=
  ∀ m, m < 32 → min k l < m → m ≤ max k l → ¬Begins c f m

/-- Byte `i` of a store that has been translated is among the accesses of a packet on its way, unless the store of a higher lane
writes that byte too (R208). -/
def ByteOnItsWay (t : State) (gid : Nat) (rs : List Req) (r : Req) (v : Word) (i : Nat) : Prop :=
  (∀ q, q ∈ rs → leafPeer q.leaf = leafPeer r.leaf → r.lane < q.lane → r.spot + i < q.spot ∨ q.spot + q.size ≤ r.spot + i) →
  ∃ (id : Nat) (p : Packet) (accs : List Acc) (a : Acc) (so prom guest : Bool) (kind order scope : Nat) (w : Word),
    FMap.get t.pkts id = some p ∧ p.gid = gid ∧ p.body = .req accs none so prom kind guest order scope ∧ a ∈ accs ∧
    a.lane = r.lane ∧ a.op = .store w ∧ a.loc ≤ r.spot + i ∧ r.spot + i < a.loc + a.size ∧
    w.toNat / 2 ^ (8 * (r.spot + i - a.loc)) % 256 = v.toNat / 2 ^ (8 * i) % 256

/-- The window lines that the acting lanes name are resident, or nothing has been written to them since group start and the register
region has room for all of them (R291, R293). -/
def WindowsAtHand (s : State) (c : LaneCtx) (u : UnitRec) (sh : Shape) : Prop :=
  ∀ l, l < 32 → c.act.getLsbD l = true → (FMap.get c.g.lines (u.windowLine (sh.addr c l).toNat)).isSome = true ∨
    (FMap.rd false c.g.written (u.windowLine (sh.addr c l).toNat) = false ∧
      u.lru.length + (dedup ((lanesIn c.act).map (fun k => u.windowLine (sh.addr c k).toNat))).length ≤ s.regionLines u)

/-- The ray that TRACE sends for a lane: what its message (R238) holds of the lane's operands, of the generation and of the root; where
the cluster's generation cache holds the structure, generation and root are those of the cache (R240, R393). -/
def RayOf (s : State) (c : LaneCtx) (f : LF) (l slack home : Nat) (r : Ray) : Prop :=
  r.gid = s.gid ∧ r.lane = l ∧ r.block = recBlock c.r.sup f.d.toNat ∧ r.asid = s.asidOf c.g ∧ r.um = (!c.r.sup) ∧ r.slack = slack ∧
  r.stage = .flying ∧ r.stack = home ∧ r.held = none ∧ r.ret = [] ∧
  (∀ (m : List Byte) (x : Nat → Nat), m = r.message → (∀ i, x i = (c.reg f (f.a.toNat + i) l).toNat) →
    m.length = 64 ∧ byteField m 0x00 8 = x 0 ∧ byteField m 0x08 4 = x 1 % 2 ^ 32 ∧ byteField m 0x0C 8 = x 2 ∧
    byteField m 0x14 4 = x 3 % 2 ^ 32 ∧ byteField m 0x18 4 = x 1 / 2 ^ 32 ∧ byteField m 0x1C 4 = x 3 / 2 ^ 32 ∧
    (coreOfGid s.gid < 2 ^ 9 → byteField m 0x20 4 = f.md.toNat % 16 * 2 ^ 28 + coreOfGid s.gid * 2 ^ 19 + s.gid % 64 * 2 ^ 13 +
      l * 2 ^ 8 + r.block % 2 ^ 8) ∧ byteField m 0x24 4 = (c.b f l).toNat % 2 ^ 32 ∧
    byteField m 0x28 4 / 2 ^ 24 = (c.b f l).toNat / 2 ^ 32 % 256 ∧ byteField m 0x2C 2 = r.gen % 2 ^ 16 ∧
    byteField m 0x2E 2 = slack % 2 ^ 12) ∧
  ∃ (root : Nat) (sp : Space3), r.todo = [.node root 0 sp] ∧ byteField r.message 0x28 4 % 2 ^ 24 = root % 2 ^ 24 ∧
    (∀ e, FMap.get s.curs (curKey (clusterOf (coreOfGid s.gid)) (s.asidOf c.g) ((c.b f l).toNat % 2 ^ 32) (!c.r.sup)) = some e →
      r.gen = e.cur ∧ root = e.root ∧ e.home = some home)

/-- What the cluster finds for each acting lane of a filter instruction, lane after lane (R412). -/
def filterCases (one : State → LaneCtx → Nat → State × FilterCase) (s : State) (c : LaneCtx) : State × List (Nat × FilterCase) :=
  (lanesIn c.act).foldl (fun (acc : State × List (Nat × FilterCase)) l =>
    let (s, k) := one acc.1 c l
    (s, acc.2 ++ [(l, k)])) (s, [])

end Sys2Proof.Claims

open Sys2Proof Sys2Proof.Machine Sys2Proof.Claims

/-- R193, R194, R195, R54: CMP and FCMP join the elements' conditions by AND or OR into a predicate; PAND, POR, PXOR and PSET
write one, PGET reads one, SEL chooses by one and MOV moves. -/
def Obligations.LaneComparesAndPredicates : Prop :=
  ∀ f : LF,
    (f.ty.toNat < 8 → f.md.toNat % 16 ≤ 9 → PredIs (.lCmp f) f (fun c l v =>
      ∀ p : Nat → Bool, (∀ j, j < tyCount f.ty.toNat → (p j = true ↔
        condHolds (f.md.toNat % 16)
          (BitVec.ofInt 64 (sextNat (tyWidth f.ty.toNat) (elem (tyWidth f.ty.toNat) (c.a f l) j)))
          (BitVec.ofInt 64 (sextNat (tyWidth f.ty.toNat) (elem (tyWidth f.ty.toNat) (c.b f l) j))))) →
      (v = true ↔ if f.md.getLsbD 4 then ∀ j, j < tyCount f.ty.toNat → p j = true
        else ∃ j, j < tyCount f.ty.toNat ∧ p j = true))) ∧
    (8 ≤ f.ty.toNat → f.ty.toNat ≤ 11 → PredIs (.lFcmp f) f (fun c l v => ∀ m w z, m = fmtOf f.ty.toNat →
      w = tyWidth f.ty.toNat → z = (c.g.mode.getLsbD 0 && ftzFmt m) →
      ∀ p : Nat → Bool, (∀ j, p j = floatCond (f.md.toNat % 16) m (flushBits m z (elem w (c.a f l) j))
        (flushBits m z (elem w (c.b f l) j))) →
      (v = true ↔ if f.md.getLsbD 4 then ∀ j, j < tyCount f.ty.toNat → p j = true
        else ∃ j, j < tyCount f.ty.toNat ∧ p j = true))) ∧
    PredIs (.lPand f) f (fun c l v => v = ((c.g.getP (f.a.toNat % 8) l ^^ f.md.getLsbD 0) && (c.g.getP (f.b.toNat % 8) l ^^ f.md.getLsbD 1))) ∧
    PredIs (.lPor f) f (fun c l v => v = ((c.g.getP (f.a.toNat % 8) l ^^ f.md.getLsbD 0) || (c.g.getP (f.b.toNat % 8) l ^^ f.md.getLsbD 1))) ∧
    PredIs (.lPxor f) f (fun c l v => v = ((c.g.getP (f.a.toNat % 8) l ^^ f.md.getLsbD 0) ^^ (c.g.getP (f.b.toNat % 8) l ^^ f.md.getLsbD 1))) ∧
    PredIs (.lPset f) f (fun c l v => v = decide (c.a f l ≠ 0)) ∧
    LaneIs (.lPget f) f 1 1 1 1 (fun c => c.act) (fun c l => if c.g.getP (f.a.toNat % 8) l then 1 else 0) ∧
    LaneIs (.lSel f) f 1 1 1 1 (fun c => c.act) (fun c l => if c.g.getP (f.c.toNat % 8) l then c.a f l else c.b f l) ∧
    LaneIs (.lMov f) f 1 1 1 1 (fun c => c.act) (fun c l => c.a f l) ∧
    (∀ (g : Group) l, g.getP 0 l = true)

/-- R196, R197, R198, R199: SHFL and SHFLX take each element from its flat index, BCAST a lane's register, in every acting
lane; VOTE and MATCH give the lanes that contribute, helper lanes left out, a mask, a truth or a count. -/
def Sys2Proof.Claims.LaneExchangesAndVotes : Prop :=
  ∀ (f : LF) (n w : Nat), f.ty.toNat < 14 ∨ f.ty.toNat = 17 → n = tyCount f.ty.toNat → w = tyWidth f.ty.toNat →
    LaneRel (.lShfl f) f 1 1 0 2 (fun c => c.act) (fun c l v => ∀ j, j < n →
      elem w v j = flatAt c f (elem w (c.b f l) j % (32 * n))) ∧
    (f.imm.toNat < 32 * n → LaneRel (.lShflx f) f 1 1 0 2 (fun c => c.act) (fun c l v => ∀ j, j < n →
      elem w v j = flatAt c f ((n * l + j) ^^^ f.imm.toNat))) ∧
    (f.imm.toNat < 32 → LaneIs (.lBcast f) f 1 1 0 2 (fun c => c.act) (fun c _ =>
      if c.act.getLsbD f.imm.toNat then c.a f f.imm.toNat else 0)) ∧
    LaneRel (.lBcastFirst f) f 1 1 0 2 (fun c => c.act) (fun c _ v =>
      ∀ k, k < 32 → c.act.getLsbD k = true → (∀ m, m < k → c.act.getLsbD m = false) → v = c.a f k) ∧
    LaneRel (.lVote f) f 0 0 0 2 (fun c => c.real) (fun c _ v => ∀ V : Lanes,
      (∀ k, k < 32 → V.getLsbD k = (c.real.getLsbD k && (c.g.getP (f.a.toNat % 8) k ^^ f.md.getLsbD 2))) →
      (f.md.toNat % 4 = 0 → v = V.zeroExtend 64) ∧ (f.md.toNat % 4 = 1 → v = if V = 0 then 0 else 1) ∧
      (f.md.toNat % 4 = 2 → v = if V = c.real then 1 else 0) ∧
      (f.md.toNat % 4 = 3 → v = BitVec.ofNat 64 ((List.range 32).filter (fun k => V.getLsbD k)).length)) ∧
    LaneRel (.lMatch f) f 1 0 0 2 (fun c => c.real) (fun c l v =>
      (tyFloat f.ty.toNat = false → ∀ k, k < 64 → v.getLsbD k = (c.real.getLsbD k && decide (c.a f l = c.a f k))) ∧
      (tyFloat f.ty.toNat = true → ∀ k, k < 64 → v.getLsbD k = (c.real.getLsbD k && (List.range n).all (fun j =>
        Flt.eq (.ofBits (fmtOf f.ty.toNat) (elem w (c.a f l) j)) (.ofBits (fmtOf f.ty.toNat) (elem w (c.a f k) j)) ||
          (isNanBits (fmtOf f.ty.toNat) (elem w (c.a f l) j) && isNanBits (fmtOf f.ty.toNat) (elem w (c.a f k) j)))))) ∧
    (∀ (c : LaneCtx) k, k < 32 → c.real.getLsbD k = (c.act.getLsbD k && !c.g.helper.getLsbD k))

/-- R87, R88, R200, R201: REDS and SCAN over the lanes of one segment that contribute. For the operations that do not round
(the integer ones): a reduction is the sum modulo 2^w, the least, the greatest or the bitwise join of every input of the
lane's segment; a scan of those at or below the lane. For the float ones, the pairwise tree and the five steps. -/
def Obligations.LaneReductionsAndScans : Prop :=
  ∀ (f : LF) (n w op : Nat), f.ty.toNat < 12 → n = tyCount f.ty.toNat → w = tyWidth f.ty.toNat → op = f.md.toNat →
    (f.ty.toNat < 8 → op ≤ 5 → ∀ (scan : Bool),
      LaneRel (if scan then .lScan f else .lReds f) f 1 1 0 5 (fun c => c.real) (fun c l v => ∀ j, j < n →
        ∀ ks : List Nat, (∀ k, k ∈ ks ↔ k < 32 ∧ c.real.getLsbD k = true ∧ SameSegment c f k l ∧ (scan = true → k ≤ l)) →
          ks.Nodup → ∀ e x, e = elem w v j → (∀ k, x k = elem w (c.a f k) j) →
        (op = 0 → e = (ks.map x).sum % 2 ^ w) ∧
        (op = 1 → (∃ k ∈ ks, e = x k) ∧ ∀ k ∈ ks, elemVal f.ty.toNat w e ≤ elemVal f.ty.toNat w (x k)) ∧
        (op = 2 → (∃ k ∈ ks, e = x k) ∧ ∀ k ∈ ks, elemVal f.ty.toNat w (x k) ≤ elemVal f.ty.toNat w e) ∧
        (op = 3 → ∀ i, i < w → (bit e i = true ↔ ∀ k ∈ ks, bit (x k) i = true)) ∧
        (op = 4 → ∀ i, i < w → (bit e i = true ↔ ∃ k ∈ ks, bit (x k) i = true)) ∧
        (op = 5 → ∀ i, i < w → (bit e i = true ↔ (ks.filter (fun k => bit (x k) i)).length % 2 = 1)))) ∧
    (8 ≤ f.ty.toNat → op ≤ 2 → ∀ hold, hold = (if f.ty.toNat = 8 ∧ op = 0 then 40 else 5) →
      LaneRel (.lReds f) f 1 1 0 hold (fun c => c.real) (fun c l v => ∀ j seg ins, j < n →
        seg = segments c f → ins = laneList.map (fun k => if seg.getD k 0 = seg.getD l 0 then c.input f j k else none) →
        elem w v j = ((tree (combineOp op f.ty.toNat (c.g.mode.getLsbD 0)) 5 ins).getD 0) % 2 ^ w) ∧
      LaneRel (.lScan f) f 1 1 0 hold (fun c => c.real) (fun c l v => ∀ j, j < n →
        elem w v j = ((([1, 2, 4, 8, 16].foldl (fun xs d => scanStep (combineOp op f.ty.toNat (c.g.mode.getLsbD 0))
          (segments c f) d xs) (laneList.map (c.input f j))).getD l none).getD 0) % 2 ^ w))

/-- R202, R203, R204: DDX and DDY give the rounded difference of the quad's two lanes, or +0 and LSTAT.QI where one of them is
absent; QSWAP takes the neighbour's register, or the lane's own with LSTAT.QI. -/
def Sys2Proof.Claims.LaneQuadInstructions : Prop :=
  ∀ (f : LF) (s : State) (c : LaneCtx), s.laneActor f = some c → c.emptyRead f 1 0 0 = false →
    (∀ (dy : Bool) (first step : Nat → Nat) m w, 8 ≤ f.ty.toNat → f.ty.toNat ≤ 11 → m = fmtOf f.ty.toNat →
      w = tyWidth f.ty.toNat → (∀ l, step l = if dy then 2 else 1) →
      (∀ l, first l = if dy then l / 4 * 4 + (if f.md.getLsbD 0 then 0 else l % 2)
        else if f.md.getLsbD 0 then l / 4 * 4 else l / 2 * 2) →
      ∃ (g g' : Group) (r : Run) (v : Nat → Word),
        exec (if dy then .lDdy f else .lDdx f) s = .next ((s.putLane g' r).issued (if f.ty.toNat = 8 then 8 else 2)) ∧
        Wrote c f.d.toNat c.act v g r ∧ g' = { g with lstat := g'.lstat } ∧
        ∀ l, l < 32 →
          (c.act.getLsbD l = true → c.act.getLsbD (first l) = true → c.act.getLsbD (first l + step l) = true →
            g'.getLstat l = g.getLstat l ∧ ∀ j, j < tyCount f.ty.toNat → elem w (v l) j =
              round m f.rm.toNat (Flt.add f.rm.toNat (.ofBits m (elem w (c.a f (first l + step l)) j))
                (Flt.ofBits m (elem w (c.a f (first l)) j)).negate) % 2 ^ w) ∧
          (c.act.getLsbD l = true → c.act.getLsbD (first l) = false ∨ c.act.getLsbD (first l + step l) = false →
            g'.getLstat l = g.getLstat l ||| 4 ∧ v l = 0) ∧
          (c.act.getLsbD l = false → g'.getLstat l = g.getLstat l)) ∧
    (f.md.toNat < 3 → ∃ (g g' : Group) (r : Run) (v : Nat → Word),
      exec (.lQswap f) s = .next ((s.putLane g' r).issued 1) ∧ Wrote c f.d.toNat c.act v g r ∧ g' = { g with lstat := g'.lstat } ∧
      ∀ l o, l < 32 → o = l ^^^ (f.md.toNat + 1) →
        (c.act.getLsbD l = true → c.act.getLsbD o = true → v l = c.a f o ∧ g'.getLstat l = g.getLstat l) ∧
        (c.act.getLsbD l = true → c.act.getLsbD o = false → v l = c.a f l ∧ g'.getLstat l = g.getLstat l ||| 4))

/-- R196 to R199, R202 to R204: exchanges, votes and quad instructions. -/
def Obligations.LaneExchangesVotesAndQuads : Prop := Sys2Proof.Claims.LaneExchangesAndVotes ∧ Sys2Proof.Claims.LaneQuadInstructions

/-- R205 to R214: each memory instruction issues the accesses of its acting lanes at A + offset (through X[b] for memory),
waits for a free replay entry by giving its slot up, and does nothing where no lane acts; the shape that each spelling names
is that of R205 and R212. -/
def Sys2Proof.Claims.LaneMemoryInstructions : Prop :=
  ∀ (f : LF) (s : State) (c : LaneCtx), s.laneActor f = some c →
    ∀ (i : Instr) (sh : Shape) (nc : Nat), (i, sh, nc) ∈
      [(Instr.lLd f, plainShape .memory .load f, 0), (.lSt f, plainShape .memory .store f, 1),
       (.lLds f, plainShape .scratchpad .load f, 0), (.lSts f, plainShape .scratchpad .store f, 1),
       (.lLdp f, plainShape .window .load f, 0), (.lStp f, plainShape .window .store f, 1),
       (.lLdPlanes f, { plainShape .memory .load f with size := 8, signed := false, planes := planeLanes f }, 0),
       (.lAtom f, atomShape .memory f, 1), (.lAtoms f, atomShape .scratchpad f, 1)] →
    c.emptyRead f 1 0 nc = false →
    shapeOf i = some sh ∧
    (c.act = 0 → sh.waits c s = false → exec i s = .next (s.issued (sh.cycles c))) ∧
    (sh.waits c s = true → exec i s = .next s.suspend) ∧
    (sh.waits c s = false → exec i s = .next (laneAccess sh c s)) ∧
    (∀ l, sh.planes = 0 → sh.room ≠ .memory → sh.addr c l = c.a f l + BitVec.ofInt 64 sh.off) ∧
    (∀ l, sh.planes = 0 → sh.room = .memory →
      sh.addr c l = (c.g.getX (f.b.toNat % 8)).vb + (c.a f l + BitVec.ofInt 64 sh.off)) ∧
    (sh.deed = .load → sh.planes = 0 → sh.performs c = c.act) ∧ (sh.deed ≠ .load → sh.performs c = c.real) ∧
    (sh.room = .window → sh.deed = .load ∨ sh.deed = .store → sh.size ∈ [1, 2, 4, 8])

/-- R208, R210, R211, R35: with every lane in bounds and aligned and no dovetail, STS leaves in each byte of the unit's
scratchpad that of the highest lane that stores to it, and every other byte, register and byte of memory as it was; LDS and
LDP make their destination empty and hold the bytes they read. -/
def Sys2Proof.Claims.ScratchpadStoresAndLoads : Prop :=
  ∀ (f : LF) (s : State) (c : LaneCtx) (u : UnitRec) (sh : Shape), s.laneActor f = some c → c.r.dove = none → c.act ≠ 0 →
    s.unitOf c.g = some u → c.g.replayFull = false →
    (∀ l, l < 32 → c.act.getLsbD l = true → (sh.addr c l).toNat % sh.size = 0 ∧ (sh.addr c l).toNat + sh.size ≤ u.scrSize) →
    u.scrSize < 2 ^ 63 →
    (sh = plainShape .scratchpad .store f → sh.waits c s = false → c.emptyRead f 1 0 1 = false →
      ∃ (t : State) (u' : UnitRec), exec (.lSts f) s = .next (t.issued (sh.cycles c)) ∧ t = { s with units := t.units, groups := t.groups } ∧
        FMap.get t.units c.g.uid = some u' ∧ (∀ x, x ≠ c.g.uid → FMap.get t.units x = FMap.get s.units x) ∧
        u' = { u with scratch := u'.scratch, scrPoison := u'.scrPoison } ∧
        (∀ q l, l < 32 → c.real.getLsbD l = true → (sh.addr c l).toNat ≤ q → q < (sh.addr c l).toNat + sh.size →
          (∀ k, k < 32 → c.real.getLsbD k = true → l < k → q < (sh.addr c k).toNat ∨ (sh.addr c k).toNat + sh.size ≤ q) →
          FMap.rd 0 u'.scratch q = BitVec.ofNat 8 ((c.c f l).toNat / 2 ^ (8 * (q - (sh.addr c l).toNat)))) ∧
        (∀ q, (∀ l, l < 32 → c.real.getLsbD l = true → q < (sh.addr c l).toNat ∨ (sh.addr c l).toNat + sh.size ≤ q) →
          FMap.rd 0 u'.scratch q = FMap.rd 0 u.scratch q)) ∧
    (sh = plainShape .scratchpad .load f → sh.waits c s = false → c.emptyRead f 1 0 0 = false → f.d.toNat < 232 →
      ∃ (t : State) (g' : Group) (p' : Split) (q : Producer), exec (.lLds f) s = .next (t.issued (sh.cycles c)) ∧
        t = { s with groups := t.groups } ∧ t.actor = some (g', p') ∧ FMap.get g'.replay c.g.nextPid = some q ∧
        q.dest = .lanes f.d.toNat 1 c.r.sup ∧ q.mask = c.act ∧ q.ready = c.act ∧
        (∀ l, l < 32 → g'.emptyV c.r.sup f.d.toNat l = (c.act.getLsbD l || c.g.emptyV c.r.sup f.d.toNat l)) ∧
        (∀ l, l < 32 → c.act.getLsbD l = true → FMap.rd 0 q.vals l = BitVec.ofNat 64 (u.scrAt (sh.addr c l).toNat sh.size)))

/-- R110, R206 to R209, R213, R303: where the lanes of LD, LD.planes, ST or ATOM translate with no fault, the instruction
completes: a store leaves nothing in the replay queue; a load or atomic leaves its destination empty in the lanes that perform
it and 0 in the lanes that act without performing; each load and atomic has its value from the L1 or is in a packet on its way,
and each byte of a store but those of the write buffer is in such a packet, unless a higher lane stores to it. Inside an X register's range, with the access
granted and, for a write, D set, every lane translates so, at the location of the register's leaf. -/
def Sys2Proof.Claims.LaneMemoryAccessesComplete : Prop :=
  ∀ (f : LF) (s s0 s1 : State) (c : LaneCtx) (rs : List Req) (i : Instr) (sh : Shape) (nc pid : Nat), (i, sh, nc) ∈
      [(Instr.lLd f, plainShape .memory .load f, 0), (.lSt f, plainShape .memory .store f, 1),
       (.lLdPlanes f, { plainShape .memory .load f with size := 8, signed := false, planes := planeLanes f }, 0),
       (.lAtom f, atomShape .memory f, 1)] →
    s.laneActor f = some c → c.r.dove = none → c.act ≠ 0 → c.emptyRead f 1 0 nc = false → sh.waits c s = false →
    pid = (s.addProducer (sh.producer c s.cur.place)).2 →
    s0 = (s.addProducer (sh.producer c s.cur.place)).1.zeroLanes pid f.d.toNat c.r.sup (sh.zeroed c) →
    ((translateLanes s0 (coreOfGid s.gid) (s.asidOf c.g) sh (sh.producer c s.cur.place) (some (c.g.getX sh.x)) (lanesIn (sh.performs c)) =
        (s1, rs, []) →
      ∃ (t : State) (g' : Group), exec i s = .next (t.issued (sh.cycles c)) ∧
        t = { s1 with groups := t.groups, cores := t.cores, l2 := t.l2, pkts := t.pkts, nextPkt := t.nextPkt, switches := t.switches } ∧
        FMap.get t.groups s.gid = some g' ∧ (∀ x, x ≠ s.gid → FMap.get t.groups x = FMap.get s1.groups x) ∧
        (sh.deed = .store → FMap.get g'.replay pid = none) ∧
        (sh.deed ≠ .store → f.d.toNat < 232 → ∀ l, l < 32 →
          g'.emptyV c.r.sup f.d.toNat l = ((sh.performs c).getLsbD l || (!c.act.getLsbD l && c.g.emptyV c.r.sup f.d.toNat l)) ∧
          (c.act.getLsbD l = true → (sh.performs c).getLsbD l = false → g'.getV c.r.sup f.d.toNat l = 0)) ∧
        (sh.deed ≠ .store → ∀ r, r ∈ rs → ∃ q : Producer, FMap.get g'.replay pid = some q ∧ q.mask = c.act ∧ q.sent = true ∧ q.flt = 0 ∧
          (q.ready.getLsbD r.lane = true ∨ ∃ (id : Nat) (p : Packet) (accs : List Acc) (a : Acc) (so prom guest : Bool) (kind order scope : Nat),
            FMap.get t.pkts id = some p ∧ p.gid = s.gid ∧ p.body = .req accs (some pid) so prom kind guest order scope ∧ a ∈ accs ∧
            a.lane = r.lane ∧ a.size = r.size ∧ a.loc = if leafPeer r.leaf = 0 then r.loc else r.va)) ∧
        (sh.deed = .store → ∀ r, r ∈ rs → accessKind r.leaf r.va ≠ 2 ∨ leafPeer r.leaf ≠ 0 →
          ∃ v, r.op = .store v ∧ ∀ i, i < r.size → ByteOnItsWay t s.gid rs r v i)) ∧
    ((∀ l, l < 32 → (sh.performs c).getLsbD l = true → (sh.addr c l).toNat % sh.size = 0 ∧
        0 ≤ (sh.addr c l - (c.g.getX sh.x).vb).toInt ∧
        (sh.addr c l - (c.g.getX sh.x).vb).toInt + sh.size ≤ (c.g.getX sh.x).lim.toNat) →
      (sh.writes = true → leafD (c.g.getX sh.x).pte = true) →
      rightsFault (c.g.getX sh.x).pte (if sh.writes then .write else .read) (!c.r.sup) = none →
      s0 = { s with groups := s0.groups } ∧ ∃ rs : List Req,
        translateLanes s0 (coreOfGid s.gid) (s.asidOf c.g) sh (sh.producer c s.cur.place) (some (c.g.getX sh.x)) (lanesIn (sh.performs c)) =
          (s0, rs, []) ∧
        ∀ l, l < 32 → (sh.performs c).getLsbD l = true → sh.deed ≠ .store ∨
            (∀ k, k < 32 → (sh.performs c).getLsbD k = true → l < k →
              (sh.addr c l).toNat + sh.size ≤ (sh.addr c k).toNat ∨ (sh.addr c k).toNat + sh.size ≤ (sh.addr c l).toNat) →
          ∃ r, r ∈ rs ∧ r.lane = l ∧ r.va = (sh.addr c l).toNat ∧ r.size = sh.size ∧ r.leaf = (c.g.getX sh.x).pte ∧
            r.loc = leafLoc (c.g.getX sh.x).pte (sh.addr c l).toNat ∧ (sh.deed = .store → r.op = .store (c.c f l))))

/-- R205, R211, R293, R35: with every lane in bounds and aligned, the lines of its windows resident or to be taken in with nothing
evicted, and no dovetail, LDP makes its destination empty and holds the bytes
of each lane's window; STP changes those bytes of each lane's window that the lane stores to, and nothing else in it. -/
def Sys2Proof.Claims.WindowAccessesComplete : Prop :=
  ∀ (f : LF) (s : State) (c : LaneCtx) (u : UnitRec) (sh : Shape), s.laneActor f = some c → c.r.dove = none → c.act ≠ 0 →
    s.unitOf c.g = some u → u.priv ≤ 2048 → sh.waits c s = false → WindowsAtHand s c u sh →
    (∀ l, l < 32 → c.act.getLsbD l = true → (sh.addr c l).toNat % sh.size = 0 ∧ (sh.addr c l).toNat + sh.size ≤ u.priv) →
    (sh = plainShape .window .load f → c.emptyRead f 1 0 0 = false →
      ∃ (t : State) (g' : Group) (q : Producer), exec (.lLdp f) s = .next (t.issued (sh.cycles c)) ∧
        t = { s with groups := t.groups, units := t.units } ∧ FMap.get t.groups s.gid = some g' ∧ g'.win = c.g.win ∧ g'.v = c.g.v ∧
        (∀ x u', FMap.get t.units x = some u' → ∃ u0, FMap.get s.units x = some u0 ∧ u' = { u0 with lru := u'.lru }) ∧
        (∀ l, l < 32 → c.act.getLsbD l = true → (FMap.get g'.lines (u.windowLine (sh.addr c l).toNat)).isSome = true) ∧
        FMap.get g'.replay c.g.nextPid = some q ∧ q.mask = c.act ∧ q.ready = c.act ∧
        (f.d.toNat < 232 → q.dest = .lanes f.d.toNat 1 c.r.sup ∧
          ∀ l, l < 32 → g'.emptyV c.r.sup f.d.toNat l = (c.act.getLsbD l || c.g.emptyV c.r.sup f.d.toNat l)) ∧
        (∀ l, l < 32 → c.act.getLsbD l = true → FMap.rd 0 q.vals l = BitVec.ofNat 64 (c.g.winAt l (sh.addr c l).toNat sh.size))) ∧
    (sh = plainShape .window .store f → c.emptyRead f 1 0 1 = false →
      ∃ (t : State) (g' : Group), exec (.lStp f) s = .next (t.issued (sh.cycles c)) ∧
        t = { s with groups := t.groups, units := t.units } ∧ FMap.get t.groups s.gid = some g' ∧
        (∀ x u', FMap.get t.units x = some u' → ∃ u0, FMap.get s.units x = some u0 ∧ u' = { u0 with lru := u'.lru }) ∧
        (∀ l, l < 32 → c.real.getLsbD l = true → FMap.get g'.lines (u.windowLine (sh.addr c l).toNat) = some .dirty) ∧
        g' = { c.g with win := g'.win, winBad := g'.winBad, lines := g'.lines, written := g'.written, replay := g'.replay,
                        nextPid := c.g.nextPid + 1, splits := g'.splits } ∧ FMap.get g'.replay c.g.nextPid = none ∧
        (∀ l n, l < 32 → c.real.getLsbD l = true → n < sh.size →
          FMap.rd 0 g'.win (2048 * l + (sh.addr c l).toNat + n) = BitVec.ofNat 8 ((c.c f l).toNat / 2 ^ (8 * n))) ∧
        (∀ x, (∀ l, l < 32 → c.real.getLsbD l = true →
          x < 2048 * l + (sh.addr c l).toNat ∨ 2048 * l + (sh.addr c l).toNat + sh.size ≤ x) →
          FMap.rd 0 g'.win x = FMap.rd 0 c.g.win x))

/-- R205, R212 to R214: with every lane in bounds and aligned and no dovetail, ATOMS makes its destination empty in the lanes
that are no helpers, holds the value that each such lane's location had, and leaves there the value of R213's table (for a location
of one lane only); every other byte of the scratchpad stays. -/
def Sys2Proof.Claims.ScratchpadAtomicsComplete : Prop :=
  ∀ (f : LF) (s : State) (c : LaneCtx) (u : UnitRec) (sh : Shape), s.laneActor f = some c → c.r.dove = none → c.act ≠ 0 →
    s.unitOf c.g = some u → u.scrSize < 2 ^ 63 → sh = atomShape .scratchpad f → sh.waits c s = false → c.emptyRead f 1 0 1 = false →
    (∀ l, l < 32 → c.real.getLsbD l = true → (sh.addr c l).toNat % sh.size = 0 ∧ (sh.addr c l).toNat + sh.size ≤ u.scrSize) →
    ∃ (t : State) (g' : Group) (u' : UnitRec), exec (.lAtoms f) s = .next (t.issued (sh.cycles c)) ∧
      t = { s with groups := t.groups, units := t.units, cores := t.cores, l2 := t.l2 } ∧
      FMap.get t.groups s.gid = some g' ∧ FMap.get t.units c.g.uid = some u' ∧
      (∀ x, x ≠ c.g.uid → FMap.get t.units x = FMap.get s.units x) ∧ u' = { u with scratch := u'.scratch } ∧
      (∀ l, l < 32 → c.real.getLsbD l = true → ∃ q : Producer, FMap.get g'.replay c.g.nextPid = some q ∧ q.mask = c.act ∧
        q.ready = c.real ∧
        ((∀ k, k < 32 → c.real.getLsbD k = true → k ≠ l →
            (sh.addr c l).toNat + sh.size ≤ (sh.addr c k).toNat ∨ (sh.addr c k).toNat + sh.size ≤ (sh.addr c l).toNat) →
          FMap.rd 0 q.vals l = BitVec.ofNat 64 (u.scrAt (sh.addr c l).toNat sh.size) ∧
          u'.scrAt (sh.addr c l).toNat sh.size = atomicNew sh.op sh.aty (8 * sh.size) (u.scrAt (sh.addr c l).toNat sh.size)
            ((c.c f l).toNat % 2 ^ (8 * sh.size)) ((if sh.op = 7 then c.reg f f.d.toNat l else 0).toNat % 2 ^ (8 * sh.size)) %
              2 ^ (8 * sh.size))) ∧
      (f.d.toNat < 232 → ∀ l, l < 32 →
        g'.emptyV c.r.sup f.d.toNat l = (c.real.getLsbD l || (!c.act.getLsbD l && c.g.emptyV c.r.sup f.d.toNat l))) ∧
      (∀ q, (∀ l, l < 32 → c.real.getLsbD l = true → q < (sh.addr c l).toNat ∨ (sh.addr c l).toNat + sh.size ≤ q) →
        FMap.rd 0 u'.scratch q = FMap.rd 0 u.scratch q)

/-- R35, R110, R205 to R214: loads, stores and atomics of the lanes, in memory and in the scratchpad. -/
def Obligations.LaneAndScratchpadAccesses : Prop := Sys2Proof.Claims.LaneMemoryInstructions ∧ Sys2Proof.Claims.ScratchpadStoresAndLoads ∧ Sys2Proof.Claims.LaneMemoryAccessesComplete ∧ Sys2Proof.Claims.WindowAccessesComplete ∧ Sys2Proof.Claims.ScratchpadAtomicsComplete

/-- R216 to R219, R349: HPUSH waits for an acquire that has not read, then writes slot P mod N in the acting lanes that are no helpers and advances P unless HOLD; HPOP makes its
destination empty and waits for its slot; both trap HODFAULT by R217; TRAPIF traps after itself in the lanes whose A asks
for it; LNOP holds the slot for 1 + n cycles. An HPUSH or HPOP that acts in no lane does nothing. -/
def Obligations.LaneHodsAndTrapif : Prop :=
  ∀ (f : LF) (s : State) (c : LaneCtx), s.laneActor f = some c →
    (c.act = 0 → (c.emptyRead f 0 0 1 = false → exec (.lHpush f) s = .next (s.issued 1)) ∧
      exec (.lHpop f) s = .next (s.issued 1)) ∧
    (∀ (u : UnitRec) (h : Hod), c.act ≠ 0 → s.unitOf c.g = some u → FMap.get u.hods f.b.toNat = some h →
      (h.owned true = false → f.imm.toNat % 8 = 0 → c.emptyRead f 0 0 1 = false → s.acquiring s.gid s.cur.place = false →
        (∀ l, l < 32 → c.act.getLsbD l = true → f.imm.toNat + 8 * l + 8 ≤ h.slotb) →
        (h.room = 0 → exec (.lHpush f) s = .next s.suspend) ∧
        (0 < h.room → c.r.dove = none → ∃ (u' : UnitRec) (h' : Hod) (t : State), exec (.lHpush f) s = .next (t.issued 1) ∧
          t = { s with units := t.units, groups := t.groups } ∧ t.actor.map (·.1.v) = some c.g.v ∧
          FMap.get t.units c.g.uid = some u' ∧
          u' = { u with scratch := u'.scratch, scrPoison := u'.scrPoison, hods := u'.hods } ∧
          FMap.get u'.hods f.b.toNat = some h' ∧ h' = { h with p := if f.md = 0 then h.p + 1 else h.p } ∧
          (∀ l k, l < 32 → k < 8 → c.real.getLsbD l = true →
            FMap.rd 0 u'.scratch (h.slotAt h.p + f.imm.toNat + 8 * l + k) = BitVec.ofNat 8 ((c.c f l).toNat / 2 ^ (8 * k))) ∧
          (∀ q, (∀ l, l < 32 → c.real.getLsbD l = true → q < h.slotAt h.p + f.imm.toNat + 8 * l ∨
              h.slotAt h.p + f.imm.toNat + 8 * l + 8 ≤ q) → FMap.rd 0 u'.scratch q = FMap.rd 0 u.scratch q))) ∧
      (h.owned true = true → c.emptyRead f 0 0 1 = false → s.acquiring s.gid s.cur.place = false → exec (.lHpush f) s = .next (s.laneTrap .P cHODFAULT 0 c.act)) ∧
      (h.owned false = false → h.fault = none → f.imm.toNat % 8 = 0 → f.d.toNat < 232 →
        (∀ l, l < 32 → c.act.getLsbD l = true → f.imm.toNat + 8 * l + 8 ≤ h.slotb) →
        (c.g.replayFull = true ∨ s.asksAcquire s.gid s.cur.place = true → exec (.lHpop f) s = .next s.suspend) ∧
        (c.g.replayFull = false → s.asksAcquire s.gid s.cur.place = false → ∃ (t : State) (g' : Group) (p' : Split) (q : Producer),
          exec (.lHpop f) s = .next (t.issued 1) ∧ t = { s with groups := t.groups } ∧ t.actor = some (g', p') ∧
          FMap.get g'.replay c.g.nextPid = some q ∧ q.kind = .hpop f.b.toNat f.imm.toNat (decide (f.md ≠ 0)) ∧
          q.dest = .lanes f.d.toNat 1 c.r.sup ∧ q.mask = c.act ∧ q.ready = 0 ∧
          (∀ l, l < 32 → c.act.getLsbD l = true → g'.emptyV c.r.sup f.d.toNat l = true))) ∧
      (∀ k va, h.fault = some (k, va) → exec (.lHpop f) s = .next (s.laneTrap .P cHODFAULT va c.act))) ∧
    (c.act ≠ 0 → s.acquiring s.gid s.cur.place = true → c.emptyRead f 0 0 1 = false → exec (.lHpush f) s = .next s.suspend) ∧
    (∀ t : Lanes, c.emptyRead f 1 0 0 = false →
      (∀ l, l < 32 → t.getLsbD l = (c.act.getLsbD l && (decide (c.a f l ≠ 0) ^^ decide (f.md = 1)))) →
      (t = 0 → exec (.lTrapif f) s = .next (s.issued 1)) ∧
      (t ≠ 0 → exec (.lTrapif f) s = .next (s.laneTrapAfter 1 (f.imm.toNat % 2 ^ 8)
        (BitVec.ofNat 64 (f.imm.toNat / 2 ^ 8 % 2 ^ 16)) t))) ∧
    exec (.lLnop f) s = .next (s.issued (1 + f.imm.toNat))

/-- R29, R226 to R236: WLD and WLDS start the load of a bank, with the descriptor that the unit latched; MMA and MMAS, with the
bank ready and the array free, replace each element of row m of the tile, for each acting lane m that is no helper, by the
epilogue of the accumulated chunks; they wait suspended while the array takes rows, loads their bank or re-latches it; ACCZ clears
rows, ACCWR writes a window of them and ACCRD reads one. That R236's checks come before anything is loaded is log entry 42. -/
def Obligations.MatrixInstructions : Prop :=
  ∀ (f : LF) (s : State) (c : LaneCtx) (u : UnitRec), s.laneActor f = some c → s.unitOf c.g = some u → c.act ≠ 0 →
    (∀ (sparse : Bool) (d : BankDesc), d = ⟨(c.a f 0).toNat + f.imm.toNat, f.ty.toNat, sparse, f.md.getLsbD 1⟩ →
      (d.off % 64 = 0 → d.off + 64 ≤ u.scrSize → d.off + imageBytes d (u.scrAt d.off 8) ≤ u.scrSize →
        exec (if sparse then .lWlds f else .lWld f) s = .next (((s.updUnit c.g.uid (fun u => { u with
          banks := FMap.put u.banks (f.md.toNat % 2) d })).setBank s.cur.core (f.md.toNat % 2) ⟨c.g.uid, d, [], true, true⟩).issued 1)) ∧
      (d.off % 64 ≠ 0 → exec (if sparse then .lWlds f else .lWld f) s =
        .next (s.laneTrap .P cMISALIGN (BitVec.ofNat 64 d.off) c.act)) ∧
      (d.off % 64 = 0 → u.scrSize < d.off + 64 → exec (if sparse then .lWlds f else .lWld f) s =
        .next (s.laneTrap .P cPROTECT (BitVec.ofNat 64 d.off) c.act))) ∧
    (∀ (sparse : Bool) (b : Bank), (c.latched f = true ∨ c.emptyRead f (matNr f.ty.toNat) 0 0 = false) →
      bankReady (s.core s.cur.core) u c.g.uid (f.md.toNat % 2) f sparse = .ready b → s.relatching (f.md.toNat % 2) = false →
      s.arrayBusy = false → c.r.suspended = false → ∃ (t : State) (u' : UnitRec), exec (if sparse then .lMmas f else .lMma f) s =
          .next (t.issued (if c.latched f then 1 else if sparse then 16 else 32)) ∧
        FMap.get t.units c.g.uid = some u' ∧ u' = { u with tiles := u'.tiles, tileBad := u'.tileBad } ∧
        (t.core s.cur.core).arrayFree = (s.core s.cur.core).ccyc + (if sparse then 16 else 32) ∧
        (∀ x, x ≠ c.g.uid → FMap.get t.units x = FMap.get s.units x) ∧ t.mem = s.mem ∧
        (∀ a m n, a < 16 → m < 32 → n < 128 → f.d.toNat < 16 →
          (a = f.d.toNat ∧ c.real.getLsbD m = true →
            u'.tileAt a m n = BitVec.ofNat 40 (epilogue (f.md.toNat / 4 % 4)
              (round fmt40 0 (.ofBits fmt32 (fld (if f.md.toNat / 4 % 4 = 2 then c.reg f f.c.toNat 0 else 0) 0 32)))
              (round fmt40 0 (.ofBits fmt32 (fld (if f.md.toNat / 4 % 4 = 2 then c.reg f f.c.toNat 0 else 0) 32 32)))
              (b.scale n) (matDot (matRow f.ty.toNat (c.aWord f s.fresh m)) (b.column n)
                (if f.md.toNat / 16 % 2 = 1 then 0 else (u.tileAt a m n).toNat)))) ∧
          (¬(a = f.d.toNat ∧ c.real.getLsbD m = true) → u'.tileAt a m n = u.tileAt a m n))) ∧
    (∀ sparse : Bool, (c.latched f = true ∨ c.emptyRead f (matNr f.ty.toNat) 0 0 = false) →
      bankReady (s.core s.cur.core) u c.g.uid (f.md.toNat % 2) f sparse ≠ .engine →
      (s.arrayBusy = true ∨ s.relatching (f.md.toNat % 2) = true ∨ bankReady (s.core s.cur.core) u c.g.uid (f.md.toNat % 2) f sparse ∈ [.wait, .relatch]) →
      ∃ t : State, exec (if sparse then .lMmas f else .lMma f) s = .next t.suspend ∧ t.units = s.units ∧ t.groups = s.groups ∧
        t.mem = s.mem) ∧
    (∀ sparse : Bool, (c.latched f = true ∨ c.emptyRead f (matNr f.ty.toNat) 0 0 = false) →
      bankReady (s.core s.cur.core) u c.g.uid (f.md.toNat % 2) f sparse = .engine →
      exec (if sparse then .lMmas f else .lMma f) s = .next (s.laneTrap .P cENGINE 0 c.act)) ∧
    (f.d.toNat < u.acc → u.acc ≤ 16 → c.emptyRead f 0 0 0 = false → ∃ (t : State) (u' : UnitRec),
      exec (.lAccz f) s = .next (t.issued 1) ∧ t = { s with units := t.units } ∧ FMap.get t.units c.g.uid = some u' ∧
      u' = { u with tiles := u'.tiles, tileBad := u'.tileBad } ∧ ∀ a m n, a < 16 → m < 32 → n < 128 → u'.tileAt a m n =
        if a = f.d.toNat ∧ c.real.getLsbD m = true then 0 else u.tileAt a m n) ∧
    (f.d.toNat < u.acc → u.acc ≤ 16 → c.emptyRead f 8 0 0 = false → f.imm.toNat + 8 * accCols f.ty.toNat ≤ 128 →
      ∃ (t : State) (u' : UnitRec), exec (.lAccwr f) s = .next (t.issued 1) ∧ t = { s with units := t.units } ∧
      FMap.get t.units c.g.uid = some u' ∧ u' = { u with tiles := u'.tiles, tileBad := u'.tileBad } ∧
      (∀ m k, m < 32 → k < 8 * accCols f.ty.toNat → c.real.getLsbD m = true → u'.tileAt f.d.toNat m (f.imm.toNat + k) =
        accIn f.ty.toNat (c.reg f (f.a.toNat + k / accCols f.ty.toNat) m) (k % accCols f.ty.toNat)) ∧
      (∀ a m n, a < 16 → m < 32 → n < 128 → (a ≠ f.d.toNat ∨ c.real.getLsbD m = false ∨ n < f.imm.toNat ∨
        f.imm.toNat + 8 * accCols f.ty.toNat ≤ n) → u'.tileAt a m n = u.tileAt a m n)) ∧
    (f.a.toNat < u.acc → c.emptyRead f 0 0 0 = false → c.g.replayFull = false → ∃ (t : State) (g' : Group) (p' : Split) (q : Producer),
      exec (.lAccrd f) s = .next (t.issued 1) ∧ t = { s with groups := t.groups } ∧ t.actor = some (g', p') ∧
      FMap.get g'.replay c.g.nextPid = some q ∧ q.dest = .lanes f.d.toNat 8 c.r.sup ∧ q.mask = c.act ∧
      ∀ m i, m < 32 → i < 8 → c.act.getLsbD m = true → FMap.rd 0 q.vals (32 * i + m) =
        accOut f.ty.toNat f.rm.toNat (u.tileAt f.a.toNat m) (f.imm.toNat + accCols f.ty.toNat * i))

/-- R237 to R241: TRACE checks each lane's ray, gives helper lanes and invalid rays their record at once and sends the others, each with
the message of R238;
RESUME sends each lane's suspended ray on, HITGET waits for its next record; a lane whose block has no such ray traps
ENGINE. Where no lane acts, TRACE and HITGET only hold the slot. -/
def Obligations.RayInstructions : Prop :=
  ∀ (f : LF) (s : State) (c : LaneCtx), s.laneActor f = some c →
    (c.act = 0 → c.emptyRead f 4 1 0 = false → exec (.lTrace f) s = .next (s.issued 2)) ∧
    (c.act = 0 → c.emptyRead f 4 0 0 = false → exec (.lHitget f) s = .next (s.issued 1)) ∧
    (c.act ≠ 0 → c.real = 0 → c.emptyRead f 4 1 0 = false → c.g.replayFull = false → s.acquiring s.gid s.cur.place = false → f.d.toNat + 4 ≤ 216 →
      ∃ (t : State) (g' : Group) (p' : Split), exec (.lTrace f) s = .next (t.issued 2) ∧ t = { s with groups := t.groups } ∧
        t.actor = some (g', p') ∧ ∀ l k, l < 32 → k < 4 → c.act.getLsbD l = true →
          g'.getV c.r.sup (f.d.toNat + k) l = (recordRegs 0 0 false none).getD k 0 ∧
          g'.emptyV c.r.sup (f.d.toNat + k) l = false) ∧
    (∀ s1 cases bad, c.act ≠ 0 → c.emptyRead f 4 1 0 = false →
      traceCases s c f (slackOf c.g c.p f.sk) = (s1, cases) →
      (∀ l, l < 32 → bad.getLsbD l = (c.real.getLsbD l && ((FMap.get c.g.rays (rayKey l (recBlock c.r.sup f.d.toNat))).isSome ||
        (cases.any (fun e => decide (e.1 = l) && (match e.2 with | .send _ _ => true | .invalid _ => false)) &&
          decide (4 ≤ c.g.raysOf l))))) →
      (bad ≠ 0 → exec (.lTrace f) s = .next (s.laneTrap .P cENGINE 0 bad)) ∧
      (bad = 0 → c.g.replayFull = true ∨ s1.acquiring s1.gid s1.cur.place = true → exec (.lTrace f) s = .next s.suspend) ∧
      (bad = 0 → s1.gensFull cases = true → exec (.lTrace f) s = .next s.suspend) ∧
      (bad = 0 → c.g.replayFull = false → s1.acquiring s1.gid s1.cur.place = false → s1.gensFull cases = false →
        ∃ (t : State) (g' : Group), exec (.lTrace f) s = .next (t.issued 2) ∧ FMap.get t.groups s.gid = some g' ∧
        t.nextRay = s.nextRay + (cases.filter (fun e => match e.2 with | .send _ _ => true | .invalid _ => false)).length ∧
        t.mem = s1.mem ∧
        (∀ l r home, (l, TraceCase.send r home) ∈ cases → RayOf s c f l (slackOf c.g c.p f.sk) home r ∧
          ∃ (pid id n : Nat) (p : Packet), FMap.get t.rays id = some { r with pid := some pid } ∧
            FMap.get g'.rays (rayKey l r.block) = some id ∧ FMap.get t.pkts n = some p ∧ p.body = .ray id ∧ p.gid = s.gid ∧
            p.vc = 2 ∧ p.flits = 3 ∧ p.slack = r.slack ∧ p.path = pathToSill s.cur.core home ∧
            (f.d.toNat + 4 ≤ 216 → ∀ k, k < 4 → g'.emptyV c.r.sup (f.d.toNat + k) l = true)) ∧
        (∀ l gen, (l, TraceCase.invalid gen) ∈ cases → f.d.toNat + 4 ≤ 216 → ∀ k, k < 4 →
          g'.emptyV c.r.sup (f.d.toNat + k) l = false ∧
          g'.getV c.r.sup (f.d.toNat + k) l = (recordRegs 3 gen false none).getD k 0) ∧
        (∀ l, l < 32 → c.real.getLsbD l = true → ∃ k, (l, k) ∈ cases))) ∧
    (∀ (op : Fin 3) (bad : Lanes) (i : Instr), i = (if op = 0 then .lResumeReject f else if op = 1 then .lResumeAccept f else .lResumeEnd f) →
      (∀ l, l < 32 → bad.getLsbD l = (c.real.getLsbD l && !(c.g.rayAt s l (recBlock c.r.sup f.a.toNat)).any (fun e => e.2.atCandidate))) →
      c.emptyRead f 4 0 0 = false → (bad ≠ 0 → exec i s = .next (s.laneTrap .P cENGINE 0 bad)) ∧
      (bad = 0 → ∃ (t : State), exec i s = .next (t.issued 1) ∧ t.groups = s.groups ∧ t.mem = s.mem ∧
        t.nextPkt ≥ s.nextPkt + countLanes c.real ∧
        ∀ l id r, l < 32 → c.real.getLsbD l = true → c.g.rayAt s l (recBlock c.r.sup f.a.toNat) = some (id, r) →
          ∃ r', FMap.get t.rays id = some r' ∧ r'.stage = .resuming op.val ∧ r'.resumed = true ∧ r'.pid = none)) ∧
    (∀ bad : Lanes, c.act ≠ 0 →
      (∀ l, l < 32 → bad.getLsbD l = (c.real.getLsbD l && (!(c.g.rayAt s l (recBlock c.r.sup f.a.toNat)).any (fun e => e.2.resumed && e.2.pid.isNone) ||
        (decide (recBlock c.r.sup f.d.toNat ≠ recBlock c.r.sup f.a.toNat) &&
          (FMap.get c.g.rays (rayKey l (recBlock c.r.sup f.d.toNat))).isSome)))) → c.emptyRead f 4 0 0 = false →
      (bad ≠ 0 → exec (.lHitget f) s = .next (s.laneTrap .P cENGINE 0 bad)) ∧
      (bad = 0 → c.g.replayFull = true → exec (.lHitget f) s = .next s.suspend) ∧
      (bad = 0 → c.g.replayFull = false → ∃ (t : State), exec (.lHitget f) s = .next (t.issued 1) ∧ t.mem = s.mem ∧
        t.nextPkt = s.nextPkt))

/-- R243 to R246, R412: SAMPLE, HGRID and RCQT, with a free replay entry, send the requests of their acting lanes, whose destination
becomes empty; a lane whose handle names no texture or no grid is filled with NaNs at once; with no lane acting they only hold the slot; RCQT of a network that is not resident traps ENGINE. -/
def Obligations.FilterAndQueryInstructions : Prop :=
  ∀ (f : LF) (s : State) (c : LaneCtx), s.laneActor f = some c →
    (c.act = 0 →
      (c.emptyRead f 1 1 1 = false → exec (.lSample f) s = .next (s.issued 1)) ∧
      (c.emptyRead f 2 0 1 = false → exec (.lHgrid f) s = .next (s.issued 1)) ∧
      (c.emptyRead f (f.md.toNat / 4 + 1) 0 2 = false → exec (.lRcqt f) s = .next (s.issued 2))) ∧
    (c.act ≠ 0 → c.g.replayFull = true ∨ s.acquiring s.gid s.cur.place = true →
      (c.emptyRead f 1 1 1 = false → exec (.lSample f) s = .next s.suspend) ∧
      (c.emptyRead f 2 0 1 = false → exec (.lHgrid f) s = .next s.suspend)) ∧
    (c.act ≠ 0 → c.g.replayFull = false → s.acquiring s.gid s.cur.place = false →
      ∀ (i : Instr) (regs na nb : Nat) (one : State → LaneCtx → Nat → State × FilterCase) (fill : Word) (s1 : State)
          (cases : List (Nat × FilterCase)), (i, regs, na, nb, fill) ∈
          [(Instr.lSample f, if f.md.getLsbD 3 then 2 else 1, 1, 1, (0x7FC0_0000_7FC0_0000 : Word)),
           (.lHgrid f, ceilDiv (hgridM f * hgridF f) 4, 2, 0, 0x7FC0_7FC0_7FC0_7FC0)] →
        one = (if i = .lSample f then (fun s c l => sampleCase s c f l) else (fun s c l => gridCase s c f l)) →
        c.emptyRead f na nb 1 = false → filterCases one s c = (s1, cases) →
        ∃ (t : State) (g' : Group), exec i s = .next (t.issued 1) ∧ FMap.get t.groups s.gid = some g' ∧ t.mem = s1.mem ∧
          (∀ l, l < 32 → c.act.getLsbD l = true → ∃ k, (l, k) ∈ cases) ∧
          (∀ l, (l, FilterCase.fill) ∈ cases → f.d.toNat + regs ≤ 216 → ∀ k, k < regs →
            g'.emptyV c.r.sup (f.d.toNat + k) l = false ∧ g'.getV c.r.sup (f.d.toNat + k) l = fill) ∧
          (∀ l home ops, (l, FilterCase.send home ops) ∈ cases →
            (f.d.toNat + regs ≤ 216 → ∀ k, k < regs → g'.emptyV c.r.sup (f.d.toNat + k) l = true) ∧
            ∃ (n pid : Nat) (p : Packet) (q : Producer), FMap.get t.pkts n = some p ∧ p.gid = s.gid ∧ p.flits = 2 ∧
              p.slack = slackOf c.g c.p f.sk ∧ p.path = pathToSill s.cur.core home ∧
              p.body = .filter pid l (!c.r.sup) ((c.c f l).toNat % 2 ^ 32) ops c.i.bits ∧
              ops.take 1 = [c.a f l] ∧ FMap.get g'.replay pid = some q ∧ q.mask = c.act ∧ q.kind = .filter ∧
              (f.d.toNat < 232 → q.dest = .lanes f.d.toNat regs c.r.sup))) ∧
    (c.act ≠ 0 → c.emptyRead f (f.md.toNat / 4 + 1) 0 2 = false →
      ∀ key, key = netKey (s.partOf c.g) (f.md.toNat % 4) →
      (FMap.get s.nets key = none → exec (.lRcqt f) s = .next (s.laneTrap .P cENGINE 0 c.act)) ∧
      (∀ n, FMap.get s.nets key = some n → c.g.replayFull = false →
        ∃ (t : State) (g' : Group) (p' : Split) (q : Producer), exec (.lRcqt f) s = .next (t.issued 2) ∧ t.actor = some (g', p') ∧
          t.mem = s.mem ∧ s.nextPkt < t.nextPkt ∧ FMap.get g'.replay c.g.nextPid = some q ∧ q.mask = c.act ∧
          q.kind = .query (f.md.toNat % 4) (f.imm.getLsbD 4) ∧
          q.dest = .lanes f.d.toNat (if f.imm.getLsbD 4 then 3 else 2) c.r.sup ∧
          ∃ (n : Nat) (p : Packet) (qs : List Query), FMap.get t.pkts n = some p ∧ p.body = .query qs ∧ p.gid = s.gid ∧
            p.path = [.rca (clusterOf s.cur.core)] ∧ qs.map (·.lane) = lanesIn c.act ∧ ∀ x, x ∈ qs →
              x.pid = c.g.nextPid ∧ x.net = f.md.toNat % 4 ∧ x.ver = f.imm.getLsbD 4 ∧ x.inputs.length = f.md.toNat + 4 - f.md.toNat % 4 ∧
              (∀ i, i < x.inputs.length → x.inputs.getD i 0 = BitVec.ofNat 16 (elem 16 (c.reg f (f.a.toNat + i / 4) x.lane) (i % 4))) ∧
              x.targets = [0, 1, 2, 3].map (fun r => BitVec.ofNat 32 (elem 32 (c.reg f (f.c.toNat + r / 2) x.lane) (r % 2))) ∧
              (x.train = true ↔ c.g.helper.getLsbD x.lane = false ∧ c.g.getP (f.imm.toNat % 8) x.lane ≠ f.imm.getLsbD 3)))

/-- R36, R365: a source block named with its fe bit that is empty in an acting lane traps EMPTYREAD, precise at the
instruction, which has no effect. -/
def Sys2Proof.Claims.EmptyReadsTrap : Prop :=
  ∀ (f : LF) (s : State) (c : LaneCtx), s.laneActor f = some c →
    (c.emptyRead f 1 1 1 = true → ∀ i ∈ [Instr.lAdd f, .lMad f, .lShl f, .lBfi f, .lDot4 f, .lFfma f, .lFldexp f, .lCvt f,
        .lCmp f, .lSel f, .lMov f, .lPset f], exec i s = .next (s.laneTrap .P cEMPTYREAD 0 c.act)) ∧
    (c.emptyRead f 1 1 0 = true → ∀ i ∈ [Instr.lDiv f, .lRem f, .lBxq f, .lShfl f, .lReds f, .lScan f],
      exec i s = .next (s.laneTrap .P cEMPTYREAD 0 c.act)) ∧
    (c.emptyRead f 1 0 0 = true → ∀ i ∈ [Instr.lLd f, .lLds f, .lLdp f, .lMatch f, .lDdx f, .lQswap f, .lTrapif f],
      exec i s = .next (s.laneTrap .P cEMPTYREAD 0 c.act)) ∧
    (c.emptyRead f 1 0 1 = true → ∀ i ∈ [Instr.lSt f, .lSts f, .lStp f, .lAtom f, .lAtoms f],
      exec i s = .next (s.laneTrap .P cEMPTYREAD 0 c.act)) ∧
    (c.emptyRead f 1 1 1 = true ↔
      ((f.fe.getLsbD 2 = true ∧ ∃ l, l < 32 ∧ c.act.getLsbD l = true ∧ c.g.emptyV c.r.sup f.a.toNat l = true) ∨
       (f.fe.getLsbD 1 = true ∧ ∃ l, l < 32 ∧ c.act.getLsbD l = true ∧ c.g.emptyV c.r.sup f.b.toNat l = true) ∨
       (f.fe.getLsbD 0 = true ∧ ∃ l, l < 32 ∧ c.act.getLsbD l = true ∧ c.g.emptyV c.r.sup f.c.toNat l = true)))

/-- R27, R36, R37, R365: a word waits for an empty scalar register and traps at a shared one; a lane instruction that names an empty block traps EMPTYREAD. -/
def Obligations.EmptyRegisters : Prop := Sys2Proof.Claims.EmptyRegistersWaitAndSharedRegistersTrap ∧ Sys2Proof.Claims.EmptyReadsTrap

/-- R25, R166, R280: when an instruction has issued, the run goes on at its next one and its lane slot is held; a slot that is
held issues nothing, and a charged run's budget pays its hold once; after the last instruction the run ends, with its T
registers, its slot stays held, and no other group changes; a run of the split that a merge had met in progress (R131) is in progress
then. -/
def Obligations.IssueAdvancesTheRun : Prop :=
  ∀ (s : State) (g : Group) (p : Split) (r : Run) (hold : Nat), s.actor = some (g, p) → p.running = some r →
    (∀ i j rest, r.todo = i :: j :: rest → ∃ g' p', (s.issued hold).actor = some (g', p') ∧
      p' = { p with running := some { r with todo := j :: rest } } ∧ g' = { g with splits := g'.splits } ∧
      (∀ q, q ≠ s.cur.place → FMap.get g'.splits q = FMap.get g.splits q) ∧
      (∀ x, x ≠ s.gid → FMap.get (s.issued hold).groups x = FMap.get s.groups x) ∧
      s.issued hold = { s with groups := (s.issued hold).groups, cores := (s.issued hold).cores } ∧
      ((s.issued hold).core s.cur.core).budget = (s.core s.cur.core).budget ∧
      ((s.issued hold).core s.cur.core).l1 = (s.core s.cur.core).l1 ∧
      (∀ n q, FMap.get (s.core s.cur.core).lslots n = some q → FMap.wf (s.core s.cur.core).lslots = true →
        ∃ q', FMap.get ((s.issued hold).core s.cur.core).lslots n = some q' ∧
          q' = { q with hold := if q.pair = some (s.cur.gslot, s.cur.place) ∨ q.leads s.cur.gslot s.cur.place = true
            then hold else q.hold })) ∧
    (∀ i, r.todo = [i] → r.dove = none → g.due = [] → g.stopAsked = false → ∃ g' p', (s.issued hold).actor = some (g', p') ∧
      ((∀ x ∈ p.runq.head?, x.begun = false) → p' = { p with running := none }) ∧
      (∀ x rest, p.runq = x :: rest → x.begun = true → p' = { p with running := some { x with begun := false }, runq := rest }) ∧ (∀ x, x ≠ s.gid → FMap.get (s.issued hold).groups x = FMap.get s.groups x) ∧
      (s.issued hold).mem = s.mem ∧ ((s.issued hold).core s.cur.core).budget = (s.core s.cur.core).budget ∧
      (∀ n q, FMap.get (s.core s.cur.core).lslots n = some q → FMap.wf (s.core s.cur.core).lslots = true →
        q.leads s.cur.gslot s.cur.place = true → q.pair = none →
        FMap.get ((s.issued hold).core s.cur.core).lslots n = some { q with hold := hold, ended := true })) ∧
    (∀ core n q, FMap.get (s.core core).lslots n = some q →
      (q.ended = true ∨ q.hold ≠ 0 → ∀ run waits joint, s.laneTurn run waits joint core n = .next s) ∧
      ((s.chargeSlot core n 0 true).core core).budget = (s.core core).budget - q.hold ∧
      (s.chargeSlot core n 0 false).core core = { s.core core with lslots := ((s.chargeSlot core n 0 false).core core).lslots })

namespace Sys2Proof.Claims

/-- A split of the group in a core's slot. -/
def Stands (s : State) (core gslot place : Nat) (g : Group) (p : Split) : Prop :=
  FMap.get s.groups (gidOf core gslot) = some g ∧ FMap.get g.splits place = some p

/-- From `s` to `t` one split has become `p'`; every other split, group and part of the device is unchanged. -/
def OnlySplit (s t : State) (core gslot place : Nat) (g : Group) (p' : Split) : Prop :=
  ∃ g', Stands t core gslot place g' p' ∧ g' = { g with splits := g'.splits } ∧
    (∀ q, q ≠ place → FMap.get g'.splits q = FMap.get g.splits q) ∧
    (∀ x, x ≠ gidOf core gslot → FMap.get t.groups x = FMap.get s.groups x) ∧ t = { s with groups := t.groups }

/-- The group is where it may take a deferred event (R367). -/
def AtBoundary (g : Group) : Prop :=
  g.halted = false ∧ g.stopped = false ∧ g.handler = none ∧ g.issuing = false ∧ firstDue g.due = none

/-- The bank's tile is the image in the unit's scratchpad as it stands (R226). -/
def Latched (t : State) (core bank : Nat) (uid : Nat) (u : UnitRec) (d : BankDesc) : Prop :=
  ∃ b, FMap.get (t.core core).banks bank = some b ∧ b.uid = uid ∧ b.desc = d ∧ b.loading = false ∧
    (∀ i, i < imageBytes d (u.scrAt d.off 8) → FMap.rd 0 b.image i = FMap.rd 0 u.scratch (d.off + i)) ∧
    (d.sparse = false → b.valid = !u.scrBad d.off (imageBytes d (u.scrAt d.off 8)))

end Sys2Proof.Claims

/-- R166, R274 to R278, R280: a core's cycle ends and the next begins: the cycle counter advances, held slots count down and
those of ended runs that are held no longer become free, at each multiple of 4,096 the issue budget is renewed; then the lowest
free lane slot takes the candidate that comes before the others, with its partner. That a LANE_SLOT_SELECT ends a cycle once
nothing more can issue in it is log entry 54; that runs of one group do not pair is log entry 97. -/
def Obligations.LaneSlotsSelect : Prop :=
  ∀ (s c d : State) (core : Nat), ((s.countSplits core).setCore core ((s.countSplits core).core core).tick).endYields core = c →
    (if (c.core core).ccyc % 4096 = 0 then c.issuePeriod core else c).settleCore core = d →
    (c.core core).ccyc = (s.core core).ccyc + 1 ∧ (c.core core).pipes = 0 ∧ c.mem = s.mem ∧
      (FMap.wf (s.core core).lslots = true → ∀ k q, FMap.get (s.core core).lslots k = some q →
        FMap.get (c.core core).lslots k = if q.ended = true ∧ q.hold ≤ 1 then none else some { q with hold := q.hold - 1 }) ∧
      (∀ gid g place p, FMap.get (s.countSplits core).groups gid = some g → coreOfGid gid = core → FMap.get g.splits place = some p →
        ∃ g', FMap.get c.groups gid = some g' ∧ FMap.get g'.splits place =
          some { p with yielding := if p.yielding ≤ (s.core core).ccyc + 1 then 0 else p.yielding }) ∧
    ∃ t, exec (.evLaneSlotSelect core) s = .next t ∧ (t.core core).ccyc = (d.core core).ccyc ∧ t.mem = d.mem ∧
      (t.core core).budget = (d.core core).budget ∧
      (∀ k q, FMap.get (d.core core).lslots k = some q → FMap.get (t.core core).lslots k = some q) ∧
      (d.cands core = [] → ∀ k, FMap.get (d.core core).lslots k = none → FMap.get (t.core core).lslots k = none) ∧
      (∀ n x, n < 4 → (∀ k, k < n → (FMap.get (d.core core).lslots k).isSome = true) →
        FMap.get (d.core core).lslots n = none → minBy Cand.before (d.cands core) = some x → d.issueOk core = true →
        ∃ q, FMap.get (t.core core).lslots n = some q ∧ q.gslot = x.gslot ∧ q.place = x.place ∧ q.hold = 0 ∧ q.ended = false ∧
          q.pair = (if x.mate.isSome then x.mate
                    else (minBy Cand.before ((d.cands core).filter (fun y => d.pairs core x y))).map (fun y => (y.gslot, y.place))))

/-- R276, R122, R367, R141, R375, R43, R280: a candidate that has waited 64 cycles becomes overdue; a yielding split becomes
eligible again eight cycles later; the deferred event that is next enters at a boundary; which eight cycles those are is log entry 77; an undefined word traps ILLEGAL, or PRIV where it is a privileged one in user mode (log
entry 29); an issue budget is renewed. -/
def Obligations.SchedulerEvents : Prop :=
  ∀ (s : State) (core gslot place : Nat) (g : Group) (p : Split), Stands s core gslot place g p →
    (64 ≤ p.waited → p.overdue = none → ∃ t, exec (.evCandidateOverdue core gslot place false) s = .next t ∧
      OnlySplit s t core gslot place g { p with overdue := some (s.core core).ccyc }) ∧
    (∀ r rest, p.running = none → p.runq = r :: rest → 64 ≤ r.waited → r.overdue = none →
      ∃ t, exec (.evCandidateOverdue core gslot place true) s = .next t ∧
        OnlySplit s t core gslot place g { p with runq := { r with overdue := some (s.core core).ccyc } :: rest }) ∧
    (∀ r, p.running = some r → r.suspended = true → 64 ≤ r.waited → r.overdue = none →
      ∃ t, exec (.evCandidateOverdue core gslot place true) s = .next t ∧
        OnlySplit s t core gslot place g { p with running := some { r with overdue := some (s.core core).ccyc } }) ∧
    (∃ t, exec (.evYieldExpiry core gslot place) s = .next t ∧
      OnlySplit s t core gslot place g { p with yielding := if p.yielding ≤ (s.core core).ccyc then 0 else p.yielding }) ∧
    (∀ d rest, AtBoundary g → g.cancelling = false → g.deferred = some (d, rest) →
      (d.cause ∈ [cPEERFAULT, cPEERTIMEOUT, cPOISON, cLATESLACK] →
        exec (.evDeferredTrapEntry core gslot) s = .next (s.enterTrap (gidOf core gslot) d rest)) ∧
      (d.cause = cCANCELLED → exec (.evCancelledEntry core gslot) s = .next (s.enterTrap (gidOf core gslot) d rest)) ∧
      (d.cause = cPREEMPT → exec (.evPreemptEntry core gslot) s = .next (s.enterTrap (gidOf core gslot) d rest))) ∧
    (∀ w, s.actor = some (g, p) → exec (.evUndefinedEncoding w) s =
      .next (s.trap (if p.user && supervisorWord w then cPRIV else cILLEGAL) 0)) ∧
    (s.partHalted (s.corePart core) = false → ∃ t, exec (.evIssueBudgetPeriod core) s = .next t ∧
      t.core core = { s.core core with
        budget := (allotOf (s.budgetWord (s.corePart core) (·.issue)) : Int) + min (s.core core).budget 0 } ∧
      (∀ c, c ≠ core → t.core c = s.core c) ∧ t = { s.newWord .issue core (s.corePart core) with cores := t.cores }) ∧
    (s.partHalted (s.corePart core) = true → exec (.evIssueBudgetPeriod core) s = .next s)

/-- R264 to R267: the first launch that fits places its next unit on the core chosen, with its groups at the launch's entry
and its twin beside it, and an accepted persistent launch all its units on the cores that it has reserved; a partition that is being saved
places nothing. Which free unit slot a unit takes is log entry 95, which cores twins take is log entry 96. -/
def Obligations.UnitsArePlaced : Prop :=
  ∀ (s : State) (part : Nat),
    ((FMap.get s.parts part).any (fun p => p.saving || p.saved) = true → exec (.evUnitPlacement part) s = .next s) ∧
    ((FMap.get s.parts part).any (fun p => p.saving || p.saved) = false → s.placeable part = [] →
      exec (.evUnitPlacement part) s = .next s) ∧
    (∀ (h0 : Nat) (l0 : Launch) (ls : List (Nat × Launch)), (FMap.get s.parts part).any (fun p => p.saving || p.saved) = false →
      s.placeable part = (h0, l0) :: ls → l0.pers = true → exec (.evUnitPlacement part) s =
        .next (((List.range l0.total).zip l0.reserved).foldl (fun t e => t.placeOn h0 l0 e.1 e.2.1 e.2.2) s)) ∧
    (∀ (h0 : Nat) (l0 : Launch) (ls : List (Nat × Launch)) (h : Nat) (l : Launch) (c : Nat) (twin : Option Nat),
      (FMap.get s.parts part).any (fun p => p.saving || p.saved) = false → s.placeable part = (h0, l0) :: ls →
      l0.pers = false → s.firstFit part (s.placeable part) = some (h, l, c, twin) → FMap.get s.launches h = some l →
      (∀ x, twin = some x → x ≠ c) →
      ∃ t uid u, exec (.evUnitPlacement part) s = .next t ∧ coreOfGid uid = c ∧ FMap.get t.units uid = some u ∧
        u.launch = h ∧ u.index = l.placed ∧ u.gen = s.genOf uid ∧ u.twin.map coreOfGid = twin ∧ t.mem = s.mem ∧
        FMap.get t.launches h = some { l with placed := l.placed + 1, live := l.live + 1 } ∧
        u.groups = fld l.cut 14 4 + 1 ∧ u.vregs = 32 + 8 * fld l.cut 0 5 ∧
        ∀ k gs, u.gslots[k]? = some gs → k < u.groups → ∃ g, FMap.get t.groups (gidOf c gs) = some g ∧ g.uid = uid ∧
          g.idx = k ∧ g.spawned = false ∧ g.splits.map (fun e => (e.1, e.2.pc, e.2.mask)) = [(0, l.entryVa, BitVec.allOnes 32)])

/-- R293, R35, R226, R228, R233: a register line that a run waits for becomes resident; a producer's results land in the lanes
that have them, which are full then; a bank takes the tile's image as it stands in the scratchpad (log entry 93); the matrix array
accepts the instruction at which a lane slot stands, and the slot is charged for it. -/
def Obligations.FillsAndLandings : Prop :=
  ∀ (s : State) (core gslot : Nat) (g : Group), FMap.get s.groups (gidOf core gslot) = some g →
    (∀ line u, (g.wantsLine line = true ∨ g.sfromWants line = true) → s.unitOf g = some u → FMap.get g.lines line = none →
      u.lru.length < s.regionLines u → FMap.rd false g.written line = false →
      ∃ t g' u', exec (.evRegisterLineFill core gslot line) s = .next t ∧ FMap.get t.groups (gidOf core gslot) = some g' ∧
        FMap.get g'.lines line = some .clean ∧ g' = { g with lines := g'.lines, replay := g'.replay } ∧
        FMap.get t.units g.uid = some u' ∧ u' = { u with lru := (128 * (gidOf core gslot % 64) + line) :: u.lru } ∧
        t = { s with groups := t.groups, units := t.units }) ∧
    (∀ pid (q : Producer) first count sup, FMap.get g.replay pid = some q → q.kind = .access ∨ q.kind = .near → q.ctl = false →
      g.handler = none → g.stopFrame = [] → q.arrivedLanes ≠ 0 → q.poison = 0 → q.errs = [] → q.late = 0 →
      (∀ e ∈ s.rays, e.2.pid ≠ some pid) → q.dest = .lanes first count sup → first + count ≤ 232 →
      ∃ t g', exec (.evProducerResultLands core gslot pid) s = .next t ∧ FMap.get t.groups (gidOf core gslot) = some g' ∧
        t = { s with groups := t.groups } ∧ g'.splits = g.splits ∧ g'.s = g.s ∧ g'.p = g.p ∧
        (∀ l i, l < 32 → i < count → q.arrivedLanes.getLsbD l = true →
          g'.emptyV sup (first + i) l = false ∧ g'.getV sup (first + i) l = q.value i l) ∧
        (∀ l r, l < 32 → (q.arrivedLanes.getLsbD l = false ∨ r < first ∨ first + count ≤ r) →
          g'.emptyV sup r l = g.emptyV sup r l ∧ g'.getV sup r l = g.getV sup r l)) ∧
    (∀ pid (q : Producer) n ks p, FMap.get g.replay pid = some q → q.kind = .access → q.ctl = true → g.handler = none →
      g.stopFrame = [] → q.ready ≠ 0 → q.landed ≠ q.mask → q.sup ≠ q.mask → q.poison = 0 → q.errs = [] → q.late = 0 →
      q.dest = .scalar n ks → (ks = true → 56 ≤ n) → FMap.get g.splits q.place = some p →
      ∃ t g' p', exec (.evProducerResultLands core gslot pid) s = .next t ∧ FMap.get t.groups (gidOf core gslot) = some g' ∧
        t = { s with groups := t.groups } ∧ g' = { g with s := g'.s, sEmpty := g'.sEmpty, splits := g'.splits, replay := g'.replay } ∧
        FMap.get g'.splits q.place = some p' ∧ p' = { p with s := p'.s, sEmpty := p'.sEmpty, ks := p'.ks, ksEmpty := p'.ksEmpty } ∧
        getSEmpty g' p' n ks = false ∧ getS g' p' n ks = if n = 0 then 0 else FMap.rd 0 q.vals 32) ∧
    (∀ bank b u, FMap.get (s.core core).banks bank = some b → b.loading = true → FMap.get s.units b.uid = some u →
      ∃ t, exec (.evBankLoad core bank) s = .next t ∧ Latched t core bank b.uid u b.desc ∧ t = { s with cores := t.cores }) ∧
    (∀ bank w r f sparse u d, (s.core core).mmaBusy = some w → w.gid = gidOf core gslot →
      s.mmaWaiting w.gid w.place = some (g, r) → r.mmaNext = some (f, sparse) → f.md.toNat % 2 = bank →
      s.unitOf g = some u → FMap.get u.banks bank = some d →
      bankReady (s.core core) u g.uid bank f sparse = .relatch →
      ∃ t, exec (.evBankRelatch core bank) s = .next t ∧ Latched t core bank g.uid u d ∧ t = { s with cores := t.cores }) ∧
    (s.mmaSlot core = none → exec (.evMatrixAccept core) s = .next s) ∧
    (∀ k e f here, s.mmaSlot core = some k → FMap.get (s.core core).lslots k = some e → e.pair = none → e.gslot = gslot →
      here = ({ s with cur := ⟨core, gslot, e.place⟩ } : State) → ∀ (i : Instr), i = .lMma f ∨ i = .lMmas f →
      s.nextLane core gslot e.place = some i →
      ∃ t t1, exec i here = .next t ∧
        t1 = (if t.lanesLeft here.gid e.place < s.lanesLeft here.gid e.place then t.afterIssue here.gid e.place (here.readings i) else t) ∧
        exec (.evMatrixAccept core) s = .next (if t1.lanesLeft here.gid e.place < s.lanesLeft here.gid e.place then
          t1.chargeSlot core k 0 (s.runCharged here.gid e.place) else t1))

namespace Sys2Proof.Claims

/-- A packet that stands at the end of a link, about to arrive at `here`. -/
def Coming (s : State) (id : Nat) (p : Packet) (here : Place) (rest : List Place) : Prop :=
  FMap.get s.pkts id = some p ∧ p.inLink = true ∧ p.path = here :: rest

/-- The packets that an output may grant (R317, R319, R322). -/
def mayGrant (s : State) (w : Switch) (sw out : Place) : List (Nat × Packet) :=
  s.pkts.filter (fun e => e.2.stands sw && decide (e.2.path.head? = some out ∧ e.2.cyc < w.cycle) && e.2.mayLeave && s.hasCredit w sw out e.2)

/-- The packet has lost 1 of its slack, or has none left; LATE where it has come to 0 (R318). -/
def Ticked (loses : Prop) (p q : Packet) : Prop :=
  q = { p with slack := q.slack, late := q.late, exhausted := q.exhausted } ∧ (loses → q.slack = p.slack - 1) ∧
  (¬loses → q = p) ∧ (loses → q.late = (p.late || decide (p.slack = 1)))

/-- The link of the output carries no packet. -/
def LinkFree (s : State) (sw out : Place) : Prop := ∀ e ∈ s.pkts, ¬(e.2.at_ = sw ∧ e.2.inLink = true ∧ e.2.path.head? = some out)

end Sys2Proof.Claims

/-- R317, R318, R319, R322, R325: an output arbitrates once in a switch cycle, in which idle hops count; a free output of a switch
grants the packet that its order chooses among those that arrived in an earlier cycle and have credit, which is the one of least slack
where none is exhausted and no brace is held; an arriving packet joins its place, where it has a buffer; slack ticks at the end of a
switch's cycles 13 modulo 14. That a switch's cycles are counted at its own events is log entry 54, the numbers of its ports are log
entry 50, the slices' and the sills' ticks are log entry 52. -/
def Obligations.NetworkSwitches : Prop :=
  ∀ (s : State),
    (∀ (sw out : Place) (k id : Nat) (c : State) (w : Switch) (p : Packet), switchKey sw = some k → s.switchCycle sw k out = c →
      FMap.rd Switch.reset c.switches k = w → LinkFree c sw out →
      ((mayGrant c w sw out).filter (fun e => (c.outBudget sw out e.2.part).2)) ≠ [] →
      w.choose sw out ((mayGrant c w sw out).filter (fun e => (c.outBudget sw out e.2.part).2)) = some (id, p) →
      ∃ t, exec (.evSwitchArbitration sw out) s = .next t ∧
        FMap.get t.pkts id = some { p with inLink := true, buf := p.leavesBy w out } ∧
        (∀ x, x ≠ id → FMap.get t.pkts x = FMap.get c.pkts x) ∧
        (FMap.rd Switch.reset t.switches k).cycle = w.cycle ∧ t.mem = s.mem ∧ t.groups = s.groups) ∧
    (∀ (sw out : Place) (k : Nat) (c : State) (w : Switch), switchKey sw = some k → s.switchCycle sw k out = c →
      FMap.rd Switch.reset c.switches k = w → mayGrant c w sw out = [] → exec (.evSwitchArbitration sw out) s = .next c) ∧
    (∀ (sw out : Place) (k : Nat) (c : State) (w x : Switch), s.switchCycle sw k out = c → FMap.rd Switch.reset s.switches k = w →
      FMap.rd Switch.reset c.switches k = x → c = { s with switches := c.switches, cores := c.cores, pkts := c.pkts } ∧
      (w.served.contains out = false → x = { w with served := out :: w.served } ∧ c.cores = s.cores ∧ c.pkts = s.pkts) ∧
      (w.served.contains out = true → (∀ id p, FMap.get s.pkts id = some p → ∃ q, FMap.get c.pkts id = some q ∧
          Ticked (w.cycle % 14 = 13 ∧ p.stands sw = true ∧ p.cyc < w.cycle ∧ p.slack ≠ 0) p q) ∧ x.cycle = w.cycle + 1 ∧ x.served = [out] ∧
        (∀ (o : Place) (b : Hop), w.braceAt o = some b → 256 ≤ b.idle → x.braceAt o = none) ∧
        ((∀ e ∈ w.brace, e.2.idle < 256) → x.brace = w.brace.map (fun e => (e.1, { e.2 with idle := e.2.idle + 1 })) ∧
          c.cores = s.cores))) ∧
    (∀ (w : Switch) (sw out : Place) (cs : List (Nat × Packet)) (id : Nat) (p : Packet), w.choose sw out cs = some (id, p) →
      (id, p) ∈ cs ∧ ((∃ e ∈ cs, e.2.exhausted.isSome = true) → p.exhausted.isSome = true) ∧
      ((∀ e ∈ cs, e.2.exhausted = none) → w.brace = [] → ∀ e ∈ cs, p.slack < e.2.slack ∨ (p.slack = e.2.slack ∧
        (p.arrived < e.2.arrived ∨ (p.arrived = e.2.arrived ∧ p.port ≤ e.2.port))))) ∧
    (∀ (id k : Nat) (p : Packet) (here : Place) (rest : List Place), Coming s id p here rest → switchKey here = some k →
      (∀ e n a b, p.body ≠ .setup e n a b) → (∀ e, p.body ≠ .unbrace e) →
      ((switchKey p.at_).isSome = true ∨ s.roomAt p.at_ here p.buf = true) → ∃ t q, exec (.evPacketArrival id) s = .next t ∧ FMap.get t.pkts id = some q ∧ q.at_ = here ∧ q.inLink = false ∧
        q.path = rest ∧ q.slack = p.slack ∧ q.body = p.body ∧ q.port = inPort p.at_ here ∧ q.late = (p.late || decide (p.slack = 0)) ∧
        q.arrived = (FMap.rd Switch.reset s.switches k).stamp ∧ q.cyc = (FMap.rd Switch.reset s.switches k).cycle ∧ q.exhausted.isSome = decide (p.slack = 0) ∧
        (∀ x, x ≠ id → FMap.get t.pkts x = FMap.get s.pkts x) ∧ t = { s with pkts := t.pkts, switches := t.switches }) ∧
    (∀ (id : Nat) (p : Packet) (here : Place) (rest : List Place), Coming s id p here rest → switchKey p.at_ = none →
      s.roomAt p.at_ here p.buf = false → exec (.evPacketArrival id) s = .next s) ∧
    (∀ (id c pid : Nat) (p : Packet) (rest : List Place) (vals : List (Nat × Nat × Word)) (poison lanes : Lanes) (err : Nat)
      (g : Group) (q : Producer), Coming s id p (.core c) rest → p.body = .reply pid vals poison err lanes → p.place ≠ 9 →
      FMap.get s.groups p.gid = some g → FMap.get g.replay pid = some q → q.isAtomic = false →
      ∃ t g', exec (.evPacketArrival id) s = .next t ∧ FMap.get t.groups p.gid = some g' ∧ FMap.get t.pkts id = none ∧
        FMap.get g'.replay pid = some (q.answer vals poison err lanes p.late) ∧
        g' = { g with replay := g'.replay, latecnt := g'.latecnt } ∧ (∀ x, x ≠ p.gid → FMap.get t.groups x = FMap.get s.groups x) ∧
        t.mem = s.mem) ∧
    (∀ (place : Place) (k : Nat), switchKey place = some k → (FMap.rd Switch.reset s.switches k).cycle % 14 ≠ 13 →
      exec (.evSlackTick place) s = .next s) ∧
    (∀ (place : Place) (k id : Nat) (w : Switch) (p : Packet), switchKey place = some k → FMap.rd Switch.reset s.switches k = w →
      w.cycle % 14 = 13 → FMap.get s.pkts id = some p →
      ∃ t q, exec (.evSlackTick place) s = .next t ∧ FMap.get t.pkts id = some q ∧
        Ticked (p.stands place = true ∧ p.cyc < w.cycle ∧ p.slack ≠ 0) p q ∧
        (FMap.rd Switch.reset t.switches k).cycle = w.cycle + 1 ∧ t.mem = s.mem ∧ t.groups = s.groups) ∧
    (∀ (place : Place) (id : Nat) (p : Packet), ticks place = true → switchKey place = none → FMap.get s.pkts id = some p →
      ∃ t q, exec (.evSlackTick place) s = .next t ∧ FMap.get t.pkts id = some q ∧
        Ticked (p.stands place = true ∧ p.slack ≠ 0) p q ∧ t.mem = s.mem ∧ t.groups = s.groups)

/-- R322, R152, R323: a brace's set-up takes a free hop, turns back at a taken one and answers at its end; a hop that no braced flit has used for 256 cycles ends; a
put's piece lands in its unit's scratchpad, and the last one counts. That the 256 cycles are a switch's own is log entry 54; what the
log entry of a put to a unit that is gone holds is log entry 63. -/
def Obligations.BracesAndPutsArrive : Prop :=
  ∀ (s : State) (id : Nat) (p : Packet), FMap.get s.pkts id = some p →
    (∀ (e : Word) (n k : Nat) (ok : Bool) (out : Place) (rest : List Place) (w : Switch), p.body = .setup e n ok false →
      p.inLink = false → p.braced = false → switchKey p.at_ = some k → p.path = out :: rest →
      FMap.rd Switch.reset s.switches k = w →
      (w.braceAt out = none → exec (.evBraceSetup id) s = .next
        { s with pkts := FMap.put s.pkts id { p with braced := true },
                 switches := FMap.put s.switches k { w with brace := w.brace ++ [(out, ⟨p.gid, e, n, id, 0⟩)] } }) ∧
      (w.braceAt out ≠ none → ∃ t q, exec (.evBraceSetup id) s = .next t ∧ FMap.get t.pkts id = some q ∧
        q.body = .setup e n false true ∧ q.vc = 1 ∧ q.path = s.backFrom p.at_ p.gid e ∧ q.at_ = p.at_)) ∧
    (∀ (e : Word) (n : Nat) (ok : Bool), p.body = .setup e n ok false → p.inLink = false → p.braced = false → p.path = [] →
      ∃ t q, exec (.evBraceSetup id) s = .next t ∧ t = { s with pkts := FMap.put s.pkts id q } ∧
        q = { p with vc := 1, buf := 1, inLink := true, path := s.backFrom p.at_ p.gid e, body := .setup e n true true }) ∧
    (∀ (sw out : Place) (k : Nat) (w : Switch) (b : Hop), switchKey sw = some k → FMap.rd Switch.reset s.switches k = w →
      w.braceAt out = some b →
      (b.timedOut = false → exec (.evBraceIdleTimeout sw out) s = .next s) ∧
      (b.timedOut = true → ∃ t, exec (.evBraceIdleTimeout sw out) s = .next t ∧
        (FMap.rd Switch.reset t.switches k).braceAt out = none ∧
        (∀ x, x ≠ out → (FMap.rd Switch.reset t.switches k).braceAt x = w.braceAt x) ∧
        t = { s with switches := t.switches, cores := t.cores })) ∧
    (∀ (c : Nat) (dst src : Word) (roff off counter total pid uid : Nat) (bytes : List Byte) (bad : List Nat) (u : UnitRec),
      p.at_ = .core c → p.body = .put dst roff off counter total bytes bad src pid → p.inLink = false → p.path = [] →
      s.epUnit dst = some uid → FMap.get s.units uid = some u → u.twin ≠ some uid → roff + total ≤ u.scrSize →
      FMap.rd 0 s.puts (putKey none pid) + bytes.length < 2 ^ 20 →
      ∃ t u', exec (.evPutArrival id) s = .next t ∧ FMap.get t.units uid = some u' ∧ FMap.get t.pkts id = none ∧
        (∀ i b, bytes[i]? = some b → FMap.rd 0 u'.scratch (roff + off + i) = b) ∧
        (∀ a, a < roff + off ∨ roff + off + bytes.length ≤ a → FMap.rd 0 u'.scratch a = FMap.rd 0 u.scratch a) ∧
        FMap.rd 0 u'.counters counter = (if total ≤ FMap.rd 0 s.puts (putKey none pid) + bytes.length then FMap.rd 0 u.counters counter + 1
                                         else FMap.rd 0 u.counters counter) ∧
        (∀ x, x ≠ counter → FMap.rd 0 u'.counters x = FMap.rd 0 u.counters x) ∧
        u' = { u with scratch := u'.scratch, scrPoison := u'.scrPoison, counters := u'.counters } ∧
        t.mem = s.mem ∧ t.groups = s.groups) ∧
    (∀ (c : Nat) (dst src : Word) (roff off counter total pid : Nat) (bytes : List Byte) (bad : List Nat),
      p.at_ = .core c → p.body = .put dst roff off counter total bytes bad src pid → p.inLink = false → p.path = [] →
      s.epUnit dst = none → FMap.rd 0 s.puts (putKey none pid) = 0 → s.log.length < 64 →
      ∃ t, exec (.evPutArrival id) s = .next t ∧ t.mem = s.mem ∧ t.groups = s.groups ∧
        t.log = s.log ++ [⟨BitVec.ofNat 64 roff, epDev src, s.asidOfGid p.gid, cPEERFAULT, 3⟩])

/-- R279, R324, R325, R407, R445, R447: at the end of a period a count becomes ALLOT plus what it was below zero, of network, HBM,
ray and Futas budgets, and the place works by the table's word from then on; a partition halted for pre-emption keeps its counts. What the first period
starts with is log entry 44. -/
def Obligations.BudgetsAreRenewed : Prop :=
  ∀ (s : State) (site part : Nat),
    (s.partHalted part = false → ∃ t, exec (.evMemoryBudgetPeriod (.net site part)) s = .next t ∧
      FMap.rd netStart t.netBudget (siteKey site part) =
        (max 64 (allotOf (s.budgetWord part (·.net))) : Nat) + min (FMap.rd netStart s.netBudget (siteKey site part)) 0 ∧
      (∀ x, x ≠ siteKey site part → FMap.get t.netBudget x = FMap.get s.netBudget x) ∧ t = { s.newWord .net site part with netBudget := t.netBudget } ∧
      t.wordAt .net site part = s.budgetWord part (·.net)) ∧
    (s.partHalted part = false → ∃ t, exec (.evMemoryBudgetPeriod (.hbm site part)) s = .next t ∧
      FMap.rd hbmStart t.hbmBudget (siteKey site part) =
        (1024 * max 64 (allotOf (s.budgetWord part (·.hbm))) : Nat) + min (FMap.rd hbmStart s.hbmBudget (siteKey site part)) 0 ∧
      (∀ x, x ≠ siteKey site part → FMap.get t.hbmBudget x = FMap.get s.hbmBudget x) ∧ t = { s.newWord .hbm site part with hbmBudget := t.hbmBudget } ∧
      t.wordAt .hbm site part = s.budgetWord part (·.hbm)) ∧
    (s.partHalted part = true → exec (.evMemoryBudgetPeriod (.net site part)) s = .next s ∧
      exec (.evMemoryBudgetPeriod (.hbm site part)) s = .next s) ∧
    (FMap.wf s.parts = true → (∀ e ∈ s.parts, e.1 < 32) → ∃ t u, exec (.evRayStepBudgetPeriod site) s = .next t ∧
      exec (.evFutasBudgetPeriod site) s = .next u ∧ t = { s.newWords .ray site with rayBudget := t.rayBudget } ∧ u = { s.newWords .fut site with futas := u.futas } ∧
      (∀ y, y ≠ site → FMap.get u.futas y = FMap.get s.futas y) ∧
      ∀ k q, FMap.get s.parts k = some q →
        FMap.rd rayStart t.rayBudget (siteKey site k) = (if q.saved then FMap.rd rayStart s.rayBudget (siteKey site k)
          else (4 * allotOf q.ray : Nat) + min (FMap.rd rayStart s.rayBudget (siteKey site k)) 0) ∧
        FMap.rd futStart (FMap.rd FutasPort.reset u.futas site).budget k =
          (if q.saved then FMap.rd futStart (FMap.rd FutasPort.reset s.futas site).budget k
           else (allotOf q.fut : Nat) + min (FMap.rd futStart (FMap.rd FutasPort.reset s.futas site).budget k) 0) ∧
        (q.saved = false → t.wordAt .ray site k = q.ray ∧ u.wordAt .fut site k = q.fut))

namespace Sys2Proof.Claims

/-- A request of one access stands at its home slice in HBM, whose sectors are valid there, with no older request of its core and no
earlier arrival before it; where it writes, the host holds no copy of the line. -/
structure AtHome (s : State) (id : Nat) (p : Packet) (slice : Nat) (a : Acc) (pid : Option Nat) : Prop where
  here : FMap.get s.pkts id = some p ∧ p.at_ = .slice slice ∧ p.inLink = false ∧ id < s.nextPkt
  body : ∃ so prom kind scope, p.body = .req [a] pid so prom kind false 0 scope
  home : slice = sliceOf a.loc ∧ inHost a.loc = false ∧ s.sectorsHere a.loc a.size = true
  prom : ∀ so prom kind scope, p.body = .req [a] pid so prom kind false 0 scope → prom = true → s.promWaits [a] = false
  first : s.olderRequest id (coreOfGid p.gid) (a.loc / 128) = false ∧ s.earlierRequest p slice (a.loc / 128) = false
  host : a.op.isLoad = true ∨ FMap.rd false s.hostHeld (a.loc / 128) = false

/-- Memory holds the low `n` bytes of `v` at `loc`, little-endian, and elsewhere what it held. -/
def Stored (s t : State) (loc n v : Nat) : Prop :=
  (∀ i, i < n → t.byteAt (loc + i) = BitVec.ofNat 8 (v / 256 ^ i)) ∧
    (∀ a, a < loc ∨ loc + n ≤ a → t.byteAt a = s.byteAt a)

/-- Requests that a sill may serve now: of eligible partitions, none before an older one of its own sectors (R312, R325). -/
def servable (s : State) (stack : Nat) : List (Nat × HbmReq) :=
  (hbmReady (s.sill stack).queue).filter (fun e => s.hbmOk stack e.2.part)

end Sys2Proof.Claims

/-- R89, R305, R348, R349, R320, R310: at its home slice, in the order of arrival there, a store writes its bytes, a load reads them and replies with the request's
slack, and an atomic replies with the old value and leaves the new one; a request whose sectors are missing asks HBM; one before which
an older request of its core or an earlier arrival comes stays (log entry 14). -/
def Obligations.HomesPerformAccesses : Prop :=
  ∀ (s : State) (id : Nat) (p : Packet) (slice lane loc size idx : Nat),
    (∀ v, AtHome s id p slice ⟨lane, loc, size, .store v, idx⟩ none →
      ∃ t, exec (.evHomeSliceRequest id) s = .next t ∧ Stored s t loc size v.toNat ∧ FMap.get t.pkts id = none ∧
        t.groups = s.groups ∧ t.units = s.units) ∧
    (∀ pid, AtHome s id p slice ⟨lane, loc, size, .load [], idx⟩ (some pid) → size ≤ 8 →
      ∃ t q poison, exec (.evHomeSliceRequest id) s = .next t ∧ t.mem = s.mem ∧ FMap.get t.pkts id = none ∧
        FMap.get t.pkts s.nextPkt = some q ∧ q.gid = p.gid ∧ q.slack = p.slack ∧ q.late = (p.late || decide (p.slack = 0)) ∧
        q.body = .reply pid [(lane, idx, BitVec.ofNat 64 (s.natAt loc size))] poison 0 (laneBit (if lane < 32 then lane else 0)) ∧
        (s.poisonedAt loc size = false → poison = 0) ∧ t.groups = s.groups) ∧
    (∀ pid op ty v cmp, AtHome s id p slice ⟨lane, loc, size, .atomic op ty v cmp, idx⟩ (some pid) → loc % 8 + size ≤ 8 → op ≠ 8 →
      ∃ t q poison, exec (.evHomeSliceRequest id) s = .next t ∧ FMap.get t.pkts id = none ∧
        (∀ w, FMap.rd false t.poison w = FMap.rd false s.poison w) ∧
        Stored s t loc size (atomicNew op ty (8 * size) (s.natAt loc size) (v.toNat % 2 ^ (8 * size)) (cmp.toNat % 2 ^ (8 * size))) ∧
        FMap.get t.pkts s.nextPkt = some q ∧
        q.body = .reply pid [(lane, idx, BitVec.ofNat 64 (s.natAt loc size))] poison 0 (laneBit (if lane < 32 then lane else 0)) ∧
        t.groups = s.groups) ∧
    (∀ a pid so prom kind order scope, FMap.get s.pkts id = some p → p.at_ = .slice (sliceOf loc) → p.inLink = false →
      p.body = .req [a] pid so prom kind false order scope → (prom = true → s.promWaits [a] = false) → a.loc = loc → inHbm loc = true → inHost loc = false →
      s.olderRequest id (coreOfGid p.gid) (loc / 128) = false → s.earlierRequest p (sliceOf loc) (loc / 128) = false →
      s.homeLine loc = none → sectorMask a.loc a.size ≠ 0 →
      (∀ r ∈ (s.sill (stackOf loc)).queue, r.line ≠ loc / 128) →
      ∃ t r, exec (.evHomeSliceRequest id) s = .next t ∧ t.mem = s.mem ∧ FMap.get t.pkts id = some { p with missed := true } ∧
        (t.sill (stackOf loc)).queue = (s.sill (stackOf loc)).queue ++ [r] ∧ r.line = loc / 128 ∧ r.write = false ∧
        r.sectors = sectorMask a.loc a.size ∧ r.slack = p.slack ∧ r.part = p.part) ∧
    (∀ accs pid so prom kind guest order scope, FMap.get s.pkts id = some p → p.at_ = .slice slice →
      p.body = .req accs pid so prom kind guest order scope → ((accs.map (·.loc)).headD 0) = loc →
      (s.olderRequest id (coreOfGid p.gid) (loc / 128) = true ∨
        (slice = sliceOf loc ∧ s.earlierRequest p slice (loc / 128) = true)) → exec (.evHomeSliceRequest id) s = .next s)

/-- R312 to R315: a sill serves, of the requests it may serve, the one of least slack, then the oldest; a read's sectors come
to be valid at their home, a write repairs its sectors' check symbols; the scrub reads the next line and poisons what it cannot
correct, in DRAM and not in the copy that L2 holds; refresh changes nothing; a report above 85 °C doubles the refresh rate. -/
def Sys2Proof.Claims.HbmServesAndScrubs : Prop :=
  ∀ (s : State) (stack : Nat),
    (∀ i r, (i, r) ∈ servable s stack →
      (∀ j q, (j, q) ∈ servable s stack → (j, q) ≠ (i, r) → r.slack < q.slack ∨ (r.slack = q.slack ∧ i < j)) →
      ∃ t, exec (.evHbmRequestServe stack) s = .next t ∧ t.mem = s.mem ∧ t.groups = s.groups ∧
        (r.write = false → ∃ l, t.homeLine (128 * r.line) = some l ∧ l.valid &&& readSectors r.sectors = readSectors r.sectors) ∧
        (r.write = true → (t.sill stack).queue = (s.sill stack).queue.take i ++ (s.sill stack).queue.drop (i + 1) ∧
          (∀ k, k ∈ sectorNos r.line r.sectors → FMap.get t.symErr k = none) ∧
          (∀ k, k ∉ sectorNos r.line r.sectors → FMap.get t.symErr k = FMap.get s.symErr k))) ∧
    (∃ t, exec (.evPatrolScrub stack) s = .next t ∧ t.mem = s.mem ∧
      (t.sill stack).scrub = ((s.sill stack).scrub + 1) % stackLines ∧
      ∀ k n, k ∈ sectorNos (stack * stackLines + (s.sill stack).scrub) 15 → FMap.get s.symErr k = some n → 2 ≤ n →
        (∀ r ∈ (s.sill stack).queue, r.write = true → r.line ≠ k / 4) → FMap.get t.symErr k = none ∧ ∀ i, i < 4 →
          (s.sectorsHere (32 * k) 32 = false → FMap.rd false t.poison (4 * k + i) = true) ∧
          (s.sectorsHere (32 * k) 32 = true → FMap.rd false t.poison (4 * k + i) = FMap.rd false s.poison (4 * k + i) ∧
            ∃ l, t.homeLine (32 * k) = some l ∧ (FMap.get l.bad (4 * k + i)).isSome = true)) ∧
    (∀ c, exec (.evRefresh stack c) s = .next s) ∧
    (∀ c, exec (.evStackTemperatureReport stack c) s =
      .next (s.setSill stack { s.sill stack with hot := decide (85 < c) }))

/-- R300 to R302, R437, R310, R313, R380: a walk that finds its leaf enters it in the cluster's TLB and one that does not keeps
nothing; the host's reply ends the wait for a line; a double-bit error poisons its word of scratchpad, register line, window, tile or L2, drops an L1 line or halts the group; a
single-bit error is counted. -/
def Sys2Proof.Claims.WalksHostRepliesAndErrors : Prop :=
  ∀ (s : State),
    (∀ (cl asid : Nat) (va : Word) (acc : AccKind) (user : Bool) (s' : State) (leaf : Word) (at_ : Nat),
      walkAccess s cl asid va.toNat acc user = (s', .ok (leaf, at_)) →
      ∃ t page, exec (.evPageWalk cl asid va acc user) s = .next t ∧ t = { s' with tlbs := t.tlbs } ∧
        page = (if leafL leaf then va.toNat / 2 ^ 28 else va.toNat / 2 ^ 16) ∧
        (FMap.rd [] t.tlbs (tlbKey cl (tlbSet (leafL leaf) va.toNat))).head? = some ⟨asid, page, leafL leaf, leaf, 0⟩) ∧
    (∀ (cl asid : Nat) (va : Word) (acc : AccKind) (user : Bool) (s' : State) (c : Nat),
      walkAccess s cl asid va.toNat acc user = (s', .error c) → exec (.evPageWalk cl asid va acc user) s = .next s') ∧
    (∀ line, s.hostWait.contains line = true → ∃ t, exec (.evHostReply line) s = .next t ∧ t.hostWait.contains line = false ∧
      (inHost (128 * line) = false → FMap.get t.hostHeld line = none ∧ t.mem = s.mem) ∧
      (inHost (128 * line) = true → (FMap.get t.hostLines line).isSome = true ∧
        ∀ a, a < 128 * line ∨ 128 * line + 128 ≤ a → t.byteAt a = s.byteAt a)) ∧
    (∀ core uslot word u, FMap.get s.units (gidOf core uslot) = some u → 8 * word < u.scrSize →
      ∃ t u', exec (.evDoubleBitError (.scratch core uslot word) true) s = .next t ∧ t = { s with units := t.units } ∧
        FMap.get t.units (gidOf core uslot) = some u' ∧ u' = { u with scrPoison := u'.scrPoison } ∧
        FMap.rd false u'.scrPoison word = true) ∧
    (∀ core line, exec (.evDoubleBitError (.l1 core line) true) s =
      .next (s.setCore core { s.core core with l1 := (s.core core).l1.filter (fun l => decide (l.line ≠ line)) })) ∧
    (∀ core gslot lane reg g, FMap.get s.groups (gidOf core gslot) = some g → (FMap.get g.lines (reg / 4)).isSome = true →
      reg < s.vregsOf g → ∃ t g', exec (.evDoubleBitError (.line core gslot lane reg) true) s = .next t ∧
        t = { s with groups := t.groups } ∧ FMap.get t.groups (gidOf core gslot) = some g' ∧ g' = { g with vBad := g'.vBad } ∧
        FMap.get g'.vBad (32 * reg + lane) = some true) ∧
    (∀ core gslot lane word g, FMap.get s.groups (gidOf core gslot) = some g →
      (FMap.get g.lines (s.vregsOf g / 4 + word / 4)).isSome = true →
      ∃ t g', exec (.evDoubleBitError (.window core gslot lane word) true) s = .next t ∧
        t = { s with groups := t.groups } ∧ FMap.get t.groups (gidOf core gslot) = some g' ∧ g' = { g with winBad := g'.winBad } ∧
        FMap.get g'.winBad (256 * lane + word) = some true) ∧
    (∀ core uslot element u, FMap.get s.units (gidOf core uslot) = some u → element < 4096 * u.acc →
      ∃ t u', exec (.evDoubleBitError (.tile core uslot element) true) s = .next t ∧ t = { s with units := t.units } ∧
        FMap.get t.units (gidOf core uslot) = some u' ∧ u' = { u with tileBad := u'.tileBad } ∧
        FMap.get u'.tileBad element = some true) ∧
    (∀ slice word, ∃ t, exec (.evDoubleBitError (.guest slice word) true) s = .next t ∧ t = { s with l2 := t.l2 } ∧
      t.homeLine (8 * word) = s.homeLine (8 * word)) ∧
    (∀ core gslot g, FMap.get s.groups (gidOf core gslot) = some g → ∀ lane n a, ∀ site ∈ [ErrSite.line core gslot lane n,
        .window core gslot lane n, .tile core gslot n, .l1 core n, .control core gslot a, .shadow core gslot a],
      exec (.evDoubleBitError site false) s =
        .next (s.setCore core { s.core core with corrected := (s.core core).corrected + 1 })) ∧
    (∀ word, s.sectorsHere (8 * word) 8 = true → sectorMask (8 * word) 8 ≠ 0 → ∃ t, exec (.evDoubleBitError (.l2 word) true) s = .next t ∧
      FMap.rd false t.poison word = true ∧ t = { s with poison := t.poison, l2 := t.l2 } ∧
      ∃ l l', s.homeLine (8 * word) = some l ∧ t.homeLine (8 * word) = some l' ∧ l' = { l with bad := l'.bad }) ∧
    (∀ sector n, n ≠ 0 → inHbm (32 * sector) = true → ∀ b, ∃ t, exec (.evDoubleBitError (.hbm sector n) b) s = .next t ∧
      FMap.get t.symErr sector = some (FMap.rd 0 s.symErr sector + n) ∧ t = { s with symErr := t.symErr }) ∧
    (∀ core gslot (va : Word), exec (.evDoubleBitError (.control core gslot va) true) s =
      .next (s.deviceFault (gidOf core gslot) cSOFT va)) ∧
    (∀ core uslot word, exec (.evDoubleBitError (.scratch core uslot word) false) s =
      .next (s.setCore core { s.core core with corrected := (s.core core).corrected + 1 }))

/-- R300 to R302, R312 to R315, R380, R437: HBM, walks, the host's replies, errors in stored state. -/
def Obligations.HbmWalksHostRepliesAndErrors : Prop := Sys2Proof.Claims.HbmServesAndScrubs ∧ Sys2Proof.Claims.WalksHostRepliesAndErrors

/-- R145, R158, R317, R149, R421 to R426: the copy engine moves up to 32 bytes of its first row, as far as they fill whole words
of its destination, into scratchpad or as one packet on VC3 with the slack of its CPY; a gather firing fills the output slot and
moves both hods on; HBIND .raster binds what R421 allows, and a firing without groups reports and moves both hods on. That the engines
read and write at the homes in their own event is log entry 86. -/
def Obligations.CopyGatherAndRasterEnginesWork : Prop :=
  (∀ (s s0 : State) (core src dst len k : Nat) (c : Copy) (rest : List Copy) (rows left : List (Nat × Nat × Nat)) (g : Group) (u : UnitRec),
    (s.core core).copies = c :: rest → c.rows = (src, dst, len) :: rows → c.ahead = [] → c.behind = [] →
    FMap.get s.groups c.gid = some g → s.unitOf g = some u → s.copyBlocked core c src (min 32 len) len = false →
    s0 = (if c.srcScr then s else s.readLines core c ((List.range (pieceReads src (min 32 len) len)).filterMap
      (fun i => copyPlace false c.spans (src + i)))) →
    left = (if len ≤ 32 then rows else (src + 32, dst + 32, len - 32) :: rows) →
    k = (if len ≤ 32 then len else 32 - (dst + 32) % 8) → FMap.get s0.units g.uid = some u →
    (c.dstScr = true → ∃ t u' c', exec (.evCopyPiece core) s = .next t ∧
      t = { s0 with units := t.units, cores := t.cores, fresh := t.fresh } ∧
      FMap.get t.units g.uid = some u' ∧ u' = { u with scratch := u'.scratch, scrPoison := u'.scrPoison } ∧
      (∀ i, i < k → FMap.rd 0 u'.scratch (dst + i) = (s0.copyByte core u c (src + i)).1) ∧
      (∀ a, a < dst ∨ dst + k ≤ a → FMap.rd 0 u'.scratch a = FMap.rd 0 u.scratch a) ∧
      c' = { c with rows := left, ahead := c'.ahead, behind := c'.behind } ∧ c'.behind.length = min 32 len - k ∧
      (t.core core).copies = (if left = [] then rest else c' :: rest)) ∧
    (∀ x loc, c.dstScr = false → c.srcScr = true → dst < 2 ^ 64 → spanAt c.dspans dst = some x → x.peer = 0 → x.kind ≠ 2 → 0 < len →
      dst + k ≤ x.va + x.len → (∀ i, i < k → x.loc (dst + i) = loc + i) → loc % 128 + k ≤ 128 → dst % 128 + k ≤ 128 →
      ∃ t q bad, exec (.evCopyPiece core) s = .next t ∧ t.groups = s.groups ∧ t.units = s.units ∧ t.mem = s.mem ∧
        FMap.get t.pkts s.nextPkt = some q ∧ q.gid = c.gid ∧ q.vc = 3 ∧ q.slack = c.slack ∧ q.batch = c.batch ∧
        q.body = .req (wordStores ((List.range k).map (fun i => (loc + i, FMap.rd 0 u.scratch (src + i)))) bad) none
          (decide (x.kind = 1)) false (if x.kind = 1 then 1 else 0) false 0 0)) ∧
  (∀ (s r s' : State) (core : Nat) (e : Gather) (u : UnitRec) (hi ho : Hod) (w : Nat) (spans : List Span),
    (s.core core).gather = some e → FMap.get s.units e.uid = some u → FMap.get u.hods e.hin = some hi →
    FMap.get u.hods e.hout = some ho → hi.fill ≠ 0 → ho.room ≠ 0 → e.hin ≠ e.hout → w = (if e.idx64 then 8 else 4) →
    translateSpans s core e.asid .read e.um ((List.range e.count).flatMap (fun k =>
      pageParts 2 (e.base + BitVec.ofNat 64 (e.esz * u.scrAt (hi.slotAt hi.c + w * k) w)).toNat e.esz)) = (r, .ok spans) →
    (∀ x ∈ spans, x.peer = 0) → r.readSpans core e.asid (r.partOfAsid e.asid) spans = s' → FMap.get s'.units e.uid = some u →
    ∃ t u', exec (.evGatherFiring core) s = .next t ∧ FMap.get t.units e.uid = some u' ∧ t = { s' with units := t.units } ∧
      u' = { u with scratch := u'.scratch, scrPoison := u'.scrPoison, hods := u'.hods } ∧
      FMap.get u'.hods e.hin = some { hi with c := hi.c + 1 } ∧ FMap.get u'.hods e.hout = some { ho with p := ho.p + 1 } ∧
      ∀ i b, (s'.spanBytes core spans)[i]? = some b → FMap.rd 0 u'.scratch (ho.slotAt ho.p + i) = b.1) ∧
  (∀ (s s' t : State) (g : Group) (p : Split) (i o b : BitVec 6) (bs : List Byte) (u : UnitRec) (hi ho : Hod)
    (vb pitch height width count zle cull slk off : Nat) (entry : Word),
    s.actor = some (g, p) → emptyS g p b = false → (readS g p b).toNat % 32 = 0 →
    s.readWaits s.gid s.cur.place (s.asidOf g) p.user (readS g p b).toNat 32 = false →
    s.readVa s.cur.core (s.asidOf g) p.user 3 (readS g p b).toNat 32 = (s', .ok (bs, false)) → s'.unitOf g = some u →
    FMap.get u.hods i.toNat = some hi → FMap.get u.hods o.toNat = some ho → i ≠ o → hi.bound = none → ho.bound = none →
    FMap.get s'.rasters (clusterOf s'.cur.core) = none →
    natOfBytes (bs.take 8) = vb → natOfBytes ((bs.drop 8).take 8) = 2 ^ 32 * pitch + 2 ^ 16 * height + width →
    natOfBytes ((bs.drop 16).take 8) = 2 ^ 16 * slk + 2 ^ 9 * cull + 2 ^ 8 * zle + count → natOfBytes ((bs.drop 24).take 8) = off →
    vb % 8 = 0 → pitch % 8 = 0 → 8 * width ≤ pitch → 1 ≤ height → height ≤ 16384 → 1 ≤ width → width ≤ 16384 → slk < 2 ^ 12 →
    cull ≤ 2 → zle ≤ 1 → 1 ≤ count → count ≤ 85 → 48 * count ≤ hi.slotb → 16 ≤ ho.slotb → off < 2 ^ 32 →
    entry = (match s'.launchOf u with | some l => l.cfbase | none => 0) + BitVec.ofNat 64 off →
    (off = 0 → t = s') →
    (off ≠ 0 → s'.checkCall s'.cur.core (s'.asidOf g) (s'.codeFrom g) u.vregs u.priv p.user true none entry = (t, none)) →
    ∃ (e : Raster), exec (.cHbindRaster i o b) s = .next (({ t with
        rasters := FMap.put t.rasters (clusterOf s'.cur.core) e }.bindHods g.uid i.toNat o.toNat .raster).goOn 1) ∧
      e.uid = g.uid ∧ e.hin = i.toNat ∧ e.hout = o.toNat ∧ e.vb = BitVec.ofNat 64 vb ∧ e.pitch = pitch ∧ e.height = height ∧
      e.width = width ∧ e.slack = slk ∧ e.cull = cull ∧ e.zle = decide (zle = 1) ∧ e.count = count ∧
      e.entry = (if off = 0 then none else some entry) ∧ e.report = none ∧ e.blocks = []) ∧
  (∀ (s : State) (cl part : Nat) (e : Raster) (u : UnitRec) (hi ho : Hod) (r : FiringRun),
    FMap.get s.rasters cl = some e → e.report = none → e.entry = none → FMap.get s.units e.uid = some u →
    FMap.get u.hods e.hin = some hi → FMap.get u.hods e.hout = some ho → hi.fill ≠ 0 → ho.room ≠ 0 → e.hin ≠ e.hout →
    part = (match s.jobOf u with | some j => j.part | none => 0) →
    s.rasterSlot e (coreOfGid e.uid) part u (hi.slotAt hi.c) = r → r.fault = none → FMap.get r.s.units e.uid = some u →
    ∃ t u', exec (.evRasterFiring cl) s = .next t ∧ FMap.get t.units e.uid = some u' ∧
      t = { r.s with units := t.units, rasters := t.rasters } ∧
      FMap.get u'.hods e.hin = some { hi with c := hi.c + 1 } ∧ FMap.get u'.hods e.hout = some { ho with p := ho.p + 1 } ∧
      (∀ i, i < 8 → FMap.rd 0 u'.scratch (ho.slotAt ho.p + i) = BitVec.ofNat 8 ((r.hit.length + r.culled * 2 ^ 32) % 2 ^ 64 / 256 ^ i)) ∧
      (∀ i, i < 8 → FMap.rd 0 u'.scratch (ho.slotAt ho.p + 8 + i) = BitVec.ofNat 8 (e.count % 2 ^ 64 / 256 ^ i)))

/-- R241, R397, R402 to R407, R412: a ray message joins the sill's queue; a free pipe takes the ray that R405 puts first and loads its treelet; a
visit runs its steps, at most 256 in an event, and charges a pipe-cycle for four boxes or two triangles (log entry 47); a returning ray
keeps the hit of lower key, and a candidate's record passes on; a filter request is answered by a reply. -/
def Obligations.RayAndFilterUnitsServe : Prop :=
  ∀ (s : State) (stack id : Nat),
    (∀ (pkt : Nat) (p : Packet) (r r' : Ray), FMap.get s.pkts pkt = some p → p.atSill = some stack → p.body = .ray id →
      FMap.get s.rays id = some r → r' = { r with slack := p.slack, late := r.late || p.late } →
      (r.stage = .flying → exec (.evRayMessageArrival pkt) s =
        .next ({ s with pkts := FMap.del s.pkts pkt, rays := FMap.put s.rays id r' }.queueRay id stack)) ∧
      (∀ op, r.stage = .resuming op → exec (.evRayMessageArrival pkt) s =
        .next ({ s with pkts := FMap.del s.pkts pkt, rays := FMap.put s.rays id r' }.resumeRay id stack op))) ∧
    (∀ (pipe : Nat) (r : Ray), (s.sill stack).spilled = [] → FMap.get (s.sill stack).pipes pipe = none →
      (s.sill stack).rayq = [id] → FMap.get s.rays id = some r → r.needsCont = false → s.rayOk stack r.part = true →
      ∃ t, exec (.evTraversalPipeSelect stack pipe) s =
          .next (if (s.sill stack).treelets.contains r.treelet then t else t.loadTreelet stack r) ∧
        FMap.get (t.sill stack).pipes pipe = some id ∧ (t.sill stack).rayq = [] ∧
        (t.sill stack).treelets.head? = some r.treelet ∧
        FMap.get t.rays id = some { r with stage := .piped pipe r.treelet.2.2 0 true, exhausted := none } ∧
        t = { s with sills := t.sills, rays := t.rays }) ∧
    (∀ (cached : List (Nat × Nat × Nat)) (rs : List (Nat × Ray)) (r : Ray), pickRay cached rs = some (id, r) →
      (id, r) ∈ rs ∧ ((∃ e ∈ rs, e.2.exhausted.isSome = true) → r.exhausted.isSome = true) ∧
      ((∀ e ∈ rs, e.2.exhausted = none) →
        ((∃ e ∈ rs, cached.contains e.2.treelet = true) → cached.contains r.treelet = true) ∧
        ((∀ e ∈ rs, cached.contains e.2.treelet = false) → (∃ e ∈ rs, e.2.slack ≤ 64) → r.slack ≤ 64))) ∧
    (∀ (pipe q tid before loc nodes tris : Nat) (charged : Bool) (r r' : Ray) (v : Visit) (rest : List Visit) (s' : State) (t : Treelet),
      FMap.get (s.sill stack).pipes pipe = some id → FMap.get s.rays id = some r → r.stage = .piped q tid before charged →
      r.todo = v :: rest → s.treeletFor stack r tid = (s', some (t, loc)) →
      (∀ i, i < 8 * t.nslot → s'.sillBad (loc + 8 * i) = false) →
      let reader : Reader := ⟨tid, t.nslot, fun o n => s'.natAt (loc + o) n⟩
      let s1 := s'.chargeRay stack r.part (nodes + (ceilDiv (before + tris) 2 - ceilDiv before 2)) charged
      let free := (s1.freePipe stack pipe)
      (reader.run visitFuel r = (.go r', nodes, tris) → exec (.evTreeletVisit stack pipe) s =
        .next { s1 with rays := FMap.put s1.rays id { r' with stage := .piped pipe tid (before + tris) charged } }) ∧
      (reader.run visitFuel r = (.leave r', nodes, tris) → exec (.evTreeletVisit stack pipe) s =
        .next ({ free with rays := FMap.put free.rays id r' }.routeRay id stack)) ∧
      (reader.run visitFuel r = (.suspend r', nodes, tris) → exec (.evTreeletVisit stack pipe) s =
        .next ({ free with rays := FMap.put free.rays id r' }.suspendRay id stack)) ∧
      (reader.run visitFuel r = (.finish r', nodes, tris) → exec (.evTreeletVisit stack pipe) s =
        .next ({ free with rays := FMap.put free.rays id r' }.finishRay id stack))) ∧
    (∀ (pkt c : Nat) (outer : List Nat) (p : Packet) (r : Ray) (kept : Cont) (h : Hit) (held : Option Hit), FMap.get s.pkts pkt = some p →
      p.atSill = some stack → p.body = .record id → FMap.get s.rays id = some r → r.stage ≠ .suspended → r.ret = c :: outer →
      FMap.get s.conts c = some kept → r.ended = none → held = (if kept.held.all (fun a => h.below a) then some h else kept.held) →
      r.held = some h →
      exec (.evContinuationReturn pkt) s = .next ({ s with pkts := FMap.del s.pkts pkt, conts := FMap.del s.conts c,
                                                           rays := FMap.put s.rays id { r with
        held := held, tmax := (match held with | some x => x.t | none => kept.tmax), todo := kept.todo, ret := outer, slack := p.slack,
        late := r.late || p.late } }.routeRay id stack)) ∧
    (∀ (pkt : Nat) (p : Packet) (r : Ray), FMap.get s.pkts pkt = some p → p.atSill = some stack → p.body = .record id →
      FMap.get s.rays id = some r → r.stage = .suspended → exec (.evContinuationReturn pkt) s =
        .next ({ s with pkts := FMap.del s.pkts pkt, rays := FMap.put s.rays id { r with late := r.late || p.late } }.relayRecord id stack)) ∧
    (∀ (pkt pid lane handle : Nat) (p : Packet) (um : Bool) (ops : List Word) (insn : LBits) (f : LF) (s' : State) (regs : List Word),
      s.nextFilter stack = some (pkt, p) → p.body = .filter pid lane um handle ops insn → (FMap.get s.groups p.gid).isSome = true →
      p.place ≠ 9 →
      (decodeLane insn.toNat = some (.lSample f) ∧ ({ s with pkts := FMap.del s.pkts pkt } : State).serveSample stack (coreOfGid p.gid)
          (s.asidOfGid p.gid) p.part um f ops = (s', ⟨regs, none⟩) ∨
        decodeLane insn.toNat = some (.lHgrid f) ∧ ({ s with pkts := FMap.del s.pkts pkt } : State).serveGrid stack (coreOfGid p.gid)
          (s.asidOfGid p.gid) p.part um f ops = (s', ⟨regs, none⟩)) →
      ∃ t q, exec (.evFilterRequest stack) s = .next t ∧ FMap.get t.pkts s'.nextPkt = some q ∧ q.gid = p.gid ∧ q.slack = p.slack ∧
        q.body = .reply pid (((List.range regs.length).zip regs).map (fun e => (lane, e.1, e.2))) 0 0 (laneBit lane) ∧
        t = { s' with pkts := t.pkts, nextPkt := s'.nextPkt + 1 })

/-- R247 to R249, R414 to R420: an array answers a query, once a batch is ready, with the network's results at its version (a cycle of its
clock passes where none is: log entry 103); a Sander's step replaces
the master or counts a skip; a publication is done when every array of the partition has adopted its version. -/
def Obligations.NetworksAnswerAndLearn : Prop :=
  ∀ (s : State) (part slot : Nat) (n : Net), FMap.get s.nets (netKey part slot) = some n →
    (∀ cl, s.partOfCluster cl = some part → s.nextBatchNet cl = none →
      exec (.evRcaBatch cl slot) s = .next (s.setRca cl { s.rca cl with clock := (s.rca cl).clock + 1 })) ∧
    (∀ (cl v : Nat) (q : Query), s.partOfCluster cl = some part → (s.rca cl).queries = [q] → q.net = slot →
      q.cyc + 8 ≤ (s.rca cl).clock → q.place ≠ 9 → s.queryBlocked q = false → FMap.get (s.rca cl).incoming slot = none →
      FMap.rd 1 (s.rca cl).version slot = v → q.dropped = false →
      ∃ t k, exec (.evRcaBatch cl slot) s = .next t ∧ FMap.get t.pkts s.nextPkt = some k ∧ k.gid = gidOf q.core q.gslot ∧
        k.slack = q.slack ∧ (t.rca cl).queries = [] ∧ t.mem = s.mem ∧
        k.body = .reply q.pid ([(q.lane, 0, packElems 32 [(n.eval (FMap.rd [] n.weights v) q.inputs).getD 0 0, (n.eval (FMap.rd [] n.weights v) q.inputs).getD 1 0]),
          (q.lane, 1, packElems 32 [(n.eval (FMap.rd [] n.weights v) q.inputs).getD 2 0, (n.eval (FMap.rd [] n.weights v) q.inputs).getD 3 0])] ++
          if q.ver then [(q.lane, 2, BitVec.ofNat 64 v)] else []) 0 0 (laneBit q.lane)) ∧
    (n.switching = true → (FMap.get s.parts part).any (fun p => p.saved) = false → s.rootOf n.asid = none →
      ∃ t n', exec (.evSanderPublication part slot) s = .next t ∧ FMap.get t.nets (netKey part slot) = some n' ∧
        n'.published = n.version ∧ n'.version = n.version ∧ n'.switching = false ∧ n'.master = n.master ∧ t.mem = s.mem ∧
        ∀ cl v, cl ∈ s.clusterList part → FMap.get (s.rca cl).incoming slot = some v →
          FMap.rd 1 (t.rca cl).version slot = v ∧ FMap.get (t.rca cl).incoming slot = none) ∧
    (∀ (die b : Nat) (s' : State) (xs : List Sample), slot < 4 → s.nextStep die = some (netKey part slot, n, b) →
      s.takeSamples slot (s.clusterList part) b [] = (s', xs) → s.rootOf n.asid = none →
      (∀ m, stepMaster n xs = some m → ∃ t n', exec (.evSanderStep die) s = .next t ∧ FMap.get t.nets (netKey part slot) = some n' ∧
        n'.master = m ∧ (n.auto = 0 ∨ n.pending.drop 1 ≠ [] → n'.pending = n.pending.drop 1) ∧
        (n.auto ≠ 0 → n.pending.drop 1 = [] →
          n'.pending = if 64 * 4 ^ n.auto ≤ s'.samplesOf part slot then [64 * 4 ^ n.auto] else []) ∧ n'.skips = n.skips ∧ FMap.get t.sanders die = some (netKey part slot) ∧
        (n.held = none → n'.version = n.version + 1 ∧ n'.switching = true ∧
          FMap.get n'.weights (n.version + 1) = some (roundLayers n.inputs n.widths m.w))) ∧
      (stepMaster n xs = none → ∃ t n', exec (.evSanderStep die) s = .next t ∧ FMap.get t.nets (netKey part slot) = some n' ∧
        n'.skips = n.skips + 1 ∧ n'.master = n.master ∧ n'.version = n.version))

namespace Sys2Proof.Claims

/-- The device operates, and nothing wakes it. -/
def Running (s : State) : Prop := s.operates = true ∧ s.mgmt.mode = .run

/-- The launch that an accepted GO starts: the record at LREC, in a new job (R440). -/
def Starts (s t : State) (port : PortId) (part asid : Nat) (a : Space) : Prop :=
  ∃ s1 s2 bs bad l, s.readVa ((coresOf (s.clustersOf part)).headD 0) asid false 3 (s.port port).lrec.toNat 64 = (s1, .ok (bs, bad)) ∧
    recordOk (s.port port).lrec bs = true ∧ l = recordLaunch bs s1.nextJob 0 0 0 none ∧ l.pers = false ∧
    s1.checkEntry ((coresOf (s.clustersOf part)).headD 0) asid s1.stores true l.cut l.entryVa = (s2, none) ∧ s2.openLaunches part < 4096 ∧
    t = ((({ s2.setPort port { s.port port with lst := 0, busy := true } with
             jobs := FMap.put s2.jobs s1.nextJob ⟨port, part, asid, some a, 1, [(0, 1)], 0, 0, false, false, []⟩,
             nextJob := s1.nextJob + 1 } : State).levelStart part).accept { l with reserved := [] }).1

/-- A GO was refused with a code: LST holds it, DONE is set, and the host is told where DONE was clear (R439 to R441). -/
def Refused (s t : State) (port : PortId) (code : Nat) : Prop :=
  t = (s.setPort port { s.port port with lst := BitVec.ofNat 8 code, done := true }).message port 0 (s.port port).done

/-- A PRE has completed with a status (R439, R441). -/
def PreDone (s t : State) (port : PortId) (st : Nat) : Prop :=
  t = (s.setPort port { s.port port with pst := BitVec.ofNat 4 st, pdone := true, pre := none }).message port 3 (s.port port).pdone

end Sys2Proof.Claims

/-- R438 to R445, R375, R377, R450: what the commands of a port do: GO starts a job or is refused by code; JCAN cancels; PRE
begins a save or is refused; SEMA is taken by the first that asks and given back by its holder; PTSYNC answers done,
or refuses and changes nothing else; a shared register changes for SEMA's holder alone, and PWR's 0 asks for run. The order of
PRE's checks, its pre-emption and PTSYNC's reading are the model's (log entries 64, 52, 61). -/
def Obligations.PortCommands : Prop :=
  ∀ (s : State) (port : PortId) (part asid : Nat), Running s → part = (s.port port).part.toNat → asid = (s.port port).asid.toNat →
    ((s.port port).busy = true → ∃ t, exec (.evGo port) s = .next t ∧ Refused s t port 6) ∧
    ((s.port port).busy = false → (FMap.get s.spaces asid = none ∨ FMap.get s.parts part = none) →
      ∃ t, exec (.evGo port) s = .next t ∧ Refused s t port 5) ∧
    (∀ a q, (s.port port).busy = false → FMap.get s.spaces asid = some a → FMap.get s.parts part = some q →
      (a.part ≠ part ∨ q.valid = false → ∃ t, exec (.evGo port) s = .next t ∧ Refused s t port 5) ∧
      (∀ t, a.part = part → q.valid = true → Starts s t port part asid a → exec (.evGo port) s = .next t)) ∧
    ((∀ e ∈ s.jobs, e.2.port ≠ port) → exec (.evJcan port) s = .next s) ∧
    (∀ jid j c, s.jobs.find? (fun e => decide (e.2.port = port)) = some (jid, j) →
      (s.dropSaved jid).cancelLaunches ((s.launches.filter (fun e => decide (e.2.job = jid))).map (·.1)) [] true jid none = c →
      (∀ e ∈ c.groups, e.2.halted = false) → exec (.evJcan port) s = .next c) ∧
    exec .evPop s = .next { s with log := s.log.drop 1 } ∧
    (s.shared.held = false → exec (.evSemaAcquire port) s =
      .next { s with shared := { s.shared with held := true, owner := BitVec.ofNat 2 (portCode port) } }) ∧
    (s.shared.held = true → exec (.evSemaAcquire port) s = .next s) ∧
    (s.holdsSema port = true → ∀ (v : Word) (part : Nat),
      exec (.evSemaRelease port) s =
        .next ({ s with shared := { s.shared with held := false, owner := 0 } }.emit (.msix 8)) ∧
      exec (.evPtsync port) s = .next s.ptsync ∧
      (s.ptsync.shared.ptsync = 0 ∨ s.ptsync = { s with shared := { s.shared with ptsync := 2 } }) ∧
      (s.badParts s.newParts = true → s.ptsync = { s with shared := { s.shared with ptsync := 2 } }) ∧
      (∃ t, exec (.evPlim port v) s = .next t ∧ t = { s with shared := { s.shared with plim := t.shared.plim } } ∧
        t.shared.plim.toNat = min 1600 (max 300 (v.toNat % 2 ^ 11))) ∧
      exec (.evRegisterWrite port 0x808 v) s = .next { s with shared := { s.shared with ptbase := v } } ∧
      exec (.evRegisterWrite port 0x810 v) s = .next { s with shared := { s.shared with astbase := v } } ∧
      exec (.evRegisterWrite port 0x848 v) s = .next { s with shared := { s.shared with hdmbase := v } } ∧
      exec (.evRegisterWrite port 0x858 v) s = .next { s with shared := { s.shared with routeb := v } } ∧
      (v.getLsbD 0 = false → v.getLsbD 1 = false →
        exec (.evRegisterWrite port 0x828 v) s = .next { s with mgmt := { s.mgmt with req := 0, res := 0 } }) ∧
      (s.shadowBusy part = true → ∃ t, exec (.evPreSave port part) s = .next t ∧ PreDone s t port 1) ∧
      (FMap.get s.parts part = none → s.shadowBusy part = false → ∃ t, exec (.evPreSave port part) s = .next t ∧ PreDone s t port 3) ∧
      (∀ q, FMap.get s.parts part = some q → s.shadowBusy part = false → q.valid = true → q.saving = false → q.saved = false →
        s.groupsOfPart part ≠ [] → exec (.evPreSave port part) s =
          .next ({ s.setPort port { s.port port with pre := some part } with
                     parts := FMap.put s.parts part { q with saving := true } }.preemptAll part)) ∧
      (∀ q, FMap.get s.parts part = some q → (q.valid = false ∨ q.saved = false) →
        ∃ t, exec (.evPreRestore port part) s = .next t ∧ PreDone s t port 3)) ∧
    (∀ core sh part q, s.holdsSema port = true → s.shadow = [(core, sh)] → sh.part = part → FMap.get s.parts part = some q → q.valid = true →
      q.saved = true → q.clusters.getLsbD (clusterOf core) = true → s.slotsFree core sh = true →
      ∃ t u, exec (.evPreRestore port part) s = .next t ∧ PreDone u t port 0 ∧
        u = (sh.groups.map (·.1)).foldl State.resumeSaved
          { s.unshadow core sh with parts := FMap.put (s.unshadow core sh).parts part { q with saving := false, saved := false } }) ∧
    (s.holdsSema port = false → ∀ (v : Word) (part : Nat),
      exec (.evSemaRelease port) s = .next s ∧ exec (.evPtsync port) s = .next s ∧ exec (.evPlim port v) s = .next s ∧
      (∀ o, 0x800 ≤ o → exec (.evRegisterWrite port o v) s = .next s) ∧
      (∃ t, exec (.evPreSave port part) s = .next t ∧ PreDone s t port 2) ∧
      (∃ t, exec (.evPreRestore port part) s = .next t ∧ PreDone s t port 2)) ∧
    (∀ (v : Word), exec (.evRegisterWrite port 0x000 v) s = .next (s.setPort port { s.port port with lrec := v }) ∧
      exec (.evRegisterWrite port 0x008 v) s = .next (s.setPort port { s.port port with asid := v.truncate 14 }) ∧
      exec (.evRegisterWrite port 0x010 v) s = .next (s.setPort port { s.port port with part := v.truncate 5 }) ∧
      exec (.evRegisterWrite port 0x020 v) s = .next (s.setPort port { s.port port with
        pdone := (s.port port).pdone && !v.getLsbD 5, iflt := (s.port port).iflt && !v.getLsbD 4,
        halt := (s.port port).halt && !v.getLsbD 3, done := (s.port port).done && !v.getLsbD 1 })) ∧
    (∀ part q, FMap.get s.parts part = some q → q.saving = true → (s.preemptAll part).quiet part = true →
      ∃ t, exec (.evShadowSave part) s = .next t ∧ FMap.get t.parts part = some { q with saving := false, saved := true }) ∧
    (∀ part q, FMap.get s.parts part = some q → q.saving = true → (s.preemptAll part).quiet part = false →
      exec (.evShadowSave part) s = .next (s.preemptAll part))

/-- R437: a snoop is answered with the line's bytes and takes an invalidated line away; a window access of any size reads or
writes at its home, and answers poison outside HBM; under RC the host may keep the lines it reads. -/
def Obligations.HostAccesses : Prop :=
  ∀ (s : State), Running s →
    (∀ line, inHost (128 * line) = true → ∃ t, exec (.evHostSnoop line true) s = .next t ∧ FMap.get t.hostLines line = none ∧
      t.out = s.out ++ [.snoopReply line (Memory.bytes s.mem (128 * line) 128) (FMap.get s.hostLines line).isSome] ∧
      t.homeLine (128 * line) = none ∧ ∀ a, a < 128 * line ∨ 128 * line + 128 ≤ a → t.byteAt a = s.byteAt a) ∧
    (∀ line own, inHost (128 * line) = true → FMap.get s.hostLines line = some own →
      ∃ t, exec (.evHostSnoop line false) s = .next t ∧ t = { s with hostLines := FMap.put s.hostLines line false, out := t.out } ∧
        t.out = s.out ++ [.snoopReply line (Memory.bytes s.mem (128 * line) 128) true]) ∧
    (∀ offset size loc (bs : List Byte), 1 ≤ size → offset + size ≤ 2 ^ 28 * s.shared.hdmn.toNat →
      loc = s.shared.hdmbase.toNat + offset → inHbm loc = true → inHbm (loc + size - 1) = true →
      (bs.length = size → ∃ t, exec (.evHostMemAccess offset size (some bs)) s = .next t ∧ t.groups = s.groups ∧
        (∀ i, i < size → t.byteAt (loc + i) = bs.getD i 0) ∧ ∀ a, a < loc ∨ loc + size ≤ a → t.byteAt a = s.byteAt a) ∧
      (∃ t, exec (.evHostMemAccess offset size none) s = .next t ∧ t.mem = s.mem ∧ t.groups = s.groups ∧
        t.out = s.out ++ [.memReply offset ((List.range size).map (fun i => s.byteAt (loc + i))) (t.poisonedAt loc size)] ∧
        (s.shared.hdmso = false → ∀ i, i < size → FMap.get t.hostHeld ((loc + i) / 128) = some true))) ∧
    (∀ offset size w, offset + size ≤ 2 ^ 28 * s.shared.hdmn.toNat → inHbm (s.shared.hdmbase.toNat + offset) = false →
      exec (.evHostMemAccess offset size w) s = .next { s with out := s.out ++ [.memReply offset (List.replicate size 0) true] })

namespace Sys2Proof.Claims

/-- A message to another device stands at the hub of the port that its line address takes to it (R317, R448). -/
def LeavesForPeer (s t : State) (m : PeerMsg) (dev addr slack vc : Nat) : Prop :=
  ∀ port, (s.livePorts dev)[addr / 128 % (s.livePorts dev).length]? = some port →
    ∃ q, FMap.get t.pkts s.nextPkt = some q ∧ q.body = .peerMsg m ∧ q.at_ = .hub (port / 32) ∧ q.inLink = false ∧
      q.path = [.futas port] ∧ q.slack = slack ∧ q.vc = vc

end Sys2Proof.Claims

/-- R451, R452, R455, R456: resets and power states: a warm reset by SEMA's holder ends all work and keeps the fuses' state, and
HBM unless it is zeroed; power off loses HBM; idle and retention are entered where nothing goes on and left by waking; bring-up
takes the first image that verifies and needs its stacks, but no CXL link; throttling rises in each interval over a limit. The
image that bring-up takes and the interval are the model's (log entries 67, 70). -/
def Obligations.ResetsAndPowerStates : Prop :=
  ∀ (s : State) (port : PortId),
    (Running s → s.holdsSema port = true →
      (∃ t, exec (.evWarmReset port) s = .next t ∧ t.groups = [] ∧ t.units = [] ∧ t.jobs = [] ∧ t.launches = [] ∧ t.pkts = [] ∧
        t.parts = [] ∧ t.spaces = [] ∧ t.portA = Port.reset ∧ t.portB = Port.reset ∧ t.shared = Shared.reset ∧
        t.mgmt.life = s.mgmt.life ∧ t.mgmt.key = s.mgmt.key ∧ t.mgmt.mode = .run ∧
        (s.l2 = [] → s.sills = [] → s.hostLines = [] → t.mem = s.mem)) ∧
      (∃ t, exec (.evWarmResetZeroHbm port) s = .next t ∧ t.groups = [] ∧ t.units = [] ∧ t.shared = Shared.reset ∧
        t.mgmt.life = s.mgmt.life ∧ ∀ a, inHost a = false → t.byteAt a = 0) ∧
      exec (.evPwrRun port) s = .next { s with mgmt := { s.mgmt with req := 0, res := 0 } } ∧
      (s.mayRetain = false → exec (.evPwrRetention port) s = .next { s with mgmt := { s.mgmt with req := 2, res := 1 } }) ∧
      (s.mayRetain = true → ∃ t, exec (.evPwrRetention port) s = .next t ∧ t.mgmt = { s.mgmt with mode := .retention, req := 2, res := 0 } ∧
        t.mem = s.mem ∧ t.shadow = s.shadow) ∧
      (∃ t, exec (.evPwrOff port) s = .next t ∧ t.mgmt.mode = .off ∧ t.mgmt.req = 3 ∧ t.mgmt.booted = 0 ∧ t.groups = [] ∧
        ∀ a, inHost a = false → t.byteAt a = 0)) ∧
    (Running s → s.holdsSema port = false → ∀ i ∈ [Instr.evWarmReset port, .evWarmResetZeroHbm port, .evPwrRun port,
      .evPwrRetention port, .evPwrOff port], exec i s = .next s) ∧
    (∃ t, exec .evPowerLoss s = .next t ∧ t.mgmt.mode = .off ∧ t.mgmt.life = s.mgmt.life ∧ t.mgmt.firmware = s.mgmt.firmware ∧
      t.groups = [] ∧ t.shadow = [] ∧ ∀ a, inHost a = false → t.byteAt a = 0) ∧
    (s.mgmt.mode = .run → s.groups = [] → s.enginesBusy = false →
      exec .evIdleEntry s = .next { s with mgmt := { s.mgmt with mode := .idle } }) ∧
    ((s.groups ≠ [] ∨ s.enginesBusy = true) → exec .evIdleEntry s = .next s) ∧
    (s.mgmt.mode = .idle → exec .evIdleExit s = .next { s with mgmt := { s.mgmt with mode := .run } }) ∧
    (s.mgmt.mode = .retention → FMap.wf s.parts = true → ∃ t, exec .evRetentionWake s = .next t ∧ t.mgmt = { s.mgmt with mode := .run } ∧
      t.mem = s.mem ∧ t.groups = s.groups ∧
      (∀ core sh q, FMap.get s.shadow core = some sh → FMap.get s.parts sh.part = some q →
        FMap.get t.shadow core = some { sh with budget := allotOf q.issue }) ∧
      ∀ part q, FMap.get s.parts part = some q → (∀ e ∈ s.parts, e.1 < 32) → ∀ k, k < 12 →
        FMap.rd hbmStart t.hbmBudget (siteKey k part) = (1024 * max 64 (allotOf q.hbm) : Nat) ∧
        FMap.rd rayStart t.rayBudget (siteKey k part) = (4 * allotOf q.ray : Nat)) ∧
    (∀ mw ps above, ps = (mw :: s.mgmt.powers).take 1000 →
      (above ↔ 1000 * s.shared.plim.toNat * ps.length < ps.sum ∨ 1800000 < mw) →
      ∃ t, exec (.evPowerInterval mw) s = .next t ∧ t = { s with mgmt := { s.mgmt with powers := ps, throttle := t.mgmt.throttle } } ∧
        (above → t.mgmt.throttle = min 15 (s.mgmt.throttle + 1)) ∧ (¬above → t.mgmt.throttle = 0)) ∧
    (∀ f link, s.mgmt.mode = .off →
      (imageOk f = true → exec (.evPowerOn ⟨f, true, link⟩) s = .next (s.bootWith f link) ∧ (s.bootWith f link).operates = true ∧
        (s.bootWith f link).mgmt.firmware = f ∧ (s.bootWith f link).mgmt.debug = .none ∧
        (s.bootWith f link).mgmt.life = s.mgmt.life ∧ (s.bootWith f link).mgmt.linkUp = link) ∧
      (imageOk f = false → imageOk s.mgmt.firmware = true →
        exec (.evPowerOn ⟨f, true, link⟩) s = .next (s.bootWith s.mgmt.firmware link)) ∧
      (imageOk f = true ∨ imageOk s.mgmt.firmware = true → exec (.evPowerOn ⟨f, false, link⟩) s = .next (s.emit (.bootFailed 2))) ∧
      (imageOk f = false → imageOk s.mgmt.firmware = false → ∀ hbmUp,
        exec (.evPowerOn ⟨f, hbmUp, link⟩) s = .next (s.emit (.bootFailed 1))))

/-- R109, R382, R383, R453, R454: a debugger stops a group where invasive debug applies, writes a stopped group's registers, reads a
halted one's, of an X register all 160 bits, the T registers and Q of the run that its split is in, device memory only under
invasive, and lets it go on; levels rise as the lifecycle allows; a signed command moves the lifecycle forward only; without
the key there is no attestation. What a write to a register does to work in progress, and the lifecycle's commands, are the
model's where the spec says no more (log entries 65, 66, 72). -/
def Obligations.DebuggerAndLifecycle : Prop :=
  ∀ (s : State) (core gslot : Nat) (g : Group), Running s → FMap.get s.groups (gidOf core gslot) = some g →
    (s.invasive = true → g.stopped = false → g.halted = false → g.stopAsked = false → exec (.evDebugStop core gslot) s =
      .next (s.addDue (gidOf core gslot) ⟨.S, 0, false, 0, g.alive, (g.splits.map (·.1)).headD 0, false⟩ false)) ∧
    (s.invasive = false → ∀ reg m v, exec (.evDebugStop core gslot) s = .next s ∧ exec (.evDebugRelease core gslot) s = .next s ∧
      exec (.evDebugRegisterWrite core gslot reg m v) s = .next s) ∧
    (s.invasive = true → g.stopped = true → g.stopFrame = [] → exec (.evDebugRelease core gslot) s =
      .next ((s.updGroup (gidOf core gslot) (fun g => { g with stopped := false, stopFrame := [] })).settle (gidOf core gslot))) ∧
    (s.invasive = true → g.stopped = false → g.halted = true → exec (.evDebugRelease core gslot) s =
      .next ((s.updGroup (gidOf core gslot) (fun g => { g with halted := false })).settle (gidOf core gslot))) ∧
    (s.invasive = true → g.stopped = true → ∀ (n : Nat) (v : Word) (m : Lanes),
      (0 < n → n < 48 → g.replay = [] → ∃ t g', exec (.evDebugRegisterWrite core gslot (.s n 0) m v) s = .next t ∧
        FMap.get t.groups (gidOf core gslot) = some g' ∧ g' = { g with s := g'.s, sEmpty := g'.sEmpty } ∧
        FMap.rd 0 g'.s n = v ∧ FMap.rd false g'.sEmpty n = false ∧ (∀ k, k ≠ n → FMap.rd 0 g'.s k = FMap.rd 0 g.s k) ∧
        t = { s with groups := t.groups }) ∧
      (n < 8 → exec (.evDebugRegisterWrite core gslot (.x n) m v) s =
        .next (s.updGroup (gidOf core gslot) (fun g => g.setX n { g.getX n with vb := v, lim := 0 })) ∧
        exec (.evDebugRegisterWrite core gslot (.xlim n) m v) s =
        .next (s.updGroup (gidOf core gslot) (fun g => g.setX n { g.getX n with lim := v.truncate 32 })) ∧
        exec (.evDebugRegisterWrite core gslot (.xpte n) m v) s =
        .next (s.updGroup (gidOf core gslot) (fun g => g.setX n { g.getX n with pte := v }))) ∧
      (∀ place p r, FMap.get g.splits place = some p → p.running = some r →
        (n < 8 → ∃ t q, exec (.evDebugRegisterWrite core gslot (.t n place) m v) s = .next t ∧
          t = s.updGroup (gidOf core gslot) (fun g => g.updSplit place (fun p => { p with running := some { r with t := q } })) ∧
          (∀ l, l < 32 → FMap.rd 0 q (32 * n + l) = if m.getLsbD l = true then v else FMap.rd 0 r.t (32 * n + l))) ∧
        (n < 4 → exec (.evDebugRegisterWrite core gslot (.q n place) m v) s =
          .next (s.updGroup (gidOf core gslot) (fun g => g.updSplit place (fun p =>
            { p with running := some { r with q := FMap.wr 0 r.q n v } }))))) ∧
      (∃ t g', exec (.evDebugRegisterWrite core gslot .lstat m v) s = .next t ∧ FMap.get t.groups (gidOf core gslot) = some g' ∧
        (∀ l, l < 32 → g'.getLstat l = if m.getLsbD l = true then v.truncate 5 else g.getLstat l) ∧ g' = { g with lstat := g'.lstat } ∧
        t = { s with groups := t.groups })) ∧
    (∀ n place p, g.halted = true → 1 ≤ levelNo s.mgmt.debug → FMap.get g.splits place = some p →
      exec (.evDebugRegisterRead core gslot (.s n place) 0) s =
        .next (s.emit (.debugValue ((getS g p n false).zeroExtend 160) (getSEmpty g p n false))) ∧
      exec (.evDebugRegisterRead core gslot (.x n) 0) s =
        .next (s.emit (.debugValue ((g.getX n).lim ++ (g.getX n).vb ++ (g.getX n).pte) false)) ∧
      exec (.evDebugRegisterRead core gslot (.pc place) 0) s = .next (s.emit (.debugValue (p.pc.zeroExtend 160) false)) ∧
      ∀ r l, p.running = some r →
        exec (.evDebugRegisterRead core gslot (.t n place) l) s =
          .next (s.emit (.debugValue ((FMap.rd 0 r.t (32 * n + l)).zeroExtend 160) false)) ∧
        exec (.evDebugRegisterRead core gslot (.q n place) l) s =
          .next (s.emit (.debugValue ((FMap.rd 0 r.q n).zeroExtend 160) false))) ∧
    (s.invasive = true → ∀ a (v : Word) (m : Lanes), a % 8 = 0 → inHbm a = true →
      exec (.evDebugRegisterRead core gslot (.mem a) 0) s = .next (s.emit (.debugValue (BitVec.ofNat 160 (s.natAt a 8)) false)) ∧
      ∃ t, exec (.evDebugRegisterWrite core gslot (.mem a) m v) s = .next t ∧ Stored s t a 8 v.toNat ∧ t.groups = s.groups) ∧
    (g.halted = false → g.stopped = false → ∀ reg l, (∀ a, reg ≠ .mem a) →
      exec (.evDebugRegisterRead core gslot reg l) s = .next s) ∧
    (s.invasive = false → ∀ a l, exec (.evDebugRegisterRead core gslot (.mem a) l) s = .next s) ∧
    (∀ port level, levelNo s.mgmt.debug < levelNo level →
      ((s.mgmt.life = .sealed ∧ s.holdsSema port = true ∧ level = .observe) ∨
        (s.mgmt.life ≠ .sealed ∧ (s.holdsSema port = true ∨ port = .dbg)) →
        exec (.evDebugLevelRequest port level) s = .next { s with mgmt := { s.mgmt with debug := level } }) ∧
      (s.mgmt.life = .sealed → (s.holdsSema port = false ∨ level ≠ .observe) →
        exec (.evDebugLevelRequest port level) s = .next s)) ∧
    (∀ nonce sig, s.mgmt.life = .sealed → nonce = Config.nonce s.mgmt.nonces →
      (Config.ecdsaValid Config.debugKey (message512 [Config.serial, nonce]) sig = true → exec (.evUnlockToken nonce sig) s =
        .next { s with mgmt := { s.mgmt with key := .zeroised, debug := .invasive, nonces := s.mgmt.nonces + 1 } }) ∧
      (Config.ecdsaValid Config.debugKey (message512 [Config.serial, nonce]) sig = false →
        exec (.evUnlockToken nonce sig) s = .next s)) ∧
    (∀ target sig, (lifeNo target ≤ lifeNo s.mgmt.life → exec (.evFuseCommand target sig) s = .next s) ∧
      (lifeNo s.mgmt.life < lifeNo target →
        Config.ecdsaValid Config.fuseKey (message512 [Config.serial, lifeNo target]) sig = true →
        ∃ t, exec (.evFuseCommand target sig) s = .next t ∧ t.mgmt.life = target ∧ t.mgmt.debug = .none ∧
          (target = .returned → t.mgmt.key = .destroyed) ∧ t = { s with mgmt := t.mgmt })) ∧
    (∀ nonce, (s.mgmt.key = .present → ∃ sig, exec (.evSpdmRequest nonce) s = .next (s.emit (.spdm nonce sig true)) ∧
        sig = Config.identitySign (message512 (s.measurements ++ [nonce]))) ∧
      (s.mgmt.key ≠ .present → exec (.evSpdmRequest nonce) s = .next (s.emit (.spdm nonce 0 false))))

/-- R446 to R450, R381: a Futas link trains state by state and falls back to Detect where a state fails; a packet crosses an
active port once, its slack in the partner's unit; a store crosses and comes back, a message for a peer leaves; a request unanswered gives 0 and PEERTIMEOUT in its lanes; a load
that comes in is performed and answered, a store performed and sent on to each other replica, a message for another device
goes on, a request that faults here is refused with a log entry. What a peer answers and the walk for a peer are the model's
(log entries 12, 68). -/
def Obligations.PeersAndLinks : Prop :=
  ∀ (s : State),
    (∀ (port : Nat) (x : FutasPort), FMap.rd FutasPort.reset s.futas port = x →
      let moved := fun (st : LinkState) => ({ s with futas := FMap.put s.futas port { x with state := st } } : State)
      (x.state = .detect → exec (.evFutasDetect port) s = .next (moved .laneLock)) ∧
      (x.state = .laneLock → exec (.evFutasLaneLock port) s = .next (moved .equalisation)) ∧
      (x.state = .laneLock → exec (.evFutasLaneLockTimeout port) s = .next (moved .detect)) ∧
      (x.state = .equalisation → exec (.evFutasEqualisation port true) s = .next (moved .deskew) ∧
        exec (.evFutasEqualisation port false) s = .next (moved .detect)) ∧
      (x.state = .deskew → exec (.evFutasDeskew port true) s = .next (moved .exchange) ∧
        exec (.evFutasDeskew port false) s = .next (moved .detect)) ∧
      (∀ fid unit depths, x.state = .exchange → exec (.evFutasExchange port fid ⟨unit, depths⟩ false) s = .next (moved .detect) ∧
        (fid ≠ s.mgmt.fid.toNat → ∃ t, exec (.evFutasExchange port fid ⟨unit, depths⟩ true) s = .next t ∧ t = { s with futas := t.futas } ∧
          FMap.get t.futas port = some { x with state := .active, fid := fid, unit := unit, replays := 0, depths := depths }) ∧
        (fid = s.mgmt.fid.toNat → ∃ t, exec (.evFutasExchange port fid ⟨unit, depths⟩ true) s = .next t ∧
          (FMap.rd FutasPort.reset t.futas port).state = .down ∧ t.out = s.out ++ [.linkLogged port])) ∧
      (x.state = .active → ∃ t, exec (.evFutasReplayLimit port) s = .next t ∧
        FMap.get t.futas port = some { x with state := .detect, replays := 16 } ∧
        (∀ id p, FMap.get s.pkts id = some p → p.at_ ≠ .futas port → (p.inLink = true → p.path.head? ≠ some (.futas port)) →
          FMap.wf s.pkts = true → FMap.get t.pkts id = some p) ∧
        (∀ id p pid vals poison err lanes, FMap.get s.pkts id = some p → p.at_ = .futas port → p.body = .reply pid vals poison err lanes →
          FMap.wf s.pkts = true → FMap.get t.pkts id = some { p with at_ := .host, inLink := false, path := [] })) ∧
      (x.state ≠ .active → exec (.evFutasReplayLimit port) s = .next s) ∧
      (∀ (pkt pid : Nat) (p : Packet) (accs : List Acc) (so prom guest : Bool) (kind order scope : Nat), FMap.get s.pkts pkt = some p →
        p.at_ = .futas port → p.inLink = false → x.state = .active → p.body = .req accs (some pid) so prom kind guest order scope →
        ∃ t q, exec (.evFutasPacketCross port pkt) s = .next t ∧ FMap.get t.pkts pkt = some q ∧ q.inLink = true ∧
          q.path = pathFromPort port (coreOfGid p.gid) ∧ t.mem = s.mem ∧ t.groups = s.groups ∧
          (∃ vals err, q.body = .reply pid vals 0 err (accLanes accs) ∧ (err = 0 ∨ err = cPEERFAULT)) ∧
          t.out = s.out ++ [.peer port { p with slack := min 4095 (p.slack * 10000 / x.unit) }]) ∧
      (∀ (pkt : Nat) (p : Packet) (accs : List Acc) (so prom guest : Bool) (kind order scope : Nat), FMap.get s.pkts pkt = some p →
        p.at_ = .futas port → p.inLink = false → x.state = .active → p.body = .req accs none so prom kind guest order scope →
        ∃ t q, exec (.evFutasPacketCross port pkt) s = .next t ∧ FMap.get t.pkts pkt = some q ∧ q.inLink = true ∧
          q.path = pathFromPort port (coreOfGid p.gid) ∧ q.body = p.body ∧ t.mem = s.mem ∧ t.groups = s.groups ∧
          t.out = s.out ++ [.peer port { p with slack := min 4095 (p.slack * 10000 / x.unit) }]) ∧
      (∀ (pkt : Nat) (p : Packet) (m : PeerMsg), FMap.get s.pkts pkt = some p → p.at_ = .futas port → p.inLink = false →
        x.state = .active → p.body = .peerMsg m → exec (.evFutasPacketCross port pkt) s = .next { s with
          pkts := FMap.del s.pkts pkt, out := s.out ++ [.peer port { p with slack := min 4095 (p.slack * 10000 / x.unit) }] }) ∧
      (∀ (pkt : Nat) (p : Packet), FMap.get s.pkts pkt = some p → x.state ≠ .active → exec (.evFutasPacketCross port pkt) s = .next s)) ∧
    (∀ (pkt pid : Nat) (p : Packet) (accs : List Acc) (so prom guest : Bool) (kind order scope : Nat) (g : Group) (q : Producer),
      FMap.get s.pkts pkt = some p → p.body = .req accs (some pid) so prom kind guest order scope → p.peer ≠ 0 →
      FMap.get s.groups p.gid = some g → FMap.get g.replay pid = some q → q.isAtomic = false →
      ∃ t g', exec (.evPeerTimeout pkt) s = .next t ∧ FMap.get t.pkts pkt = none ∧ FMap.get t.groups p.gid = some g' ∧
        FMap.get g'.replay pid = some (q.answer (accs.map (fun a => (a.lane, a.idx, (0 : Word)))) 0 cPEERTIMEOUT (accLanes accs) false) ∧
        g' = { g with replay := g'.replay } ∧ t.mem = s.mem) ∧
    (∀ (r : PeerReq) (n : Nat), Running s → r.kind = .load n → r.dev = s.mgmt.fid.toNat →
      (∀ s₁ s' leaf loc, 0 < n → n ≤ 8 → r.va.toNat % n = 0 → (r.so = true → r.devs.length ≤ 1) →
        walkAccess s 0 r.tasid r.va.toNat .read true = (s₁, .ok (leaf, loc)) → leafPeer leaf = 0 →
        s₁.fillHome r.tasid 0 loc n = s' → s'.poisonedAt loc n = false →
        ∃ t, exec (.evPeerRequest r) s = .next t ∧ t.mem = s'.mem ∧ t.log = s'.log ∧ t.groups = s'.groups ∧
          LeavesForPeer s' t (.reply r.fid (BitVec.ofNat 64 (s'.natAt loc n)) true) r.fid r.va.toNat r.slack 1) ∧
      (∀ s' c, 0 < n → r.va.toNat % n = 0 → r.so = false → walkAccess s 0 r.tasid r.va.toNat .read true = (s', .error c) →
        ∃ u t, u = s'.logFault ⟨r.va, r.fid, r.tasid, c, 0⟩ ∧ exec (.evPeerRequest r) s = .next t ∧ t.mem = u.mem ∧ t.log = u.log ∧
          LeavesForPeer u t (.reply r.fid 0 false) r.fid r.va.toNat r.slack 1) ∧
      (r.va.toNat % n ≠ 0 → ∃ u t, u = s.logFault ⟨r.va, r.fid, r.tasid, cMISALIGN, 0⟩ ∧ exec (.evPeerRequest r) s = .next t ∧
        t.mem = s.mem ∧ t.log = u.log ∧ LeavesForPeer u t (.reply r.fid 0 false) r.fid r.va.toNat r.slack 1)) ∧
    (∀ (r : PeerReq) (n : Nat) (v : Word), Running s → r.kind = .store n v → r.dev = s.mgmt.fid.toNat →
      ∀ s₁ s' leaf loc, 0 < n → n ≤ 8 → r.va.toNat % n = 0 → (r.so = true → r.devs.length ≤ 1) →
        walkAccess s 0 r.tasid r.va.toNat .write true = (s₁, .ok (leaf, loc)) → leafPeer leaf = 0 → inHost loc = false →
        s₁.fillHome r.tasid 0 loc n = s' →
        ∃ t, exec (.evPeerRequest r) s = .next t ∧ Stored s' t loc n v.toNat ∧ t.groups = s'.groups ∧ t.log = s'.log ∧
          (∀ d port, d ∈ r.devs → d ≠ s.mgmt.fid.toNat → (s'.livePorts d)[r.va.toNat / 128 % (s'.livePorts d).length]? = some port →
            ∃ id q, FMap.get t.pkts id = some q ∧ q.at_ = .hub (port / 32) ∧ q.path = [.futas port] ∧ q.slack = r.slack ∧ q.vc = 2 ∧
              q.body = .peerMsg (.replica d r.tasid r.va n (BitVec.ofNat 64 (v.toNat % 2 ^ (8 * n)))))) ∧
    (∀ (r : PeerReq), Running s → (∀ id, r.kind ≠ .own id) → r.dev ≠ s.mgmt.fid.toNat → ∃ t, exec (.evPeerRequest r) s = .next t ∧
      t.mem = s.mem ∧ t.groups = s.groups ∧ LeavesForPeer s t (.transit r) r.dev r.va.toNat r.slack (peerClass r.kind).1)

/-- R39, R42, R43, R65, R67: decoding what a well-formed instruction encodes as gives it back, with every operand at every value
that its encoding admits; and what a word decodes to encodes as that word, bit for bit. -/
def Obligations.DecodeAndEncodeAgree : Prop :=
  (∀ (i : Instr) (n w : Nat), WellFormed i → encode i = some (n, w) → decodeTableWord n w = some i) ∧
  (∀ (w lit : Nat) (i : Instr), w < 2 ^ 32 → lit < 2 ^ 32 → decodeControl w lit = some i →
    encode i = some (if isLong w then (64, w + lit * 2 ^ 32) else (32, w))) ∧
  (∀ (w : Nat) (i : Instr), w < 2 ^ 96 → decodeLane w = some i → encode i = some (96, w))

/-- Words that the spec writes out decode to the instructions that it gives with them; words of undefined opcodes decode to
none (R43). -/
def Obligations.SpecWordsDecode : Prop :=
  decodeControl 0x001461C0 0 = some (.cSadd 5 6 7) ∧
  decodeControl 0x60144009 0 = some (.cBra 5 1 9) ∧
  decodeControl 0x6F600052 0 = some (.cRunp 3 5 2) ∧
  decodeControl 0x40081000 0 = some (.cSld 2 1 0) ∧
  decodeControl 0x50083000 0 = some (.cXlat 2 3 0) ∧
  decodeControl 0x89C31C84 0 = some (.cCpy 48 49 50 2 0) ∧
  decodeControl 0x6903F000 0 = some (.cRet 63) ∧
  decodeLane 0x20BA0080C012000000000000 = some (.lFmul { d := 232, a := 2, b := 3, c := 0, ty := 9, rm := 0, neg := 0, pg := 0,
                                                          fe := 0, sk := 0, md := 0, imm := 0 }) ∧
  decodeLane 0x700201004022000000000000 = some (.lLd { d := 8, a := 4, b := 1, c := 0, ty := 17, rm := 0, neg := 0, pg := 0,
                                                        fe := 0, sk := 0, md := 0, imm := 0 }) ∧
  decodeLane 0x908080000016001000000000 = some (.lMma { d := 2, a := 0, b := 0, c := 0, ty := 11, rm := 0, neg := 0, pg := 0,
                                                         fe := 0, sk := 0, md := 16, imm := 0 }) ∧
  decodeControl 0xF0000000 0 = none ∧ decodeControl 0x001461C1 0 = none ∧ decodeLane (2 ^ 96 - 1) = none

namespace Sys2Proof.Claims

/-- The words of one step of a split's turn: what a pipe's instruction leaves, with the pipe taken unless the split only waits
on (R269, R274). -/
def piped (s t : State) (core gslot place : Nat) : State :=
  if t.issueMark (gidOf core gslot) place = s.issueMark (gidOf core gslot) place then t
  else t.setCore core { t.core core with pipes := (t.core core).pipes + 1 }

/-- An instruction of a run acted from `c` to `t`: where it has issued, its lines are named and POISON that it met is due (R293,
R380). -/
def named (c t : State) (place : Nat) (x : Instr) : State :=
  if t.lanesLeft c.gid place < c.lanesLeft c.gid place then t.afterIssue c.gid place (c.readings x) else t

/-- A control pipe takes the split: it is the ready one that R273 puts first; `c` is the state in which its word acts. -/
structure Takes (s : State) (ts : List Turn) (core gslot place : Nat) (g : Group) (p : Split) (c : State) : Prop where
  head : s.agenda = .control core gslot place :: ts
  first : ∃ r, ({ s with agenda := ts } : State).nextSplit core = some r ∧ r.gslot = gslot ∧ r.place = place
  here : c = { ({ s with agenda := ts } : State).unready core gslot place with cur := ⟨core, gslot, place⟩ }
  acts : c.actor = some (g, p)

/-- The code line at the program counter of the acting split: the one fetched when the split came to it, else the one fetched
now, which is kept (R11, R12). -/
def HasLine (c s' : State) (place : Nat) (g : Group) (p : Split) (line : List Byte) : Prop :=
  (p.fetched = some line ∧ s' = c) ∨
    (p.fetched = none ∧ ∃ s1, c.fetchLine c.cur.core (c.asidOf g) (c.codeFrom g) p.user p.pc = (s1, .ok line) ∧
      s' = s1.updSplit c.gid place (fun p => { p with fetched := some line }))

/-- The next instruction `x` of a split's run may issue: `c` is the state in which it acts. -/
structure Issues (c : State) (g : Group) (p : Split) (r : Run) (x : Instr) : Prop where
  acts : c.actor = some (g, p)
  going : g.stopped = false
  run : p.running = some r ∧ r.suspended = false
  next : ∃ i rest, r.todo = i :: rest ∧ decodeLane i.bits.toNat = some x

end Sys2Proof.Claims

/-- R11, R25, R37, R274, R278: one step makes the agenda's next move: the turn of the split that a free control pipe takes runs
the instruction that the bytes at its program counter decode to, an undefined word as such; the turn of a lane slot that
nothing holds runs the next instruction of its run, and of its pair's; a line whose header is wrong traps, and so does a step
into a function; an event runs; a core's cycle ends when nothing more issues in it; an empty agenda with nothing to do changes
nothing. That a step makes one move, and that ILLEGAL comes before BADTARGET, are the model's (log entries 2, 102); what a fetch
faults on gives TVAL its address (log entry 27). -/
def Obligations.AStepRunsTheDecodedInstruction : Prop :=
  ∀ (s : State) (ts : List Turn),
    (∀ (core gslot place : Nat) (g : Group) (p : Split) (c s' : State) (line : List Byte), Takes s ts core gslot place g p c →
      HasLine c s' place g p line →
      (lineOk (headerOf line) (wordOf line) = false → step s = .next (piped s (s'.trap cILLEGAL 0) core gslot place)) ∧
      (lineOk (headerOf line) (wordOf line) = true → p.seq = true → wordIdx p.pc = 2 → hdrEnt (headerOf line) = true →
        step s = .next (piped s ((s'.onSplit (fun p => { p with seq := false })).trap cBADTARGET p.pc) core gslot place)) ∧
      (lineOk (headerOf line) (wordOf line) = true → ¬(p.seq = true ∧ wordIdx p.pc = 2 ∧ hdrEnt (headerOf line) = true) →
      (∀ i rest t, decodeBytes false ((line.drop (4 * wordIdx p.pc)).take 8) = .ok (i, rest) → exec i s' = .next t →
        step s = .next (piped s t core gslot place)) ∧
      (∀ i rest f, decodeBytes false ((line.drop (4 * wordIdx p.pc)).take 8) = .ok (i, rest) → exec i s' = .fault f →
        step s = .fault f) ∧
      (∀ t, decodeBytes false ((line.drop (4 * wordIdx p.pc)).take 8) = .error .illegal →
        exec (.evUndefinedEncoding (wordOf line (wordIdx p.pc))) s' = .next t → step s = .next (piped s t core gslot place)))) ∧
    (∀ (core gslot place : Nat) (g : Group) (p : Split) (c s' : State) (cause : Nat), Takes s ts core gslot place g p c →
      p.fetched = none → c.fetchLine core (c.asidOf g) (c.codeFrom g) p.user p.pc = (s', .error cause) →
      step s = .next (piped s (s'.trap cause p.pc) core gslot place)) ∧
    (∀ core gslot place, s.agenda = .control core gslot place :: ts →
      (∀ r, ({ s with agenda := ts } : State).nextSplit core = some r → r.gslot ≠ gslot ∨ r.place ≠ place) →
      step s = .next { s with agenda := ts }) ∧
    (∀ (core k : Nat) (q : LaneSlot) (g : Group) (p : Split) (r : Run) (x : Instr) (c t t1 : State) (left : State → Nat),
      s.agenda = .lane core k :: ts → c = { s with agenda := ts, cur := ⟨core, q.gslot, q.place⟩ } →
      FMap.get (s.core core).lslots k = some q → q.ended = false → q.hold = 0 → Issues c g p r x → exec x c = .next t →
      t1 = named c t q.place x → (∀ u, left u = u.lanesLeft c.gid q.place) →
      (q.pair = none → step s = .next (if left t1 < left s then t1.chargeSlot core k 0 r.charged else t1)) ∧
      (∀ g2 p2 y d u t2, q.pair = some (g2, p2) → laneWaits x c = false → d = { c with cur := ⟨core, g2, p2⟩ } →
        c.nextLane core g2 p2 = some y → laneWaits y d = false → t1.nextLane core g2 p2 = some y →
        exec y { t1 with cur := ⟨core, g2, p2⟩ } = .next u → t2 = named { t1 with cur := ⟨core, g2, p2⟩ } u p2 y →
        left t2 < left s → t2.lanesLeft d.gid p2 < s.lanesLeft d.gid p2 →
        step s = .next (t2.chargeSlot core k (jointHold x [c, d]) r.charged))) ∧
    (∀ core k q, s.agenda = .lane core k :: ts → FMap.get (s.core core).lslots k = some q → q.ended = true ∨ q.hold ≠ 0 →
      step s = .next { s with agenda := ts }) ∧
    (∀ i, s.agenda = .event i :: ts → isEvent i = true → WellFormed i → (∀ c, i ≠ .evLaneSlotSelect c) →
      (∀ c, i ≠ .evIssueBudgetPeriod c) → step s = exec i { s with agenda := ts }) ∧
    (∀ i, s.agenda = .event i :: ts → isEvent i = false ∨ ¬WellFormed i → step s = .next { s with agenda := ts }) ∧
    (∀ core, s.agenda = .event (.evLaneSlotSelect core) :: ts → WellFormed (.evLaneSlotSelect core) →
      (({ s with agenda := ts } : State).cycleBusy core = true → step s = .next { s with agenda := ts }) ∧
      (∀ t, ({ s with agenda := ts } : State).cycleBusy core = false → exec (.evLaneSlotSelect core) { s with agenda := ts } = .next t →
        step s = .next (t.readyPass exec core))) ∧
    (s.agenda = [] → s.moves exec = [] → step s = .next s)

/-- R365 to R370: taking a trap saves the cause, its value and its lanes and the word to go on at, and enters at TVEC in
supervisor mode with the trapping lanes; where supervisor code trapped, or the class is H, or TVEC names no entry, or the frame
cannot be written, the group halts. A precise trap at a word is taken at once in a group with nothing else due. Control words'
lanes and the order of the steps of an entry are the model's (log entries 15, 22). -/
def Obligations.TakingATrap : Prop :=
  ∀ (s : State) (gid : Nat) (g saved : Group) (p : Split) (d : Due) (rest : List Due) (armed : State),
    FMap.get s.groups gid = some g → FMap.get g.splits d.place = some p →
    saved = { g with due := rest, tcause := BitVec.ofNat 9 (d.cause + if d.lane then 0x100 else 0), tval := d.tval,
                     tmask := d.tmask, replay := s.withdrawn gid g } → armed = s.putGroup gid saved →
    (∀ s', p.sm = false → d.cls ≠ .H → (d.cls.precise = true → d.sup = false) → armed.vectorOk gid saved = true →
      armed.writeFrame gid saved (d.runOf p).1 (d.runOf p).2 = some s' →
      ∃ t g' p', s.enterTrap gid d rest = t ∧ FMap.get t.groups gid = some g' ∧ FMap.get g'.splits d.place = some p' ∧
        g'.tcause = BitVec.ofNat 9 (d.cause + if d.lane then 0x100 else 0) ∧ g'.tval = d.tval ∧ g'.tmask = d.tmask ∧
        g'.due = rest ∧ g'.halted = g.halted ∧ (∃ h, g'.handler = some h ∧ h.place = d.place ∧ h.cause = d.cause ∧ h.kept = p.aside) ∧
        p'.pc = g.tvec ∧ p'.sm = true ∧ p'.pm = false ∧ p'.mask = d.tmask ∧ p'.stack = [] ∧ p'.running = none ∧ p'.runq = [] ∧
        p'.tpc = (if d.cls = .T then nextWord p.pc 1 else p.pc) ∧ p'.wr = (p.issued.isSome || p.parked.isSome) ∧
        p'.s = p.s ∧ p'.ks = p.ks ∧ g'.s = g.s ∧ g'.v = g.v ∧ g'.p = g.p ∧ g'.x = g.x ∧
        (∀ q, q ≠ d.place → FMap.get g'.splits q = FMap.get g.splits q) ∧
        (∀ x, x ≠ gid → FMap.get t.groups x = FMap.get s.groups x)) ∧
    (∀ s', p.sm = false → d.cls ≠ .H → (d.cls.precise = true → d.sup = false) → armed.vectorOk gid saved = false →
      armed.writeFrame gid saved (d.runOf p).1 (d.runOf p).2 = some s' →
      ∃ g', FMap.get (s.enterTrap gid d rest).groups gid = some g' ∧ g'.halted = true ∧ g'.tval = d.tval) ∧
    (p.sm = true ∨ d.cls = .H ∨ (d.cls.precise = true ∧ d.sup = true) ∨ armed.writeFrame gid saved (d.runOf p).1 (d.runOf p).2 = none →
      s.enterTrap gid d rest = armed.haltGroup gid d.cause d.tval ∧
      ∃ g', FMap.get (armed.haltGroup gid d.cause d.tval).groups gid = some g' ∧ g'.halted = true) ∧
    (∀ cause v, s.gid = gid → s.cur.place = d.place → p.sm = false → g.halted = false → g.stopped = false → g.handler = none →
      g.due = [] → g.issuing = false → 0 < cause → d = ⟨.P, cause, false, v, p.mask, s.cur.place, false⟩ →
      s.trap cause v = (s.putGroup gid { g with due := [d], splits := FMap.put g.splits d.place { p with issued := none } }).enterTrap
        gid d [])

/-- Every step keeps memory in its canonical form: addresses strictly rising, no cell that reads as an unlisted one. -/
def Obligations.MemoryStaysCanonical : Prop :=
  ∀ (s t : State), MemOk s → step s = .next t → MemOk t

/-- R438, R439, R442, R279, R446: after device reset the ports hold zeros, SEMA is free, no table is loaded, PLIM is 1,600 W, every
issue budget is 0x4000, links stand in Detect, nothing is resident; and memory is canonical. That bring-up is done and the
device runs in state open is the model's choice (log entry 4). -/
def Obligations.ResetValues : Prop :=
  MemOk State.reset ∧ State.reset.groups = [] ∧ State.reset.units = [] ∧ State.reset.jobs = [] ∧ State.reset.parts = [] ∧
  State.reset.spaces = [] ∧ (∀ i, State.reset.port i = Port.reset) ∧ State.reset.shared.held = false ∧ State.reset.shared.owner = 0 ∧
  State.reset.shared.ptbase = 0 ∧ State.reset.shared.plim = 1600 ∧ (∀ c, (State.reset.core c).budget = 0x4000) ∧
  (∀ f, (State.reset.futasPort f).state = .detect) ∧ (∀ k, (State.reset.sill k).scriv = 0x40000) ∧
  State.reset.log = []

/-- R126, R127, R129, R133, R143, R144, R162, R163: where the control words that divide, join, wait and map complete, from
conditions on the state and the operands alone: each answers a next state with its own effect. Which place a new split takes and
which lanes stay held with whom are the model's (log entry 18). -/
def Obligations.DividingWaitingAndMappingWordsComplete : Prop :=
  ∀ (s : State) (g : Group) (p : Split), s.actor = some (g, p) →
    (∀ (n : BitVec 1) (r : BitVec 3) (m : BitVec 1) (o : BitVec 14) (T : Lanes), Settled p → (∃ s', MayEnter s g p (jumpTo p o) s') →
      (∀ l, l < 32 → T.getLsbD l = (p.mask.getLsbD l && (g.getP r.toNat l != decide (n = 1)))) →
      (T = 0 → ∃ (t : State) (g' : Group) (p' : Split), exec (.cBdiv n r m o) s = .next t ∧ t.actor = some (g', p') ∧ p'.pc = nextWord p.pc 1 ∧ p'.mask = p.mask) ∧
      (T ≠ 0 → T = p.mask → m = 0 → ∃ (t : State) (g' : Group) (p' : Split), exec (.cBdiv n r m o) s = .next t ∧ t.actor = some (g', p') ∧
        p'.pc = jumpTo p o ∧ p'.mask = p.mask) ∧
      (T ≠ 0 → T ≠ p.mask → m = 0 → g.handler = none → g.splits.length < 4 → ∃ (t : State) (g' : Group) (p' : Split) (k : Nat) (q : Split), exec (.cBdiv n r m o) s = .next t ∧
        t.actor = some (g', p') ∧ p'.pc = nextWord p.pc 1 ∧ p'.mask = p.mask &&& ~~~T ∧ FMap.get g.splits k = none ∧
        FMap.get g'.splits k = some q ∧ q.pc = jumpTo p o ∧ q.mask = T ∧ q.stack = copyStack p.stack) ∧
      (T ≠ 0 → T ≠ p.mask → g.splits.length = 4 → p.stack.length < 16 → ∃ (t : State) (g' : Group) (p' : Split), exec (.cBdiv n r m o) s = .next t ∧
        t.actor = some (g', p') ∧ p'.pc = jumpTo p o ∧ p'.mask = T ∧
        p'.stack = .deferred (nextWord p.pc 1) (p.mask &&& ~~~T) false :: p.stack)) ∧
    (∀ o, (∃ s', MayJoinAt s g p (jumpTo p o) s') → p.stack.length < 16 → ∃ (t : State) (g' : Group) (p' : Split), exec (.cJset o) s = .next t ∧
      t.actor = some (g', p') ∧ p'.pc = nextWord p.pc 1 ∧ p'.mask = p.mask ∧ p'.stack = .tok g.nextTok 0 :: p.stack ∧
      FMap.get g'.tokens g.nextTok = some ⟨false, jumpTo p o, p.mask, 0, [], 0⟩) ∧
    (∀ o a h low k, p.runsLeft = 0 → (∃ s', MayEnter s g p (jumpTo p o) s') → p.stack = .tok a h :: low →
      FMap.get g.tokens a = some k → k.call = false → k.e &&& ~~~p.mask ≠ k.a → ∃ (t : State) (g' : Group) (p' : Split), exec (.cJbrk o) s = .next t ∧
        t.actor = some (g', p') ∧ p'.pc = jumpTo p o ∧ p'.mask = p.mask ∧ p'.stack = low ∧
        FMap.get g'.tokens a = some { k with e := k.e &&& ~~~p.mask }) ∧
    (∀ (a : BitVec 6) (u : UnitRec) (w : Word), s.unitOf g = some u → emptyS g p 63 = false → a.toNat < u.vregs → Settled p →
      vReady g a.toNat p.mask = true → (∀ l, l < 32 → FMap.rd false g.vBad (32 * a.toNat + l) = false) →
      callTargets g p a.toNat = [(w, p.mask)] → p.stack.length < 16 →
      (∃ s', s.checkCall s.cur.core (s.asidOf g) (s.codeFrom g) u.vregs u.priv p.user p.user (some (nextWord p.pc 1)) w = (s', none)) →
      ∃ (t : State) (g' : Group) (p' : Split), exec (.cCallv a) s = .next t ∧ t.actor = some (g', p') ∧ p'.pc = w ∧ p'.mask = p.mask ∧
        p'.stack = .tok g.nextTok 0 :: p.stack) ∧
    (∀ (d a b : BitVec 6) (u : UnitRec) (o n : Nat), s.unitOf g = some u → Free s g p [a, b] d → p.issued = none →
      o = (readS g p a).toNat → n = (readS g p b).toNat → o % 8 = 0 → o + 8 ≤ u.scrSize → 0 < n → n < 2 ^ 24 → s.drained g p = true →
      u.scrBad o 8 = false → fld (u.scrWord o) 0 24 ≠ 0 → ∃ t : State, exec (.cArrive d a b) s = .next t ∧
        ∃ s1, t = answered s1 p d (BitVec.ofNat 64 (fld (u.scrWord o) 48 16)) ∧ s1.mem = s.mem) ∧
    (∀ (a b : BitVec 6) (u : UnitRec), s.unitOf g = some u → emptyS g p a = false → emptyS g p b = false → p.issued = none →
      (readS g p a).toNat % 8 = 0 → (readS g p a).toNat + 8 ≤ u.scrSize →
      s.wordAcquires s.gid s.cur.place = false → u.scrBad (readS g p a).toNat 8 = false →
      fld (u.scrWord (readS g p a).toNat) 48 16 ≠ fld (readS g p b) 0 16 → ∃ (t : State) (g' : Group) (p' : Split), exec (.cAwait a b) s = .next t ∧
        t.actor = some (g', p') ∧ p'.pc = nextWord p.pc 1) ∧
    (∀ (r : BitVec 1) (k : BitVec 2) (pe gm l : BitVec 1) (sc : BitVec 3), p.issued = none → s.drained g p = true →
      (r = 1 → (s.core s.cur.core).uo = [] ∧ s.uoOutstanding s.gid s.cur.place = false) → ∃ (t : State) (g' : Group) (p' : Split),
        exec (.cFence r k pe gm l sc) s = .next t ∧ t.actor = some (g', p') ∧ p'.pc = nextWord p.pc 1 ∧ t.mem = s.mem) ∧
    (∀ (d a b : BitVec 6), p.sm = true → p.issued = none → s.drained g p = true → (∀ x, s.copyUses (s.asidOf g) x = false) →
      (Free s g p [a, b] d → ∃ (t : State) (n : Nat), exec (.cMap d a b) s = .next (answered t p d (BitVec.ofNat 64 n)) ∧ n ≤ 4) ∧
      (Free s g p [a] d → (∃ t n, (s.walked g (readS g p a).toNat).mapFt g (s.ptroot g) (readS g p a).toNat = .ok (t, n)) →
        ∃ (t : State) (n : Nat), exec (.cMapFt d a) s = .next (answered t p d (BitVec.ofNat 64 n)) ∧ n ≤ 5) ∧
      (Free s g p [a] d → (s.walked g (readS g p a).toNat).slot2 (s.ptroot g) (readS g p a).toNat = none →
        ∃ t : State, exec (.cMapFt d a) s = .next (answered t p d 3)) ∧
      (Free s g p [a] d → (s.walked g (readS g p a).toNat).leafSlot (s.ptroot g) (readS g p a).toNat = none →
        ∃ t : State, exec (.cUnmap d a) s = .next (answered t p d 0)) ∧
      (emptyS g p a = false → emptyS g p b = false →
        (∃ t : State, exec (.cTlbinv a b) s = .next (t.goOn 1) ∧ t.mem = s.mem ∧ t.groups = s.groups ∧ t.cur = s.cur) ∧
        (∃ t : State, exec (.cTlbinvRange a b) s = .next (t.goOn 1) ∧ t.mem = s.mem ∧ t.groups = s.groups ∧ t.cur = s.cur) ∧
        (∃ t : State, exec .cTlbinvAsid s = .next (t.goOn 1) ∧ t.mem = s.mem ∧ t.groups = s.groups ∧ t.cur = s.cur)))

/-- R6, R436, R438, R439, R442, R450: what the host reads: a port's registers field by field, 0 for write-only registers, for
reserved bits and outside the blocks; what a write stores a read returns, within the register's bits; the shared registers
read alike through every port; LOGH counts the log's entries and the lost ones, LVA and LINF show the oldest. -/
def Obligations.RegisterReads : Prop :=
  (∀ (p : Port), p.read 0x018 = 0 ∧ p.read 0x028 = 0 ∧ p.read 0x040 = 0 ∧ p.read 0x030 = p.halti ∧ p.read 0x038 = p.haltv ∧
    (∀ o, o % 8 ≠ 0 ∨ 0x40 ≤ o → p.read o = 0) ∧
    fld (p.read 0x020) 8 8 = p.lst.toNat ∧ fld (p.read 0x020) 20 4 = p.pst.toNat ∧ fld (p.read 0x020) 24 40 = 0 ∧
    fld (p.read 0x020) 6 2 = 0 ∧ fld (p.read 0x020) 16 4 = 0 ∧
    [0, 1, 2, 3, 4, 5].map (bitOf (p.read 0x020)) = [p.busy, p.done, p.canc, p.halt, p.iflt, p.pdone]) ∧
  (∀ (s : State) (port : PortId) (v : Word), s.operates = true →
    (∃ t : State, exec (.evRegisterWrite port 0x000 v) s = .next t ∧ t.readBlock port 0x000 = v) ∧
    (∃ t : State, exec (.evRegisterWrite port 0x008 v) s = .next t ∧ t.readBlock port 0x008 = BitVec.ofNat 64 (v.toNat % 2 ^ 14)) ∧
    (∃ t : State, exec (.evRegisterWrite port 0x010 v) s = .next t ∧ t.readBlock port 0x010 = BitVec.ofNat 64 (v.toNat % 2 ^ 5))) ∧
  (∀ (s : State), (∀ x y o, 0x800 ≤ o → s.readBlock x o = s.readBlock y o) ∧ (∀ o, o < 0x800 → s.readBar o = (s.port .a).read o) ∧
    (∀ o, o < 0x800 → s.readBar (0x1000 + o) = (s.port .b).read o) ∧
    (∀ o, 0x2000 ≤ o → o / 0x1000 ≠ 3 → s.readBar o = 0) ∧ s.readBar 0x3008 = 0 ∧
    s.readBar 0x800 = BitVec.ofNat 64 (2 ^ 63 * s.shared.held.toNat + s.shared.owner.toNat) ∧ s.readBar 0x808 = s.shared.ptbase ∧
    s.readBar 0x820 = 0 ∧ fld (s.readBar 0x830) 0 11 = s.shared.plim.toNat ∧
    (s.log.length ≤ 64 → s.lost < 2 ^ 32 → fld (s.readBar 0x3000) 0 7 = s.log.length ∧ fld (s.readBar 0x3000) 16 32 = s.lost) ∧
    (∀ e rest, s.log = e :: rest → s.readBar 0x3010 = e.va ∧ s.readBar 0x3018 = e.linf) ∧
    (s.log = [] → s.readBar 0x3010 = 0 ∧ s.readBar 0x3018 = 0)) ∧
  (∀ (e : LogEntry), e.fid < 2 ^ 12 → e.tasid < 2 ^ 14 → e.cause < 2 ^ 8 → e.kind < 2 ^ 3 → fld e.linf 0 12 = e.fid ∧
    fld e.linf 16 14 = e.tasid ∧ fld e.linf 32 8 = e.cause ∧ fld e.linf 40 3 = e.kind ∧ fld e.linf 12 4 = 0 ∧ fld e.linf 30 2 = 0)
end

