-- ==== Sys2Proof/Laws/Store.lean ====
section
/-! SUPPORT. What the finite maps of the machine do: reading after writing, in any map, and the canonical form. -/

namespace Sys2Proof.Machine

variable {α : Type}

@[simp] theorem FMap.get_nil (k : Nat) : FMap.get ([] : FMap α) k = none := rfl

@[simp] theorem FMap.get_put_same (m : FMap α) (k : Nat) (v : α) : FMap.get (FMap.put m k v) k = some v := by
  induction m with
  | nil => simp [FMap.put, FMap.get]
  | cons e m ih =>
    obtain ⟨k', v'⟩ := e
    by_cases h1 : k < k'
    · simp [FMap.put, h1, FMap.get]
    · by_cases h2 : k = k'
      · simp [FMap.put, h2, FMap.get]
      · simp [FMap.put, h1, h2, FMap.get, ih]

@[simp] theorem FMap.get_put_other (m : FMap α) {k x : Nat} (v : α) (h : x ≠ k) :
    FMap.get (FMap.put m k v) x = FMap.get m x := by
  induction m with
  | nil => simp [FMap.put, FMap.get, h]
  | cons e m ih =>
    obtain ⟨k', v'⟩ := e
    by_cases h1 : k < k'
    · simp [FMap.put, h1, FMap.get, h]
    · by_cases h2 : k = k'
      · subst h2; simp [FMap.put, FMap.get, h]
      · simp [FMap.put, h1, h2, FMap.get, ih]

theorem FMap.get_put (m : FMap α) (k x : Nat) (v : α) :
    FMap.get (FMap.put m k v) x = if x = k then some v else FMap.get m x := by
  split
  · next h => subst h; simp
  · next h => simp [h]

@[simp] theorem FMap.get_del_same (m : FMap α) (k : Nat) : FMap.get (FMap.del m k) k = none := by
  induction m with
  | nil => rfl
  | cons e m ih =>
    obtain ⟨k', v'⟩ := e
    by_cases h : k = k'
    · subst h; simp [FMap.del, ih]
    · simp [FMap.del, h, FMap.get, ih]

@[simp] theorem FMap.get_del_other (m : FMap α) {k x : Nat} (h : x ≠ k) : FMap.get (FMap.del m k) x = FMap.get m x := by
  induction m with
  | nil => rfl
  | cons e m ih =>
    obtain ⟨k', v'⟩ := e
    by_cases h2 : k = k'
    · subst h2; simp [FMap.del, FMap.get, h, ih]
    · simp [FMap.del, h2, FMap.get, ih]

theorem FMap.get_upd (m : FMap α) (k x : Nat) (f : α → α) :
    FMap.get (FMap.upd m k f) x = if x = k then (FMap.get m k).map f else FMap.get m x := by
  unfold FMap.upd
  cases hg : FMap.get m k with
  | none => by_cases h : x = k <;> simp [h, hg]
  | some v => simp [FMap.get_put]

@[simp] theorem FMap.get_upd_same (m : FMap α) (k : Nat) (f : α → α) :
    FMap.get (FMap.upd m k f) k = (FMap.get m k).map f := by simp [FMap.get_upd]

@[simp] theorem FMap.get_upd_other (m : FMap α) {k x : Nat} (f : α → α) (h : x ≠ k) :
    FMap.get (FMap.upd m k f) x = FMap.get m x := by simp [FMap.get_upd, h]

@[simp] theorem FMap.rd_nil (d : α) (k : Nat) : FMap.rd d [] k = d := rfl

/-- Reading after writing, in a map whose unlisted keys read as d. -/
theorem FMap.rd_wr [DecidableEq α] (d : α) (m : FMap α) (k x : Nat) (v : α) :
    FMap.rd d (FMap.wr d m k v) x = if x = k then v else FMap.rd d m x := by
  unfold FMap.wr FMap.rd
  by_cases hv : v = d <;> by_cases h : x = k <;> simp [hv, h]

@[simp] theorem FMap.rd_wr_same [DecidableEq α] (d : α) (m : FMap α) (k : Nat) (v : α) :
    FMap.rd d (FMap.wr d m k v) k = v := by simp [FMap.rd_wr]

@[simp] theorem FMap.rd_wr_other [DecidableEq α] (d : α) (m : FMap α) {k x : Nat} (v : α) (h : x ≠ k) :
    FMap.rd d (FMap.wr d m k v) x = FMap.rd d m x := by simp [FMap.rd_wr, h]

theorem FMap.upd_some (m : FMap α) (k : Nat) (f : α → α) (v : α) (h : FMap.get m k = some v) :
    FMap.upd m k f = FMap.put m k (f v) := by simp [FMap.upd, h]

end Sys2Proof.Machine
end

