-- ==== Sys2Proof/Laws/Memory.lean ====
section
/-! SUPPORT. Memory: reading after writing, and the canonical form that every memory operation keeps. -/

namespace Sys2Proof.Machine

/-! ### The canonical form, as a statement about pairs -/

theorem FMap.wf_iff {α : Type} (m : FMap α) : FMap.wf m = true ↔ m.Pairwise (fun x y => x.1 < y.1) := by
  induction m with
  | nil => simp [FMap.wf]
  | cons e m ih =>
    cases m with
    | nil => simp [FMap.wf]
    | cons f m =>
      obtain ⟨k, v⟩ := e
      obtain ⟨k', v'⟩ := f
      simp only [FMap.wf, Bool.and_eq_true, decide_eq_true_eq, ih, List.pairwise_cons]
      constructor
      · rintro ⟨hk, h1, h2⟩
        refine ⟨?_, h1, h2⟩
        rintro x (_ | hx)
        · exact hk
        · rename_i hx; exact Nat.lt_trans hk (h1 x hx)
      · rintro ⟨h0, h1, h2⟩
        exact ⟨h0 (k', v') (by simp), h1, h2⟩

theorem Memory.wf_iff (m : Memory) :
    Memory.wf m = true ↔ m.Pairwise (fun x y => x.1 < y.1) ∧ ∀ c ∈ m, c.2 ≠ Config.memDefault := by
  simp [Memory.wf, FMap.wf_iff]

/-! ### Reading -/

theorem Memory.rd_eq (m : Memory) (a : Nat) : Memory.rd m a = (FMap.get m a).getD Config.memDefault := by
  induction m with
  | nil => rfl
  | cons e m ih =>
    obtain ⟨k, v⟩ := e
    by_cases h : a = k <;> simp [Memory.rd, FMap.get, h, ih]

theorem Memory.rd_append_left (l r : Memory) (a : Nat) (h : ∀ c ∈ r, c.1 ≠ a) : Memory.rd (l ++ r) a = Memory.rd l a := by
  induction l with
  | nil =>
    induction r with
    | nil => rfl
    | cons e r ih =>
      obtain ⟨k, v⟩ := e
      have hk : a ≠ k := fun e => h (k, v) (by simp) e.symm
      simp only [List.nil_append, Memory.rd, hk, if_false]
      exact ih (fun c hc => h c (by simp [hc]))
  | cons e l ih =>
    obtain ⟨k, v⟩ := e
    simp only [List.cons_append, Memory.rd]; rw [ih]

theorem Memory.rd_append_right (l r : Memory) (a : Nat) (h : ∀ c ∈ l, c.1 ≠ a) : Memory.rd (l ++ r) a = Memory.rd r a := by
  induction l with
  | nil => rfl
  | cons e l ih =>
    obtain ⟨k, v⟩ := e
    have hk : a ≠ k := fun e => h (k, v) (by simp) e.symm
    simp only [List.cons_append, Memory.rd, hk, if_false]
    exact ih (fun c hc => h c (by simp [hc]))

theorem Memory.rd_filter (m : Memory) (q : Nat → Bool) (a : Nat) (h : q a = true) :
    Memory.rd (m.filter (fun c => q c.1)) a = Memory.rd m a := by
  induction m with
  | nil => rfl
  | cons e m ih =>
    obtain ⟨k, v⟩ := e
    by_cases hk : a = k
    · subst hk; simp [h, Memory.rd]
    · cases hq : q k <;> simp [hq, Memory.rd, hk, ih]

theorem Memory.cells_range (a : Nat) (bs : List Byte) : ∀ c ∈ Memory.cells a bs, a ≤ c.1 ∧ c.1 < a + bs.length := by
  induction bs generalizing a with
  | nil => simp [Memory.cells]
  | cons b bs ih =>
    intro c hc
    unfold Memory.cells at hc
    split at hc
    · have := ih (a + 1) c hc
      simp only [List.length_cons]; omega
    · rcases List.mem_cons.mp hc with rfl | hc
      · simp
      · have := ih (a + 1) c hc
        simp only [List.length_cons]; omega

theorem Memory.rd_cells (a : Nat) (bs : List Byte) (x : Nat) :
    Memory.rd (Memory.cells a bs) x = if a ≤ x then bs.getD (x - a) Config.memDefault else Config.memDefault := by
  induction bs generalizing a with
  | nil => simp [Memory.cells, Memory.rd]
  | cons b bs ih =>
    have key : Memory.rd (Memory.cells a (b :: bs)) x = if x = a then b else Memory.rd (Memory.cells (a + 1) bs) x := by
      rw [Memory.cells]
      split
      · next hb =>
        split
        · next hy => rw [ih, hb, if_neg (by omega)]
        · rfl
      · rw [Memory.rd]
    rw [key, ih]
    by_cases h1 : x = a
    · subst h1; simp
    · by_cases h2 : a ≤ x
      · have h3 : a + 1 ≤ x := by omega
        obtain ⟨d, rfl⟩ : ∃ d, x = a + 1 + d := ⟨x - (a + 1), by omega⟩
        have e1 : a + 1 + d - (a + 1) = d := by omega
        have e2 : a + 1 + d - a = d + 1 := by omega
        simp [h1, h2, e1, e2]
      · have h3 : ¬ a + 1 ≤ x := by omega
        simp [h1, h2, h3]

/-- A byte outside the bytes written reads as before. -/
theorem Memory.rd_wr_outside (m : Memory) (a : Nat) (bs : List Byte) (x : Nat) (h : x < a ∨ a + bs.length ≤ x) :
    Memory.rd (Memory.wr m a bs) x = Memory.rd m x := by
  unfold Memory.wr
  rcases h with h | h
  · rw [Memory.rd_append_left, Memory.rd_append_left]
    · exact Memory.rd_filter m (fun k => decide (k < a)) x (by simpa using h)
    · intro c hc; have := Memory.cells_range a bs c hc; omega
    · intro c hc; simp at hc; omega
  · rw [Memory.rd_append_right]
    · exact Memory.rd_filter m (fun k => decide (a + bs.length ≤ k)) x (by simpa using h)
    · intro c hc
      rcases List.mem_append.mp hc with hc | hc
      · simp at hc; omega
      · have := Memory.cells_range a bs c hc; omega

/-- A byte written reads as written. -/
theorem Memory.rd_wr_inside (m : Memory) (a : Nat) (bs : List Byte) (i : Nat) (h : i < bs.length) :
    Memory.rd (Memory.wr m a bs) (a + i) = bs[i] := by
  unfold Memory.wr
  rw [Memory.rd_append_left, Memory.rd_append_right, Memory.rd_cells]
  · simp [h]
  · intro c hc; simp at hc; omega
  · intro c hc; simp at hc; omega

/-- All the bytes written read back. -/
theorem Memory.bytes_wr_same (m : Memory) (a : Nat) (bs : List Byte) :
    Memory.bytes (Memory.wr m a bs) a bs.length = bs := by
  apply List.ext_getElem
  · simp [Memory.bytes]
  · intro i h1 h2
    simp only [Memory.bytes, List.getElem_map, List.getElem_range]
    exact Memory.rd_wr_inside m a bs i h2

/-- Bytes that the write does not touch read as before. -/
theorem Memory.bytes_wr_outside (m : Memory) (a : Nat) (bs : List Byte) (x n : Nat) (h : x + n ≤ a ∨ a + bs.length ≤ x) :
    Memory.bytes (Memory.wr m a bs) x n = Memory.bytes m x n := by
  unfold Memory.bytes
  apply List.map_congr_left
  intro i hi
  have := List.mem_range.mp hi
  exact Memory.rd_wr_outside m a bs (x + i) (by omega)

/-! ### Keeping the canonical form -/

theorem Memory.wf_nil : Memory.wf [] = true := rfl

theorem Memory.wf_filter (m : Memory) (q : Host.Cell → Bool) (h : Memory.wf m = true) : Memory.wf (m.filter q) = true := by
  rw [Memory.wf_iff] at h ⊢
  exact ⟨h.1.sublist List.filter_sublist, fun c hc => h.2 c (List.mem_filter.mp hc).1⟩

theorem Memory.wf_cells (a : Nat) (bs : List Byte) : Memory.wf (Memory.cells a bs) = true := by
  rw [Memory.wf_iff]
  induction bs generalizing a with
  | nil => simp [Memory.cells]
  | cons b bs ih =>
    unfold Memory.cells
    split
    · exact ih (a + 1)
    · next hb =>
      obtain ⟨h1, h2⟩ := ih (a + 1)
      refine ⟨List.pairwise_cons.mpr ⟨fun c hc => ?_, h1⟩, fun c hc => ?_⟩
      · exact (Memory.cells_range (a + 1) bs c hc).1
      · rcases List.mem_cons.mp hc with rfl | hc
        · exact hb
        · exact h2 c hc

/-- A write keeps the canonical form. -/
theorem Memory.wf_wr (m : Memory) (a : Nat) (bs : List Byte) (h : Memory.wf m = true) : Memory.wf (Memory.wr m a bs) = true := by
  have h1 := (Memory.wf_iff _).mp (Memory.wf_filter m (fun c => decide (c.1 < a)) h)
  have h2 := (Memory.wf_iff _).mp (Memory.wf_cells a bs)
  have h3 := (Memory.wf_iff _).mp (Memory.wf_filter m (fun c => decide (a + bs.length ≤ c.1)) h)
  rw [Memory.wf_iff]
  unfold Memory.wr
  refine ⟨List.pairwise_append.mpr ⟨List.pairwise_append.mpr ⟨h1.1, h2.1, ?_⟩, h3.1, ?_⟩, ?_⟩
  · intro c hc d hd
    have := Memory.cells_range a bs d hd
    simp at hc; omega
  · intro c hc d hd
    simp at hd
    rcases List.mem_append.mp hc with hc | hc
    · simp at hc; omega
    · have := Memory.cells_range a bs c hc; omega
  · intro c hc
    rcases List.mem_append.mp hc with hc | hc
    · rcases List.mem_append.mp hc with hc | hc
      · exact h1.2 c hc
      · exact h2.2 c hc
    · exact h3.2 c hc

/-- Writes one after another keep the canonical form. -/
theorem Memory.wf_foldl {α : Type} (f : Memory → α → Memory) (xs : List α) (m : Memory) (h : Memory.wf m = true)
    (hf : ∀ m x, Memory.wf m = true → Memory.wf (f m x) = true) : Memory.wf (xs.foldl f m) = true := by
  induction xs generalizing m with
  | nil => exact h
  | cons x xs ih => exact ih _ (hf m x h)

theorem State.reset_memory_wf : Memory.wf State.reset.mem = true := rfl

theorem hostCells_wf (m : Memory) (h : Memory.wf m = true) : Memory.wf (hostCells m) = true :=
  Memory.wf_filter m _ h

end Sys2Proof.Machine
end

