-- ==== Sys2Proof/Laws/State.lean ====
section
/-! SUPPORT. One lemma for each field of State and each named update of it: the fields that the update does not name are as
before. -/

namespace Sys2Proof.Machine

variable (s : State)

/-! ### putGroup -/

@[simp] theorem State.putGroup_agenda (gid : Nat) (g : Group) : (s.putGroup gid g).agenda = s.agenda := rfl
@[simp] theorem State.putGroup_cur (gid : Nat) (g : Group) : (s.putGroup gid g).cur = s.cur := rfl
@[simp] theorem State.putGroup_fresh (gid : Nat) (g : Group) : (s.putGroup gid g).fresh = s.fresh := rfl
@[simp] theorem State.putGroup_beat (gid : Nat) (g : Group) : (s.putGroup gid g).beat = s.beat := rfl
@[simp] theorem State.putGroup_mem (gid : Nat) (g : Group) : (s.putGroup gid g).mem = s.mem := rfl
@[simp] theorem State.putGroup_poison (gid : Nat) (g : Group) : (s.putGroup gid g).poison = s.poison := rfl
@[simp] theorem State.putGroup_stores (gid : Nat) (g : Group) : (s.putGroup gid g).stores = s.stores := rfl
@[simp] theorem State.putGroup_codeOld (gid : Nat) (g : Group) : (s.putGroup gid g).codeOld = s.codeOld := rfl
@[simp] theorem State.putGroup_rel (gid : Nat) (g : Group) : (s.putGroup gid g).rel = s.rel := rfl
@[simp] theorem State.putGroup_symErr (gid : Nat) (g : Group) : (s.putGroup gid g).symErr = s.symErr := rfl
@[simp] theorem State.putGroup_units (gid : Nat) (g : Group) : (s.putGroup gid g).units = s.units := rfl
@[simp] theorem State.putGroup_gens (gid : Nat) (g : Group) : (s.putGroup gid g).gens = s.gens := rfl
@[simp] theorem State.putGroup_cores (gid : Nat) (g : Group) : (s.putGroup gid g).cores = s.cores := rfl
@[simp] theorem State.putGroup_launches (gid : Nat) (g : Group) : (s.putGroup gid g).launches = s.launches := rfl
@[simp] theorem State.putGroup_jobs (gid : Nat) (g : Group) : (s.putGroup gid g).jobs = s.jobs := rfl
@[simp] theorem State.putGroup_nextJob (gid : Nat) (g : Group) : (s.putGroup gid g).nextJob = s.nextJob := rfl
@[simp] theorem State.putGroup_parts (gid : Nat) (g : Group) : (s.putGroup gid g).parts = s.parts := rfl
@[simp] theorem State.putGroup_spaces (gid : Nat) (g : Group) : (s.putGroup gid g).spaces = s.spaces := rfl
@[simp] theorem State.putGroup_routes (gid : Nat) (g : Group) : (s.putGroup gid g).routes = s.routes := rfl
@[simp] theorem State.putGroup_tlbs (gid : Nat) (g : Group) : (s.putGroup gid g).tlbs = s.tlbs := rfl
@[simp] theorem State.putGroup_walkers (gid : Nat) (g : Group) : (s.putGroup gid g).walkers = s.walkers := rfl
@[simp] theorem State.putGroup_l2 (gid : Nat) (g : Group) : (s.putGroup gid g).l2 = s.l2 := rfl
@[simp] theorem State.putGroup_psel (gid : Nat) (g : Group) : (s.putGroup gid g).psel = s.psel := rfl
@[simp] theorem State.putGroup_pkts (gid : Nat) (g : Group) : (s.putGroup gid g).pkts = s.pkts := rfl
@[simp] theorem State.putGroup_nextPkt (gid : Nat) (g : Group) : (s.putGroup gid g).nextPkt = s.nextPkt := rfl
@[simp] theorem State.putGroup_switches (gid : Nat) (g : Group) : (s.putGroup gid g).switches = s.switches := rfl
@[simp] theorem State.putGroup_netBudget (gid : Nat) (g : Group) : (s.putGroup gid g).netBudget = s.netBudget := rfl
@[simp] theorem State.putGroup_hbmBudget (gid : Nat) (g : Group) : (s.putGroup gid g).hbmBudget = s.hbmBudget := rfl
@[simp] theorem State.putGroup_rayBudget (gid : Nat) (g : Group) : (s.putGroup gid g).rayBudget = s.rayBudget := rfl
@[simp] theorem State.putGroup_oldWords (gid : Nat) (g : Group) : (s.putGroup gid g).oldWords = s.oldWords := rfl
@[simp] theorem State.putGroup_sills (gid : Nat) (g : Group) : (s.putGroup gid g).sills = s.sills := rfl
@[simp] theorem State.putGroup_structs (gid : Nat) (g : Group) : (s.putGroup gid g).structs = s.structs := rfl
@[simp] theorem State.putGroup_rays (gid : Nat) (g : Group) : (s.putGroup gid g).rays = s.rays := rfl
@[simp] theorem State.putGroup_nextRay (gid : Nat) (g : Group) : (s.putGroup gid g).nextRay = s.nextRay := rfl
@[simp] theorem State.putGroup_conts (gid : Nat) (g : Group) : (s.putGroup gid g).conts = s.conts := rfl
@[simp] theorem State.putGroup_curs (gid : Nat) (g : Group) : (s.putGroup gid g).curs = s.curs := rfl
@[simp] theorem State.putGroup_rasters (gid : Nat) (g : Group) : (s.putGroup gid g).rasters = s.rasters := rfl
@[simp] theorem State.putGroup_nets (gid : Nat) (g : Group) : (s.putGroup gid g).nets = s.nets := rfl
@[simp] theorem State.putGroup_rcas (gid : Nat) (g : Group) : (s.putGroup gid g).rcas = s.rcas := rfl
@[simp] theorem State.putGroup_sanders (gid : Nat) (g : Group) : (s.putGroup gid g).sanders = s.sanders := rfl
@[simp] theorem State.putGroup_shadow (gid : Nat) (g : Group) : (s.putGroup gid g).shadow = s.shadow := rfl
@[simp] theorem State.putGroup_puts (gid : Nat) (g : Group) : (s.putGroup gid g).puts = s.puts := rfl
@[simp] theorem State.putGroup_futas (gid : Nat) (g : Group) : (s.putGroup gid g).futas = s.futas := rfl
@[simp] theorem State.putGroup_portA (gid : Nat) (g : Group) : (s.putGroup gid g).portA = s.portA := rfl
@[simp] theorem State.putGroup_portB (gid : Nat) (g : Group) : (s.putGroup gid g).portB = s.portB := rfl
@[simp] theorem State.putGroup_portD (gid : Nat) (g : Group) : (s.putGroup gid g).portD = s.portD := rfl
@[simp] theorem State.putGroup_shared (gid : Nat) (g : Group) : (s.putGroup gid g).shared = s.shared := rfl
@[simp] theorem State.putGroup_log (gid : Nat) (g : Group) : (s.putGroup gid g).log = s.log := rfl
@[simp] theorem State.putGroup_lost (gid : Nat) (g : Group) : (s.putGroup gid g).lost = s.lost := rfl
@[simp] theorem State.putGroup_hostLines (gid : Nat) (g : Group) : (s.putGroup gid g).hostLines = s.hostLines := rfl
@[simp] theorem State.putGroup_hostHeld (gid : Nat) (g : Group) : (s.putGroup gid g).hostHeld = s.hostHeld := rfl
@[simp] theorem State.putGroup_hostWait (gid : Nat) (g : Group) : (s.putGroup gid g).hostWait = s.hostWait := rfl
@[simp] theorem State.putGroup_mgmt (gid : Nat) (g : Group) : (s.putGroup gid g).mgmt = s.mgmt := rfl
@[simp] theorem State.putGroup_out (gid : Nat) (g : Group) : (s.putGroup gid g).out = s.out := rfl

/-! ### updGroup -/

@[simp] theorem State.updGroup_agenda (gid : Nat) (f : Group → Group) : (s.updGroup gid f).agenda = s.agenda := rfl
@[simp] theorem State.updGroup_cur (gid : Nat) (f : Group → Group) : (s.updGroup gid f).cur = s.cur := rfl
@[simp] theorem State.updGroup_fresh (gid : Nat) (f : Group → Group) : (s.updGroup gid f).fresh = s.fresh := rfl
@[simp] theorem State.updGroup_beat (gid : Nat) (f : Group → Group) : (s.updGroup gid f).beat = s.beat := rfl
@[simp] theorem State.updGroup_mem (gid : Nat) (f : Group → Group) : (s.updGroup gid f).mem = s.mem := rfl
@[simp] theorem State.updGroup_poison (gid : Nat) (f : Group → Group) : (s.updGroup gid f).poison = s.poison := rfl
@[simp] theorem State.updGroup_stores (gid : Nat) (f : Group → Group) : (s.updGroup gid f).stores = s.stores := rfl
@[simp] theorem State.updGroup_codeOld (gid : Nat) (f : Group → Group) : (s.updGroup gid f).codeOld = s.codeOld := rfl
@[simp] theorem State.updGroup_rel (gid : Nat) (f : Group → Group) : (s.updGroup gid f).rel = s.rel := rfl
@[simp] theorem State.updGroup_symErr (gid : Nat) (f : Group → Group) : (s.updGroup gid f).symErr = s.symErr := rfl
@[simp] theorem State.updGroup_units (gid : Nat) (f : Group → Group) : (s.updGroup gid f).units = s.units := rfl
@[simp] theorem State.updGroup_gens (gid : Nat) (f : Group → Group) : (s.updGroup gid f).gens = s.gens := rfl
@[simp] theorem State.updGroup_cores (gid : Nat) (f : Group → Group) : (s.updGroup gid f).cores = s.cores := rfl
@[simp] theorem State.updGroup_launches (gid : Nat) (f : Group → Group) : (s.updGroup gid f).launches = s.launches := rfl
@[simp] theorem State.updGroup_jobs (gid : Nat) (f : Group → Group) : (s.updGroup gid f).jobs = s.jobs := rfl
@[simp] theorem State.updGroup_nextJob (gid : Nat) (f : Group → Group) : (s.updGroup gid f).nextJob = s.nextJob := rfl
@[simp] theorem State.updGroup_parts (gid : Nat) (f : Group → Group) : (s.updGroup gid f).parts = s.parts := rfl
@[simp] theorem State.updGroup_spaces (gid : Nat) (f : Group → Group) : (s.updGroup gid f).spaces = s.spaces := rfl
@[simp] theorem State.updGroup_routes (gid : Nat) (f : Group → Group) : (s.updGroup gid f).routes = s.routes := rfl
@[simp] theorem State.updGroup_tlbs (gid : Nat) (f : Group → Group) : (s.updGroup gid f).tlbs = s.tlbs := rfl
@[simp] theorem State.updGroup_walkers (gid : Nat) (f : Group → Group) : (s.updGroup gid f).walkers = s.walkers := rfl
@[simp] theorem State.updGroup_l2 (gid : Nat) (f : Group → Group) : (s.updGroup gid f).l2 = s.l2 := rfl
@[simp] theorem State.updGroup_psel (gid : Nat) (f : Group → Group) : (s.updGroup gid f).psel = s.psel := rfl
@[simp] theorem State.updGroup_pkts (gid : Nat) (f : Group → Group) : (s.updGroup gid f).pkts = s.pkts := rfl
@[simp] theorem State.updGroup_nextPkt (gid : Nat) (f : Group → Group) : (s.updGroup gid f).nextPkt = s.nextPkt := rfl
@[simp] theorem State.updGroup_switches (gid : Nat) (f : Group → Group) : (s.updGroup gid f).switches = s.switches := rfl
@[simp] theorem State.updGroup_netBudget (gid : Nat) (f : Group → Group) : (s.updGroup gid f).netBudget = s.netBudget := rfl
@[simp] theorem State.updGroup_hbmBudget (gid : Nat) (f : Group → Group) : (s.updGroup gid f).hbmBudget = s.hbmBudget := rfl
@[simp] theorem State.updGroup_rayBudget (gid : Nat) (f : Group → Group) : (s.updGroup gid f).rayBudget = s.rayBudget := rfl
@[simp] theorem State.updGroup_oldWords (gid : Nat) (f : Group → Group) : (s.updGroup gid f).oldWords = s.oldWords := rfl
@[simp] theorem State.updGroup_sills (gid : Nat) (f : Group → Group) : (s.updGroup gid f).sills = s.sills := rfl
@[simp] theorem State.updGroup_structs (gid : Nat) (f : Group → Group) : (s.updGroup gid f).structs = s.structs := rfl
@[simp] theorem State.updGroup_rays (gid : Nat) (f : Group → Group) : (s.updGroup gid f).rays = s.rays := rfl
@[simp] theorem State.updGroup_nextRay (gid : Nat) (f : Group → Group) : (s.updGroup gid f).nextRay = s.nextRay := rfl
@[simp] theorem State.updGroup_conts (gid : Nat) (f : Group → Group) : (s.updGroup gid f).conts = s.conts := rfl
@[simp] theorem State.updGroup_curs (gid : Nat) (f : Group → Group) : (s.updGroup gid f).curs = s.curs := rfl
@[simp] theorem State.updGroup_rasters (gid : Nat) (f : Group → Group) : (s.updGroup gid f).rasters = s.rasters := rfl
@[simp] theorem State.updGroup_nets (gid : Nat) (f : Group → Group) : (s.updGroup gid f).nets = s.nets := rfl
@[simp] theorem State.updGroup_rcas (gid : Nat) (f : Group → Group) : (s.updGroup gid f).rcas = s.rcas := rfl
@[simp] theorem State.updGroup_sanders (gid : Nat) (f : Group → Group) : (s.updGroup gid f).sanders = s.sanders := rfl
@[simp] theorem State.updGroup_shadow (gid : Nat) (f : Group → Group) : (s.updGroup gid f).shadow = s.shadow := rfl
@[simp] theorem State.updGroup_puts (gid : Nat) (f : Group → Group) : (s.updGroup gid f).puts = s.puts := rfl
@[simp] theorem State.updGroup_futas (gid : Nat) (f : Group → Group) : (s.updGroup gid f).futas = s.futas := rfl
@[simp] theorem State.updGroup_portA (gid : Nat) (f : Group → Group) : (s.updGroup gid f).portA = s.portA := rfl
@[simp] theorem State.updGroup_portB (gid : Nat) (f : Group → Group) : (s.updGroup gid f).portB = s.portB := rfl
@[simp] theorem State.updGroup_portD (gid : Nat) (f : Group → Group) : (s.updGroup gid f).portD = s.portD := rfl
@[simp] theorem State.updGroup_shared (gid : Nat) (f : Group → Group) : (s.updGroup gid f).shared = s.shared := rfl
@[simp] theorem State.updGroup_log (gid : Nat) (f : Group → Group) : (s.updGroup gid f).log = s.log := rfl
@[simp] theorem State.updGroup_lost (gid : Nat) (f : Group → Group) : (s.updGroup gid f).lost = s.lost := rfl
@[simp] theorem State.updGroup_hostLines (gid : Nat) (f : Group → Group) : (s.updGroup gid f).hostLines = s.hostLines := rfl
@[simp] theorem State.updGroup_hostHeld (gid : Nat) (f : Group → Group) : (s.updGroup gid f).hostHeld = s.hostHeld := rfl
@[simp] theorem State.updGroup_hostWait (gid : Nat) (f : Group → Group) : (s.updGroup gid f).hostWait = s.hostWait := rfl
@[simp] theorem State.updGroup_mgmt (gid : Nat) (f : Group → Group) : (s.updGroup gid f).mgmt = s.mgmt := rfl
@[simp] theorem State.updGroup_out (gid : Nat) (f : Group → Group) : (s.updGroup gid f).out = s.out := rfl

/-! ### updSplit -/

@[simp] theorem State.updSplit_agenda (gid place : Nat) (f : Split → Split) : (s.updSplit gid place f).agenda = s.agenda := rfl
@[simp] theorem State.updSplit_cur (gid place : Nat) (f : Split → Split) : (s.updSplit gid place f).cur = s.cur := rfl
@[simp] theorem State.updSplit_fresh (gid place : Nat) (f : Split → Split) : (s.updSplit gid place f).fresh = s.fresh := rfl
@[simp] theorem State.updSplit_beat (gid place : Nat) (f : Split → Split) : (s.updSplit gid place f).beat = s.beat := rfl
@[simp] theorem State.updSplit_mem (gid place : Nat) (f : Split → Split) : (s.updSplit gid place f).mem = s.mem := rfl
@[simp] theorem State.updSplit_poison (gid place : Nat) (f : Split → Split) : (s.updSplit gid place f).poison = s.poison := rfl
@[simp] theorem State.updSplit_stores (gid place : Nat) (f : Split → Split) : (s.updSplit gid place f).stores = s.stores := rfl
@[simp] theorem State.updSplit_codeOld (gid place : Nat) (f : Split → Split) : (s.updSplit gid place f).codeOld = s.codeOld := rfl
@[simp] theorem State.updSplit_rel (gid place : Nat) (f : Split → Split) : (s.updSplit gid place f).rel = s.rel := rfl
@[simp] theorem State.updSplit_symErr (gid place : Nat) (f : Split → Split) : (s.updSplit gid place f).symErr = s.symErr := rfl
@[simp] theorem State.updSplit_units (gid place : Nat) (f : Split → Split) : (s.updSplit gid place f).units = s.units := rfl
@[simp] theorem State.updSplit_gens (gid place : Nat) (f : Split → Split) : (s.updSplit gid place f).gens = s.gens := rfl
@[simp] theorem State.updSplit_cores (gid place : Nat) (f : Split → Split) : (s.updSplit gid place f).cores = s.cores := rfl
@[simp] theorem State.updSplit_launches (gid place : Nat) (f : Split → Split) : (s.updSplit gid place f).launches = s.launches := rfl
@[simp] theorem State.updSplit_jobs (gid place : Nat) (f : Split → Split) : (s.updSplit gid place f).jobs = s.jobs := rfl
@[simp] theorem State.updSplit_nextJob (gid place : Nat) (f : Split → Split) : (s.updSplit gid place f).nextJob = s.nextJob := rfl
@[simp] theorem State.updSplit_parts (gid place : Nat) (f : Split → Split) : (s.updSplit gid place f).parts = s.parts := rfl
@[simp] theorem State.updSplit_spaces (gid place : Nat) (f : Split → Split) : (s.updSplit gid place f).spaces = s.spaces := rfl
@[simp] theorem State.updSplit_routes (gid place : Nat) (f : Split → Split) : (s.updSplit gid place f).routes = s.routes := rfl
@[simp] theorem State.updSplit_tlbs (gid place : Nat) (f : Split → Split) : (s.updSplit gid place f).tlbs = s.tlbs := rfl
@[simp] theorem State.updSplit_walkers (gid place : Nat) (f : Split → Split) : (s.updSplit gid place f).walkers = s.walkers := rfl
@[simp] theorem State.updSplit_l2 (gid place : Nat) (f : Split → Split) : (s.updSplit gid place f).l2 = s.l2 := rfl
@[simp] theorem State.updSplit_psel (gid place : Nat) (f : Split → Split) : (s.updSplit gid place f).psel = s.psel := rfl
@[simp] theorem State.updSplit_pkts (gid place : Nat) (f : Split → Split) : (s.updSplit gid place f).pkts = s.pkts := rfl
@[simp] theorem State.updSplit_nextPkt (gid place : Nat) (f : Split → Split) : (s.updSplit gid place f).nextPkt = s.nextPkt := rfl
@[simp] theorem State.updSplit_switches (gid place : Nat) (f : Split → Split) : (s.updSplit gid place f).switches = s.switches := rfl
@[simp] theorem State.updSplit_netBudget (gid place : Nat) (f : Split → Split) : (s.updSplit gid place f).netBudget = s.netBudget := rfl
@[simp] theorem State.updSplit_hbmBudget (gid place : Nat) (f : Split → Split) : (s.updSplit gid place f).hbmBudget = s.hbmBudget := rfl
@[simp] theorem State.updSplit_rayBudget (gid place : Nat) (f : Split → Split) : (s.updSplit gid place f).rayBudget = s.rayBudget := rfl
@[simp] theorem State.updSplit_oldWords (gid place : Nat) (f : Split → Split) : (s.updSplit gid place f).oldWords = s.oldWords := rfl
@[simp] theorem State.updSplit_sills (gid place : Nat) (f : Split → Split) : (s.updSplit gid place f).sills = s.sills := rfl
@[simp] theorem State.updSplit_structs (gid place : Nat) (f : Split → Split) : (s.updSplit gid place f).structs = s.structs := rfl
@[simp] theorem State.updSplit_rays (gid place : Nat) (f : Split → Split) : (s.updSplit gid place f).rays = s.rays := rfl
@[simp] theorem State.updSplit_nextRay (gid place : Nat) (f : Split → Split) : (s.updSplit gid place f).nextRay = s.nextRay := rfl
@[simp] theorem State.updSplit_conts (gid place : Nat) (f : Split → Split) : (s.updSplit gid place f).conts = s.conts := rfl
@[simp] theorem State.updSplit_curs (gid place : Nat) (f : Split → Split) : (s.updSplit gid place f).curs = s.curs := rfl
@[simp] theorem State.updSplit_rasters (gid place : Nat) (f : Split → Split) : (s.updSplit gid place f).rasters = s.rasters := rfl
@[simp] theorem State.updSplit_nets (gid place : Nat) (f : Split → Split) : (s.updSplit gid place f).nets = s.nets := rfl
@[simp] theorem State.updSplit_rcas (gid place : Nat) (f : Split → Split) : (s.updSplit gid place f).rcas = s.rcas := rfl
@[simp] theorem State.updSplit_sanders (gid place : Nat) (f : Split → Split) : (s.updSplit gid place f).sanders = s.sanders := rfl
@[simp] theorem State.updSplit_shadow (gid place : Nat) (f : Split → Split) : (s.updSplit gid place f).shadow = s.shadow := rfl
@[simp] theorem State.updSplit_puts (gid place : Nat) (f : Split → Split) : (s.updSplit gid place f).puts = s.puts := rfl
@[simp] theorem State.updSplit_futas (gid place : Nat) (f : Split → Split) : (s.updSplit gid place f).futas = s.futas := rfl
@[simp] theorem State.updSplit_portA (gid place : Nat) (f : Split → Split) : (s.updSplit gid place f).portA = s.portA := rfl
@[simp] theorem State.updSplit_portB (gid place : Nat) (f : Split → Split) : (s.updSplit gid place f).portB = s.portB := rfl
@[simp] theorem State.updSplit_portD (gid place : Nat) (f : Split → Split) : (s.updSplit gid place f).portD = s.portD := rfl
@[simp] theorem State.updSplit_shared (gid place : Nat) (f : Split → Split) : (s.updSplit gid place f).shared = s.shared := rfl
@[simp] theorem State.updSplit_log (gid place : Nat) (f : Split → Split) : (s.updSplit gid place f).log = s.log := rfl
@[simp] theorem State.updSplit_lost (gid place : Nat) (f : Split → Split) : (s.updSplit gid place f).lost = s.lost := rfl
@[simp] theorem State.updSplit_hostLines (gid place : Nat) (f : Split → Split) : (s.updSplit gid place f).hostLines = s.hostLines := rfl
@[simp] theorem State.updSplit_hostHeld (gid place : Nat) (f : Split → Split) : (s.updSplit gid place f).hostHeld = s.hostHeld := rfl
@[simp] theorem State.updSplit_hostWait (gid place : Nat) (f : Split → Split) : (s.updSplit gid place f).hostWait = s.hostWait := rfl
@[simp] theorem State.updSplit_mgmt (gid place : Nat) (f : Split → Split) : (s.updSplit gid place f).mgmt = s.mgmt := rfl
@[simp] theorem State.updSplit_out (gid place : Nat) (f : Split → Split) : (s.updSplit gid place f).out = s.out := rfl

/-! ### onSplit -/

@[simp] theorem State.onSplit_agenda (f : Split → Split) : (s.onSplit f).agenda = s.agenda := rfl
@[simp] theorem State.onSplit_cur (f : Split → Split) : (s.onSplit f).cur = s.cur := rfl
@[simp] theorem State.onSplit_fresh (f : Split → Split) : (s.onSplit f).fresh = s.fresh := rfl
@[simp] theorem State.onSplit_beat (f : Split → Split) : (s.onSplit f).beat = s.beat := rfl
@[simp] theorem State.onSplit_mem (f : Split → Split) : (s.onSplit f).mem = s.mem := rfl
@[simp] theorem State.onSplit_poison (f : Split → Split) : (s.onSplit f).poison = s.poison := rfl
@[simp] theorem State.onSplit_stores (f : Split → Split) : (s.onSplit f).stores = s.stores := rfl
@[simp] theorem State.onSplit_codeOld (f : Split → Split) : (s.onSplit f).codeOld = s.codeOld := rfl
@[simp] theorem State.onSplit_rel (f : Split → Split) : (s.onSplit f).rel = s.rel := rfl
@[simp] theorem State.onSplit_symErr (f : Split → Split) : (s.onSplit f).symErr = s.symErr := rfl
@[simp] theorem State.onSplit_units (f : Split → Split) : (s.onSplit f).units = s.units := rfl
@[simp] theorem State.onSplit_gens (f : Split → Split) : (s.onSplit f).gens = s.gens := rfl
@[simp] theorem State.onSplit_cores (f : Split → Split) : (s.onSplit f).cores = s.cores := rfl
@[simp] theorem State.onSplit_launches (f : Split → Split) : (s.onSplit f).launches = s.launches := rfl
@[simp] theorem State.onSplit_jobs (f : Split → Split) : (s.onSplit f).jobs = s.jobs := rfl
@[simp] theorem State.onSplit_nextJob (f : Split → Split) : (s.onSplit f).nextJob = s.nextJob := rfl
@[simp] theorem State.onSplit_parts (f : Split → Split) : (s.onSplit f).parts = s.parts := rfl
@[simp] theorem State.onSplit_spaces (f : Split → Split) : (s.onSplit f).spaces = s.spaces := rfl
@[simp] theorem State.onSplit_routes (f : Split → Split) : (s.onSplit f).routes = s.routes := rfl
@[simp] theorem State.onSplit_tlbs (f : Split → Split) : (s.onSplit f).tlbs = s.tlbs := rfl
@[simp] theorem State.onSplit_walkers (f : Split → Split) : (s.onSplit f).walkers = s.walkers := rfl
@[simp] theorem State.onSplit_l2 (f : Split → Split) : (s.onSplit f).l2 = s.l2 := rfl
@[simp] theorem State.onSplit_psel (f : Split → Split) : (s.onSplit f).psel = s.psel := rfl
@[simp] theorem State.onSplit_pkts (f : Split → Split) : (s.onSplit f).pkts = s.pkts := rfl
@[simp] theorem State.onSplit_nextPkt (f : Split → Split) : (s.onSplit f).nextPkt = s.nextPkt := rfl
@[simp] theorem State.onSplit_switches (f : Split → Split) : (s.onSplit f).switches = s.switches := rfl
@[simp] theorem State.onSplit_netBudget (f : Split → Split) : (s.onSplit f).netBudget = s.netBudget := rfl
@[simp] theorem State.onSplit_hbmBudget (f : Split → Split) : (s.onSplit f).hbmBudget = s.hbmBudget := rfl
@[simp] theorem State.onSplit_rayBudget (f : Split → Split) : (s.onSplit f).rayBudget = s.rayBudget := rfl
@[simp] theorem State.onSplit_oldWords (f : Split → Split) : (s.onSplit f).oldWords = s.oldWords := rfl
@[simp] theorem State.onSplit_sills (f : Split → Split) : (s.onSplit f).sills = s.sills := rfl
@[simp] theorem State.onSplit_structs (f : Split → Split) : (s.onSplit f).structs = s.structs := rfl
@[simp] theorem State.onSplit_rays (f : Split → Split) : (s.onSplit f).rays = s.rays := rfl
@[simp] theorem State.onSplit_nextRay (f : Split → Split) : (s.onSplit f).nextRay = s.nextRay := rfl
@[simp] theorem State.onSplit_conts (f : Split → Split) : (s.onSplit f).conts = s.conts := rfl
@[simp] theorem State.onSplit_curs (f : Split → Split) : (s.onSplit f).curs = s.curs := rfl
@[simp] theorem State.onSplit_rasters (f : Split → Split) : (s.onSplit f).rasters = s.rasters := rfl
@[simp] theorem State.onSplit_nets (f : Split → Split) : (s.onSplit f).nets = s.nets := rfl
@[simp] theorem State.onSplit_rcas (f : Split → Split) : (s.onSplit f).rcas = s.rcas := rfl
@[simp] theorem State.onSplit_sanders (f : Split → Split) : (s.onSplit f).sanders = s.sanders := rfl
@[simp] theorem State.onSplit_shadow (f : Split → Split) : (s.onSplit f).shadow = s.shadow := rfl
@[simp] theorem State.onSplit_puts (f : Split → Split) : (s.onSplit f).puts = s.puts := rfl
@[simp] theorem State.onSplit_futas (f : Split → Split) : (s.onSplit f).futas = s.futas := rfl
@[simp] theorem State.onSplit_portA (f : Split → Split) : (s.onSplit f).portA = s.portA := rfl
@[simp] theorem State.onSplit_portB (f : Split → Split) : (s.onSplit f).portB = s.portB := rfl
@[simp] theorem State.onSplit_portD (f : Split → Split) : (s.onSplit f).portD = s.portD := rfl
@[simp] theorem State.onSplit_shared (f : Split → Split) : (s.onSplit f).shared = s.shared := rfl
@[simp] theorem State.onSplit_log (f : Split → Split) : (s.onSplit f).log = s.log := rfl
@[simp] theorem State.onSplit_lost (f : Split → Split) : (s.onSplit f).lost = s.lost := rfl
@[simp] theorem State.onSplit_hostLines (f : Split → Split) : (s.onSplit f).hostLines = s.hostLines := rfl
@[simp] theorem State.onSplit_hostHeld (f : Split → Split) : (s.onSplit f).hostHeld = s.hostHeld := rfl
@[simp] theorem State.onSplit_hostWait (f : Split → Split) : (s.onSplit f).hostWait = s.hostWait := rfl
@[simp] theorem State.onSplit_mgmt (f : Split → Split) : (s.onSplit f).mgmt = s.mgmt := rfl
@[simp] theorem State.onSplit_out (f : Split → Split) : (s.onSplit f).out = s.out := rfl

/-! ### goOn -/

@[simp] theorem State.goOn_agenda (n : Nat) : (s.goOn n).agenda = s.agenda := rfl
@[simp] theorem State.goOn_cur (n : Nat) : (s.goOn n).cur = s.cur := rfl
@[simp] theorem State.goOn_fresh (n : Nat) : (s.goOn n).fresh = s.fresh := rfl
@[simp] theorem State.goOn_beat (n : Nat) : (s.goOn n).beat = s.beat := rfl
@[simp] theorem State.goOn_mem (n : Nat) : (s.goOn n).mem = s.mem := rfl
@[simp] theorem State.goOn_poison (n : Nat) : (s.goOn n).poison = s.poison := rfl
@[simp] theorem State.goOn_stores (n : Nat) : (s.goOn n).stores = s.stores := rfl
@[simp] theorem State.goOn_codeOld (n : Nat) : (s.goOn n).codeOld = s.codeOld := rfl
@[simp] theorem State.goOn_rel (n : Nat) : (s.goOn n).rel = s.rel := rfl
@[simp] theorem State.goOn_symErr (n : Nat) : (s.goOn n).symErr = s.symErr := rfl
@[simp] theorem State.goOn_units (n : Nat) : (s.goOn n).units = s.units := rfl
@[simp] theorem State.goOn_gens (n : Nat) : (s.goOn n).gens = s.gens := rfl
@[simp] theorem State.goOn_cores (n : Nat) : (s.goOn n).cores = s.cores := rfl
@[simp] theorem State.goOn_launches (n : Nat) : (s.goOn n).launches = s.launches := rfl
@[simp] theorem State.goOn_jobs (n : Nat) : (s.goOn n).jobs = s.jobs := rfl
@[simp] theorem State.goOn_nextJob (n : Nat) : (s.goOn n).nextJob = s.nextJob := rfl
@[simp] theorem State.goOn_parts (n : Nat) : (s.goOn n).parts = s.parts := rfl
@[simp] theorem State.goOn_spaces (n : Nat) : (s.goOn n).spaces = s.spaces := rfl
@[simp] theorem State.goOn_routes (n : Nat) : (s.goOn n).routes = s.routes := rfl
@[simp] theorem State.goOn_tlbs (n : Nat) : (s.goOn n).tlbs = s.tlbs := rfl
@[simp] theorem State.goOn_walkers (n : Nat) : (s.goOn n).walkers = s.walkers := rfl
@[simp] theorem State.goOn_l2 (n : Nat) : (s.goOn n).l2 = s.l2 := rfl
@[simp] theorem State.goOn_psel (n : Nat) : (s.goOn n).psel = s.psel := rfl
@[simp] theorem State.goOn_pkts (n : Nat) : (s.goOn n).pkts = s.pkts := rfl
@[simp] theorem State.goOn_nextPkt (n : Nat) : (s.goOn n).nextPkt = s.nextPkt := rfl
@[simp] theorem State.goOn_switches (n : Nat) : (s.goOn n).switches = s.switches := rfl
@[simp] theorem State.goOn_netBudget (n : Nat) : (s.goOn n).netBudget = s.netBudget := rfl
@[simp] theorem State.goOn_hbmBudget (n : Nat) : (s.goOn n).hbmBudget = s.hbmBudget := rfl
@[simp] theorem State.goOn_rayBudget (n : Nat) : (s.goOn n).rayBudget = s.rayBudget := rfl
@[simp] theorem State.goOn_oldWords (n : Nat) : (s.goOn n).oldWords = s.oldWords := rfl
@[simp] theorem State.goOn_sills (n : Nat) : (s.goOn n).sills = s.sills := rfl
@[simp] theorem State.goOn_structs (n : Nat) : (s.goOn n).structs = s.structs := rfl
@[simp] theorem State.goOn_rays (n : Nat) : (s.goOn n).rays = s.rays := rfl
@[simp] theorem State.goOn_nextRay (n : Nat) : (s.goOn n).nextRay = s.nextRay := rfl
@[simp] theorem State.goOn_conts (n : Nat) : (s.goOn n).conts = s.conts := rfl
@[simp] theorem State.goOn_curs (n : Nat) : (s.goOn n).curs = s.curs := rfl
@[simp] theorem State.goOn_rasters (n : Nat) : (s.goOn n).rasters = s.rasters := rfl
@[simp] theorem State.goOn_nets (n : Nat) : (s.goOn n).nets = s.nets := rfl
@[simp] theorem State.goOn_rcas (n : Nat) : (s.goOn n).rcas = s.rcas := rfl
@[simp] theorem State.goOn_sanders (n : Nat) : (s.goOn n).sanders = s.sanders := rfl
@[simp] theorem State.goOn_shadow (n : Nat) : (s.goOn n).shadow = s.shadow := rfl
@[simp] theorem State.goOn_puts (n : Nat) : (s.goOn n).puts = s.puts := rfl
@[simp] theorem State.goOn_futas (n : Nat) : (s.goOn n).futas = s.futas := rfl
@[simp] theorem State.goOn_portA (n : Nat) : (s.goOn n).portA = s.portA := rfl
@[simp] theorem State.goOn_portB (n : Nat) : (s.goOn n).portB = s.portB := rfl
@[simp] theorem State.goOn_portD (n : Nat) : (s.goOn n).portD = s.portD := rfl
@[simp] theorem State.goOn_shared (n : Nat) : (s.goOn n).shared = s.shared := rfl
@[simp] theorem State.goOn_log (n : Nat) : (s.goOn n).log = s.log := rfl
@[simp] theorem State.goOn_lost (n : Nat) : (s.goOn n).lost = s.lost := rfl
@[simp] theorem State.goOn_hostLines (n : Nat) : (s.goOn n).hostLines = s.hostLines := rfl
@[simp] theorem State.goOn_hostHeld (n : Nat) : (s.goOn n).hostHeld = s.hostHeld := rfl
@[simp] theorem State.goOn_hostWait (n : Nat) : (s.goOn n).hostWait = s.hostWait := rfl
@[simp] theorem State.goOn_mgmt (n : Nat) : (s.goOn n).mgmt = s.mgmt := rfl
@[simp] theorem State.goOn_out (n : Nat) : (s.goOn n).out = s.out := rfl

/-! ### hold -/

@[simp] theorem State.hold_agenda (n : Nat) (v : Word) : (s.hold n v).agenda = s.agenda := rfl
@[simp] theorem State.hold_cur (n : Nat) (v : Word) : (s.hold n v).cur = s.cur := rfl
@[simp] theorem State.hold_fresh (n : Nat) (v : Word) : (s.hold n v).fresh = s.fresh := rfl
@[simp] theorem State.hold_beat (n : Nat) (v : Word) : (s.hold n v).beat = s.beat := rfl
@[simp] theorem State.hold_mem (n : Nat) (v : Word) : (s.hold n v).mem = s.mem := rfl
@[simp] theorem State.hold_poison (n : Nat) (v : Word) : (s.hold n v).poison = s.poison := rfl
@[simp] theorem State.hold_stores (n : Nat) (v : Word) : (s.hold n v).stores = s.stores := rfl
@[simp] theorem State.hold_codeOld (n : Nat) (v : Word) : (s.hold n v).codeOld = s.codeOld := rfl
@[simp] theorem State.hold_rel (n : Nat) (v : Word) : (s.hold n v).rel = s.rel := rfl
@[simp] theorem State.hold_symErr (n : Nat) (v : Word) : (s.hold n v).symErr = s.symErr := rfl
@[simp] theorem State.hold_units (n : Nat) (v : Word) : (s.hold n v).units = s.units := rfl
@[simp] theorem State.hold_gens (n : Nat) (v : Word) : (s.hold n v).gens = s.gens := rfl
@[simp] theorem State.hold_cores (n : Nat) (v : Word) : (s.hold n v).cores = s.cores := rfl
@[simp] theorem State.hold_launches (n : Nat) (v : Word) : (s.hold n v).launches = s.launches := rfl
@[simp] theorem State.hold_jobs (n : Nat) (v : Word) : (s.hold n v).jobs = s.jobs := rfl
@[simp] theorem State.hold_nextJob (n : Nat) (v : Word) : (s.hold n v).nextJob = s.nextJob := rfl
@[simp] theorem State.hold_parts (n : Nat) (v : Word) : (s.hold n v).parts = s.parts := rfl
@[simp] theorem State.hold_spaces (n : Nat) (v : Word) : (s.hold n v).spaces = s.spaces := rfl
@[simp] theorem State.hold_routes (n : Nat) (v : Word) : (s.hold n v).routes = s.routes := rfl
@[simp] theorem State.hold_tlbs (n : Nat) (v : Word) : (s.hold n v).tlbs = s.tlbs := rfl
@[simp] theorem State.hold_walkers (n : Nat) (v : Word) : (s.hold n v).walkers = s.walkers := rfl
@[simp] theorem State.hold_l2 (n : Nat) (v : Word) : (s.hold n v).l2 = s.l2 := rfl
@[simp] theorem State.hold_psel (n : Nat) (v : Word) : (s.hold n v).psel = s.psel := rfl
@[simp] theorem State.hold_pkts (n : Nat) (v : Word) : (s.hold n v).pkts = s.pkts := rfl
@[simp] theorem State.hold_nextPkt (n : Nat) (v : Word) : (s.hold n v).nextPkt = s.nextPkt := rfl
@[simp] theorem State.hold_switches (n : Nat) (v : Word) : (s.hold n v).switches = s.switches := rfl
@[simp] theorem State.hold_netBudget (n : Nat) (v : Word) : (s.hold n v).netBudget = s.netBudget := rfl
@[simp] theorem State.hold_hbmBudget (n : Nat) (v : Word) : (s.hold n v).hbmBudget = s.hbmBudget := rfl
@[simp] theorem State.hold_rayBudget (n : Nat) (v : Word) : (s.hold n v).rayBudget = s.rayBudget := rfl
@[simp] theorem State.hold_oldWords (n : Nat) (v : Word) : (s.hold n v).oldWords = s.oldWords := rfl
@[simp] theorem State.hold_sills (n : Nat) (v : Word) : (s.hold n v).sills = s.sills := rfl
@[simp] theorem State.hold_structs (n : Nat) (v : Word) : (s.hold n v).structs = s.structs := rfl
@[simp] theorem State.hold_rays (n : Nat) (v : Word) : (s.hold n v).rays = s.rays := rfl
@[simp] theorem State.hold_nextRay (n : Nat) (v : Word) : (s.hold n v).nextRay = s.nextRay := rfl
@[simp] theorem State.hold_conts (n : Nat) (v : Word) : (s.hold n v).conts = s.conts := rfl
@[simp] theorem State.hold_curs (n : Nat) (v : Word) : (s.hold n v).curs = s.curs := rfl
@[simp] theorem State.hold_rasters (n : Nat) (v : Word) : (s.hold n v).rasters = s.rasters := rfl
@[simp] theorem State.hold_nets (n : Nat) (v : Word) : (s.hold n v).nets = s.nets := rfl
@[simp] theorem State.hold_rcas (n : Nat) (v : Word) : (s.hold n v).rcas = s.rcas := rfl
@[simp] theorem State.hold_sanders (n : Nat) (v : Word) : (s.hold n v).sanders = s.sanders := rfl
@[simp] theorem State.hold_shadow (n : Nat) (v : Word) : (s.hold n v).shadow = s.shadow := rfl
@[simp] theorem State.hold_puts (n : Nat) (v : Word) : (s.hold n v).puts = s.puts := rfl
@[simp] theorem State.hold_futas (n : Nat) (v : Word) : (s.hold n v).futas = s.futas := rfl
@[simp] theorem State.hold_portA (n : Nat) (v : Word) : (s.hold n v).portA = s.portA := rfl
@[simp] theorem State.hold_portB (n : Nat) (v : Word) : (s.hold n v).portB = s.portB := rfl
@[simp] theorem State.hold_portD (n : Nat) (v : Word) : (s.hold n v).portD = s.portD := rfl
@[simp] theorem State.hold_shared (n : Nat) (v : Word) : (s.hold n v).shared = s.shared := rfl
@[simp] theorem State.hold_log (n : Nat) (v : Word) : (s.hold n v).log = s.log := rfl
@[simp] theorem State.hold_lost (n : Nat) (v : Word) : (s.hold n v).lost = s.lost := rfl
@[simp] theorem State.hold_hostLines (n : Nat) (v : Word) : (s.hold n v).hostLines = s.hostLines := rfl
@[simp] theorem State.hold_hostHeld (n : Nat) (v : Word) : (s.hold n v).hostHeld = s.hostHeld := rfl
@[simp] theorem State.hold_hostWait (n : Nat) (v : Word) : (s.hold n v).hostWait = s.hostWait := rfl
@[simp] theorem State.hold_mgmt (n : Nat) (v : Word) : (s.hold n v).mgmt = s.mgmt := rfl
@[simp] theorem State.hold_out (n : Nat) (v : Word) : (s.hold n v).out = s.out := rfl

/-! ### writeS -/

@[simp] theorem State.writeS_agenda (p : Split) (n : BitVec 6) (v : Word) : (s.writeS p n v).agenda = s.agenda := rfl
@[simp] theorem State.writeS_cur (p : Split) (n : BitVec 6) (v : Word) : (s.writeS p n v).cur = s.cur := rfl
@[simp] theorem State.writeS_fresh (p : Split) (n : BitVec 6) (v : Word) : (s.writeS p n v).fresh = s.fresh := rfl
@[simp] theorem State.writeS_beat (p : Split) (n : BitVec 6) (v : Word) : (s.writeS p n v).beat = s.beat := rfl
@[simp] theorem State.writeS_mem (p : Split) (n : BitVec 6) (v : Word) : (s.writeS p n v).mem = s.mem := rfl
@[simp] theorem State.writeS_poison (p : Split) (n : BitVec 6) (v : Word) : (s.writeS p n v).poison = s.poison := rfl
@[simp] theorem State.writeS_stores (p : Split) (n : BitVec 6) (v : Word) : (s.writeS p n v).stores = s.stores := rfl
@[simp] theorem State.writeS_codeOld (p : Split) (n : BitVec 6) (v : Word) : (s.writeS p n v).codeOld = s.codeOld := rfl
@[simp] theorem State.writeS_rel (p : Split) (n : BitVec 6) (v : Word) : (s.writeS p n v).rel = s.rel := rfl
@[simp] theorem State.writeS_symErr (p : Split) (n : BitVec 6) (v : Word) : (s.writeS p n v).symErr = s.symErr := rfl
@[simp] theorem State.writeS_units (p : Split) (n : BitVec 6) (v : Word) : (s.writeS p n v).units = s.units := rfl
@[simp] theorem State.writeS_gens (p : Split) (n : BitVec 6) (v : Word) : (s.writeS p n v).gens = s.gens := rfl
@[simp] theorem State.writeS_cores (p : Split) (n : BitVec 6) (v : Word) : (s.writeS p n v).cores = s.cores := rfl
@[simp] theorem State.writeS_launches (p : Split) (n : BitVec 6) (v : Word) : (s.writeS p n v).launches = s.launches := rfl
@[simp] theorem State.writeS_jobs (p : Split) (n : BitVec 6) (v : Word) : (s.writeS p n v).jobs = s.jobs := rfl
@[simp] theorem State.writeS_nextJob (p : Split) (n : BitVec 6) (v : Word) : (s.writeS p n v).nextJob = s.nextJob := rfl
@[simp] theorem State.writeS_parts (p : Split) (n : BitVec 6) (v : Word) : (s.writeS p n v).parts = s.parts := rfl
@[simp] theorem State.writeS_spaces (p : Split) (n : BitVec 6) (v : Word) : (s.writeS p n v).spaces = s.spaces := rfl
@[simp] theorem State.writeS_routes (p : Split) (n : BitVec 6) (v : Word) : (s.writeS p n v).routes = s.routes := rfl
@[simp] theorem State.writeS_tlbs (p : Split) (n : BitVec 6) (v : Word) : (s.writeS p n v).tlbs = s.tlbs := rfl
@[simp] theorem State.writeS_walkers (p : Split) (n : BitVec 6) (v : Word) : (s.writeS p n v).walkers = s.walkers := rfl
@[simp] theorem State.writeS_l2 (p : Split) (n : BitVec 6) (v : Word) : (s.writeS p n v).l2 = s.l2 := rfl
@[simp] theorem State.writeS_psel (p : Split) (n : BitVec 6) (v : Word) : (s.writeS p n v).psel = s.psel := rfl
@[simp] theorem State.writeS_pkts (p : Split) (n : BitVec 6) (v : Word) : (s.writeS p n v).pkts = s.pkts := rfl
@[simp] theorem State.writeS_nextPkt (p : Split) (n : BitVec 6) (v : Word) : (s.writeS p n v).nextPkt = s.nextPkt := rfl
@[simp] theorem State.writeS_switches (p : Split) (n : BitVec 6) (v : Word) : (s.writeS p n v).switches = s.switches := rfl
@[simp] theorem State.writeS_netBudget (p : Split) (n : BitVec 6) (v : Word) : (s.writeS p n v).netBudget = s.netBudget := rfl
@[simp] theorem State.writeS_hbmBudget (p : Split) (n : BitVec 6) (v : Word) : (s.writeS p n v).hbmBudget = s.hbmBudget := rfl
@[simp] theorem State.writeS_rayBudget (p : Split) (n : BitVec 6) (v : Word) : (s.writeS p n v).rayBudget = s.rayBudget := rfl
@[simp] theorem State.writeS_oldWords (p : Split) (n : BitVec 6) (v : Word) : (s.writeS p n v).oldWords = s.oldWords := rfl
@[simp] theorem State.writeS_sills (p : Split) (n : BitVec 6) (v : Word) : (s.writeS p n v).sills = s.sills := rfl
@[simp] theorem State.writeS_structs (p : Split) (n : BitVec 6) (v : Word) : (s.writeS p n v).structs = s.structs := rfl
@[simp] theorem State.writeS_rays (p : Split) (n : BitVec 6) (v : Word) : (s.writeS p n v).rays = s.rays := rfl
@[simp] theorem State.writeS_nextRay (p : Split) (n : BitVec 6) (v : Word) : (s.writeS p n v).nextRay = s.nextRay := rfl
@[simp] theorem State.writeS_conts (p : Split) (n : BitVec 6) (v : Word) : (s.writeS p n v).conts = s.conts := rfl
@[simp] theorem State.writeS_curs (p : Split) (n : BitVec 6) (v : Word) : (s.writeS p n v).curs = s.curs := rfl
@[simp] theorem State.writeS_rasters (p : Split) (n : BitVec 6) (v : Word) : (s.writeS p n v).rasters = s.rasters := rfl
@[simp] theorem State.writeS_nets (p : Split) (n : BitVec 6) (v : Word) : (s.writeS p n v).nets = s.nets := rfl
@[simp] theorem State.writeS_rcas (p : Split) (n : BitVec 6) (v : Word) : (s.writeS p n v).rcas = s.rcas := rfl
@[simp] theorem State.writeS_sanders (p : Split) (n : BitVec 6) (v : Word) : (s.writeS p n v).sanders = s.sanders := rfl
@[simp] theorem State.writeS_shadow (p : Split) (n : BitVec 6) (v : Word) : (s.writeS p n v).shadow = s.shadow := rfl
@[simp] theorem State.writeS_puts (p : Split) (n : BitVec 6) (v : Word) : (s.writeS p n v).puts = s.puts := rfl
@[simp] theorem State.writeS_futas (p : Split) (n : BitVec 6) (v : Word) : (s.writeS p n v).futas = s.futas := rfl
@[simp] theorem State.writeS_portA (p : Split) (n : BitVec 6) (v : Word) : (s.writeS p n v).portA = s.portA := rfl
@[simp] theorem State.writeS_portB (p : Split) (n : BitVec 6) (v : Word) : (s.writeS p n v).portB = s.portB := rfl
@[simp] theorem State.writeS_portD (p : Split) (n : BitVec 6) (v : Word) : (s.writeS p n v).portD = s.portD := rfl
@[simp] theorem State.writeS_shared (p : Split) (n : BitVec 6) (v : Word) : (s.writeS p n v).shared = s.shared := rfl
@[simp] theorem State.writeS_log (p : Split) (n : BitVec 6) (v : Word) : (s.writeS p n v).log = s.log := rfl
@[simp] theorem State.writeS_lost (p : Split) (n : BitVec 6) (v : Word) : (s.writeS p n v).lost = s.lost := rfl
@[simp] theorem State.writeS_hostLines (p : Split) (n : BitVec 6) (v : Word) : (s.writeS p n v).hostLines = s.hostLines := rfl
@[simp] theorem State.writeS_hostHeld (p : Split) (n : BitVec 6) (v : Word) : (s.writeS p n v).hostHeld = s.hostHeld := rfl
@[simp] theorem State.writeS_hostWait (p : Split) (n : BitVec 6) (v : Word) : (s.writeS p n v).hostWait = s.hostWait := rfl
@[simp] theorem State.writeS_mgmt (p : Split) (n : BitVec 6) (v : Word) : (s.writeS p n v).mgmt = s.mgmt := rfl
@[simp] theorem State.writeS_out (p : Split) (n : BitVec 6) (v : Word) : (s.writeS p n v).out = s.out := rfl

/-! ### updProducer -/

@[simp] theorem State.updProducer_agenda (gid pid : Nat) (f : Producer → Producer) : (s.updProducer gid pid f).agenda = s.agenda := rfl
@[simp] theorem State.updProducer_cur (gid pid : Nat) (f : Producer → Producer) : (s.updProducer gid pid f).cur = s.cur := rfl
@[simp] theorem State.updProducer_fresh (gid pid : Nat) (f : Producer → Producer) : (s.updProducer gid pid f).fresh = s.fresh := rfl
@[simp] theorem State.updProducer_beat (gid pid : Nat) (f : Producer → Producer) : (s.updProducer gid pid f).beat = s.beat := rfl
@[simp] theorem State.updProducer_mem (gid pid : Nat) (f : Producer → Producer) : (s.updProducer gid pid f).mem = s.mem := rfl
@[simp] theorem State.updProducer_poison (gid pid : Nat) (f : Producer → Producer) : (s.updProducer gid pid f).poison = s.poison := rfl
@[simp] theorem State.updProducer_stores (gid pid : Nat) (f : Producer → Producer) : (s.updProducer gid pid f).stores = s.stores := rfl
@[simp] theorem State.updProducer_codeOld (gid pid : Nat) (f : Producer → Producer) : (s.updProducer gid pid f).codeOld = s.codeOld := rfl
@[simp] theorem State.updProducer_rel (gid pid : Nat) (f : Producer → Producer) : (s.updProducer gid pid f).rel = s.rel := rfl
@[simp] theorem State.updProducer_symErr (gid pid : Nat) (f : Producer → Producer) : (s.updProducer gid pid f).symErr = s.symErr := rfl
@[simp] theorem State.updProducer_units (gid pid : Nat) (f : Producer → Producer) : (s.updProducer gid pid f).units = s.units := rfl
@[simp] theorem State.updProducer_gens (gid pid : Nat) (f : Producer → Producer) : (s.updProducer gid pid f).gens = s.gens := rfl
@[simp] theorem State.updProducer_cores (gid pid : Nat) (f : Producer → Producer) : (s.updProducer gid pid f).cores = s.cores := rfl
@[simp] theorem State.updProducer_launches (gid pid : Nat) (f : Producer → Producer) : (s.updProducer gid pid f).launches = s.launches := rfl
@[simp] theorem State.updProducer_jobs (gid pid : Nat) (f : Producer → Producer) : (s.updProducer gid pid f).jobs = s.jobs := rfl
@[simp] theorem State.updProducer_nextJob (gid pid : Nat) (f : Producer → Producer) : (s.updProducer gid pid f).nextJob = s.nextJob := rfl
@[simp] theorem State.updProducer_parts (gid pid : Nat) (f : Producer → Producer) : (s.updProducer gid pid f).parts = s.parts := rfl
@[simp] theorem State.updProducer_spaces (gid pid : Nat) (f : Producer → Producer) : (s.updProducer gid pid f).spaces = s.spaces := rfl
@[simp] theorem State.updProducer_routes (gid pid : Nat) (f : Producer → Producer) : (s.updProducer gid pid f).routes = s.routes := rfl
@[simp] theorem State.updProducer_tlbs (gid pid : Nat) (f : Producer → Producer) : (s.updProducer gid pid f).tlbs = s.tlbs := rfl
@[simp] theorem State.updProducer_walkers (gid pid : Nat) (f : Producer → Producer) : (s.updProducer gid pid f).walkers = s.walkers := rfl
@[simp] theorem State.updProducer_l2 (gid pid : Nat) (f : Producer → Producer) : (s.updProducer gid pid f).l2 = s.l2 := rfl
@[simp] theorem State.updProducer_psel (gid pid : Nat) (f : Producer → Producer) : (s.updProducer gid pid f).psel = s.psel := rfl
@[simp] theorem State.updProducer_pkts (gid pid : Nat) (f : Producer → Producer) : (s.updProducer gid pid f).pkts = s.pkts := rfl
@[simp] theorem State.updProducer_nextPkt (gid pid : Nat) (f : Producer → Producer) : (s.updProducer gid pid f).nextPkt = s.nextPkt := rfl
@[simp] theorem State.updProducer_switches (gid pid : Nat) (f : Producer → Producer) : (s.updProducer gid pid f).switches = s.switches := rfl
@[simp] theorem State.updProducer_netBudget (gid pid : Nat) (f : Producer → Producer) : (s.updProducer gid pid f).netBudget = s.netBudget := rfl
@[simp] theorem State.updProducer_hbmBudget (gid pid : Nat) (f : Producer → Producer) : (s.updProducer gid pid f).hbmBudget = s.hbmBudget := rfl
@[simp] theorem State.updProducer_rayBudget (gid pid : Nat) (f : Producer → Producer) : (s.updProducer gid pid f).rayBudget = s.rayBudget := rfl
@[simp] theorem State.updProducer_oldWords (gid pid : Nat) (f : Producer → Producer) : (s.updProducer gid pid f).oldWords = s.oldWords := rfl
@[simp] theorem State.updProducer_sills (gid pid : Nat) (f : Producer → Producer) : (s.updProducer gid pid f).sills = s.sills := rfl
@[simp] theorem State.updProducer_structs (gid pid : Nat) (f : Producer → Producer) : (s.updProducer gid pid f).structs = s.structs := rfl
@[simp] theorem State.updProducer_rays (gid pid : Nat) (f : Producer → Producer) : (s.updProducer gid pid f).rays = s.rays := rfl
@[simp] theorem State.updProducer_nextRay (gid pid : Nat) (f : Producer → Producer) : (s.updProducer gid pid f).nextRay = s.nextRay := rfl
@[simp] theorem State.updProducer_conts (gid pid : Nat) (f : Producer → Producer) : (s.updProducer gid pid f).conts = s.conts := rfl
@[simp] theorem State.updProducer_curs (gid pid : Nat) (f : Producer → Producer) : (s.updProducer gid pid f).curs = s.curs := rfl
@[simp] theorem State.updProducer_rasters (gid pid : Nat) (f : Producer → Producer) : (s.updProducer gid pid f).rasters = s.rasters := rfl
@[simp] theorem State.updProducer_nets (gid pid : Nat) (f : Producer → Producer) : (s.updProducer gid pid f).nets = s.nets := rfl
@[simp] theorem State.updProducer_rcas (gid pid : Nat) (f : Producer → Producer) : (s.updProducer gid pid f).rcas = s.rcas := rfl
@[simp] theorem State.updProducer_sanders (gid pid : Nat) (f : Producer → Producer) : (s.updProducer gid pid f).sanders = s.sanders := rfl
@[simp] theorem State.updProducer_shadow (gid pid : Nat) (f : Producer → Producer) : (s.updProducer gid pid f).shadow = s.shadow := rfl
@[simp] theorem State.updProducer_puts (gid pid : Nat) (f : Producer → Producer) : (s.updProducer gid pid f).puts = s.puts := rfl
@[simp] theorem State.updProducer_futas (gid pid : Nat) (f : Producer → Producer) : (s.updProducer gid pid f).futas = s.futas := rfl
@[simp] theorem State.updProducer_portA (gid pid : Nat) (f : Producer → Producer) : (s.updProducer gid pid f).portA = s.portA := rfl
@[simp] theorem State.updProducer_portB (gid pid : Nat) (f : Producer → Producer) : (s.updProducer gid pid f).portB = s.portB := rfl
@[simp] theorem State.updProducer_portD (gid pid : Nat) (f : Producer → Producer) : (s.updProducer gid pid f).portD = s.portD := rfl
@[simp] theorem State.updProducer_shared (gid pid : Nat) (f : Producer → Producer) : (s.updProducer gid pid f).shared = s.shared := rfl
@[simp] theorem State.updProducer_log (gid pid : Nat) (f : Producer → Producer) : (s.updProducer gid pid f).log = s.log := rfl
@[simp] theorem State.updProducer_lost (gid pid : Nat) (f : Producer → Producer) : (s.updProducer gid pid f).lost = s.lost := rfl
@[simp] theorem State.updProducer_hostLines (gid pid : Nat) (f : Producer → Producer) : (s.updProducer gid pid f).hostLines = s.hostLines := rfl
@[simp] theorem State.updProducer_hostHeld (gid pid : Nat) (f : Producer → Producer) : (s.updProducer gid pid f).hostHeld = s.hostHeld := rfl
@[simp] theorem State.updProducer_hostWait (gid pid : Nat) (f : Producer → Producer) : (s.updProducer gid pid f).hostWait = s.hostWait := rfl
@[simp] theorem State.updProducer_mgmt (gid pid : Nat) (f : Producer → Producer) : (s.updProducer gid pid f).mgmt = s.mgmt := rfl
@[simp] theorem State.updProducer_out (gid pid : Nat) (f : Producer → Producer) : (s.updProducer gid pid f).out = s.out := rfl

/-! ### updUnit -/

@[simp] theorem State.updUnit_agenda (uid : Nat) (f : UnitRec → UnitRec) : (s.updUnit uid f).agenda = s.agenda := rfl
@[simp] theorem State.updUnit_cur (uid : Nat) (f : UnitRec → UnitRec) : (s.updUnit uid f).cur = s.cur := rfl
@[simp] theorem State.updUnit_fresh (uid : Nat) (f : UnitRec → UnitRec) : (s.updUnit uid f).fresh = s.fresh := rfl
@[simp] theorem State.updUnit_beat (uid : Nat) (f : UnitRec → UnitRec) : (s.updUnit uid f).beat = s.beat := rfl
@[simp] theorem State.updUnit_mem (uid : Nat) (f : UnitRec → UnitRec) : (s.updUnit uid f).mem = s.mem := rfl
@[simp] theorem State.updUnit_poison (uid : Nat) (f : UnitRec → UnitRec) : (s.updUnit uid f).poison = s.poison := rfl
@[simp] theorem State.updUnit_stores (uid : Nat) (f : UnitRec → UnitRec) : (s.updUnit uid f).stores = s.stores := rfl
@[simp] theorem State.updUnit_codeOld (uid : Nat) (f : UnitRec → UnitRec) : (s.updUnit uid f).codeOld = s.codeOld := rfl
@[simp] theorem State.updUnit_rel (uid : Nat) (f : UnitRec → UnitRec) : (s.updUnit uid f).rel = s.rel := rfl
@[simp] theorem State.updUnit_symErr (uid : Nat) (f : UnitRec → UnitRec) : (s.updUnit uid f).symErr = s.symErr := rfl
@[simp] theorem State.updUnit_groups (uid : Nat) (f : UnitRec → UnitRec) : (s.updUnit uid f).groups = s.groups := rfl
@[simp] theorem State.updUnit_gens (uid : Nat) (f : UnitRec → UnitRec) : (s.updUnit uid f).gens = s.gens := rfl
@[simp] theorem State.updUnit_cores (uid : Nat) (f : UnitRec → UnitRec) : (s.updUnit uid f).cores = s.cores := rfl
@[simp] theorem State.updUnit_launches (uid : Nat) (f : UnitRec → UnitRec) : (s.updUnit uid f).launches = s.launches := rfl
@[simp] theorem State.updUnit_jobs (uid : Nat) (f : UnitRec → UnitRec) : (s.updUnit uid f).jobs = s.jobs := rfl
@[simp] theorem State.updUnit_nextJob (uid : Nat) (f : UnitRec → UnitRec) : (s.updUnit uid f).nextJob = s.nextJob := rfl
@[simp] theorem State.updUnit_parts (uid : Nat) (f : UnitRec → UnitRec) : (s.updUnit uid f).parts = s.parts := rfl
@[simp] theorem State.updUnit_spaces (uid : Nat) (f : UnitRec → UnitRec) : (s.updUnit uid f).spaces = s.spaces := rfl
@[simp] theorem State.updUnit_routes (uid : Nat) (f : UnitRec → UnitRec) : (s.updUnit uid f).routes = s.routes := rfl
@[simp] theorem State.updUnit_tlbs (uid : Nat) (f : UnitRec → UnitRec) : (s.updUnit uid f).tlbs = s.tlbs := rfl
@[simp] theorem State.updUnit_walkers (uid : Nat) (f : UnitRec → UnitRec) : (s.updUnit uid f).walkers = s.walkers := rfl
@[simp] theorem State.updUnit_l2 (uid : Nat) (f : UnitRec → UnitRec) : (s.updUnit uid f).l2 = s.l2 := rfl
@[simp] theorem State.updUnit_psel (uid : Nat) (f : UnitRec → UnitRec) : (s.updUnit uid f).psel = s.psel := rfl
@[simp] theorem State.updUnit_pkts (uid : Nat) (f : UnitRec → UnitRec) : (s.updUnit uid f).pkts = s.pkts := rfl
@[simp] theorem State.updUnit_nextPkt (uid : Nat) (f : UnitRec → UnitRec) : (s.updUnit uid f).nextPkt = s.nextPkt := rfl
@[simp] theorem State.updUnit_switches (uid : Nat) (f : UnitRec → UnitRec) : (s.updUnit uid f).switches = s.switches := rfl
@[simp] theorem State.updUnit_netBudget (uid : Nat) (f : UnitRec → UnitRec) : (s.updUnit uid f).netBudget = s.netBudget := rfl
@[simp] theorem State.updUnit_hbmBudget (uid : Nat) (f : UnitRec → UnitRec) : (s.updUnit uid f).hbmBudget = s.hbmBudget := rfl
@[simp] theorem State.updUnit_rayBudget (uid : Nat) (f : UnitRec → UnitRec) : (s.updUnit uid f).rayBudget = s.rayBudget := rfl
@[simp] theorem State.updUnit_oldWords (uid : Nat) (f : UnitRec → UnitRec) : (s.updUnit uid f).oldWords = s.oldWords := rfl
@[simp] theorem State.updUnit_sills (uid : Nat) (f : UnitRec → UnitRec) : (s.updUnit uid f).sills = s.sills := rfl
@[simp] theorem State.updUnit_structs (uid : Nat) (f : UnitRec → UnitRec) : (s.updUnit uid f).structs = s.structs := rfl
@[simp] theorem State.updUnit_rays (uid : Nat) (f : UnitRec → UnitRec) : (s.updUnit uid f).rays = s.rays := rfl
@[simp] theorem State.updUnit_nextRay (uid : Nat) (f : UnitRec → UnitRec) : (s.updUnit uid f).nextRay = s.nextRay := rfl
@[simp] theorem State.updUnit_conts (uid : Nat) (f : UnitRec → UnitRec) : (s.updUnit uid f).conts = s.conts := rfl
@[simp] theorem State.updUnit_curs (uid : Nat) (f : UnitRec → UnitRec) : (s.updUnit uid f).curs = s.curs := rfl
@[simp] theorem State.updUnit_rasters (uid : Nat) (f : UnitRec → UnitRec) : (s.updUnit uid f).rasters = s.rasters := rfl
@[simp] theorem State.updUnit_nets (uid : Nat) (f : UnitRec → UnitRec) : (s.updUnit uid f).nets = s.nets := rfl
@[simp] theorem State.updUnit_rcas (uid : Nat) (f : UnitRec → UnitRec) : (s.updUnit uid f).rcas = s.rcas := rfl
@[simp] theorem State.updUnit_sanders (uid : Nat) (f : UnitRec → UnitRec) : (s.updUnit uid f).sanders = s.sanders := rfl
@[simp] theorem State.updUnit_shadow (uid : Nat) (f : UnitRec → UnitRec) : (s.updUnit uid f).shadow = s.shadow := rfl
@[simp] theorem State.updUnit_puts (uid : Nat) (f : UnitRec → UnitRec) : (s.updUnit uid f).puts = s.puts := rfl
@[simp] theorem State.updUnit_futas (uid : Nat) (f : UnitRec → UnitRec) : (s.updUnit uid f).futas = s.futas := rfl
@[simp] theorem State.updUnit_portA (uid : Nat) (f : UnitRec → UnitRec) : (s.updUnit uid f).portA = s.portA := rfl
@[simp] theorem State.updUnit_portB (uid : Nat) (f : UnitRec → UnitRec) : (s.updUnit uid f).portB = s.portB := rfl
@[simp] theorem State.updUnit_portD (uid : Nat) (f : UnitRec → UnitRec) : (s.updUnit uid f).portD = s.portD := rfl
@[simp] theorem State.updUnit_shared (uid : Nat) (f : UnitRec → UnitRec) : (s.updUnit uid f).shared = s.shared := rfl
@[simp] theorem State.updUnit_log (uid : Nat) (f : UnitRec → UnitRec) : (s.updUnit uid f).log = s.log := rfl
@[simp] theorem State.updUnit_lost (uid : Nat) (f : UnitRec → UnitRec) : (s.updUnit uid f).lost = s.lost := rfl
@[simp] theorem State.updUnit_hostLines (uid : Nat) (f : UnitRec → UnitRec) : (s.updUnit uid f).hostLines = s.hostLines := rfl
@[simp] theorem State.updUnit_hostHeld (uid : Nat) (f : UnitRec → UnitRec) : (s.updUnit uid f).hostHeld = s.hostHeld := rfl
@[simp] theorem State.updUnit_hostWait (uid : Nat) (f : UnitRec → UnitRec) : (s.updUnit uid f).hostWait = s.hostWait := rfl
@[simp] theorem State.updUnit_mgmt (uid : Nat) (f : UnitRec → UnitRec) : (s.updUnit uid f).mgmt = s.mgmt := rfl
@[simp] theorem State.updUnit_out (uid : Nat) (f : UnitRec → UnitRec) : (s.updUnit uid f).out = s.out := rfl

/-! ### updHod -/

@[simp] theorem State.updHod_agenda (uid n : Nat) (f : Hod → Hod) : (s.updHod uid n f).agenda = s.agenda := rfl
@[simp] theorem State.updHod_cur (uid n : Nat) (f : Hod → Hod) : (s.updHod uid n f).cur = s.cur := rfl
@[simp] theorem State.updHod_fresh (uid n : Nat) (f : Hod → Hod) : (s.updHod uid n f).fresh = s.fresh := rfl
@[simp] theorem State.updHod_beat (uid n : Nat) (f : Hod → Hod) : (s.updHod uid n f).beat = s.beat := rfl
@[simp] theorem State.updHod_mem (uid n : Nat) (f : Hod → Hod) : (s.updHod uid n f).mem = s.mem := rfl
@[simp] theorem State.updHod_poison (uid n : Nat) (f : Hod → Hod) : (s.updHod uid n f).poison = s.poison := rfl
@[simp] theorem State.updHod_stores (uid n : Nat) (f : Hod → Hod) : (s.updHod uid n f).stores = s.stores := rfl
@[simp] theorem State.updHod_codeOld (uid n : Nat) (f : Hod → Hod) : (s.updHod uid n f).codeOld = s.codeOld := rfl
@[simp] theorem State.updHod_rel (uid n : Nat) (f : Hod → Hod) : (s.updHod uid n f).rel = s.rel := rfl
@[simp] theorem State.updHod_symErr (uid n : Nat) (f : Hod → Hod) : (s.updHod uid n f).symErr = s.symErr := rfl
@[simp] theorem State.updHod_groups (uid n : Nat) (f : Hod → Hod) : (s.updHod uid n f).groups = s.groups := rfl
@[simp] theorem State.updHod_gens (uid n : Nat) (f : Hod → Hod) : (s.updHod uid n f).gens = s.gens := rfl
@[simp] theorem State.updHod_cores (uid n : Nat) (f : Hod → Hod) : (s.updHod uid n f).cores = s.cores := rfl
@[simp] theorem State.updHod_launches (uid n : Nat) (f : Hod → Hod) : (s.updHod uid n f).launches = s.launches := rfl
@[simp] theorem State.updHod_jobs (uid n : Nat) (f : Hod → Hod) : (s.updHod uid n f).jobs = s.jobs := rfl
@[simp] theorem State.updHod_nextJob (uid n : Nat) (f : Hod → Hod) : (s.updHod uid n f).nextJob = s.nextJob := rfl
@[simp] theorem State.updHod_parts (uid n : Nat) (f : Hod → Hod) : (s.updHod uid n f).parts = s.parts := rfl
@[simp] theorem State.updHod_spaces (uid n : Nat) (f : Hod → Hod) : (s.updHod uid n f).spaces = s.spaces := rfl
@[simp] theorem State.updHod_routes (uid n : Nat) (f : Hod → Hod) : (s.updHod uid n f).routes = s.routes := rfl
@[simp] theorem State.updHod_tlbs (uid n : Nat) (f : Hod → Hod) : (s.updHod uid n f).tlbs = s.tlbs := rfl
@[simp] theorem State.updHod_walkers (uid n : Nat) (f : Hod → Hod) : (s.updHod uid n f).walkers = s.walkers := rfl
@[simp] theorem State.updHod_l2 (uid n : Nat) (f : Hod → Hod) : (s.updHod uid n f).l2 = s.l2 := rfl
@[simp] theorem State.updHod_psel (uid n : Nat) (f : Hod → Hod) : (s.updHod uid n f).psel = s.psel := rfl
@[simp] theorem State.updHod_pkts (uid n : Nat) (f : Hod → Hod) : (s.updHod uid n f).pkts = s.pkts := rfl
@[simp] theorem State.updHod_nextPkt (uid n : Nat) (f : Hod → Hod) : (s.updHod uid n f).nextPkt = s.nextPkt := rfl
@[simp] theorem State.updHod_switches (uid n : Nat) (f : Hod → Hod) : (s.updHod uid n f).switches = s.switches := rfl
@[simp] theorem State.updHod_netBudget (uid n : Nat) (f : Hod → Hod) : (s.updHod uid n f).netBudget = s.netBudget := rfl
@[simp] theorem State.updHod_hbmBudget (uid n : Nat) (f : Hod → Hod) : (s.updHod uid n f).hbmBudget = s.hbmBudget := rfl
@[simp] theorem State.updHod_rayBudget (uid n : Nat) (f : Hod → Hod) : (s.updHod uid n f).rayBudget = s.rayBudget := rfl
@[simp] theorem State.updHod_oldWords (uid n : Nat) (f : Hod → Hod) : (s.updHod uid n f).oldWords = s.oldWords := rfl
@[simp] theorem State.updHod_sills (uid n : Nat) (f : Hod → Hod) : (s.updHod uid n f).sills = s.sills := rfl
@[simp] theorem State.updHod_structs (uid n : Nat) (f : Hod → Hod) : (s.updHod uid n f).structs = s.structs := rfl
@[simp] theorem State.updHod_rays (uid n : Nat) (f : Hod → Hod) : (s.updHod uid n f).rays = s.rays := rfl
@[simp] theorem State.updHod_nextRay (uid n : Nat) (f : Hod → Hod) : (s.updHod uid n f).nextRay = s.nextRay := rfl
@[simp] theorem State.updHod_conts (uid n : Nat) (f : Hod → Hod) : (s.updHod uid n f).conts = s.conts := rfl
@[simp] theorem State.updHod_curs (uid n : Nat) (f : Hod → Hod) : (s.updHod uid n f).curs = s.curs := rfl
@[simp] theorem State.updHod_rasters (uid n : Nat) (f : Hod → Hod) : (s.updHod uid n f).rasters = s.rasters := rfl
@[simp] theorem State.updHod_nets (uid n : Nat) (f : Hod → Hod) : (s.updHod uid n f).nets = s.nets := rfl
@[simp] theorem State.updHod_rcas (uid n : Nat) (f : Hod → Hod) : (s.updHod uid n f).rcas = s.rcas := rfl
@[simp] theorem State.updHod_sanders (uid n : Nat) (f : Hod → Hod) : (s.updHod uid n f).sanders = s.sanders := rfl
@[simp] theorem State.updHod_shadow (uid n : Nat) (f : Hod → Hod) : (s.updHod uid n f).shadow = s.shadow := rfl
@[simp] theorem State.updHod_puts (uid n : Nat) (f : Hod → Hod) : (s.updHod uid n f).puts = s.puts := rfl
@[simp] theorem State.updHod_futas (uid n : Nat) (f : Hod → Hod) : (s.updHod uid n f).futas = s.futas := rfl
@[simp] theorem State.updHod_portA (uid n : Nat) (f : Hod → Hod) : (s.updHod uid n f).portA = s.portA := rfl
@[simp] theorem State.updHod_portB (uid n : Nat) (f : Hod → Hod) : (s.updHod uid n f).portB = s.portB := rfl
@[simp] theorem State.updHod_portD (uid n : Nat) (f : Hod → Hod) : (s.updHod uid n f).portD = s.portD := rfl
@[simp] theorem State.updHod_shared (uid n : Nat) (f : Hod → Hod) : (s.updHod uid n f).shared = s.shared := rfl
@[simp] theorem State.updHod_log (uid n : Nat) (f : Hod → Hod) : (s.updHod uid n f).log = s.log := rfl
@[simp] theorem State.updHod_lost (uid n : Nat) (f : Hod → Hod) : (s.updHod uid n f).lost = s.lost := rfl
@[simp] theorem State.updHod_hostLines (uid n : Nat) (f : Hod → Hod) : (s.updHod uid n f).hostLines = s.hostLines := rfl
@[simp] theorem State.updHod_hostHeld (uid n : Nat) (f : Hod → Hod) : (s.updHod uid n f).hostHeld = s.hostHeld := rfl
@[simp] theorem State.updHod_hostWait (uid n : Nat) (f : Hod → Hod) : (s.updHod uid n f).hostWait = s.hostWait := rfl
@[simp] theorem State.updHod_mgmt (uid n : Nat) (f : Hod → Hod) : (s.updHod uid n f).mgmt = s.mgmt := rfl
@[simp] theorem State.updHod_out (uid n : Nat) (f : Hod → Hod) : (s.updHod uid n f).out = s.out := rfl

/-! ### setCore -/

@[simp] theorem State.setCore_agenda (c : Nat) (k : Core) : (s.setCore c k).agenda = s.agenda := rfl
@[simp] theorem State.setCore_cur (c : Nat) (k : Core) : (s.setCore c k).cur = s.cur := rfl
@[simp] theorem State.setCore_fresh (c : Nat) (k : Core) : (s.setCore c k).fresh = s.fresh := rfl
@[simp] theorem State.setCore_beat (c : Nat) (k : Core) : (s.setCore c k).beat = s.beat := rfl
@[simp] theorem State.setCore_mem (c : Nat) (k : Core) : (s.setCore c k).mem = s.mem := rfl
@[simp] theorem State.setCore_poison (c : Nat) (k : Core) : (s.setCore c k).poison = s.poison := rfl
@[simp] theorem State.setCore_stores (c : Nat) (k : Core) : (s.setCore c k).stores = s.stores := rfl
@[simp] theorem State.setCore_codeOld (c : Nat) (k : Core) : (s.setCore c k).codeOld = s.codeOld := rfl
@[simp] theorem State.setCore_rel (c : Nat) (k : Core) : (s.setCore c k).rel = s.rel := rfl
@[simp] theorem State.setCore_symErr (c : Nat) (k : Core) : (s.setCore c k).symErr = s.symErr := rfl
@[simp] theorem State.setCore_groups (c : Nat) (k : Core) : (s.setCore c k).groups = s.groups := rfl
@[simp] theorem State.setCore_units (c : Nat) (k : Core) : (s.setCore c k).units = s.units := rfl
@[simp] theorem State.setCore_gens (c : Nat) (k : Core) : (s.setCore c k).gens = s.gens := rfl
@[simp] theorem State.setCore_launches (c : Nat) (k : Core) : (s.setCore c k).launches = s.launches := rfl
@[simp] theorem State.setCore_jobs (c : Nat) (k : Core) : (s.setCore c k).jobs = s.jobs := rfl
@[simp] theorem State.setCore_nextJob (c : Nat) (k : Core) : (s.setCore c k).nextJob = s.nextJob := rfl
@[simp] theorem State.setCore_parts (c : Nat) (k : Core) : (s.setCore c k).parts = s.parts := rfl
@[simp] theorem State.setCore_spaces (c : Nat) (k : Core) : (s.setCore c k).spaces = s.spaces := rfl
@[simp] theorem State.setCore_routes (c : Nat) (k : Core) : (s.setCore c k).routes = s.routes := rfl
@[simp] theorem State.setCore_tlbs (c : Nat) (k : Core) : (s.setCore c k).tlbs = s.tlbs := rfl
@[simp] theorem State.setCore_walkers (c : Nat) (k : Core) : (s.setCore c k).walkers = s.walkers := rfl
@[simp] theorem State.setCore_l2 (c : Nat) (k : Core) : (s.setCore c k).l2 = s.l2 := rfl
@[simp] theorem State.setCore_psel (c : Nat) (k : Core) : (s.setCore c k).psel = s.psel := rfl
@[simp] theorem State.setCore_pkts (c : Nat) (k : Core) : (s.setCore c k).pkts = s.pkts := rfl
@[simp] theorem State.setCore_nextPkt (c : Nat) (k : Core) : (s.setCore c k).nextPkt = s.nextPkt := rfl
@[simp] theorem State.setCore_switches (c : Nat) (k : Core) : (s.setCore c k).switches = s.switches := rfl
@[simp] theorem State.setCore_netBudget (c : Nat) (k : Core) : (s.setCore c k).netBudget = s.netBudget := rfl
@[simp] theorem State.setCore_hbmBudget (c : Nat) (k : Core) : (s.setCore c k).hbmBudget = s.hbmBudget := rfl
@[simp] theorem State.setCore_rayBudget (c : Nat) (k : Core) : (s.setCore c k).rayBudget = s.rayBudget := rfl
@[simp] theorem State.setCore_oldWords (c : Nat) (k : Core) : (s.setCore c k).oldWords = s.oldWords := rfl
@[simp] theorem State.setCore_sills (c : Nat) (k : Core) : (s.setCore c k).sills = s.sills := rfl
@[simp] theorem State.setCore_structs (c : Nat) (k : Core) : (s.setCore c k).structs = s.structs := rfl
@[simp] theorem State.setCore_rays (c : Nat) (k : Core) : (s.setCore c k).rays = s.rays := rfl
@[simp] theorem State.setCore_nextRay (c : Nat) (k : Core) : (s.setCore c k).nextRay = s.nextRay := rfl
@[simp] theorem State.setCore_conts (c : Nat) (k : Core) : (s.setCore c k).conts = s.conts := rfl
@[simp] theorem State.setCore_curs (c : Nat) (k : Core) : (s.setCore c k).curs = s.curs := rfl
@[simp] theorem State.setCore_rasters (c : Nat) (k : Core) : (s.setCore c k).rasters = s.rasters := rfl
@[simp] theorem State.setCore_nets (c : Nat) (k : Core) : (s.setCore c k).nets = s.nets := rfl
@[simp] theorem State.setCore_rcas (c : Nat) (k : Core) : (s.setCore c k).rcas = s.rcas := rfl
@[simp] theorem State.setCore_sanders (c : Nat) (k : Core) : (s.setCore c k).sanders = s.sanders := rfl
@[simp] theorem State.setCore_shadow (c : Nat) (k : Core) : (s.setCore c k).shadow = s.shadow := rfl
@[simp] theorem State.setCore_puts (c : Nat) (k : Core) : (s.setCore c k).puts = s.puts := rfl
@[simp] theorem State.setCore_futas (c : Nat) (k : Core) : (s.setCore c k).futas = s.futas := rfl
@[simp] theorem State.setCore_portA (c : Nat) (k : Core) : (s.setCore c k).portA = s.portA := rfl
@[simp] theorem State.setCore_portB (c : Nat) (k : Core) : (s.setCore c k).portB = s.portB := rfl
@[simp] theorem State.setCore_portD (c : Nat) (k : Core) : (s.setCore c k).portD = s.portD := rfl
@[simp] theorem State.setCore_shared (c : Nat) (k : Core) : (s.setCore c k).shared = s.shared := rfl
@[simp] theorem State.setCore_log (c : Nat) (k : Core) : (s.setCore c k).log = s.log := rfl
@[simp] theorem State.setCore_lost (c : Nat) (k : Core) : (s.setCore c k).lost = s.lost := rfl
@[simp] theorem State.setCore_hostLines (c : Nat) (k : Core) : (s.setCore c k).hostLines = s.hostLines := rfl
@[simp] theorem State.setCore_hostHeld (c : Nat) (k : Core) : (s.setCore c k).hostHeld = s.hostHeld := rfl
@[simp] theorem State.setCore_hostWait (c : Nat) (k : Core) : (s.setCore c k).hostWait = s.hostWait := rfl
@[simp] theorem State.setCore_mgmt (c : Nat) (k : Core) : (s.setCore c k).mgmt = s.mgmt := rfl
@[simp] theorem State.setCore_out (c : Nat) (k : Core) : (s.setCore c k).out = s.out := rfl

/-! ### setBank -/

@[simp] theorem State.setBank_agenda (core bank : Nat) (b : Bank) : (s.setBank core bank b).agenda = s.agenda := rfl
@[simp] theorem State.setBank_cur (core bank : Nat) (b : Bank) : (s.setBank core bank b).cur = s.cur := rfl
@[simp] theorem State.setBank_fresh (core bank : Nat) (b : Bank) : (s.setBank core bank b).fresh = s.fresh := rfl
@[simp] theorem State.setBank_beat (core bank : Nat) (b : Bank) : (s.setBank core bank b).beat = s.beat := rfl
@[simp] theorem State.setBank_mem (core bank : Nat) (b : Bank) : (s.setBank core bank b).mem = s.mem := rfl
@[simp] theorem State.setBank_poison (core bank : Nat) (b : Bank) : (s.setBank core bank b).poison = s.poison := rfl
@[simp] theorem State.setBank_stores (core bank : Nat) (b : Bank) : (s.setBank core bank b).stores = s.stores := rfl
@[simp] theorem State.setBank_codeOld (core bank : Nat) (b : Bank) : (s.setBank core bank b).codeOld = s.codeOld := rfl
@[simp] theorem State.setBank_rel (core bank : Nat) (b : Bank) : (s.setBank core bank b).rel = s.rel := rfl
@[simp] theorem State.setBank_symErr (core bank : Nat) (b : Bank) : (s.setBank core bank b).symErr = s.symErr := rfl
@[simp] theorem State.setBank_groups (core bank : Nat) (b : Bank) : (s.setBank core bank b).groups = s.groups := rfl
@[simp] theorem State.setBank_units (core bank : Nat) (b : Bank) : (s.setBank core bank b).units = s.units := rfl
@[simp] theorem State.setBank_gens (core bank : Nat) (b : Bank) : (s.setBank core bank b).gens = s.gens := rfl
@[simp] theorem State.setBank_launches (core bank : Nat) (b : Bank) : (s.setBank core bank b).launches = s.launches := rfl
@[simp] theorem State.setBank_jobs (core bank : Nat) (b : Bank) : (s.setBank core bank b).jobs = s.jobs := rfl
@[simp] theorem State.setBank_nextJob (core bank : Nat) (b : Bank) : (s.setBank core bank b).nextJob = s.nextJob := rfl
@[simp] theorem State.setBank_parts (core bank : Nat) (b : Bank) : (s.setBank core bank b).parts = s.parts := rfl
@[simp] theorem State.setBank_spaces (core bank : Nat) (b : Bank) : (s.setBank core bank b).spaces = s.spaces := rfl
@[simp] theorem State.setBank_routes (core bank : Nat) (b : Bank) : (s.setBank core bank b).routes = s.routes := rfl
@[simp] theorem State.setBank_tlbs (core bank : Nat) (b : Bank) : (s.setBank core bank b).tlbs = s.tlbs := rfl
@[simp] theorem State.setBank_walkers (core bank : Nat) (b : Bank) : (s.setBank core bank b).walkers = s.walkers := rfl
@[simp] theorem State.setBank_l2 (core bank : Nat) (b : Bank) : (s.setBank core bank b).l2 = s.l2 := rfl
@[simp] theorem State.setBank_psel (core bank : Nat) (b : Bank) : (s.setBank core bank b).psel = s.psel := rfl
@[simp] theorem State.setBank_pkts (core bank : Nat) (b : Bank) : (s.setBank core bank b).pkts = s.pkts := rfl
@[simp] theorem State.setBank_nextPkt (core bank : Nat) (b : Bank) : (s.setBank core bank b).nextPkt = s.nextPkt := rfl
@[simp] theorem State.setBank_switches (core bank : Nat) (b : Bank) : (s.setBank core bank b).switches = s.switches := rfl
@[simp] theorem State.setBank_netBudget (core bank : Nat) (b : Bank) : (s.setBank core bank b).netBudget = s.netBudget := rfl
@[simp] theorem State.setBank_hbmBudget (core bank : Nat) (b : Bank) : (s.setBank core bank b).hbmBudget = s.hbmBudget := rfl
@[simp] theorem State.setBank_rayBudget (core bank : Nat) (b : Bank) : (s.setBank core bank b).rayBudget = s.rayBudget := rfl
@[simp] theorem State.setBank_oldWords (core bank : Nat) (b : Bank) : (s.setBank core bank b).oldWords = s.oldWords := rfl
@[simp] theorem State.setBank_sills (core bank : Nat) (b : Bank) : (s.setBank core bank b).sills = s.sills := rfl
@[simp] theorem State.setBank_structs (core bank : Nat) (b : Bank) : (s.setBank core bank b).structs = s.structs := rfl
@[simp] theorem State.setBank_rays (core bank : Nat) (b : Bank) : (s.setBank core bank b).rays = s.rays := rfl
@[simp] theorem State.setBank_nextRay (core bank : Nat) (b : Bank) : (s.setBank core bank b).nextRay = s.nextRay := rfl
@[simp] theorem State.setBank_conts (core bank : Nat) (b : Bank) : (s.setBank core bank b).conts = s.conts := rfl
@[simp] theorem State.setBank_curs (core bank : Nat) (b : Bank) : (s.setBank core bank b).curs = s.curs := rfl
@[simp] theorem State.setBank_rasters (core bank : Nat) (b : Bank) : (s.setBank core bank b).rasters = s.rasters := rfl
@[simp] theorem State.setBank_nets (core bank : Nat) (b : Bank) : (s.setBank core bank b).nets = s.nets := rfl
@[simp] theorem State.setBank_rcas (core bank : Nat) (b : Bank) : (s.setBank core bank b).rcas = s.rcas := rfl
@[simp] theorem State.setBank_sanders (core bank : Nat) (b : Bank) : (s.setBank core bank b).sanders = s.sanders := rfl
@[simp] theorem State.setBank_shadow (core bank : Nat) (b : Bank) : (s.setBank core bank b).shadow = s.shadow := rfl
@[simp] theorem State.setBank_puts (core bank : Nat) (b : Bank) : (s.setBank core bank b).puts = s.puts := rfl
@[simp] theorem State.setBank_futas (core bank : Nat) (b : Bank) : (s.setBank core bank b).futas = s.futas := rfl
@[simp] theorem State.setBank_portA (core bank : Nat) (b : Bank) : (s.setBank core bank b).portA = s.portA := rfl
@[simp] theorem State.setBank_portB (core bank : Nat) (b : Bank) : (s.setBank core bank b).portB = s.portB := rfl
@[simp] theorem State.setBank_portD (core bank : Nat) (b : Bank) : (s.setBank core bank b).portD = s.portD := rfl
@[simp] theorem State.setBank_shared (core bank : Nat) (b : Bank) : (s.setBank core bank b).shared = s.shared := rfl
@[simp] theorem State.setBank_log (core bank : Nat) (b : Bank) : (s.setBank core bank b).log = s.log := rfl
@[simp] theorem State.setBank_lost (core bank : Nat) (b : Bank) : (s.setBank core bank b).lost = s.lost := rfl
@[simp] theorem State.setBank_hostLines (core bank : Nat) (b : Bank) : (s.setBank core bank b).hostLines = s.hostLines := rfl
@[simp] theorem State.setBank_hostHeld (core bank : Nat) (b : Bank) : (s.setBank core bank b).hostHeld = s.hostHeld := rfl
@[simp] theorem State.setBank_hostWait (core bank : Nat) (b : Bank) : (s.setBank core bank b).hostWait = s.hostWait := rfl
@[simp] theorem State.setBank_mgmt (core bank : Nat) (b : Bank) : (s.setBank core bank b).mgmt = s.mgmt := rfl
@[simp] theorem State.setBank_out (core bank : Nat) (b : Bank) : (s.setBank core bank b).out = s.out := rfl

/-! ### setSill -/

@[simp] theorem State.setSill_agenda (k : Nat) (q : Sill) : (s.setSill k q).agenda = s.agenda := rfl
@[simp] theorem State.setSill_cur (k : Nat) (q : Sill) : (s.setSill k q).cur = s.cur := rfl
@[simp] theorem State.setSill_fresh (k : Nat) (q : Sill) : (s.setSill k q).fresh = s.fresh := rfl
@[simp] theorem State.setSill_beat (k : Nat) (q : Sill) : (s.setSill k q).beat = s.beat := rfl
@[simp] theorem State.setSill_mem (k : Nat) (q : Sill) : (s.setSill k q).mem = s.mem := rfl
@[simp] theorem State.setSill_poison (k : Nat) (q : Sill) : (s.setSill k q).poison = s.poison := rfl
@[simp] theorem State.setSill_stores (k : Nat) (q : Sill) : (s.setSill k q).stores = s.stores := rfl
@[simp] theorem State.setSill_codeOld (k : Nat) (q : Sill) : (s.setSill k q).codeOld = s.codeOld := rfl
@[simp] theorem State.setSill_rel (k : Nat) (q : Sill) : (s.setSill k q).rel = s.rel := rfl
@[simp] theorem State.setSill_symErr (k : Nat) (q : Sill) : (s.setSill k q).symErr = s.symErr := rfl
@[simp] theorem State.setSill_groups (k : Nat) (q : Sill) : (s.setSill k q).groups = s.groups := rfl
@[simp] theorem State.setSill_units (k : Nat) (q : Sill) : (s.setSill k q).units = s.units := rfl
@[simp] theorem State.setSill_gens (k : Nat) (q : Sill) : (s.setSill k q).gens = s.gens := rfl
@[simp] theorem State.setSill_cores (k : Nat) (q : Sill) : (s.setSill k q).cores = s.cores := rfl
@[simp] theorem State.setSill_launches (k : Nat) (q : Sill) : (s.setSill k q).launches = s.launches := rfl
@[simp] theorem State.setSill_jobs (k : Nat) (q : Sill) : (s.setSill k q).jobs = s.jobs := rfl
@[simp] theorem State.setSill_nextJob (k : Nat) (q : Sill) : (s.setSill k q).nextJob = s.nextJob := rfl
@[simp] theorem State.setSill_parts (k : Nat) (q : Sill) : (s.setSill k q).parts = s.parts := rfl
@[simp] theorem State.setSill_spaces (k : Nat) (q : Sill) : (s.setSill k q).spaces = s.spaces := rfl
@[simp] theorem State.setSill_routes (k : Nat) (q : Sill) : (s.setSill k q).routes = s.routes := rfl
@[simp] theorem State.setSill_tlbs (k : Nat) (q : Sill) : (s.setSill k q).tlbs = s.tlbs := rfl
@[simp] theorem State.setSill_walkers (k : Nat) (q : Sill) : (s.setSill k q).walkers = s.walkers := rfl
@[simp] theorem State.setSill_l2 (k : Nat) (q : Sill) : (s.setSill k q).l2 = s.l2 := rfl
@[simp] theorem State.setSill_psel (k : Nat) (q : Sill) : (s.setSill k q).psel = s.psel := rfl
@[simp] theorem State.setSill_pkts (k : Nat) (q : Sill) : (s.setSill k q).pkts = s.pkts := rfl
@[simp] theorem State.setSill_nextPkt (k : Nat) (q : Sill) : (s.setSill k q).nextPkt = s.nextPkt := rfl
@[simp] theorem State.setSill_switches (k : Nat) (q : Sill) : (s.setSill k q).switches = s.switches := rfl
@[simp] theorem State.setSill_netBudget (k : Nat) (q : Sill) : (s.setSill k q).netBudget = s.netBudget := rfl
@[simp] theorem State.setSill_hbmBudget (k : Nat) (q : Sill) : (s.setSill k q).hbmBudget = s.hbmBudget := rfl
@[simp] theorem State.setSill_rayBudget (k : Nat) (q : Sill) : (s.setSill k q).rayBudget = s.rayBudget := rfl
@[simp] theorem State.setSill_oldWords (k : Nat) (q : Sill) : (s.setSill k q).oldWords = s.oldWords := rfl
@[simp] theorem State.setSill_structs (k : Nat) (q : Sill) : (s.setSill k q).structs = s.structs := rfl
@[simp] theorem State.setSill_rays (k : Nat) (q : Sill) : (s.setSill k q).rays = s.rays := rfl
@[simp] theorem State.setSill_nextRay (k : Nat) (q : Sill) : (s.setSill k q).nextRay = s.nextRay := rfl
@[simp] theorem State.setSill_conts (k : Nat) (q : Sill) : (s.setSill k q).conts = s.conts := rfl
@[simp] theorem State.setSill_curs (k : Nat) (q : Sill) : (s.setSill k q).curs = s.curs := rfl
@[simp] theorem State.setSill_rasters (k : Nat) (q : Sill) : (s.setSill k q).rasters = s.rasters := rfl
@[simp] theorem State.setSill_nets (k : Nat) (q : Sill) : (s.setSill k q).nets = s.nets := rfl
@[simp] theorem State.setSill_rcas (k : Nat) (q : Sill) : (s.setSill k q).rcas = s.rcas := rfl
@[simp] theorem State.setSill_sanders (k : Nat) (q : Sill) : (s.setSill k q).sanders = s.sanders := rfl
@[simp] theorem State.setSill_shadow (k : Nat) (q : Sill) : (s.setSill k q).shadow = s.shadow := rfl
@[simp] theorem State.setSill_puts (k : Nat) (q : Sill) : (s.setSill k q).puts = s.puts := rfl
@[simp] theorem State.setSill_futas (k : Nat) (q : Sill) : (s.setSill k q).futas = s.futas := rfl
@[simp] theorem State.setSill_portA (k : Nat) (q : Sill) : (s.setSill k q).portA = s.portA := rfl
@[simp] theorem State.setSill_portB (k : Nat) (q : Sill) : (s.setSill k q).portB = s.portB := rfl
@[simp] theorem State.setSill_portD (k : Nat) (q : Sill) : (s.setSill k q).portD = s.portD := rfl
@[simp] theorem State.setSill_shared (k : Nat) (q : Sill) : (s.setSill k q).shared = s.shared := rfl
@[simp] theorem State.setSill_log (k : Nat) (q : Sill) : (s.setSill k q).log = s.log := rfl
@[simp] theorem State.setSill_lost (k : Nat) (q : Sill) : (s.setSill k q).lost = s.lost := rfl
@[simp] theorem State.setSill_hostLines (k : Nat) (q : Sill) : (s.setSill k q).hostLines = s.hostLines := rfl
@[simp] theorem State.setSill_hostHeld (k : Nat) (q : Sill) : (s.setSill k q).hostHeld = s.hostHeld := rfl
@[simp] theorem State.setSill_hostWait (k : Nat) (q : Sill) : (s.setSill k q).hostWait = s.hostWait := rfl
@[simp] theorem State.setSill_mgmt (k : Nat) (q : Sill) : (s.setSill k q).mgmt = s.mgmt := rfl
@[simp] theorem State.setSill_out (k : Nat) (q : Sill) : (s.setSill k q).out = s.out := rfl

/-! ### updSill -/

@[simp] theorem State.updSill_agenda (k : Nat) (f : Sill → Sill) : (s.updSill k f).agenda = s.agenda := rfl
@[simp] theorem State.updSill_cur (k : Nat) (f : Sill → Sill) : (s.updSill k f).cur = s.cur := rfl
@[simp] theorem State.updSill_fresh (k : Nat) (f : Sill → Sill) : (s.updSill k f).fresh = s.fresh := rfl
@[simp] theorem State.updSill_beat (k : Nat) (f : Sill → Sill) : (s.updSill k f).beat = s.beat := rfl
@[simp] theorem State.updSill_mem (k : Nat) (f : Sill → Sill) : (s.updSill k f).mem = s.mem := rfl
@[simp] theorem State.updSill_poison (k : Nat) (f : Sill → Sill) : (s.updSill k f).poison = s.poison := rfl
@[simp] theorem State.updSill_stores (k : Nat) (f : Sill → Sill) : (s.updSill k f).stores = s.stores := rfl
@[simp] theorem State.updSill_codeOld (k : Nat) (f : Sill → Sill) : (s.updSill k f).codeOld = s.codeOld := rfl
@[simp] theorem State.updSill_rel (k : Nat) (f : Sill → Sill) : (s.updSill k f).rel = s.rel := rfl
@[simp] theorem State.updSill_symErr (k : Nat) (f : Sill → Sill) : (s.updSill k f).symErr = s.symErr := rfl
@[simp] theorem State.updSill_groups (k : Nat) (f : Sill → Sill) : (s.updSill k f).groups = s.groups := rfl
@[simp] theorem State.updSill_units (k : Nat) (f : Sill → Sill) : (s.updSill k f).units = s.units := rfl
@[simp] theorem State.updSill_gens (k : Nat) (f : Sill → Sill) : (s.updSill k f).gens = s.gens := rfl
@[simp] theorem State.updSill_cores (k : Nat) (f : Sill → Sill) : (s.updSill k f).cores = s.cores := rfl
@[simp] theorem State.updSill_launches (k : Nat) (f : Sill → Sill) : (s.updSill k f).launches = s.launches := rfl
@[simp] theorem State.updSill_jobs (k : Nat) (f : Sill → Sill) : (s.updSill k f).jobs = s.jobs := rfl
@[simp] theorem State.updSill_nextJob (k : Nat) (f : Sill → Sill) : (s.updSill k f).nextJob = s.nextJob := rfl
@[simp] theorem State.updSill_parts (k : Nat) (f : Sill → Sill) : (s.updSill k f).parts = s.parts := rfl
@[simp] theorem State.updSill_spaces (k : Nat) (f : Sill → Sill) : (s.updSill k f).spaces = s.spaces := rfl
@[simp] theorem State.updSill_routes (k : Nat) (f : Sill → Sill) : (s.updSill k f).routes = s.routes := rfl
@[simp] theorem State.updSill_tlbs (k : Nat) (f : Sill → Sill) : (s.updSill k f).tlbs = s.tlbs := rfl
@[simp] theorem State.updSill_walkers (k : Nat) (f : Sill → Sill) : (s.updSill k f).walkers = s.walkers := rfl
@[simp] theorem State.updSill_l2 (k : Nat) (f : Sill → Sill) : (s.updSill k f).l2 = s.l2 := rfl
@[simp] theorem State.updSill_psel (k : Nat) (f : Sill → Sill) : (s.updSill k f).psel = s.psel := rfl
@[simp] theorem State.updSill_pkts (k : Nat) (f : Sill → Sill) : (s.updSill k f).pkts = s.pkts := rfl
@[simp] theorem State.updSill_nextPkt (k : Nat) (f : Sill → Sill) : (s.updSill k f).nextPkt = s.nextPkt := rfl
@[simp] theorem State.updSill_switches (k : Nat) (f : Sill → Sill) : (s.updSill k f).switches = s.switches := rfl
@[simp] theorem State.updSill_netBudget (k : Nat) (f : Sill → Sill) : (s.updSill k f).netBudget = s.netBudget := rfl
@[simp] theorem State.updSill_hbmBudget (k : Nat) (f : Sill → Sill) : (s.updSill k f).hbmBudget = s.hbmBudget := rfl
@[simp] theorem State.updSill_rayBudget (k : Nat) (f : Sill → Sill) : (s.updSill k f).rayBudget = s.rayBudget := rfl
@[simp] theorem State.updSill_oldWords (k : Nat) (f : Sill → Sill) : (s.updSill k f).oldWords = s.oldWords := rfl
@[simp] theorem State.updSill_structs (k : Nat) (f : Sill → Sill) : (s.updSill k f).structs = s.structs := rfl
@[simp] theorem State.updSill_rays (k : Nat) (f : Sill → Sill) : (s.updSill k f).rays = s.rays := rfl
@[simp] theorem State.updSill_nextRay (k : Nat) (f : Sill → Sill) : (s.updSill k f).nextRay = s.nextRay := rfl
@[simp] theorem State.updSill_conts (k : Nat) (f : Sill → Sill) : (s.updSill k f).conts = s.conts := rfl
@[simp] theorem State.updSill_curs (k : Nat) (f : Sill → Sill) : (s.updSill k f).curs = s.curs := rfl
@[simp] theorem State.updSill_rasters (k : Nat) (f : Sill → Sill) : (s.updSill k f).rasters = s.rasters := rfl
@[simp] theorem State.updSill_nets (k : Nat) (f : Sill → Sill) : (s.updSill k f).nets = s.nets := rfl
@[simp] theorem State.updSill_rcas (k : Nat) (f : Sill → Sill) : (s.updSill k f).rcas = s.rcas := rfl
@[simp] theorem State.updSill_sanders (k : Nat) (f : Sill → Sill) : (s.updSill k f).sanders = s.sanders := rfl
@[simp] theorem State.updSill_shadow (k : Nat) (f : Sill → Sill) : (s.updSill k f).shadow = s.shadow := rfl
@[simp] theorem State.updSill_puts (k : Nat) (f : Sill → Sill) : (s.updSill k f).puts = s.puts := rfl
@[simp] theorem State.updSill_futas (k : Nat) (f : Sill → Sill) : (s.updSill k f).futas = s.futas := rfl
@[simp] theorem State.updSill_portA (k : Nat) (f : Sill → Sill) : (s.updSill k f).portA = s.portA := rfl
@[simp] theorem State.updSill_portB (k : Nat) (f : Sill → Sill) : (s.updSill k f).portB = s.portB := rfl
@[simp] theorem State.updSill_portD (k : Nat) (f : Sill → Sill) : (s.updSill k f).portD = s.portD := rfl
@[simp] theorem State.updSill_shared (k : Nat) (f : Sill → Sill) : (s.updSill k f).shared = s.shared := rfl
@[simp] theorem State.updSill_log (k : Nat) (f : Sill → Sill) : (s.updSill k f).log = s.log := rfl
@[simp] theorem State.updSill_lost (k : Nat) (f : Sill → Sill) : (s.updSill k f).lost = s.lost := rfl
@[simp] theorem State.updSill_hostLines (k : Nat) (f : Sill → Sill) : (s.updSill k f).hostLines = s.hostLines := rfl
@[simp] theorem State.updSill_hostHeld (k : Nat) (f : Sill → Sill) : (s.updSill k f).hostHeld = s.hostHeld := rfl
@[simp] theorem State.updSill_hostWait (k : Nat) (f : Sill → Sill) : (s.updSill k f).hostWait = s.hostWait := rfl
@[simp] theorem State.updSill_mgmt (k : Nat) (f : Sill → Sill) : (s.updSill k f).mgmt = s.mgmt := rfl
@[simp] theorem State.updSill_out (k : Nat) (f : Sill → Sill) : (s.updSill k f).out = s.out := rfl

/-! ### setRca -/

@[simp] theorem State.setRca_agenda (cl : Nat) (r : Rca) : (s.setRca cl r).agenda = s.agenda := rfl
@[simp] theorem State.setRca_cur (cl : Nat) (r : Rca) : (s.setRca cl r).cur = s.cur := rfl
@[simp] theorem State.setRca_fresh (cl : Nat) (r : Rca) : (s.setRca cl r).fresh = s.fresh := rfl
@[simp] theorem State.setRca_beat (cl : Nat) (r : Rca) : (s.setRca cl r).beat = s.beat := rfl
@[simp] theorem State.setRca_mem (cl : Nat) (r : Rca) : (s.setRca cl r).mem = s.mem := rfl
@[simp] theorem State.setRca_poison (cl : Nat) (r : Rca) : (s.setRca cl r).poison = s.poison := rfl
@[simp] theorem State.setRca_stores (cl : Nat) (r : Rca) : (s.setRca cl r).stores = s.stores := rfl
@[simp] theorem State.setRca_codeOld (cl : Nat) (r : Rca) : (s.setRca cl r).codeOld = s.codeOld := rfl
@[simp] theorem State.setRca_rel (cl : Nat) (r : Rca) : (s.setRca cl r).rel = s.rel := rfl
@[simp] theorem State.setRca_symErr (cl : Nat) (r : Rca) : (s.setRca cl r).symErr = s.symErr := rfl
@[simp] theorem State.setRca_groups (cl : Nat) (r : Rca) : (s.setRca cl r).groups = s.groups := rfl
@[simp] theorem State.setRca_units (cl : Nat) (r : Rca) : (s.setRca cl r).units = s.units := rfl
@[simp] theorem State.setRca_gens (cl : Nat) (r : Rca) : (s.setRca cl r).gens = s.gens := rfl
@[simp] theorem State.setRca_cores (cl : Nat) (r : Rca) : (s.setRca cl r).cores = s.cores := rfl
@[simp] theorem State.setRca_launches (cl : Nat) (r : Rca) : (s.setRca cl r).launches = s.launches := rfl
@[simp] theorem State.setRca_jobs (cl : Nat) (r : Rca) : (s.setRca cl r).jobs = s.jobs := rfl
@[simp] theorem State.setRca_nextJob (cl : Nat) (r : Rca) : (s.setRca cl r).nextJob = s.nextJob := rfl
@[simp] theorem State.setRca_parts (cl : Nat) (r : Rca) : (s.setRca cl r).parts = s.parts := rfl
@[simp] theorem State.setRca_spaces (cl : Nat) (r : Rca) : (s.setRca cl r).spaces = s.spaces := rfl
@[simp] theorem State.setRca_routes (cl : Nat) (r : Rca) : (s.setRca cl r).routes = s.routes := rfl
@[simp] theorem State.setRca_tlbs (cl : Nat) (r : Rca) : (s.setRca cl r).tlbs = s.tlbs := rfl
@[simp] theorem State.setRca_walkers (cl : Nat) (r : Rca) : (s.setRca cl r).walkers = s.walkers := rfl
@[simp] theorem State.setRca_l2 (cl : Nat) (r : Rca) : (s.setRca cl r).l2 = s.l2 := rfl
@[simp] theorem State.setRca_psel (cl : Nat) (r : Rca) : (s.setRca cl r).psel = s.psel := rfl
@[simp] theorem State.setRca_pkts (cl : Nat) (r : Rca) : (s.setRca cl r).pkts = s.pkts := rfl
@[simp] theorem State.setRca_nextPkt (cl : Nat) (r : Rca) : (s.setRca cl r).nextPkt = s.nextPkt := rfl
@[simp] theorem State.setRca_switches (cl : Nat) (r : Rca) : (s.setRca cl r).switches = s.switches := rfl
@[simp] theorem State.setRca_netBudget (cl : Nat) (r : Rca) : (s.setRca cl r).netBudget = s.netBudget := rfl
@[simp] theorem State.setRca_hbmBudget (cl : Nat) (r : Rca) : (s.setRca cl r).hbmBudget = s.hbmBudget := rfl
@[simp] theorem State.setRca_rayBudget (cl : Nat) (r : Rca) : (s.setRca cl r).rayBudget = s.rayBudget := rfl
@[simp] theorem State.setRca_oldWords (cl : Nat) (r : Rca) : (s.setRca cl r).oldWords = s.oldWords := rfl
@[simp] theorem State.setRca_sills (cl : Nat) (r : Rca) : (s.setRca cl r).sills = s.sills := rfl
@[simp] theorem State.setRca_structs (cl : Nat) (r : Rca) : (s.setRca cl r).structs = s.structs := rfl
@[simp] theorem State.setRca_rays (cl : Nat) (r : Rca) : (s.setRca cl r).rays = s.rays := rfl
@[simp] theorem State.setRca_nextRay (cl : Nat) (r : Rca) : (s.setRca cl r).nextRay = s.nextRay := rfl
@[simp] theorem State.setRca_conts (cl : Nat) (r : Rca) : (s.setRca cl r).conts = s.conts := rfl
@[simp] theorem State.setRca_curs (cl : Nat) (r : Rca) : (s.setRca cl r).curs = s.curs := rfl
@[simp] theorem State.setRca_rasters (cl : Nat) (r : Rca) : (s.setRca cl r).rasters = s.rasters := rfl
@[simp] theorem State.setRca_nets (cl : Nat) (r : Rca) : (s.setRca cl r).nets = s.nets := rfl
@[simp] theorem State.setRca_sanders (cl : Nat) (r : Rca) : (s.setRca cl r).sanders = s.sanders := rfl
@[simp] theorem State.setRca_shadow (cl : Nat) (r : Rca) : (s.setRca cl r).shadow = s.shadow := rfl
@[simp] theorem State.setRca_puts (cl : Nat) (r : Rca) : (s.setRca cl r).puts = s.puts := rfl
@[simp] theorem State.setRca_futas (cl : Nat) (r : Rca) : (s.setRca cl r).futas = s.futas := rfl
@[simp] theorem State.setRca_portA (cl : Nat) (r : Rca) : (s.setRca cl r).portA = s.portA := rfl
@[simp] theorem State.setRca_portB (cl : Nat) (r : Rca) : (s.setRca cl r).portB = s.portB := rfl
@[simp] theorem State.setRca_portD (cl : Nat) (r : Rca) : (s.setRca cl r).portD = s.portD := rfl
@[simp] theorem State.setRca_shared (cl : Nat) (r : Rca) : (s.setRca cl r).shared = s.shared := rfl
@[simp] theorem State.setRca_log (cl : Nat) (r : Rca) : (s.setRca cl r).log = s.log := rfl
@[simp] theorem State.setRca_lost (cl : Nat) (r : Rca) : (s.setRca cl r).lost = s.lost := rfl
@[simp] theorem State.setRca_hostLines (cl : Nat) (r : Rca) : (s.setRca cl r).hostLines = s.hostLines := rfl
@[simp] theorem State.setRca_hostHeld (cl : Nat) (r : Rca) : (s.setRca cl r).hostHeld = s.hostHeld := rfl
@[simp] theorem State.setRca_hostWait (cl : Nat) (r : Rca) : (s.setRca cl r).hostWait = s.hostWait := rfl
@[simp] theorem State.setRca_mgmt (cl : Nat) (r : Rca) : (s.setRca cl r).mgmt = s.mgmt := rfl
@[simp] theorem State.setRca_out (cl : Nat) (r : Rca) : (s.setRca cl r).out = s.out := rfl

/-! ### updNet -/

@[simp] theorem State.updNet_agenda (key : Nat) (f : Net → Net) : (s.updNet key f).agenda = s.agenda := rfl
@[simp] theorem State.updNet_cur (key : Nat) (f : Net → Net) : (s.updNet key f).cur = s.cur := rfl
@[simp] theorem State.updNet_fresh (key : Nat) (f : Net → Net) : (s.updNet key f).fresh = s.fresh := rfl
@[simp] theorem State.updNet_beat (key : Nat) (f : Net → Net) : (s.updNet key f).beat = s.beat := rfl
@[simp] theorem State.updNet_mem (key : Nat) (f : Net → Net) : (s.updNet key f).mem = s.mem := rfl
@[simp] theorem State.updNet_poison (key : Nat) (f : Net → Net) : (s.updNet key f).poison = s.poison := rfl
@[simp] theorem State.updNet_stores (key : Nat) (f : Net → Net) : (s.updNet key f).stores = s.stores := rfl
@[simp] theorem State.updNet_codeOld (key : Nat) (f : Net → Net) : (s.updNet key f).codeOld = s.codeOld := rfl
@[simp] theorem State.updNet_rel (key : Nat) (f : Net → Net) : (s.updNet key f).rel = s.rel := rfl
@[simp] theorem State.updNet_symErr (key : Nat) (f : Net → Net) : (s.updNet key f).symErr = s.symErr := rfl
@[simp] theorem State.updNet_groups (key : Nat) (f : Net → Net) : (s.updNet key f).groups = s.groups := rfl
@[simp] theorem State.updNet_units (key : Nat) (f : Net → Net) : (s.updNet key f).units = s.units := rfl
@[simp] theorem State.updNet_gens (key : Nat) (f : Net → Net) : (s.updNet key f).gens = s.gens := rfl
@[simp] theorem State.updNet_cores (key : Nat) (f : Net → Net) : (s.updNet key f).cores = s.cores := rfl
@[simp] theorem State.updNet_launches (key : Nat) (f : Net → Net) : (s.updNet key f).launches = s.launches := rfl
@[simp] theorem State.updNet_jobs (key : Nat) (f : Net → Net) : (s.updNet key f).jobs = s.jobs := rfl
@[simp] theorem State.updNet_nextJob (key : Nat) (f : Net → Net) : (s.updNet key f).nextJob = s.nextJob := rfl
@[simp] theorem State.updNet_parts (key : Nat) (f : Net → Net) : (s.updNet key f).parts = s.parts := rfl
@[simp] theorem State.updNet_spaces (key : Nat) (f : Net → Net) : (s.updNet key f).spaces = s.spaces := rfl
@[simp] theorem State.updNet_routes (key : Nat) (f : Net → Net) : (s.updNet key f).routes = s.routes := rfl
@[simp] theorem State.updNet_tlbs (key : Nat) (f : Net → Net) : (s.updNet key f).tlbs = s.tlbs := rfl
@[simp] theorem State.updNet_walkers (key : Nat) (f : Net → Net) : (s.updNet key f).walkers = s.walkers := rfl
@[simp] theorem State.updNet_l2 (key : Nat) (f : Net → Net) : (s.updNet key f).l2 = s.l2 := rfl
@[simp] theorem State.updNet_psel (key : Nat) (f : Net → Net) : (s.updNet key f).psel = s.psel := rfl
@[simp] theorem State.updNet_pkts (key : Nat) (f : Net → Net) : (s.updNet key f).pkts = s.pkts := rfl
@[simp] theorem State.updNet_nextPkt (key : Nat) (f : Net → Net) : (s.updNet key f).nextPkt = s.nextPkt := rfl
@[simp] theorem State.updNet_switches (key : Nat) (f : Net → Net) : (s.updNet key f).switches = s.switches := rfl
@[simp] theorem State.updNet_netBudget (key : Nat) (f : Net → Net) : (s.updNet key f).netBudget = s.netBudget := rfl
@[simp] theorem State.updNet_hbmBudget (key : Nat) (f : Net → Net) : (s.updNet key f).hbmBudget = s.hbmBudget := rfl
@[simp] theorem State.updNet_rayBudget (key : Nat) (f : Net → Net) : (s.updNet key f).rayBudget = s.rayBudget := rfl
@[simp] theorem State.updNet_oldWords (key : Nat) (f : Net → Net) : (s.updNet key f).oldWords = s.oldWords := rfl
@[simp] theorem State.updNet_sills (key : Nat) (f : Net → Net) : (s.updNet key f).sills = s.sills := rfl
@[simp] theorem State.updNet_structs (key : Nat) (f : Net → Net) : (s.updNet key f).structs = s.structs := rfl
@[simp] theorem State.updNet_rays (key : Nat) (f : Net → Net) : (s.updNet key f).rays = s.rays := rfl
@[simp] theorem State.updNet_nextRay (key : Nat) (f : Net → Net) : (s.updNet key f).nextRay = s.nextRay := rfl
@[simp] theorem State.updNet_conts (key : Nat) (f : Net → Net) : (s.updNet key f).conts = s.conts := rfl
@[simp] theorem State.updNet_curs (key : Nat) (f : Net → Net) : (s.updNet key f).curs = s.curs := rfl
@[simp] theorem State.updNet_rasters (key : Nat) (f : Net → Net) : (s.updNet key f).rasters = s.rasters := rfl
@[simp] theorem State.updNet_rcas (key : Nat) (f : Net → Net) : (s.updNet key f).rcas = s.rcas := rfl
@[simp] theorem State.updNet_sanders (key : Nat) (f : Net → Net) : (s.updNet key f).sanders = s.sanders := rfl
@[simp] theorem State.updNet_shadow (key : Nat) (f : Net → Net) : (s.updNet key f).shadow = s.shadow := rfl
@[simp] theorem State.updNet_puts (key : Nat) (f : Net → Net) : (s.updNet key f).puts = s.puts := rfl
@[simp] theorem State.updNet_futas (key : Nat) (f : Net → Net) : (s.updNet key f).futas = s.futas := rfl
@[simp] theorem State.updNet_portA (key : Nat) (f : Net → Net) : (s.updNet key f).portA = s.portA := rfl
@[simp] theorem State.updNet_portB (key : Nat) (f : Net → Net) : (s.updNet key f).portB = s.portB := rfl
@[simp] theorem State.updNet_portD (key : Nat) (f : Net → Net) : (s.updNet key f).portD = s.portD := rfl
@[simp] theorem State.updNet_shared (key : Nat) (f : Net → Net) : (s.updNet key f).shared = s.shared := rfl
@[simp] theorem State.updNet_log (key : Nat) (f : Net → Net) : (s.updNet key f).log = s.log := rfl
@[simp] theorem State.updNet_lost (key : Nat) (f : Net → Net) : (s.updNet key f).lost = s.lost := rfl
@[simp] theorem State.updNet_hostLines (key : Nat) (f : Net → Net) : (s.updNet key f).hostLines = s.hostLines := rfl
@[simp] theorem State.updNet_hostHeld (key : Nat) (f : Net → Net) : (s.updNet key f).hostHeld = s.hostHeld := rfl
@[simp] theorem State.updNet_hostWait (key : Nat) (f : Net → Net) : (s.updNet key f).hostWait = s.hostWait := rfl
@[simp] theorem State.updNet_mgmt (key : Nat) (f : Net → Net) : (s.updNet key f).mgmt = s.mgmt := rfl
@[simp] theorem State.updNet_out (key : Nat) (f : Net → Net) : (s.updNet key f).out = s.out := rfl

/-! ### updRay -/

@[simp] theorem State.updRay_agenda (id : Nat) (f : Ray → Ray) : (s.updRay id f).agenda = s.agenda := rfl
@[simp] theorem State.updRay_cur (id : Nat) (f : Ray → Ray) : (s.updRay id f).cur = s.cur := rfl
@[simp] theorem State.updRay_fresh (id : Nat) (f : Ray → Ray) : (s.updRay id f).fresh = s.fresh := rfl
@[simp] theorem State.updRay_beat (id : Nat) (f : Ray → Ray) : (s.updRay id f).beat = s.beat := rfl
@[simp] theorem State.updRay_mem (id : Nat) (f : Ray → Ray) : (s.updRay id f).mem = s.mem := rfl
@[simp] theorem State.updRay_poison (id : Nat) (f : Ray → Ray) : (s.updRay id f).poison = s.poison := rfl
@[simp] theorem State.updRay_stores (id : Nat) (f : Ray → Ray) : (s.updRay id f).stores = s.stores := rfl
@[simp] theorem State.updRay_codeOld (id : Nat) (f : Ray → Ray) : (s.updRay id f).codeOld = s.codeOld := rfl
@[simp] theorem State.updRay_rel (id : Nat) (f : Ray → Ray) : (s.updRay id f).rel = s.rel := rfl
@[simp] theorem State.updRay_symErr (id : Nat) (f : Ray → Ray) : (s.updRay id f).symErr = s.symErr := rfl
@[simp] theorem State.updRay_groups (id : Nat) (f : Ray → Ray) : (s.updRay id f).groups = s.groups := rfl
@[simp] theorem State.updRay_units (id : Nat) (f : Ray → Ray) : (s.updRay id f).units = s.units := rfl
@[simp] theorem State.updRay_gens (id : Nat) (f : Ray → Ray) : (s.updRay id f).gens = s.gens := rfl
@[simp] theorem State.updRay_cores (id : Nat) (f : Ray → Ray) : (s.updRay id f).cores = s.cores := rfl
@[simp] theorem State.updRay_launches (id : Nat) (f : Ray → Ray) : (s.updRay id f).launches = s.launches := rfl
@[simp] theorem State.updRay_jobs (id : Nat) (f : Ray → Ray) : (s.updRay id f).jobs = s.jobs := rfl
@[simp] theorem State.updRay_nextJob (id : Nat) (f : Ray → Ray) : (s.updRay id f).nextJob = s.nextJob := rfl
@[simp] theorem State.updRay_parts (id : Nat) (f : Ray → Ray) : (s.updRay id f).parts = s.parts := rfl
@[simp] theorem State.updRay_spaces (id : Nat) (f : Ray → Ray) : (s.updRay id f).spaces = s.spaces := rfl
@[simp] theorem State.updRay_routes (id : Nat) (f : Ray → Ray) : (s.updRay id f).routes = s.routes := rfl
@[simp] theorem State.updRay_tlbs (id : Nat) (f : Ray → Ray) : (s.updRay id f).tlbs = s.tlbs := rfl
@[simp] theorem State.updRay_walkers (id : Nat) (f : Ray → Ray) : (s.updRay id f).walkers = s.walkers := rfl
@[simp] theorem State.updRay_l2 (id : Nat) (f : Ray → Ray) : (s.updRay id f).l2 = s.l2 := rfl
@[simp] theorem State.updRay_psel (id : Nat) (f : Ray → Ray) : (s.updRay id f).psel = s.psel := rfl
@[simp] theorem State.updRay_pkts (id : Nat) (f : Ray → Ray) : (s.updRay id f).pkts = s.pkts := rfl
@[simp] theorem State.updRay_nextPkt (id : Nat) (f : Ray → Ray) : (s.updRay id f).nextPkt = s.nextPkt := rfl
@[simp] theorem State.updRay_switches (id : Nat) (f : Ray → Ray) : (s.updRay id f).switches = s.switches := rfl
@[simp] theorem State.updRay_netBudget (id : Nat) (f : Ray → Ray) : (s.updRay id f).netBudget = s.netBudget := rfl
@[simp] theorem State.updRay_hbmBudget (id : Nat) (f : Ray → Ray) : (s.updRay id f).hbmBudget = s.hbmBudget := rfl
@[simp] theorem State.updRay_rayBudget (id : Nat) (f : Ray → Ray) : (s.updRay id f).rayBudget = s.rayBudget := rfl
@[simp] theorem State.updRay_oldWords (id : Nat) (f : Ray → Ray) : (s.updRay id f).oldWords = s.oldWords := rfl
@[simp] theorem State.updRay_sills (id : Nat) (f : Ray → Ray) : (s.updRay id f).sills = s.sills := rfl
@[simp] theorem State.updRay_structs (id : Nat) (f : Ray → Ray) : (s.updRay id f).structs = s.structs := rfl
@[simp] theorem State.updRay_nextRay (id : Nat) (f : Ray → Ray) : (s.updRay id f).nextRay = s.nextRay := rfl
@[simp] theorem State.updRay_conts (id : Nat) (f : Ray → Ray) : (s.updRay id f).conts = s.conts := rfl
@[simp] theorem State.updRay_curs (id : Nat) (f : Ray → Ray) : (s.updRay id f).curs = s.curs := rfl
@[simp] theorem State.updRay_rasters (id : Nat) (f : Ray → Ray) : (s.updRay id f).rasters = s.rasters := rfl
@[simp] theorem State.updRay_nets (id : Nat) (f : Ray → Ray) : (s.updRay id f).nets = s.nets := rfl
@[simp] theorem State.updRay_rcas (id : Nat) (f : Ray → Ray) : (s.updRay id f).rcas = s.rcas := rfl
@[simp] theorem State.updRay_sanders (id : Nat) (f : Ray → Ray) : (s.updRay id f).sanders = s.sanders := rfl
@[simp] theorem State.updRay_shadow (id : Nat) (f : Ray → Ray) : (s.updRay id f).shadow = s.shadow := rfl
@[simp] theorem State.updRay_puts (id : Nat) (f : Ray → Ray) : (s.updRay id f).puts = s.puts := rfl
@[simp] theorem State.updRay_futas (id : Nat) (f : Ray → Ray) : (s.updRay id f).futas = s.futas := rfl
@[simp] theorem State.updRay_portA (id : Nat) (f : Ray → Ray) : (s.updRay id f).portA = s.portA := rfl
@[simp] theorem State.updRay_portB (id : Nat) (f : Ray → Ray) : (s.updRay id f).portB = s.portB := rfl
@[simp] theorem State.updRay_portD (id : Nat) (f : Ray → Ray) : (s.updRay id f).portD = s.portD := rfl
@[simp] theorem State.updRay_shared (id : Nat) (f : Ray → Ray) : (s.updRay id f).shared = s.shared := rfl
@[simp] theorem State.updRay_log (id : Nat) (f : Ray → Ray) : (s.updRay id f).log = s.log := rfl
@[simp] theorem State.updRay_lost (id : Nat) (f : Ray → Ray) : (s.updRay id f).lost = s.lost := rfl
@[simp] theorem State.updRay_hostLines (id : Nat) (f : Ray → Ray) : (s.updRay id f).hostLines = s.hostLines := rfl
@[simp] theorem State.updRay_hostHeld (id : Nat) (f : Ray → Ray) : (s.updRay id f).hostHeld = s.hostHeld := rfl
@[simp] theorem State.updRay_hostWait (id : Nat) (f : Ray → Ray) : (s.updRay id f).hostWait = s.hostWait := rfl
@[simp] theorem State.updRay_mgmt (id : Nat) (f : Ray → Ray) : (s.updRay id f).mgmt = s.mgmt := rfl
@[simp] theorem State.updRay_out (id : Nat) (f : Ray → Ray) : (s.updRay id f).out = s.out := rfl

/-! ### setFutas -/

@[simp] theorem State.setFutas_agenda (port : Nat) (x : FutasPort) : (s.setFutas port x).agenda = s.agenda := rfl
@[simp] theorem State.setFutas_cur (port : Nat) (x : FutasPort) : (s.setFutas port x).cur = s.cur := rfl
@[simp] theorem State.setFutas_fresh (port : Nat) (x : FutasPort) : (s.setFutas port x).fresh = s.fresh := rfl
@[simp] theorem State.setFutas_beat (port : Nat) (x : FutasPort) : (s.setFutas port x).beat = s.beat := rfl
@[simp] theorem State.setFutas_mem (port : Nat) (x : FutasPort) : (s.setFutas port x).mem = s.mem := rfl
@[simp] theorem State.setFutas_poison (port : Nat) (x : FutasPort) : (s.setFutas port x).poison = s.poison := rfl
@[simp] theorem State.setFutas_stores (port : Nat) (x : FutasPort) : (s.setFutas port x).stores = s.stores := rfl
@[simp] theorem State.setFutas_codeOld (port : Nat) (x : FutasPort) : (s.setFutas port x).codeOld = s.codeOld := rfl
@[simp] theorem State.setFutas_rel (port : Nat) (x : FutasPort) : (s.setFutas port x).rel = s.rel := rfl
@[simp] theorem State.setFutas_symErr (port : Nat) (x : FutasPort) : (s.setFutas port x).symErr = s.symErr := rfl
@[simp] theorem State.setFutas_groups (port : Nat) (x : FutasPort) : (s.setFutas port x).groups = s.groups := rfl
@[simp] theorem State.setFutas_units (port : Nat) (x : FutasPort) : (s.setFutas port x).units = s.units := rfl
@[simp] theorem State.setFutas_gens (port : Nat) (x : FutasPort) : (s.setFutas port x).gens = s.gens := rfl
@[simp] theorem State.setFutas_cores (port : Nat) (x : FutasPort) : (s.setFutas port x).cores = s.cores := rfl
@[simp] theorem State.setFutas_launches (port : Nat) (x : FutasPort) : (s.setFutas port x).launches = s.launches := rfl
@[simp] theorem State.setFutas_jobs (port : Nat) (x : FutasPort) : (s.setFutas port x).jobs = s.jobs := rfl
@[simp] theorem State.setFutas_nextJob (port : Nat) (x : FutasPort) : (s.setFutas port x).nextJob = s.nextJob := rfl
@[simp] theorem State.setFutas_parts (port : Nat) (x : FutasPort) : (s.setFutas port x).parts = s.parts := rfl
@[simp] theorem State.setFutas_spaces (port : Nat) (x : FutasPort) : (s.setFutas port x).spaces = s.spaces := rfl
@[simp] theorem State.setFutas_routes (port : Nat) (x : FutasPort) : (s.setFutas port x).routes = s.routes := rfl
@[simp] theorem State.setFutas_tlbs (port : Nat) (x : FutasPort) : (s.setFutas port x).tlbs = s.tlbs := rfl
@[simp] theorem State.setFutas_walkers (port : Nat) (x : FutasPort) : (s.setFutas port x).walkers = s.walkers := rfl
@[simp] theorem State.setFutas_l2 (port : Nat) (x : FutasPort) : (s.setFutas port x).l2 = s.l2 := rfl
@[simp] theorem State.setFutas_psel (port : Nat) (x : FutasPort) : (s.setFutas port x).psel = s.psel := rfl
@[simp] theorem State.setFutas_pkts (port : Nat) (x : FutasPort) : (s.setFutas port x).pkts = s.pkts := rfl
@[simp] theorem State.setFutas_nextPkt (port : Nat) (x : FutasPort) : (s.setFutas port x).nextPkt = s.nextPkt := rfl
@[simp] theorem State.setFutas_switches (port : Nat) (x : FutasPort) : (s.setFutas port x).switches = s.switches := rfl
@[simp] theorem State.setFutas_netBudget (port : Nat) (x : FutasPort) : (s.setFutas port x).netBudget = s.netBudget := rfl
@[simp] theorem State.setFutas_hbmBudget (port : Nat) (x : FutasPort) : (s.setFutas port x).hbmBudget = s.hbmBudget := rfl
@[simp] theorem State.setFutas_rayBudget (port : Nat) (x : FutasPort) : (s.setFutas port x).rayBudget = s.rayBudget := rfl
@[simp] theorem State.setFutas_oldWords (port : Nat) (x : FutasPort) : (s.setFutas port x).oldWords = s.oldWords := rfl
@[simp] theorem State.setFutas_sills (port : Nat) (x : FutasPort) : (s.setFutas port x).sills = s.sills := rfl
@[simp] theorem State.setFutas_structs (port : Nat) (x : FutasPort) : (s.setFutas port x).structs = s.structs := rfl
@[simp] theorem State.setFutas_rays (port : Nat) (x : FutasPort) : (s.setFutas port x).rays = s.rays := rfl
@[simp] theorem State.setFutas_nextRay (port : Nat) (x : FutasPort) : (s.setFutas port x).nextRay = s.nextRay := rfl
@[simp] theorem State.setFutas_conts (port : Nat) (x : FutasPort) : (s.setFutas port x).conts = s.conts := rfl
@[simp] theorem State.setFutas_curs (port : Nat) (x : FutasPort) : (s.setFutas port x).curs = s.curs := rfl
@[simp] theorem State.setFutas_rasters (port : Nat) (x : FutasPort) : (s.setFutas port x).rasters = s.rasters := rfl
@[simp] theorem State.setFutas_nets (port : Nat) (x : FutasPort) : (s.setFutas port x).nets = s.nets := rfl
@[simp] theorem State.setFutas_rcas (port : Nat) (x : FutasPort) : (s.setFutas port x).rcas = s.rcas := rfl
@[simp] theorem State.setFutas_sanders (port : Nat) (x : FutasPort) : (s.setFutas port x).sanders = s.sanders := rfl
@[simp] theorem State.setFutas_shadow (port : Nat) (x : FutasPort) : (s.setFutas port x).shadow = s.shadow := rfl
@[simp] theorem State.setFutas_puts (port : Nat) (x : FutasPort) : (s.setFutas port x).puts = s.puts := rfl
@[simp] theorem State.setFutas_portA (port : Nat) (x : FutasPort) : (s.setFutas port x).portA = s.portA := rfl
@[simp] theorem State.setFutas_portB (port : Nat) (x : FutasPort) : (s.setFutas port x).portB = s.portB := rfl
@[simp] theorem State.setFutas_portD (port : Nat) (x : FutasPort) : (s.setFutas port x).portD = s.portD := rfl
@[simp] theorem State.setFutas_shared (port : Nat) (x : FutasPort) : (s.setFutas port x).shared = s.shared := rfl
@[simp] theorem State.setFutas_log (port : Nat) (x : FutasPort) : (s.setFutas port x).log = s.log := rfl
@[simp] theorem State.setFutas_lost (port : Nat) (x : FutasPort) : (s.setFutas port x).lost = s.lost := rfl
@[simp] theorem State.setFutas_hostLines (port : Nat) (x : FutasPort) : (s.setFutas port x).hostLines = s.hostLines := rfl
@[simp] theorem State.setFutas_hostHeld (port : Nat) (x : FutasPort) : (s.setFutas port x).hostHeld = s.hostHeld := rfl
@[simp] theorem State.setFutas_hostWait (port : Nat) (x : FutasPort) : (s.setFutas port x).hostWait = s.hostWait := rfl
@[simp] theorem State.setFutas_mgmt (port : Nat) (x : FutasPort) : (s.setFutas port x).mgmt = s.mgmt := rfl
@[simp] theorem State.setFutas_out (port : Nat) (x : FutasPort) : (s.setFutas port x).out = s.out := rfl

/-! ### emit -/

@[simp] theorem State.emit_agenda (o : Out) : (s.emit o).agenda = s.agenda := rfl
@[simp] theorem State.emit_cur (o : Out) : (s.emit o).cur = s.cur := rfl
@[simp] theorem State.emit_fresh (o : Out) : (s.emit o).fresh = s.fresh := rfl
@[simp] theorem State.emit_beat (o : Out) : (s.emit o).beat = s.beat := rfl
@[simp] theorem State.emit_mem (o : Out) : (s.emit o).mem = s.mem := rfl
@[simp] theorem State.emit_poison (o : Out) : (s.emit o).poison = s.poison := rfl
@[simp] theorem State.emit_stores (o : Out) : (s.emit o).stores = s.stores := rfl
@[simp] theorem State.emit_codeOld (o : Out) : (s.emit o).codeOld = s.codeOld := rfl
@[simp] theorem State.emit_rel (o : Out) : (s.emit o).rel = s.rel := rfl
@[simp] theorem State.emit_symErr (o : Out) : (s.emit o).symErr = s.symErr := rfl
@[simp] theorem State.emit_groups (o : Out) : (s.emit o).groups = s.groups := rfl
@[simp] theorem State.emit_units (o : Out) : (s.emit o).units = s.units := rfl
@[simp] theorem State.emit_gens (o : Out) : (s.emit o).gens = s.gens := rfl
@[simp] theorem State.emit_cores (o : Out) : (s.emit o).cores = s.cores := rfl
@[simp] theorem State.emit_launches (o : Out) : (s.emit o).launches = s.launches := rfl
@[simp] theorem State.emit_jobs (o : Out) : (s.emit o).jobs = s.jobs := rfl
@[simp] theorem State.emit_nextJob (o : Out) : (s.emit o).nextJob = s.nextJob := rfl
@[simp] theorem State.emit_parts (o : Out) : (s.emit o).parts = s.parts := rfl
@[simp] theorem State.emit_spaces (o : Out) : (s.emit o).spaces = s.spaces := rfl
@[simp] theorem State.emit_routes (o : Out) : (s.emit o).routes = s.routes := rfl
@[simp] theorem State.emit_tlbs (o : Out) : (s.emit o).tlbs = s.tlbs := rfl
@[simp] theorem State.emit_walkers (o : Out) : (s.emit o).walkers = s.walkers := rfl
@[simp] theorem State.emit_l2 (o : Out) : (s.emit o).l2 = s.l2 := rfl
@[simp] theorem State.emit_psel (o : Out) : (s.emit o).psel = s.psel := rfl
@[simp] theorem State.emit_pkts (o : Out) : (s.emit o).pkts = s.pkts := rfl
@[simp] theorem State.emit_nextPkt (o : Out) : (s.emit o).nextPkt = s.nextPkt := rfl
@[simp] theorem State.emit_switches (o : Out) : (s.emit o).switches = s.switches := rfl
@[simp] theorem State.emit_netBudget (o : Out) : (s.emit o).netBudget = s.netBudget := rfl
@[simp] theorem State.emit_hbmBudget (o : Out) : (s.emit o).hbmBudget = s.hbmBudget := rfl
@[simp] theorem State.emit_rayBudget (o : Out) : (s.emit o).rayBudget = s.rayBudget := rfl
@[simp] theorem State.emit_oldWords (o : Out) : (s.emit o).oldWords = s.oldWords := rfl
@[simp] theorem State.emit_sills (o : Out) : (s.emit o).sills = s.sills := rfl
@[simp] theorem State.emit_structs (o : Out) : (s.emit o).structs = s.structs := rfl
@[simp] theorem State.emit_rays (o : Out) : (s.emit o).rays = s.rays := rfl
@[simp] theorem State.emit_nextRay (o : Out) : (s.emit o).nextRay = s.nextRay := rfl
@[simp] theorem State.emit_conts (o : Out) : (s.emit o).conts = s.conts := rfl
@[simp] theorem State.emit_curs (o : Out) : (s.emit o).curs = s.curs := rfl
@[simp] theorem State.emit_rasters (o : Out) : (s.emit o).rasters = s.rasters := rfl
@[simp] theorem State.emit_nets (o : Out) : (s.emit o).nets = s.nets := rfl
@[simp] theorem State.emit_rcas (o : Out) : (s.emit o).rcas = s.rcas := rfl
@[simp] theorem State.emit_sanders (o : Out) : (s.emit o).sanders = s.sanders := rfl
@[simp] theorem State.emit_shadow (o : Out) : (s.emit o).shadow = s.shadow := rfl
@[simp] theorem State.emit_puts (o : Out) : (s.emit o).puts = s.puts := rfl
@[simp] theorem State.emit_futas (o : Out) : (s.emit o).futas = s.futas := rfl
@[simp] theorem State.emit_portA (o : Out) : (s.emit o).portA = s.portA := rfl
@[simp] theorem State.emit_portB (o : Out) : (s.emit o).portB = s.portB := rfl
@[simp] theorem State.emit_portD (o : Out) : (s.emit o).portD = s.portD := rfl
@[simp] theorem State.emit_shared (o : Out) : (s.emit o).shared = s.shared := rfl
@[simp] theorem State.emit_log (o : Out) : (s.emit o).log = s.log := rfl
@[simp] theorem State.emit_lost (o : Out) : (s.emit o).lost = s.lost := rfl
@[simp] theorem State.emit_hostLines (o : Out) : (s.emit o).hostLines = s.hostLines := rfl
@[simp] theorem State.emit_hostHeld (o : Out) : (s.emit o).hostHeld = s.hostHeld := rfl
@[simp] theorem State.emit_hostWait (o : Out) : (s.emit o).hostWait = s.hostWait := rfl
@[simp] theorem State.emit_mgmt (o : Out) : (s.emit o).mgmt = s.mgmt := rfl

/-! ### setPoison -/

@[simp] theorem State.setPoison_agenda (loc : Nat) (b : Bool) : (s.setPoison loc b).agenda = s.agenda := rfl
@[simp] theorem State.setPoison_cur (loc : Nat) (b : Bool) : (s.setPoison loc b).cur = s.cur := rfl
@[simp] theorem State.setPoison_fresh (loc : Nat) (b : Bool) : (s.setPoison loc b).fresh = s.fresh := rfl
@[simp] theorem State.setPoison_beat (loc : Nat) (b : Bool) : (s.setPoison loc b).beat = s.beat := rfl
@[simp] theorem State.setPoison_mem (loc : Nat) (b : Bool) : (s.setPoison loc b).mem = s.mem := rfl
@[simp] theorem State.setPoison_stores (loc : Nat) (b : Bool) : (s.setPoison loc b).stores = s.stores := rfl
@[simp] theorem State.setPoison_codeOld (loc : Nat) (b : Bool) : (s.setPoison loc b).codeOld = s.codeOld := rfl
@[simp] theorem State.setPoison_rel (loc : Nat) (b : Bool) : (s.setPoison loc b).rel = s.rel := rfl
@[simp] theorem State.setPoison_symErr (loc : Nat) (b : Bool) : (s.setPoison loc b).symErr = s.symErr := rfl
@[simp] theorem State.setPoison_groups (loc : Nat) (b : Bool) : (s.setPoison loc b).groups = s.groups := rfl
@[simp] theorem State.setPoison_units (loc : Nat) (b : Bool) : (s.setPoison loc b).units = s.units := rfl
@[simp] theorem State.setPoison_gens (loc : Nat) (b : Bool) : (s.setPoison loc b).gens = s.gens := rfl
@[simp] theorem State.setPoison_cores (loc : Nat) (b : Bool) : (s.setPoison loc b).cores = s.cores := rfl
@[simp] theorem State.setPoison_launches (loc : Nat) (b : Bool) : (s.setPoison loc b).launches = s.launches := rfl
@[simp] theorem State.setPoison_jobs (loc : Nat) (b : Bool) : (s.setPoison loc b).jobs = s.jobs := rfl
@[simp] theorem State.setPoison_nextJob (loc : Nat) (b : Bool) : (s.setPoison loc b).nextJob = s.nextJob := rfl
@[simp] theorem State.setPoison_parts (loc : Nat) (b : Bool) : (s.setPoison loc b).parts = s.parts := rfl
@[simp] theorem State.setPoison_spaces (loc : Nat) (b : Bool) : (s.setPoison loc b).spaces = s.spaces := rfl
@[simp] theorem State.setPoison_routes (loc : Nat) (b : Bool) : (s.setPoison loc b).routes = s.routes := rfl
@[simp] theorem State.setPoison_tlbs (loc : Nat) (b : Bool) : (s.setPoison loc b).tlbs = s.tlbs := rfl
@[simp] theorem State.setPoison_walkers (loc : Nat) (b : Bool) : (s.setPoison loc b).walkers = s.walkers := rfl
@[simp] theorem State.setPoison_l2 (loc : Nat) (b : Bool) : (s.setPoison loc b).l2 = s.l2 := rfl
@[simp] theorem State.setPoison_psel (loc : Nat) (b : Bool) : (s.setPoison loc b).psel = s.psel := rfl
@[simp] theorem State.setPoison_pkts (loc : Nat) (b : Bool) : (s.setPoison loc b).pkts = s.pkts := rfl
@[simp] theorem State.setPoison_nextPkt (loc : Nat) (b : Bool) : (s.setPoison loc b).nextPkt = s.nextPkt := rfl
@[simp] theorem State.setPoison_switches (loc : Nat) (b : Bool) : (s.setPoison loc b).switches = s.switches := rfl
@[simp] theorem State.setPoison_netBudget (loc : Nat) (b : Bool) : (s.setPoison loc b).netBudget = s.netBudget := rfl
@[simp] theorem State.setPoison_hbmBudget (loc : Nat) (b : Bool) : (s.setPoison loc b).hbmBudget = s.hbmBudget := rfl
@[simp] theorem State.setPoison_rayBudget (loc : Nat) (b : Bool) : (s.setPoison loc b).rayBudget = s.rayBudget := rfl
@[simp] theorem State.setPoison_oldWords (loc : Nat) (b : Bool) : (s.setPoison loc b).oldWords = s.oldWords := rfl
@[simp] theorem State.setPoison_sills (loc : Nat) (b : Bool) : (s.setPoison loc b).sills = s.sills := rfl
@[simp] theorem State.setPoison_structs (loc : Nat) (b : Bool) : (s.setPoison loc b).structs = s.structs := rfl
@[simp] theorem State.setPoison_rays (loc : Nat) (b : Bool) : (s.setPoison loc b).rays = s.rays := rfl
@[simp] theorem State.setPoison_nextRay (loc : Nat) (b : Bool) : (s.setPoison loc b).nextRay = s.nextRay := rfl
@[simp] theorem State.setPoison_conts (loc : Nat) (b : Bool) : (s.setPoison loc b).conts = s.conts := rfl
@[simp] theorem State.setPoison_curs (loc : Nat) (b : Bool) : (s.setPoison loc b).curs = s.curs := rfl
@[simp] theorem State.setPoison_rasters (loc : Nat) (b : Bool) : (s.setPoison loc b).rasters = s.rasters := rfl
@[simp] theorem State.setPoison_nets (loc : Nat) (b : Bool) : (s.setPoison loc b).nets = s.nets := rfl
@[simp] theorem State.setPoison_rcas (loc : Nat) (b : Bool) : (s.setPoison loc b).rcas = s.rcas := rfl
@[simp] theorem State.setPoison_sanders (loc : Nat) (b : Bool) : (s.setPoison loc b).sanders = s.sanders := rfl
@[simp] theorem State.setPoison_shadow (loc : Nat) (b : Bool) : (s.setPoison loc b).shadow = s.shadow := rfl
@[simp] theorem State.setPoison_puts (loc : Nat) (b : Bool) : (s.setPoison loc b).puts = s.puts := rfl
@[simp] theorem State.setPoison_futas (loc : Nat) (b : Bool) : (s.setPoison loc b).futas = s.futas := rfl
@[simp] theorem State.setPoison_portA (loc : Nat) (b : Bool) : (s.setPoison loc b).portA = s.portA := rfl
@[simp] theorem State.setPoison_portB (loc : Nat) (b : Bool) : (s.setPoison loc b).portB = s.portB := rfl
@[simp] theorem State.setPoison_portD (loc : Nat) (b : Bool) : (s.setPoison loc b).portD = s.portD := rfl
@[simp] theorem State.setPoison_shared (loc : Nat) (b : Bool) : (s.setPoison loc b).shared = s.shared := rfl
@[simp] theorem State.setPoison_log (loc : Nat) (b : Bool) : (s.setPoison loc b).log = s.log := rfl
@[simp] theorem State.setPoison_lost (loc : Nat) (b : Bool) : (s.setPoison loc b).lost = s.lost := rfl
@[simp] theorem State.setPoison_hostLines (loc : Nat) (b : Bool) : (s.setPoison loc b).hostLines = s.hostLines := rfl
@[simp] theorem State.setPoison_hostHeld (loc : Nat) (b : Bool) : (s.setPoison loc b).hostHeld = s.hostHeld := rfl
@[simp] theorem State.setPoison_hostWait (loc : Nat) (b : Bool) : (s.setPoison loc b).hostWait = s.hostWait := rfl
@[simp] theorem State.setPoison_mgmt (loc : Nat) (b : Bool) : (s.setPoison loc b).mgmt = s.mgmt := rfl
@[simp] theorem State.setPoison_out (loc : Nat) (b : Bool) : (s.setPoison loc b).out = s.out := rfl

/-! ### putL2Set -/

@[simp] theorem State.putL2Set_agenda (slice set : Nat) (ls : List L2Line) : (s.putL2Set slice set ls).agenda = s.agenda := rfl
@[simp] theorem State.putL2Set_cur (slice set : Nat) (ls : List L2Line) : (s.putL2Set slice set ls).cur = s.cur := rfl
@[simp] theorem State.putL2Set_fresh (slice set : Nat) (ls : List L2Line) : (s.putL2Set slice set ls).fresh = s.fresh := rfl
@[simp] theorem State.putL2Set_beat (slice set : Nat) (ls : List L2Line) : (s.putL2Set slice set ls).beat = s.beat := rfl
@[simp] theorem State.putL2Set_mem (slice set : Nat) (ls : List L2Line) : (s.putL2Set slice set ls).mem = s.mem := rfl
@[simp] theorem State.putL2Set_poison (slice set : Nat) (ls : List L2Line) : (s.putL2Set slice set ls).poison = s.poison := rfl
@[simp] theorem State.putL2Set_stores (slice set : Nat) (ls : List L2Line) : (s.putL2Set slice set ls).stores = s.stores := rfl
@[simp] theorem State.putL2Set_codeOld (slice set : Nat) (ls : List L2Line) : (s.putL2Set slice set ls).codeOld = s.codeOld := rfl
@[simp] theorem State.putL2Set_rel (slice set : Nat) (ls : List L2Line) : (s.putL2Set slice set ls).rel = s.rel := rfl
@[simp] theorem State.putL2Set_symErr (slice set : Nat) (ls : List L2Line) : (s.putL2Set slice set ls).symErr = s.symErr := rfl
@[simp] theorem State.putL2Set_groups (slice set : Nat) (ls : List L2Line) : (s.putL2Set slice set ls).groups = s.groups := rfl
@[simp] theorem State.putL2Set_units (slice set : Nat) (ls : List L2Line) : (s.putL2Set slice set ls).units = s.units := rfl
@[simp] theorem State.putL2Set_gens (slice set : Nat) (ls : List L2Line) : (s.putL2Set slice set ls).gens = s.gens := rfl
@[simp] theorem State.putL2Set_cores (slice set : Nat) (ls : List L2Line) : (s.putL2Set slice set ls).cores = s.cores := rfl
@[simp] theorem State.putL2Set_launches (slice set : Nat) (ls : List L2Line) : (s.putL2Set slice set ls).launches = s.launches := rfl
@[simp] theorem State.putL2Set_jobs (slice set : Nat) (ls : List L2Line) : (s.putL2Set slice set ls).jobs = s.jobs := rfl
@[simp] theorem State.putL2Set_nextJob (slice set : Nat) (ls : List L2Line) : (s.putL2Set slice set ls).nextJob = s.nextJob := rfl
@[simp] theorem State.putL2Set_parts (slice set : Nat) (ls : List L2Line) : (s.putL2Set slice set ls).parts = s.parts := rfl
@[simp] theorem State.putL2Set_spaces (slice set : Nat) (ls : List L2Line) : (s.putL2Set slice set ls).spaces = s.spaces := rfl
@[simp] theorem State.putL2Set_routes (slice set : Nat) (ls : List L2Line) : (s.putL2Set slice set ls).routes = s.routes := rfl
@[simp] theorem State.putL2Set_tlbs (slice set : Nat) (ls : List L2Line) : (s.putL2Set slice set ls).tlbs = s.tlbs := rfl
@[simp] theorem State.putL2Set_walkers (slice set : Nat) (ls : List L2Line) : (s.putL2Set slice set ls).walkers = s.walkers := rfl
@[simp] theorem State.putL2Set_psel (slice set : Nat) (ls : List L2Line) : (s.putL2Set slice set ls).psel = s.psel := rfl
@[simp] theorem State.putL2Set_pkts (slice set : Nat) (ls : List L2Line) : (s.putL2Set slice set ls).pkts = s.pkts := rfl
@[simp] theorem State.putL2Set_nextPkt (slice set : Nat) (ls : List L2Line) : (s.putL2Set slice set ls).nextPkt = s.nextPkt := rfl
@[simp] theorem State.putL2Set_switches (slice set : Nat) (ls : List L2Line) : (s.putL2Set slice set ls).switches = s.switches := rfl
@[simp] theorem State.putL2Set_netBudget (slice set : Nat) (ls : List L2Line) : (s.putL2Set slice set ls).netBudget = s.netBudget := rfl
@[simp] theorem State.putL2Set_hbmBudget (slice set : Nat) (ls : List L2Line) : (s.putL2Set slice set ls).hbmBudget = s.hbmBudget := rfl
@[simp] theorem State.putL2Set_rayBudget (slice set : Nat) (ls : List L2Line) : (s.putL2Set slice set ls).rayBudget = s.rayBudget := rfl
@[simp] theorem State.putL2Set_oldWords (slice set : Nat) (ls : List L2Line) : (s.putL2Set slice set ls).oldWords = s.oldWords := rfl
@[simp] theorem State.putL2Set_sills (slice set : Nat) (ls : List L2Line) : (s.putL2Set slice set ls).sills = s.sills := rfl
@[simp] theorem State.putL2Set_structs (slice set : Nat) (ls : List L2Line) : (s.putL2Set slice set ls).structs = s.structs := rfl
@[simp] theorem State.putL2Set_rays (slice set : Nat) (ls : List L2Line) : (s.putL2Set slice set ls).rays = s.rays := rfl
@[simp] theorem State.putL2Set_nextRay (slice set : Nat) (ls : List L2Line) : (s.putL2Set slice set ls).nextRay = s.nextRay := rfl
@[simp] theorem State.putL2Set_conts (slice set : Nat) (ls : List L2Line) : (s.putL2Set slice set ls).conts = s.conts := rfl
@[simp] theorem State.putL2Set_curs (slice set : Nat) (ls : List L2Line) : (s.putL2Set slice set ls).curs = s.curs := rfl
@[simp] theorem State.putL2Set_rasters (slice set : Nat) (ls : List L2Line) : (s.putL2Set slice set ls).rasters = s.rasters := rfl
@[simp] theorem State.putL2Set_nets (slice set : Nat) (ls : List L2Line) : (s.putL2Set slice set ls).nets = s.nets := rfl
@[simp] theorem State.putL2Set_rcas (slice set : Nat) (ls : List L2Line) : (s.putL2Set slice set ls).rcas = s.rcas := rfl
@[simp] theorem State.putL2Set_sanders (slice set : Nat) (ls : List L2Line) : (s.putL2Set slice set ls).sanders = s.sanders := rfl
@[simp] theorem State.putL2Set_shadow (slice set : Nat) (ls : List L2Line) : (s.putL2Set slice set ls).shadow = s.shadow := rfl
@[simp] theorem State.putL2Set_puts (slice set : Nat) (ls : List L2Line) : (s.putL2Set slice set ls).puts = s.puts := rfl
@[simp] theorem State.putL2Set_futas (slice set : Nat) (ls : List L2Line) : (s.putL2Set slice set ls).futas = s.futas := rfl
@[simp] theorem State.putL2Set_portA (slice set : Nat) (ls : List L2Line) : (s.putL2Set slice set ls).portA = s.portA := rfl
@[simp] theorem State.putL2Set_portB (slice set : Nat) (ls : List L2Line) : (s.putL2Set slice set ls).portB = s.portB := rfl
@[simp] theorem State.putL2Set_portD (slice set : Nat) (ls : List L2Line) : (s.putL2Set slice set ls).portD = s.portD := rfl
@[simp] theorem State.putL2Set_shared (slice set : Nat) (ls : List L2Line) : (s.putL2Set slice set ls).shared = s.shared := rfl
@[simp] theorem State.putL2Set_log (slice set : Nat) (ls : List L2Line) : (s.putL2Set slice set ls).log = s.log := rfl
@[simp] theorem State.putL2Set_lost (slice set : Nat) (ls : List L2Line) : (s.putL2Set slice set ls).lost = s.lost := rfl
@[simp] theorem State.putL2Set_hostLines (slice set : Nat) (ls : List L2Line) : (s.putL2Set slice set ls).hostLines = s.hostLines := rfl
@[simp] theorem State.putL2Set_hostHeld (slice set : Nat) (ls : List L2Line) : (s.putL2Set slice set ls).hostHeld = s.hostHeld := rfl
@[simp] theorem State.putL2Set_hostWait (slice set : Nat) (ls : List L2Line) : (s.putL2Set slice set ls).hostWait = s.hostWait := rfl
@[simp] theorem State.putL2Set_mgmt (slice set : Nat) (ls : List L2Line) : (s.putL2Set slice set ls).mgmt = s.mgmt := rfl
@[simp] theorem State.putL2Set_out (slice set : Nat) (ls : List L2Line) : (s.putL2Set slice set ls).out = s.out := rfl

/-! ### genNext -/

@[simp] theorem State.genNext_agenda (uid : Nat) : (s.genNext uid).agenda = s.agenda := rfl
@[simp] theorem State.genNext_cur (uid : Nat) : (s.genNext uid).cur = s.cur := rfl
@[simp] theorem State.genNext_fresh (uid : Nat) : (s.genNext uid).fresh = s.fresh := rfl
@[simp] theorem State.genNext_beat (uid : Nat) : (s.genNext uid).beat = s.beat := rfl
@[simp] theorem State.genNext_mem (uid : Nat) : (s.genNext uid).mem = s.mem := rfl
@[simp] theorem State.genNext_poison (uid : Nat) : (s.genNext uid).poison = s.poison := rfl
@[simp] theorem State.genNext_stores (uid : Nat) : (s.genNext uid).stores = s.stores := rfl
@[simp] theorem State.genNext_codeOld (uid : Nat) : (s.genNext uid).codeOld = s.codeOld := rfl
@[simp] theorem State.genNext_rel (uid : Nat) : (s.genNext uid).rel = s.rel := rfl
@[simp] theorem State.genNext_symErr (uid : Nat) : (s.genNext uid).symErr = s.symErr := rfl
@[simp] theorem State.genNext_groups (uid : Nat) : (s.genNext uid).groups = s.groups := rfl
@[simp] theorem State.genNext_units (uid : Nat) : (s.genNext uid).units = s.units := rfl
@[simp] theorem State.genNext_cores (uid : Nat) : (s.genNext uid).cores = s.cores := rfl
@[simp] theorem State.genNext_launches (uid : Nat) : (s.genNext uid).launches = s.launches := rfl
@[simp] theorem State.genNext_jobs (uid : Nat) : (s.genNext uid).jobs = s.jobs := rfl
@[simp] theorem State.genNext_nextJob (uid : Nat) : (s.genNext uid).nextJob = s.nextJob := rfl
@[simp] theorem State.genNext_parts (uid : Nat) : (s.genNext uid).parts = s.parts := rfl
@[simp] theorem State.genNext_spaces (uid : Nat) : (s.genNext uid).spaces = s.spaces := rfl
@[simp] theorem State.genNext_routes (uid : Nat) : (s.genNext uid).routes = s.routes := rfl
@[simp] theorem State.genNext_tlbs (uid : Nat) : (s.genNext uid).tlbs = s.tlbs := rfl
@[simp] theorem State.genNext_walkers (uid : Nat) : (s.genNext uid).walkers = s.walkers := rfl
@[simp] theorem State.genNext_l2 (uid : Nat) : (s.genNext uid).l2 = s.l2 := rfl
@[simp] theorem State.genNext_psel (uid : Nat) : (s.genNext uid).psel = s.psel := rfl
@[simp] theorem State.genNext_pkts (uid : Nat) : (s.genNext uid).pkts = s.pkts := rfl
@[simp] theorem State.genNext_nextPkt (uid : Nat) : (s.genNext uid).nextPkt = s.nextPkt := rfl
@[simp] theorem State.genNext_switches (uid : Nat) : (s.genNext uid).switches = s.switches := rfl
@[simp] theorem State.genNext_netBudget (uid : Nat) : (s.genNext uid).netBudget = s.netBudget := rfl
@[simp] theorem State.genNext_hbmBudget (uid : Nat) : (s.genNext uid).hbmBudget = s.hbmBudget := rfl
@[simp] theorem State.genNext_rayBudget (uid : Nat) : (s.genNext uid).rayBudget = s.rayBudget := rfl
@[simp] theorem State.genNext_oldWords (uid : Nat) : (s.genNext uid).oldWords = s.oldWords := rfl
@[simp] theorem State.genNext_sills (uid : Nat) : (s.genNext uid).sills = s.sills := rfl
@[simp] theorem State.genNext_structs (uid : Nat) : (s.genNext uid).structs = s.structs := rfl
@[simp] theorem State.genNext_rays (uid : Nat) : (s.genNext uid).rays = s.rays := rfl
@[simp] theorem State.genNext_nextRay (uid : Nat) : (s.genNext uid).nextRay = s.nextRay := rfl
@[simp] theorem State.genNext_conts (uid : Nat) : (s.genNext uid).conts = s.conts := rfl
@[simp] theorem State.genNext_curs (uid : Nat) : (s.genNext uid).curs = s.curs := rfl
@[simp] theorem State.genNext_rasters (uid : Nat) : (s.genNext uid).rasters = s.rasters := rfl
@[simp] theorem State.genNext_nets (uid : Nat) : (s.genNext uid).nets = s.nets := rfl
@[simp] theorem State.genNext_rcas (uid : Nat) : (s.genNext uid).rcas = s.rcas := rfl
@[simp] theorem State.genNext_sanders (uid : Nat) : (s.genNext uid).sanders = s.sanders := rfl
@[simp] theorem State.genNext_shadow (uid : Nat) : (s.genNext uid).shadow = s.shadow := rfl
@[simp] theorem State.genNext_puts (uid : Nat) : (s.genNext uid).puts = s.puts := rfl
@[simp] theorem State.genNext_futas (uid : Nat) : (s.genNext uid).futas = s.futas := rfl
@[simp] theorem State.genNext_portA (uid : Nat) : (s.genNext uid).portA = s.portA := rfl
@[simp] theorem State.genNext_portB (uid : Nat) : (s.genNext uid).portB = s.portB := rfl
@[simp] theorem State.genNext_portD (uid : Nat) : (s.genNext uid).portD = s.portD := rfl
@[simp] theorem State.genNext_shared (uid : Nat) : (s.genNext uid).shared = s.shared := rfl
@[simp] theorem State.genNext_log (uid : Nat) : (s.genNext uid).log = s.log := rfl
@[simp] theorem State.genNext_lost (uid : Nat) : (s.genNext uid).lost = s.lost := rfl
@[simp] theorem State.genNext_hostLines (uid : Nat) : (s.genNext uid).hostLines = s.hostLines := rfl
@[simp] theorem State.genNext_hostHeld (uid : Nat) : (s.genNext uid).hostHeld = s.hostHeld := rfl
@[simp] theorem State.genNext_hostWait (uid : Nat) : (s.genNext uid).hostWait = s.hostWait := rfl
@[simp] theorem State.genNext_mgmt (uid : Nat) : (s.genNext uid).mgmt = s.mgmt := rfl
@[simp] theorem State.genNext_out (uid : Nat) : (s.genNext uid).out = s.out := rfl

end Sys2Proof.Machine
end

