-- ==== Sys2Proof/Laws/Access.lean ====
section
/-! SUPPORT. What an access at a home slice and a translation can change, said once: all other state is as before, and
memory keeps its canonical form. -/

namespace Sys2Proof.Machine

/-! ### Accesses at a home slice -/

/-- `t` is `s` but for memory and what the home slices, the sills and the host's side of the lines hold; memory that is
canonical stays so. -/
structure HomeOnly (s t : State) : Prop where
  frame : t = { s with mem := t.mem, poison := t.poison, stores := t.stores, codeOld := t.codeOld, symErr := t.symErr, l2 := t.l2,
                       psel := t.psel, sills := t.sills, hbmBudget := t.hbmBudget, hostLines := t.hostLines,
                       hostHeld := t.hostHeld, hostWait := t.hostWait, out := t.out, fresh := t.fresh }
  canonical : Memory.wf s.mem = true → Memory.wf t.mem = true

theorem HomeOnly.refl (s : State) : HomeOnly s s := ⟨rfl, id⟩

theorem HomeOnly.trans {s t u : State} (h1 : HomeOnly s t) (h2 : HomeOnly t u) : HomeOnly s u := by
  refine ⟨?_, h2.canonical ∘ h1.canonical⟩
  have f := h2.frame
  rw [h1.frame] at f
  exact f

theorem HomeOnly.foldl {α : Type} (f : State → α → State) (h : ∀ s a, HomeOnly s (f s a)) (l : List α) (s : State) :
    HomeOnly s (l.foldl f s) := by
  induction l generalizing s with
  | nil => exact .refl s
  | cons a l ih => exact (h s a).trans (ih _)

theorem HomeOnly.agenda {s t : State} (h : HomeOnly s t) : t.agenda = s.agenda := by rw [h.frame]
theorem HomeOnly.cur {s t : State} (h : HomeOnly s t) : t.cur = s.cur := by rw [h.frame]
theorem HomeOnly.groups {s t : State} (h : HomeOnly s t) : t.groups = s.groups := by rw [h.frame]
theorem HomeOnly.units {s t : State} (h : HomeOnly s t) : t.units = s.units := by rw [h.frame]
theorem HomeOnly.cores {s t : State} (h : HomeOnly s t) : t.cores = s.cores := by rw [h.frame]
theorem HomeOnly.jobs {s t : State} (h : HomeOnly s t) : t.jobs = s.jobs := by rw [h.frame]
theorem HomeOnly.launches {s t : State} (h : HomeOnly s t) : t.launches = s.launches := by rw [h.frame]
theorem HomeOnly.spaces {s t : State} (h : HomeOnly s t) : t.spaces = s.spaces := by rw [h.frame]
theorem HomeOnly.pkts {s t : State} (h : HomeOnly s t) : t.pkts = s.pkts := by rw [h.frame]

theorem State.keepCode_only (s : State) (loc : Nat) (bs : List Byte) :
    HomeOnly s (s.keepCode loc bs) ∧ (s.keepCode loc bs).mem = s.mem := ⟨⟨rfl, id⟩, rfl⟩

/-- A store to memory writes these bytes there. -/
theorem State.setBytes_mem (s : State) (loc : Nat) (bs : List Byte) : (s.setBytes loc bs).mem = Memory.wr s.mem loc bs := by
  simp [State.setBytes, (s.keepCode_only loc bs).2]

theorem State.setBytes_only (s : State) (loc : Nat) (bs : List Byte) : HomeOnly s (s.setBytes loc bs) := by
  refine ⟨?_, fun h => by rw [s.setBytes_mem]; exact Memory.wf_wr _ _ _ h⟩
  have := (s.keepCode_only loc bs).1.frame
  unfold State.setBytes
  dsimp only
  rw [this]

theorem State.setSill_only (s : State) (k : Nat) (q : Sill) : HomeOnly s (s.setSill k q) := ⟨rfl, id⟩
theorem State.putL2Set_only (s : State) (slice set : Nat) (ls : List L2Line) : HomeOnly s (s.putL2Set slice set ls) := ⟨rfl, id⟩

theorem State.updHomeLine_only (s : State) (loc : Nat) (f : L2Line → L2Line) : HomeOnly s (s.updHomeLine loc f) := ⟨rfl, id⟩

theorem State.touchHomeLine_only (s : State) (loc : Nat) : HomeOnly s (s.touchHomeLine loc) := by
  exact ⟨rfl, id⟩

theorem State.duel_only (s : State) (asid set : Nat) : HomeOnly s (s.duel asid set) := by
  unfold State.duel
  split
  · exact ⟨rfl, id⟩
  · split <;> exact ⟨rfl, id⟩

theorem State.queueHbm_only (s : State) (loc : Nat) (w : Bool) (m : BitVec 4) (slack part asid : Nat) (old : FMap Byte)
    (bad : FMap Bool) : HomeOnly s (s.queueHbm loc w m slack part asid old bad) := by
  unfold State.queueHbm; split <;> exact ⟨rfl, id⟩

theorem State.evictL2_only (s : State) (v : L2Line) (part asid : Nat) : HomeOnly s (s.evictL2 v part asid) := by
  unfold State.evictL2
  split
  · exact .refl s
  · dsimp only
    have h1 : HomeOnly s (if inHost (128 * v.line) then { s with hostLines := FMap.del s.hostLines v.line } else s) := by
      split <;> exact ⟨rfl, id⟩
    have h2 : ∀ t : State, ∀ m, HomeOnly t { t with poison := m } := fun _ _ => ⟨rfl, id⟩
    split
    · exact h1.trans (h2 _ _)
    · exact (h1.trans (h2 _ _)).trans (State.queueHbm_only _ _ _ _ _ _ _ _ _)

theorem State.insertLine_only (s : State) (asid slice set : Nat) (l : L2Line) (part : Nat) :
    HomeOnly s (s.insertLine asid slice set l part) := by
  unfold State.insertLine
  dsimp only
  generalize (if (s.l2Set slice set).length < 12 then (none, s.l2Set slice set) else dropVictim (s.l2Set slice set)) = v
  obtain ⟨v, ls⟩ := v
  cases v with
  | none => exact ⟨rfl, id⟩
  | some v => exact (s.evictL2_only v part asid).trans ⟨rfl, id⟩

theorem State.installSectors_only (s : State) (asid part loc : Nat) (m : BitVec 4) :
    HomeOnly s (s.installSectors asid part loc m) := by
  unfold State.installSectors
  split
  · exact s.updHomeLine_only _ _
  · exact s.insertLine_only ..

theorem State.poisonDram_only (s : State) (stack sector : Nat) : HomeOnly s (s.poisonDram stack sector) := by
  unfold State.poisonDram
  dsimp only
  split
  · exact s.setSill_only _ _
  · split
    · exact s.updHomeLine_only _ _
    · exact ⟨rfl, id⟩

theorem State.checkSector_only (s : State) (stack sector : Nat) : HomeOnly s (s.checkSector stack sector) := by
  unfold State.checkSector
  split
  · exact .refl s
  · dsimp only
    split
    · exact s.setSill_only _ _
    · exact HomeOnly.trans (t := { s with symErr := FMap.del s.symErr sector }) ⟨rfl, id⟩ (State.poisonDram_only _ _ _)

theorem State.serveHbm_only (s : State) (stack : Nat) (r : HbmReq) : HomeOnly s (s.serveHbm stack r) := by
  unfold State.serveHbm
  split
  · exact ⟨rfl, id⟩
  · exact (HomeOnly.foldl _ (fun s k => s.checkSector_only stack k) _ s).trans (State.installSectors_only _ _ _ _ _)

theorem State.chargeHbm_only (s : State) (stack part n : Nat) : HomeOnly s (s.chargeHbm stack part n) := ⟨rfl, id⟩

theorem State.serveLine_only (s : State) (stack line : Nat) : HomeOnly s (s.serveLine stack line) :=
  (s.setSill_only _ _).trans
    (HomeOnly.foldl _ (fun s _ => (s.chargeHbm_only _ _ _).trans (State.serveHbm_only _ _ _)) _ _)

theorem State.readDram_only (s : State) (part line : Nat) (m : BitVec 4) (paid : Bool) :
    HomeOnly s (s.readDram part line m paid) := by
  unfold State.readDram
  dsimp only
  refine ((s.serveLine_only (stackOf (128 * line)) line).trans ?_).trans
    (HomeOnly.foldl _ (fun s k => s.checkSector_only _ k) _ _)
  split
  · exact State.chargeHbm_only _ _ _ _
  · exact .refl _

theorem State.hostBytes_only (s : State) (line : Nat) : HomeOnly s (s.hostBytes line) :=
  HomeOnly.trans (t := (s.frees 16).2) ⟨rfl, id⟩ (State.setBytes_only _ _ _)

theorem State.obtainHost_only (s : State) (line : Nat) (own : Bool) : HomeOnly s (s.obtainHost line own) := by
  unfold State.obtainHost
  split
  · split <;> exact ⟨rfl, id⟩
  · exact (HomeOnly.trans (t := s.emit (.hostReq line own)) ⟨rfl, id⟩ (State.hostBytes_only _ _)).trans ⟨rfl, id⟩

theorem State.backInvalidate_only (s : State) (line : Nat) : HomeOnly s (s.backInvalidate line) := by
  unfold State.backInvalidate; split <;> exact ⟨rfl, id⟩

theorem State.fillLineOf_only (s : State) (asid part loc n : Nat) (paid : Bool) :
    HomeOnly s (s.fillLineOf asid part loc n paid) := by
  unfold State.fillLineOf
  dsimp only
  split
  · refine (s.obtainHost_only (loc / 128) false).trans ?_
    split
    · exact State.touchHomeLine_only _ _
    · exact (State.duel_only _ _ _).trans (State.installSectors_only _ _ _ _ _)
  · split
    · exact State.touchHomeLine_only _ _
    · have h := (s.duel_only asid (setOf loc)).trans (State.serveLine_only _ (stackOf loc) (loc / 128))
      repeat' split
      all_goals first
        | exact h
        | exact h.trans ((State.readDram_only _ _ _ _ _).trans (State.installSectors_only _ _ _ _ _))

/-- A store at its home writes these bytes of memory, and no state but the L2's and the host's side of the line. -/
theorem State.storeHome_only (s : State) (loc : Nat) (bs : List Byte) : HomeOnly s (s.storeHome loc bs) := by
  have h := (s.backInvalidate_only (loc / 128)).trans (State.updHomeLine_only (s.backInvalidate (loc / 128)) loc (fun l =>
    { l with dirty := l.dirty ||| sectorMask loc bs.length,
             old := if inHbm loc then keepOld (s.backInvalidate (loc / 128)) loc bs.length l.old else l.old,
             bad := keepBad (s.backInvalidate (loc / 128)) loc bs.length l.bad }))
  exact (h.trans (State.setBytes_only _ loc bs)).trans ⟨rfl, id⟩

theorem State.writeLines_only (s : State) (asid part loc : Nat) (bs : List Byte) (paid : Bool) :
    HomeOnly s (s.writeLines asid part loc bs paid) := by
  refine HomeOnly.foldl _ (fun s p => ?_) _ s
  dsimp only
  have h : HomeOnly s (if inHost p.1 then s.obtainHost (p.1 / 128) true else s) := by
    split
    · exact s.obtainHost_only _ _
    · exact .refl s
  exact (h.trans (State.fillLineOf_only _ _ _ _ _ _)).trans (State.storeHome_only _ _ _)

theorem State.writeHome_only (s : State) (asid part loc : Nat) (bs : List Byte) : HomeOnly s (s.writeHome asid part loc bs) :=
  s.writeLines_only asid part loc bs true

theorem State.fillHome_only (s : State) (asid part loc n : Nat) : HomeOnly s (s.fillHome asid part loc n) :=
  s.fillLineOf_only asid part loc n true

theorem State.fillRange_only (s : State) (asid part loc n : Nat) (paid : Bool) : HomeOnly s (s.fillRange asid part loc n paid) :=
  HomeOnly.foldl _ (fun s _ => s.fillLineOf_only _ _ _ _ _) _ s

theorem State.dramBytes_wf (s : State) (h : Memory.wf s.mem = true) : Memory.wf s.dramBytes = true := by
  unfold State.dramBytes
  have back : ∀ (old : FMap Byte) (m : Memory), Memory.wf m = true →
      Memory.wf (old.foldl (fun m b => Memory.wr m b.1 [b.2]) m) = true :=
    fun old m hm => Memory.wf_foldl _ old m hm (fun m b hm => Memory.wf_wr m b.1 [b.2] hm)
  exact Memory.wf_foldl _ _ _ (Memory.wf_foldl _ _ _ h (fun m l hm => back l.old m hm)) (fun m r hm => back r.old m hm)

/-! ### Translations -/

/-- `t` is `s` but for what an access at a home slice changes and for the cached translations; memory that is canonical stays
so. -/
structure XlatOnly (s t : State) : Prop where
  frame : t = { s with mem := t.mem, poison := t.poison, stores := t.stores, codeOld := t.codeOld, symErr := t.symErr, l2 := t.l2,
                       psel := t.psel, sills := t.sills, hbmBudget := t.hbmBudget, hostLines := t.hostLines,
                       hostHeld := t.hostHeld, hostWait := t.hostWait, out := t.out, fresh := t.fresh, walkers := t.walkers,
                       tlbs := t.tlbs, cores := t.cores }
  tlb : ∀ c, t.core c = { s.core c with tlb := (t.core c).tlb }
  canonical : Memory.wf s.mem = true → Memory.wf t.mem = true

theorem XlatOnly.refl (s : State) : XlatOnly s s := ⟨rfl, fun _ => rfl, id⟩

theorem XlatOnly.trans {s t u : State} (h1 : XlatOnly s t) (h2 : XlatOnly t u) : XlatOnly s u := by
  refine ⟨?_, fun c => ?_, h2.canonical ∘ h1.canonical⟩
  · have f := h2.frame
    rw [h1.frame] at f
    exact f
  · have f := h2.tlb c
    rw [h1.tlb c] at f
    exact f

theorem HomeOnly.xlat {s t : State} (h : HomeOnly s t) : XlatOnly s t := by
  refine ⟨?_, fun c => ?_, h.canonical⟩
  · rw [h.frame]
  · rw [show t.core c = s.core c by simp [State.core, h.cores]]

theorem XlatOnly.agenda {s t : State} (h : XlatOnly s t) : t.agenda = s.agenda := by rw [h.frame]
theorem XlatOnly.cur {s t : State} (h : XlatOnly s t) : t.cur = s.cur := by rw [h.frame]
theorem XlatOnly.groups {s t : State} (h : XlatOnly s t) : t.groups = s.groups := by rw [h.frame]
theorem XlatOnly.units {s t : State} (h : XlatOnly s t) : t.units = s.units := by rw [h.frame]
theorem XlatOnly.jobs {s t : State} (h : XlatOnly s t) : t.jobs = s.jobs := by rw [h.frame]
theorem XlatOnly.launches {s t : State} (h : XlatOnly s t) : t.launches = s.launches := by rw [h.frame]
theorem XlatOnly.spaces {s t : State} (h : XlatOnly s t) : t.spaces = s.spaces := by rw [h.frame]
theorem XlatOnly.actor {s t : State} (h : XlatOnly s t) : t.actor = s.actor := by simp [State.actor, State.gid, h.groups, h.cur]
theorem XlatOnly.asidOf {s t : State} (h : XlatOnly s t) (g : Group) : t.asidOf g = s.asidOf g := by
  simp [State.asidOf, State.jobOfGroup, State.unitOf, State.launchOf, State.jobOf, h.units, h.launches, h.jobs]

theorem State.orEntry_only (s : State) (asid a : Nat) (bits : Word) : HomeOnly s (s.orEntry asid a bits) :=
  State.writeHome_only _ _ _ _ _

theorem State.fillHome_if (s : State) (b : Bool) (asid part loc n : Nat) :
    HomeOnly s (if b = true then s else s.fillHome asid part loc n) := by
  split
  · exact .refl s
  · exact s.fillHome_only _ _ _ _

theorem State.walkers_only (s : State) (m : FMap (List TlbEntry)) : XlatOnly s { s with walkers := m } :=
  ⟨rfl, fun _ => rfl, id⟩

/-- The walk changes the walker's cache, and what its reads at the home slices change. -/
theorem walk_only (s : State) (cl asid va lev t : Nat) : XlatOnly s (walk s cl asid va lev t).1 := by
  induction lev generalizing s t with
  | zero => exact .refl s
  | succ lev ih =>
    rw [walk]
    dsimp only
    have h := (State.fillHome_if s (walkerFind asid (lev + 1) va (FMap.rd [] s.walkers cl)).isSome asid (s.partOfAsid asid)
      (t + 8 * (va / 2 ^ (16 + 12 * lev) % 4096)) 8).xlat
    generalize (if (walkerFind asid (lev + 1) va (FMap.rd [] s.walkers cl)).isSome = true then s
      else s.fillHome asid (s.partOfAsid asid) (t + 8 * (va / 2 ^ (16 + 12 * lev) % 4096)) 8) = s1 at h ⊢
    repeat' split
    all_goals first
        | exact .refl s
        | exact h
        | exact h.trans (XlatOnly.trans (State.walkers_only s1 _) (ih _ _))

/-- The mark that an access sets in its leaf, where the leaf has not got it. -/
theorem State.mark_only (s : State) (asid a : Nat) (e b : Word) (q : Prop) [Decidable q] :
    HomeOnly s (if q then (s, e) else (s.orEntry asid a b, e ||| b)).1 := by
  split
  · exact .refl s
  · exact s.orEntry_only _ _ _

theorem walkAccess_only (s : State) (cl asid va : Nat) (acc : AccKind) (user : Bool) :
    XlatOnly s (walkAccess s cl asid va acc user).1 := by
  unfold walkAccess
  cases s.rootOf asid with
  | none => exact .refl s
  | some root =>
    have hx := walk_only s cl asid va 4 root
    dsimp only
    cases he : walk s cl asid va 4 root with
    | mk s1 r =>
      rw [he] at hx
      cases r with
      | error c => exact hx
      | ok ea =>
        dsimp only
        split
        · exact hx
        · split
          · exact hx
          · exact hx.trans ((State.mark_only s1 asid ea.2 ea.1 0x40 _).xlat.trans (State.mark_only _ asid ea.2 _ 0x80 _).xlat)

/-- A change of one core's TLB and of the cluster TLB's. -/
theorem State.tlbPut_only (s : State) (core : Nat) (l : List TlbEntry) (m : FMap (List TlbEntry)) :
    XlatOnly s { s.setCore core { s.core core with tlb := l } with tlbs := m } := by
  refine ⟨rfl, fun c => ?_, id⟩
  by_cases h : c = core
  · subst h; simp [State.core, State.setCore, FMap.rd]
  · simp [State.core, State.setCore, FMap.rd, h]

theorem State.tlbFill_only (s : State) (core asid va : Nat) (e : Word) : XlatOnly s (s.tlbFill core asid va e) :=
  State.tlbPut_only s core _ _

theorem State.tlbTouch_only (s : State) (core asid va : Nat) (e : Word) : XlatOnly s (s.tlbTouch core asid va e) := by
  unfold State.tlbTouch
  repeat' split
  all_goals first
    | exact s.tlbFill_only _ _ _ _
    | exact State.tlbPut_only s core _ _

/-- A translation changes cached translations, what reads at the home slices change, and at most the marks of its leaf. -/
theorem translate_only (s : State) (core asid va : Nat) (acc : AccKind) (user : Bool) :
    XlatOnly s (translate s core asid va acc user).1 := by
  have hw := walkAccess_only s (clusterOf core) asid va acc user
  unfold translate
  cases he : walkAccess s (clusterOf core) asid va acc user with
  | mk s1 r =>
    rw [he] at hw
    cases r with
    | error c =>
      dsimp only
      repeat' split
      all_goals first
        | exact hw
        | exact .refl s
        | exact State.tlbTouch_only _ _ _ _ _
    | ok ea =>
      dsimp only
      repeat' split
      all_goals first
        | exact hw.trans (State.tlbFill_only _ _ _ _ _)
        | exact .refl s
        | exact State.tlbTouch_only _ _ _ _ _

/-- What `reach` can change is what a translation can. -/
theorem State.reach_only (s : State) (core asid : Nat) (va : Word) (acc : AccKind) (user : Bool) :
    XlatOnly s (s.reach core asid va acc user).1 := by
  have h := translate_only s core asid va.toNat acc user
  unfold State.reach
  cases he : translate s core asid va.toNat acc user with
  | mk s1 r =>
    rw [he] at h
    cases r with
    | error c => exact h
    | ok ea =>
      dsimp only
      split <;> exact h

end Sys2Proof.Machine
end

