-- ==== Sys2Proof/Laws/Regs.lean ====
section
/-! SUPPORT. Scalar registers: what reading after writing gives, and what a write or a move of the program counter does to
the acting group and split. -/

namespace Sys2Proof.Machine

theorem State.actor_eq {s : State} {g : Group} {p : Split} :
    s.actor = some (g, p) ↔ FMap.get s.groups s.gid = some g ∧ FMap.get g.splits s.cur.place = some p := by
  unfold State.actor
  constructor
  · intro h
    split at h
    · cases h
    · next g' h1 =>
      split at h
      · cases h
      · next p' h2 => cases h; exact ⟨h1, h2⟩
  · rintro ⟨h1, h2⟩
    simp [h1, h2]

@[simp] theorem State.gid_updGroup (s : State) (gid : Nat) (f : Group → Group) : (s.updGroup gid f).gid = s.gid := rfl

@[simp] theorem State.gid_writeS (s : State) (p : Split) (n : BitVec 6) (v : Word) : (s.writeS p n v).gid = s.gid := rfl

@[simp] theorem State.gid_goOn (s : State) (n : Nat) : (s.goOn n).gid = s.gid := rfl

theorem State.groups_updGroup (s : State) (gid : Nat) (f : Group → Group) :
    (s.updGroup gid f).groups = FMap.upd s.groups gid f := rfl

/-- After a write the acting group is the group with its register written. -/
theorem State.actor_writeS {s : State} {g : Group} {p : Split} (h : s.actor = some (g, p)) (q : Split) (n : BitVec 6) (v : Word) :
    (s.writeS q n v).actor = some (g.setS s.cur.place n.toNat (selKs q n.toNat) v,
      if 48 ≤ n.toNat then p.setOwn n.toNat (selKs q n.toNat) v else p) := by
  rw [State.actor_eq] at h ⊢
  obtain ⟨h1, h2⟩ := h
  refine ⟨by simp [State.writeS, State.groups_updGroup, h1], ?_⟩
  simp only [State.writeS_cur, Group.setS]
  split
  · next hn => simp [hn, h2]
  · split
    · next h0 h48 => simp [h2, Nat.not_le.mpr h48]
    · next h0 h48 => simp [Group.updSplit, h2, Nat.not_lt.mp h48]

/-- After going on the acting split stands at the next word. -/
theorem State.actor_goOn {s : State} {g : Group} {p : Split} (h : s.actor = some (g, p)) (n : Nat) :
    (s.goOn n).actor = some (g.updSplit s.cur.place (fun p => p.movedTo (nextWord p.pc n) true (s.now + 1)),
      p.movedTo (nextWord p.pc n) true (s.now + 1)) := by
  rw [State.actor_eq] at h ⊢
  obtain ⟨h1, h2⟩ := h
  refine ⟨by simp [State.goOn, State.onSplit, State.updSplit, State.groups_updGroup, h1], ?_⟩
  simp [Group.updSplit, h2]

/-- A group that acts is the group at its slot with the splits it has. -/
theorem State.updGroup_other (s : State) {gid x : Nat} (f : Group → Group) (h : x ≠ gid) :
    FMap.get (s.updGroup gid f).groups x = FMap.get s.groups x := by simp [State.groups_updGroup, h]

end Sys2Proof.Machine
end

