-- ==== Sys2Proof/Laws/Fetch.lean ====
section
/-! SUPPORT. What a fetch and a transfer can change, said once. -/

namespace Sys2Proof.Machine

/-- Reading a code line may draw a free value, no more. -/
theorem State.codeLine_only (s : State) (from_ loc : Nat) : HomeOnly s (s.codeLine from_ loc).1 := by
  unfold State.codeLine State.free
  cases (FMap.rd [] s.codeOld (loc / 128)).filter (fun o => decide (from_ ≤ o.stamp)) with
  | nil => exact .refl s
  | cons o os => exact ⟨rfl, id⟩

/-- A fetch changes what a translation and a read at a home slice change. -/
theorem State.fetchLine_only (s : State) (core asid from_ : Nat) (user : Bool) (t : Word) :
    XlatOnly s (s.fetchLine core asid from_ user t).1 := by
  have h := s.reach_only core asid t .exec user
  unfold State.fetchLine
  cases he : s.reach core asid t .exec user with
  | mk s1 r =>
    rw [he] at h
    cases r with
    | error c => exact h
    | ok loc => exact h.trans (s1.codeLine_only from_ loc).xlat

/-- The split `q` is `p` but for the line that it holds. -/
def Split.Same (p q : Split) : Prop := q = { p with fetched := q.fetched }

/-- `h` is `g` but for the lines that its splits hold. -/
structure Group.Held (g h : Group) : Prop where
  frame : h = { g with splits := h.splits }
  splits : ∀ k, match FMap.get g.splits k, FMap.get h.splits k with
    | some p, some q => p.Same q
    | none, none => True
    | _, _ => False

theorem Group.Held.refl (g : Group) : g.Held g := ⟨rfl, fun k => by cases FMap.get g.splits k <;> simp [Split.Same]⟩

theorem Group.Held.trans {g h i : Group} (a : g.Held h) (b : h.Held i) : g.Held i := by
  refine ⟨?_, fun k => ?_⟩
  · rw [b.frame, a.frame]
  · have x := a.splits k
    have y := b.splits k
    revert x y
    cases FMap.get g.splits k <;> cases FMap.get h.splits k <;> cases FMap.get i.splits k <;> simp only [imp_self, implies_true, false_implies]
    intro x y
    rw [Split.Same] at x y ⊢
    rw [y, x]

/-- `t` is `s` but for what a translation changes and the lines that the splits of a group hold. -/
structure HeldOnly (s t : State) (gid : Nat) : Prop where
  xlat : XlatOnly { s with groups := t.groups } t
  other : ∀ x, x ≠ gid → FMap.get t.groups x = FMap.get s.groups x
  group : ∀ g, FMap.get s.groups gid = some g → ∃ h, FMap.get t.groups gid = some h ∧ g.Held h

theorem HeldOnly.refl (s : State) (gid : Nat) : HeldOnly s s gid := ⟨.refl s, fun _ _ => rfl, fun g hg => ⟨g, hg, .refl g⟩⟩

theorem HeldOnly.trans {s t u : State} {gid : Nat} (a : HeldOnly s t gid) (b : HeldOnly t u gid) : HeldOnly s u gid := by
  refine ⟨?_, fun x hx => (b.other x hx).trans (a.other x hx), fun g hg => ?_⟩
  · refine ⟨?_, fun c => ?_, b.xlat.canonical ∘ a.xlat.canonical⟩
    · have f := b.xlat.frame
      rw [a.xlat.frame] at f
      exact f
    · have f := b.xlat.tlb c
      have e := a.xlat.tlb c
      simp only [State.core] at f e ⊢
      rw [e] at f
      exact f
  · obtain ⟨h, hh, gh⟩ := a.group g hg
    obtain ⟨i, hi, hk⟩ := b.group h hh
    exact ⟨i, hi, gh.trans hk⟩

/-- After a transfer's fetch, all is as before but for cached translations, what reads at the home slices change, and the lines
that splits of the group hold. -/
theorem State.preload_held (s : State) (gid : Nat) : HeldOnly s (s.preload gid) gid := by
  unfold State.preload
  cases hg : FMap.get s.groups gid with
  | none => exact .refl s gid
  | some g =>
    dsimp only
    generalize g.splits = l
    clear hg
    induction l generalizing s with
    | nil => exact .refl s gid
    | cons e l ih =>
      refine HeldOnly.trans ?_ (ih _)
      dsimp only
      split
      · exact .refl s gid
      · have hf := s.fetchLine_only (coreOfGid gid) (s.asidOf g) (s.codeFrom g) (!e.2.sm) e.2.pc
        split
        · next t line he =>
          rw [he] at hf
          dsimp only at hf
          refine ⟨?_, fun x hx => ?_, fun g hg => ?_⟩
          · refine ⟨?_, fun c => ?_, hf.canonical⟩
            · have f := hf.frame
              simp only [State.updSplit, State.updGroup]
              rw [f]
            · exact hf.tlb c
          · simp [State.updSplit, State.groups_updGroup, hx, hf.groups]
          · refine ⟨g.updSplit e.1 (fun p => { p with fetched := some line }), ?_, rfl, fun k => ?_⟩
            · simp [State.updSplit, State.groups_updGroup, hf.groups, hg]
            · simp only [Group.updSplit, FMap.get_upd]
              by_cases hk : k = e.1
              · subst hk
                simp only [if_true]
                cases FMap.get g.splits e.1 <;> simp [Split.Same]
              · simp only [hk, if_false]
                cases FMap.get g.splits k <;> simp [Split.Same]
        · exact .refl s gid

/-- After going to a target the acting split stands there, with the line that it fetches. -/
theorem State.actor_goTo {s : State} {g : Group} {p : Split} (h : s.actor = some (g, p)) (w : Word) :
    ∃ g' p', (s.goTo w).actor = some (g', p') ∧ (p.movedTo w false (s.now + 2)).Same p' ∧
      (g.updSplit s.cur.place (fun p => p.movedTo w false (s.now + 2))).Held g' := by
  rw [State.actor_eq] at h
  obtain ⟨h1, h2⟩ := h
  have hp := (s.onSplit (fun p => p.movedTo w false (s.now + 2))).preload_held s.gid
  obtain ⟨g', hg', hh⟩ := hp.group (g.updSplit s.cur.place (fun p => p.movedTo w false (s.now + 2)))
    (by simp [State.onSplit, State.updSplit, State.groups_updGroup, h1])
  have hs := hh.splits s.cur.place
  simp only [Group.updSplit, FMap.get_upd, if_true, h2, Option.map_some] at hs
  cases hq : FMap.get g'.splits s.cur.place with
  | none => simp [hq] at hs
  | some q =>
    simp only [hq] at hs
    have hc : (s.goTo w).cur = s.cur := hp.xlat.cur
    refine ⟨g', q, ?_, hs, hh⟩
    rw [State.actor_eq]
    refine ⟨?_, by rw [hc]; exact hq⟩
    rw [State.gid, hc]
    exact hg'

end Sys2Proof.Machine
end

