-- ==== Sys2Proof/Laws/Words.lean ====
section
/-! SUPPORT. The skeletons that the meanings of words and of lane instructions share: what each answers, said once. -/

namespace Sys2Proof.Machine

/-! ### Control-stream words -/

theorem control_next {s : State} {g : Group} {p : Split} (h : s.actor = some (g, p)) (f : Group → Split → State) :
    control f s = .next (f g p) := by simp [control, h]

/-- A word's meaning faults only where no split acts. -/
theorem control_cases (f : Group → Split → State) (s : State) :
    (s.actor = none ∧ control f s = .fault .noSplit) ∨
    (∃ g p, s.actor = some (g, p) ∧ control f s = .next (f g p)) := by
  unfold control
  cases h : s.actor with
  | none => simp
  | some a => exact .inr ⟨a.1, a.2, rfl, rfl⟩

/-- A word waits while a register it names is empty, traps at a shared destination of a divided group, or does its work; a word
that has issued has read its sources. -/
theorem scalarWord_cases (srcs : List (BitVec 6)) (d : BitVec 6) (f : Group → Split → State) (s : State) :
    (s.actor = none ∧ scalarWord srcs d f s = .fault .noSplit) ∨
    (∃ g p, s.actor = some (g, p) ∧
      ((((p.issued.isNone && srcs.any (emptyS g p)) = true ∨ emptyS g p d = true) ∧ scalarWord srcs d f s = .next s) ∨
       ((p.issued.isNone && srcs.any (emptyS g p)) = false ∧ emptyS g p d = false ∧
        (((p.issued.isNone = true ∧ sharedS g d = true) ∧ scalarWord srcs d f s = .next (s.trap cSHAREDWRITE 0)) ∨
         (¬(p.issued.isNone = true ∧ sharedS g d = true) ∧ scalarWord srcs d f s = .next (f g p)))))) := by
  rcases control_cases (fun g p => if (p.issued.isNone && srcs.any (emptyS g p)) ∨ emptyS g p d then s
    else if p.issued.isNone ∧ sharedS g d then s.trap cSHAREDWRITE 0 else f g p) s with h | ⟨g, p, h, he⟩
  · exact .inl h
  · refine .inr ⟨g, p, h, ?_⟩
    unfold scalarWord
    rw [he]
    by_cases h1 : (p.issued.isNone && srcs.any (emptyS g p)) = true ∨ emptyS g p d = true
    · exact .inl ⟨h1, by rw [if_pos h1]⟩
    · rw [not_or, Bool.not_eq_true, Bool.not_eq_true] at h1
      refine .inr ⟨h1.1, h1.2, ?_⟩
      rw [if_neg (by simp [h1])]
      by_cases h2 : p.issued.isNone = true ∧ sharedS g d = true
      · exact .inl ⟨h2, by rw [if_pos h2]⟩
      · exact .inr ⟨h2, by rw [if_neg h2]⟩

/-- With its registers full and its destination not shared, a word does its work. -/
theorem scalarWord_free {s : State} {g : Group} {p : Split} (h : s.actor = some (g, p)) {srcs : List (BitVec 6)} {d : BitVec 6}
    (hs : srcs.any (emptyS g p) = false) (hd : emptyS g p d = false) (hsh : sharedS g d = false) (f : Group → Split → State) :
    scalarWord srcs d f s = .next (f g p) := by
  unfold scalarWord; rw [control_next h]; simp [hs, hd, hsh]

theorem scalarResult_free {s : State} {g : Group} {p : Split} (h : s.actor = some (g, p)) {srcs : List (BitVec 6)} {d : BitVec 6}
    (hs : srcs.any (emptyS g p) = false) (hd : emptyS g p d = false) (hsh : sharedS g d = false) (words : Nat)
    (f : Group → Split → Word) : scalarResult srcs d words f s = .next ((s.writeS p d (f g p)).goOn words) :=
  scalarWord_free h hs hd hsh _

theorem privileged_sm {s : State} {g : Group} {p : Split} (h : s.actor = some (g, p)) (hm : p.sm = true)
    (f : Group → Split → State) : privileged f s = .next (f g p) := by
  unfold privileged; rw [control_next h]; simp [hm]

theorem privileged_user {s : State} {g : Group} {p : Split} (h : s.actor = some (g, p)) (hm : p.sm = false)
    (f : Group → Split → State) : privileged f s = .next (s.trap cPRIV 0) := by
  unfold privileged; rw [control_next h]; simp [hm]

/-! ### Lane instructions -/

theorem laneInsn_next {s : State} {f : LF} {c : LaneCtx} (h : s.laneActor f = some c) (m : LaneCtx → State) :
    laneInsn f m s = .next (m c) := by simp [laneInsn, h]

/-- A lane meaning faults only where no run acts. -/
theorem laneInsn_cases (f : LF) (m : LaneCtx → State) (s : State) :
    (s.laneActor f = none ∧ laneInsn f m s = .fault .noRun) ∨ (∃ c, s.laneActor f = some c ∧ laneInsn f m s = .next (m c)) := by
  unfold laneInsn
  cases h : s.laneActor f with
  | none => simp
  | some c => exact .inr ⟨c, rfl, rfl⟩

theorem guarded_next {s : State} {f : LF} {c : LaneCtx} (h : s.laneActor f = some c) {na nb nc : Nat}
    (he : c.emptyRead f na nb nc = false) (m : LaneCtx → State) : guarded na nb nc f m s = .next (m c) := by
  unfold guarded; rw [laneInsn_next h]; simp [he]

theorem guarded_empty {s : State} {f : LF} {c : LaneCtx} (h : s.laneActor f = some c) {na nb nc : Nat}
    (he : c.emptyRead f na nb nc = true) (m : LaneCtx → State) :
    guarded na nb nc f m s = .next (s.laneTrap .P cEMPTYREAD 0 c.act) := by
  unfold guarded; rw [laneInsn_next h]; simp [he]

/-- A lane meaning faults, traps at an empty source, or does its work. -/
theorem guarded_cases (na nb nc : Nat) (f : LF) (m : LaneCtx → State) (s : State) :
    (s.laneActor f = none ∧ guarded na nb nc f m s = .fault .noRun) ∨
    (∃ c, s.laneActor f = some c ∧
      ((c.emptyRead f na nb nc = true ∧ guarded na nb nc f m s = .next (s.laneTrap .P cEMPTYREAD 0 c.act)) ∨
       (c.emptyRead f na nb nc = false ∧ guarded na nb nc f m s = .next (m c)))) := by
  cases h : s.laneActor f with
  | none => exact .inl ⟨rfl, by simp [guarded, laneInsn, h]⟩
  | some c =>
    refine .inr ⟨c, rfl, ?_⟩
    cases he : c.emptyRead f na nb nc
    · exact .inr ⟨rfl, guarded_next h he m⟩
    · exact .inl ⟨rfl, guarded_empty h he m⟩

/-- What the acting run is, from the acting split. -/
theorem State.laneActor_split {s : State} {f : LF} {c : LaneCtx} (h : s.laneActor f = some c) :
    s.actor = some (c.g, c.p) ∧ c.p.running = some c.r ∧ (∃ rest, c.r.todo = c.i :: rest) ∧
      c.act = actingLanes c.g c.r c.i f := by
  unfold State.laneActor at h
  split at h
  · contradiction
  · next g p ha =>
    split at h
    · contradiction
    · next r hr =>
      split at h
      · contradiction
      · next i rest hi =>
        simp only [Option.some.injEq] at h
        subst h
        exact ⟨ha, hr, ⟨rest, hi⟩, rfl⟩

end Sys2Proof.Machine
end

