-- ==== Sys2Proof/Tests/Slice0.lean ====
section
/-! SUPPORT. Tests: ill-formed terms that the checks refuse, words of the spec's encodings with the instructions that they stand
for, single steps, and for each statement about the model states that meet its hypotheses. -/

set_option Elab.async false

namespace Sys2Proof.Tests

open Sys2Proof Sys2Proof.Machine Sys2Proof.Claims

/-! ### Terms that the checks refuse: one for each check -/

/-- A lane instruction's fields: d V8, a V4, b V5, c V6, type u64. -/
def lf : LF := { d := 8, a := 4, b := 5, c := 6, ty := 0, rm := 0, neg := 0, pg := 0, fe := 0, sk := 0, md := 0, imm := 0 }

/-- With c unused. -/
def lf2 : LF := { lf with c := 0 }

theorem test_wf_ok : WellFormed (.lAdd lf2) ∧ WellFormed (.lMad lf) ∧ WellFormed (.cScmp 1 2 3 9) ∧ WellFormed (.evRefresh 11 3) := by
  decide

/-- R43, R165: the type, an unused register field, rm, sk, md and imm of a lane instruction. -/
theorem test_wf_lane_fields : ¬WellFormed (.lAdd { lf2 with ty := 9 }) ∧ ¬WellFormed (.lAdd lf) ∧ ¬WellFormed (.lAdd { lf2 with rm := 1 }) ∧
    ¬WellFormed (.lAdd { lf2 with sk := 1 }) ∧ ¬WellFormed (.lAdd { lf2 with md := 2 }) ∧ ¬WellFormed (.lAdd { lf2 with imm := 1 }) := by
  decide

/-- R31, R36, R222, R226, R229: destinations, sources, fe bits, blocks, small numbers and Q registers. -/
theorem test_wf_lane_registers : ¬WellFormed (.lAdd { lf2 with d := 245 }) ∧ ¬WellFormed (.lAdd { lf2 with a := 251 }) ∧
    ¬WellFormed (.lAdd { lf2 with a := 232, fe := 4 }) ∧ ¬WellFormed (.lTrace { lf2 with ty := 17, a := 230 }) ∧
    ¬WellFormed (.lCmp { lf2 with d := 8 }) ∧ ¬WellFormed (.lWld { lf with d := 0, a := 239, b := 0, c := 0, ty := 11 }) ∧
    ¬WellFormed (.lMma { lf with d := 1, a := 0, b := 0, c := 244, ty := 11, md := 8 }) := by
  decide

/-- The entries' own rules: R179, R184, R189, R193, R196, R198, R200, R204, R205, R206. -/
theorem test_wf_lane_entries : ¬WellFormed (.lCvt { lf2 with ty := 9, md := 9 }) ∧ ¬WellFormed (.lSwz { lf2 with ty := 9, imm := 0x04 }) ∧
    ¬WellFormed (.lBxdq { lf2 with ty := 14, b := 0, md := 3 }) ∧ ¬WellFormed (.lCmp { lf2 with d := 1, md := 10 }) ∧
    ¬WellFormed (.lFcmp { lf2 with d := 1, ty := 9, md := 8 }) ∧ ¬WellFormed (.lShflx { lf2 with b := 0, imm := 32 }) ∧
    ¬WellFormed (.lBcast { lf2 with b := 0, imm := 32 }) ∧ ¬WellFormed (.lBcastFirst { lf2 with b := 0, md := 0 }) ∧
    ¬WellFormed (.lReds { lf2 with md := 6 }) ∧ ¬WellFormed (.lQswap { lf2 with b := 0, md := 3 }) ∧
    ¬WellFormed (.lLd { lf2 with ty := 3, md := 1 }) ∧ ¬WellFormed (.lLdPlanes { lf2 with ty := 14, md := 28 }) := by
  decide

/-- R212, R218, R219, R235, R240, R243, R245, R248. -/
theorem test_wf_lane_entries_more : ¬WellFormed (.lAtom { lf with md := 9 }) ∧ ¬WellFormed (.lTrapif { lf2 with d := 0, b := 0, imm := 0x30 }) ∧
    ¬WellFormed (.lLnop { lf with d := 0, a := 0, b := 0, c := 0, imm := 16 }) ∧
    ¬WellFormed (.lAccrd { lf2 with b := 0, ty := 9, imm := 8 }) ∧ ¬WellFormed (.lResumeAccept { lf2 with d := 0, b := 0, ty := 17 }) ∧
    ¬WellFormed (.lResumeEnd { lf2 with d := 0, b := 0, ty := 17 }) ∧ ¬WellFormed (.lSample { lf with ty := 9, md := 3 }) ∧
    ¬WellFormed (.lHgrid { lf with b := 0, ty := 11, md := 12 }) ∧ ¬WellFormed (.lRcqt { lf with b := 0, ty := 11, imm := 32 }) := by
  decide

/-- The limits of R100 to R164 on control-stream fields. -/
theorem test_wf_control : ¬WellFormed (.cScmp 1 2 3 10) ∧ ¬WellFormed (.cSshli 1 2 64) ∧ ¬WellFormed (.cScmpi 1 2 10 0) ∧
    ¬WellFormed (.cSatom 1 2 3 0 10) ∧ ¬WellFormed (.cXlat 8 1 2) ∧ ¬WellFormed (.cBra 1 10 0) ∧ ¬WellFormed (.cBral 1 10 0 0) ∧
    ¬WellFormed (.cFn 0 257 0) ∧ ¬WellFormed (.cRunp 0 0 0) ∧ ¬WellFormed (.cFence 0 3 1 1 1 0) ∧ ¬WellFormed (.cFence 0 0 0 0 0 0) ∧
    ¬WellFormed (.cFence 1 0 1 0 0 0) ∧ ¬WellFormed (.cCpy 1 2 3 0 1) ∧ ¬WellFormed (.cHinit 1 2 16) ∧
    ¬WellFormed (.cHbindOff 16 1 1) ∧ ¬WellFormed (.cRcstep 0 1) := by
  decide

/-- R1, R265, R295, R442: cores, slots, places, partitions, clusters, spaces, stacks, pipes, dies and ports that exist. -/
theorem test_wf_events : ¬WellFormed (.evBankLoad 0 2) ∧ ¬WellFormed (.evCopyPiece Config.nCores) ∧ ¬WellFormed (.evDebugStop 0 Config.slotsPerCore) ∧
    ¬WellFormed (.evYieldExpiry 0 0 4) ∧ ¬WellFormed (.evUnitPlacement 24) ∧ ¬WellFormed (.evPageWalk Config.nClusters 0 0 .read true) ∧
    ¬WellFormed (.evRasterFiring Config.nClusters) ∧ ¬WellFormed (.evTreeletVisit 0 16) ∧ ¬WellFormed (.evPatrolScrub 12) ∧
    ¬WellFormed (.evRcaBatch 0 4) ∧ ¬WellFormed (.evSanderStep 2) ∧ ¬WellFormed (.evSanderPublication 0 4) ∧
    ¬WellFormed (.evFutasDetect 64) := by
  decide

/-! ### Words written out from the encodings of the spec -/

/-- R39, R100: opcode 00, d 000101, a 000110, b 000111, 000000. -/
theorem test_decode_sadd : decodeControl 0b00000000_000101_000110_000111_000000 0 = some (.cSadd 5 6 7) := by decide

/-- R40, R106: SLD, opcode 40, d 2, a 1, offset 0. -/
theorem test_decode_sld : decodeControl 0b01000000_000010_000001_000000000000 0 = some (.cSld 2 1 0) := by decide

/-- R109: XLAT, opcode 50, d 2, a 3, b 0. -/
theorem test_decode_xlat : decodeControl 0b01010000_000010_000011_000000_000000 0 = some (.cXlat 2 3 0) := by decide

/-- R117: BRA.ne, opcode 60, a 5, condition 1, offset 9. -/
theorem test_decode_bra : decodeControl 0b01100000_000101_0001_00000000001001 0 = some (.cBra 5 1 9) := by decide

/-- R123: RUN, opcode 6E, line 3, slot 0; RUNP p3, opcode 6F, line 5, slot 2. -/
theorem test_decode_run : decodeControl 0b01101110_00_000000000000000011_0000 0 = some (.cRun 3 0) ∧
    decodeControl 0x6F60_0052 0 = some (.cRunp 3 5 2) := by decide

/-- R119, R122: RET s63 and NOP. -/
theorem test_decode_ret : decodeControl 0x6903_F000 0 = some (.cRet 63) ∧ decodeControl 0x6D00_0000 0 = some .cNop := by decide

/-- R144: FENCE.dev.g, opcode 88. -/
theorem test_decode_fence : decodeControl 0x8800_0014 0 = some (.cFence 0 0 0 1 0 4) := by decide

/-- R145, R146: CPY with both in memory to scratchpad, SEAL s51 and WAITB s52, s51. -/
theorem test_decode_copies : decodeControl 0x89C3_1C84 0 = some (.cCpy 48 49 50 2 0) ∧ decodeControl 0x8ACC_0000 0 = some (.cSeal 51) ∧
    decodeControl 0x8BD3_3000 0 = some (.cWaitb 52 51) := by decide

/-- R65, R175: FMUL, opcode 20, d T0, a V2, b V3, type f32. -/
theorem test_decode_fmul : decodeLane 0x20BA_0080_C012_0000_0000_0000 =
    some (.lFmul { lf with d := 232, a := 2, b := 3, c := 0, ty := 9 }) := by decide

/-- R170: DIV.i32x2. -/
theorem test_decode_div : decodeLane 0x0143_0282_C006_0000_0000_0000 =
    some (.lDiv { lf with d := 12, a := 10, b := 11, c := 0, ty := 3 }) := by decide

/-- R179: CVT of half 3 to f32. -/
theorem test_decode_cvt : decodeLane 0x4003_4300_0012_0003_0000_0000 =
    some (.lCvt { lf with d := 13, a := 12, b := 0, c := 0, ty := 9, md := 3 }) := by decide

/-- R200: REDS.f32. -/
theorem test_decode_reds : decodeLane 0x6145_0484_C012_0000_0000_0000 =
    some (.lReds { lf with d := 20, a := 18, b := 19, c := 0, ty := 9 }) := by decide

/-- R205: LD V8, X1[V4]. -/
theorem test_decode_ld : decodeLane 0x7002_0100_4022_0000_0000_0000 =
    some (.lLd { lf with d := 8, a := 4, b := 1, c := 0, ty := 17 }) := by decide

/-- R226, R229, R235: WLD, MMA and ACCRD. -/
theorem test_decode_matrix : decodeLane 0x9000_3D00_0016_0000_0000_0000 =
      some (.lWld { lf with d := 0, a := 0xF4, b := 0, c := 0, ty := 11 }) ∧
    decodeLane 0x9080_8000_0016_0010_0000_0000 = some (.lMma { lf with d := 2, a := 0, b := 0, c := 0, ty := 11, md := 16 }) ∧
    decodeLane 0x914A_0080_0012_0000_0000_0000 = some (.lAccrd { lf with d := 40, a := 2, b := 0, c := 0, ty := 9 }) := by decide

/-- R43: an unassigned opcode, a set reserved bit, a whole word of ones. -/
theorem test_decode_refuses : decodeControl 0xF000_0000 0 = none ∧ decodeControl 0x0014_61C1 0 = none ∧ decodeLane (2 ^ 96 - 1) = none := by
  decide

/-- The encoder writes those words. -/
theorem test_encode : encode (.cSadd 5 6 7) = some (32, 0x0014_61C0) ∧ encode (.cBra 5 1 9) = some (32, 0x6014_4009) ∧
    encode (.lLd { lf with d := 8, a := 4, b := 1, c := 0, ty := 17 }) = some (96, 0x7002_0100_4022_0000_0000_0000) := by decide

/-! ### States for single steps -/

/-- Split 0 of the group in slot 0 of core 0 acts, at a placed word. -/
def ctlAt (w lit : Nat) : State := { State.reset.placeControl w lit with agenda := [] }

/-- The same at NOP, with a page at 0x2_0000 that it may write. -/
def ctl : State := (ctlAt 0x6D00_0000 0).tlbFill 0 0 0x2_0000 0x8000_0000_0002_00F8

/-- A run of that split has an instruction to issue. -/
def lan : State := { State.reset.placeLane 0 with agenda := [] }

/-- The acting group and split. -/
def gOf (s : State) : Group := (s.actor.map (·.1)).getD (Group.start 0 0 false 0 0 0 0 0)
def pOf (s : State) : Split := match FMap.get (gOf s).splits 0 with | some p => p | none => Split.start 0 0 0
def uOf (s : State) : UnitRec := (FMap.get s.units 0).getD (UnitRec.start 1 0 0 0 1 [0])

/-- What a run's next instruction sees. -/
def cOf (s : State) (f : LF) : Option LaneCtx := s.laneActor f
def onLane (s : State) (f : LF) (m : LaneCtx → Bool) : Bool := match s.laneActor f with | some c => m c | none => false

end Sys2Proof.Tests

namespace Sys2Proof.Machine

/-- Change the acting group, the acting split, its unit, its core, or one of its scalar registers. -/
def State.withG (s : State) (f : Group → Group) : State := s.updGroup 0 f
def State.withP (s : State) (f : Split → Split) : State := s.updSplit 0 0 f
def State.withU (s : State) (f : UnitRec → UnitRec) : State := s.updUnit 0 f
def State.withK (s : State) (f : Core → Core) : State := s.setCore 0 (f (s.core 0))
def State.withS (s : State) (n : BitVec 6) (v : Word) : State := s.writeS (Tests.pOf s) n v

end Sys2Proof.Machine

namespace Sys2Proof.Tests

open Sys2Proof Sys2Proof.Machine Sys2Proof.Claims

/-- The next state, if there is one, is as `f` says. -/
def after (o : Host.Outcome State Fault Refusal) (f : State → Bool) : Bool := match o with | .next t => f t | _ => false

/-- The acting split of a state is as `f` says. -/
def acting (s : State) (f : Group → Split → Bool) : Bool := match s.actor with | some (g, p) => f g p | none => false

/-- In an answer of state and value: no error. -/
def fine {α ε β : Type} (x : α × Except ε β) : Bool := match x.2 with | .ok _ => true | .error _ => false

/-! ### A word of each instruction: the opcode from the grids of R65 and R67, the fields where R39 to R41 and R42 lay them -/

/-- Each word, with its second word, decodes to the instruction beside it. -/
def controlWords (l : List (Nat × Nat × Instr)) : Bool := l.all (fun x => decide (decodeControl x.1 x.2.1 = some x.2.2))

/-- The same of 96-bit words: opcode, d, a, b, c, ty, rm, neg, pg, fe, sk, md, imm. -/
def laneWords (l : List (Nat × Instr)) : Bool := l.all (fun x => decide (decodeLane x.1 = some x.2))

/-- R39 to R41, R65: opcodes 00 to 0F. -/
theorem test_decode_control_0 : controlWords [
    (0x001461C0, 0x0, .cSadd 5 6 7), (0x011461C0, 0x0, .cSsub 5 6 7), (0x021461C0, 0x0, .cSmul 5 6 7),
    (0x031461C0, 0x0, .cSmulhi 5 6 7), (0x041461C0, 0x0, .cSmulhn 5 6 7), (0x051461C0, 0x0, .cSdiv 5 6 7),
    (0x061461C0, 0x0, .cSdivn 5 6 7), (0x071461C0, 0x0, .cSrem 5 6 7), (0x081461C0, 0x0, .cSremn 5 6 7),
    (0x091461C0, 0x0, .cSand 5 6 7), (0x0A1461C0, 0x0, .cSor 5 6 7), (0x0B1461C0, 0x0, .cSxor 5 6 7),
    (0x0C1461C0, 0x0, .cSandn 5 6 7), (0x0D1461C0, 0x0, .cSshl 5 6 7), (0x0E1461C0, 0x0, .cSshr 5 6 7),
    (0x0F1461C0, 0x0, .cSsra 5 6 7)] = true := by decide +kernel

/-- R39 to R41, R65: opcodes 10 to 1F. -/
theorem test_decode_control_1 : controlWords [
    (0x101461C0, 0x0, .cSmin 5 6 7), (0x111461C0, 0x0, .cSmax 5 6 7), (0x121461C0, 0x0, .cSminn 5 6 7),
    (0x131461C0, 0x0, .cSmaxn 5 6 7), (0x141461C3, 0x0, .cScmp 5 6 7 3), (0x151461C3, 0x0, .cSsel 5 6 7 3),
    (0x16146000, 0x0, .cSmov 5 6), (0x17146000, 0x0, .cSpopc 5 6), (0x18146000, 0x0, .cSclz 5 6),
    (0x191461E1, 0x0, .cSbfx 5 6 7 33), (0x1A1461E1, 0x0, .cSbfi 5 6 7 33)] = true := by decide +kernel

/-- R39 to R41, R65: opcodes 20 to 2F. -/
theorem test_decode_control_2 : controlWords [
    (0x20146015, 0x0, .cSaddi 5 6 21), (0x21146015, 0x0, .cSandi 5 6 21), (0x22146015, 0x0, .cSori 5 6 21),
    (0x23146015, 0x0, .cSxori 5 6 21), (0x24146002, 0x0, .cSshli 5 6 2), (0x25146002, 0x0, .cSshri 5 6 2),
    (0x26146002, 0x0, .cSsrai 5 6 2), (0x27146315, 0x0, .cScmpi 5 6 3 21), (0x28140015, 0x0, .cSmovi 5 21)] = true := by decide +kernel

/-- R39 to R41, R65: opcodes 40 to 4F. -/
theorem test_decode_control_4 : controlWords [
    (0x4014600B, 0x0, .cSld 5 6 11), (0x4114600B, 0x0, .cSst 5 6 11), (0x421461D9, 0x0, .cSatom 5 6 7 1 9),
    (0x431461C0, 0x0, .cSfrom 5 6 7), (0x43146001, 0x0, .cSfromFirst 5 6)] = true := by decide +kernel

/-- R39 to R41, R65: opcodes 50 to 5F. -/
theorem test_decode_control_5 : controlWords [
    (0x501461C0, 0x0, .cXlat 5 6 7), (0x501461C1, 0x0, .cXlatW 5 6 7), (0x51140000, 0x0, .cXfree 5),
    (0x52006015, 0x0, .cPrefL2 6 21), (0x52046015, 0x0, .cPrefL1 6 21), (0x531461C0, 0x0, .cPin 5 6 7),
    (0x541461C0, 0x0, .cUnpin 5 6 7), (0x55000000, 0x0, .cGuestinv)] = true := by decide +kernel

/-- R39 to R41, R65: opcodes 60 to 6F. -/
theorem test_decode_control_6 : controlWords [
    (0x6018C00B, 0x0, .cBra 6 3 11), (0x6180000B, 0x0, .cB 1 11), (0x6208400B, 0x0, .cBdiv 0 2 1 11),
    (0x6300000B, 0x0, .cJset 11), (0x64000000, 0x0, .cJoin), (0x6500000B, 0x0, .cJbrk 11),
    (0x6600000B, 0x0, .cCall 11), (0x67006000, 0x0, .cCalli 6), (0x68006000, 0x0, .cCallv 6),
    (0x69006000, 0x0, .cRet 6), (0x6A808014, 0x0, .cFn 1 2 20), (0x6B000000, 0x0, .cExit), (0x6C000000, 0x0, .cYield),
    (0x6D000000, 0x0, .cNop), (0x6E000093, 0x0, .cRun 9 3), (0x6F400093, 0x0, .cRunp 2 9 3)] = true := by decide +kernel

/-- R39 to R41, R65: opcodes 70 to 7F. -/
theorem test_decode_control_7 : controlWords [
    (0x70000000, 0x0, .cWaitf), (0x70006001, 0x0, .cWaitfV 6)] = true := by decide +kernel

/-- R39 to R41, R65: opcodes 80 to 8F. -/
theorem test_decode_control_8 : controlWords [
    (0x80146015, 0x0, .cSpawn 5 6 21), (0x811461C0, 0x0, .cLaunch 5 6 7), (0x811461C1, 0x0, .cLaunchGraph 5 6 7),
    (0x811461C2, 0x0, .cLaunchPhase 5 6 7), (0x82000000, 0x0, .cTrigger), (0x83146000, 0x0, .cCancel 5 6),
    (0x83146001, 0x0, .cCancelGraph 5 6), (0x83146002, 0x0, .cCancelPhase 5 6), (0x83146003, 0x0, .cCancelJob 5 6),
    (0x84000000, 0x0, .cBaru), (0x85000000, 0x0, .cBarg), (0x861461C0, 0x0, .cArrive 5 6 7),
    (0x870061C0, 0x0, .cAwait 6 7), (0x8800015B, 0x0, .cFence 1 1 0 1 1 3), (0x89146203, 0x0, .cCpy 5 6 8 1 1),
    (0x8A140000, 0x0, .cSeal 5), (0x8B146000, 0x0, .cWaitb 5 6), (0x8C0061C4, 0x0, .cHinit 6 7 4),
    (0x8D34B1C0, 0x0, .cHbindOff 13 11 7), (0x8D34B1C1, 0x0, .cHbindGather 13 11 7),
    (0x8D34B1C2, 0x0, .cHbindRaster 13 11 7), (0x8E146004, 0x0, .cHwaitRoom 5 6 4),
    (0x8E146014, 0x0, .cHwaitData 5 6 4), (0x8F006004, 0x0, .cHadvP 6 4), (0x8F006014, 0x0, .cHadvC 6 4)] = true := by decide +kernel

/-- R39 to R41, R65: opcodes A0 to AF. -/
theorem test_decode_control_A : controlWords [
    (0xA01461C0, 0x0, .cPut 5 6 7), (0xA1146003, 0x0, .cCwait 5 6 3), (0xA1146013, 0x0, .cCwaitSub 5 6 3),
    (0xA21461C0, 0x0, .cBrace 5 6 7), (0xA3146000, 0x0, .cUnbrace 5 6)] = true := by decide +kernel

/-- R39 to R41, R65: opcodes B0 to BF. -/
theorem test_decode_control_B : controlWords [
    (0xB0146000, 0x0, .cGenpub 5 6), (0xB11461C0, 0x0, .cGenwait 5 6 7), (0xB11461C1, 0x0, .cGenwaitTest 5 6 7),
    (0xB2000002, 0x0, .cRcpub 2), (0xB3000005, 0x0, .cRchold 2), (0xB3000004, 0x0, .cRcholdOff 2),
    (0xB400000E, 0x0, .cRcstep 3 2)] = true := by decide +kernel

/-- R39 to R41, R65: opcodes C0 to CF. -/
theorem test_decode_control_C : controlWords [
    (0xC0140001, 0x0, .cSget 5 1), (0xC1006001, 0x0, .cSset 6 1), (0xC2123401, 0x0, .cTrap 4660 1),
    (0xC3000000, 0x0, .cRft), (0xC4146000, 0x0, .cRply 5 6), (0xC5000000, 0x0, .cAck), (0xC61461C0, 0x0, .cMap 5 6 7),
    (0xC6146001, 0x0, .cMapFt 5 6), (0xC7146000, 0x0, .cUnmap 5 6), (0xC80061C0, 0x0, .cTlbinv 6 7),
    (0xC80061C1, 0x0, .cTlbinvRange 6 7), (0xC8000002, 0x0, .cTlbinvAsid), (0xC9000001, 0x0, .cBkpt 1)] = true := by decide +kernel

/-- R39 to R41, R65: opcodes E0 to EF. -/
theorem test_decode_control_E : controlWords [
    (0xE0140000, 0xFEDC4321, .cSlit 5 4275847969), (0xE0146001, 0xFEDC4321, .cSlitHi 5 6 4275847969),
    (0xE1006013, 0xFEDC4321, .cBral 6 3 1 4275847969), (0xE2000000, 0xFEDC4321, .cCalll 4275847969)] = true := by decide +kernel

/-- R42, R67: the row of opcode 0x000. -/
theorem test_decode_lane_000 : laneWords [
    (0x000201014006680000000000, .lAdd ⟨8, 4, 5, 0, 3, 0, 1, 5, 0, 0, 0, 0⟩),
    (0x004201014006680000000000, .lSub ⟨8, 4, 5, 0, 3, 0, 1, 5, 0, 0, 0, 0⟩),
    (0x008201014006680000000000, .lMul ⟨8, 4, 5, 0, 3, 0, 1, 5, 0, 0, 0, 0⟩),
    (0x00C201014006680000000000, .lMulhi ⟨8, 4, 5, 0, 3, 0, 1, 5, 0, 0, 0, 0⟩),
    (0x010201014186690000000000, .lMad ⟨8, 4, 5, 6, 3, 0, 1, 5, 1, 0, 0, 0⟩),
    (0x014201014006680000000000, .lDiv ⟨8, 4, 5, 0, 3, 0, 1, 5, 0, 0, 0, 0⟩),
    (0x018201014006680000000000, .lRem ⟨8, 4, 5, 0, 3, 0, 1, 5, 0, 0, 0, 0⟩),
    (0x01C201000006680000000000, .lAbs ⟨8, 4, 0, 0, 3, 0, 1, 5, 0, 0, 0, 0⟩),
    (0x020201000006680000000000, .lNeg ⟨8, 4, 0, 0, 3, 0, 1, 5, 0, 0, 0, 0⟩),
    (0x024201014006680000000000, .lMin ⟨8, 4, 5, 0, 3, 0, 1, 5, 0, 0, 0, 0⟩),
    (0x028201014006680000000000, .lMax ⟨8, 4, 5, 0, 3, 0, 1, 5, 0, 0, 0, 0⟩),
    (0x02C201014006680000000000, .lAnd ⟨8, 4, 5, 0, 3, 0, 1, 5, 0, 0, 0, 0⟩),
    (0x030201014006680000000000, .lOr ⟨8, 4, 5, 0, 3, 0, 1, 5, 0, 0, 0, 0⟩),
    (0x034201014006680000000000, .lXor ⟨8, 4, 5, 0, 3, 0, 1, 5, 0, 0, 0, 0⟩),
    (0x038201014006680000000000, .lAndn ⟨8, 4, 5, 0, 3, 0, 1, 5, 0, 0, 0, 0⟩),
    (0x03C201014006680000000000, .lShl ⟨8, 4, 5, 0, 3, 0, 1, 5, 0, 0, 0, 0⟩),
    (0x040201014006680000000000, .lShr ⟨8, 4, 5, 0, 3, 0, 1, 5, 0, 0, 0, 0⟩),
    (0x044201014006680000000000, .lSra ⟨8, 4, 5, 0, 3, 0, 1, 5, 0, 0, 0, 0⟩),
    (0x048201014006680000000000, .lRotl ⟨8, 4, 5, 0, 3, 0, 1, 5, 0, 0, 0, 0⟩),
    (0x04C201000006680000000000, .lPopc ⟨8, 4, 0, 0, 3, 0, 1, 5, 0, 0, 0, 0⟩),
    (0x050201000006680000000000, .lClz ⟨8, 4, 0, 0, 3, 0, 1, 5, 0, 0, 0, 0⟩),
    (0x054201000006680000000000, .lBrev ⟨8, 4, 0, 0, 3, 0, 1, 5, 0, 0, 0, 0⟩),
    (0x058201014006680000000000, .lBfx ⟨8, 4, 5, 0, 3, 0, 1, 5, 0, 0, 0, 0⟩),
    (0x05C201014186690000000000, .lBfi ⟨8, 4, 5, 6, 3, 0, 1, 5, 1, 0, 0, 0⟩),
    (0x060201014196690000000000, .lDot4 ⟨8, 4, 5, 6, 11, 0, 1, 5, 1, 0, 0, 0⟩)] = true := by decide +kernel

/-- R42, R67: the row of opcode 0x080. -/
theorem test_decode_lane_080 : laneWords [
    (0x200201014012E80000000000, .lFadd ⟨8, 4, 5, 0, 9, 1, 1, 5, 0, 0, 0, 0⟩),
    (0x204201014012E80000000000, .lFsub ⟨8, 4, 5, 0, 9, 1, 1, 5, 0, 0, 0, 0⟩),
    (0x208201014012E80000000000, .lFmul ⟨8, 4, 5, 0, 9, 1, 1, 5, 0, 0, 0, 0⟩),
    (0x20C201014192E90000000000, .lFfma ⟨8, 4, 5, 6, 9, 1, 1, 5, 1, 0, 0, 0⟩),
    (0x210201014012680000000000, .lFmin ⟨8, 4, 5, 0, 9, 0, 1, 5, 0, 0, 0, 0⟩),
    (0x214201014012680000000000, .lFmax ⟨8, 4, 5, 0, 9, 0, 1, 5, 0, 0, 0, 0⟩),
    (0x218201014012E80000000000, .lFdiv ⟨8, 4, 5, 0, 9, 1, 1, 5, 0, 0, 0, 0⟩),
    (0x21C201000012E80000000000, .lFrcp ⟨8, 4, 0, 0, 9, 1, 1, 5, 0, 0, 0, 0⟩),
    (0x220201000012680000000000, .lFrsq ⟨8, 4, 0, 0, 9, 0, 1, 5, 0, 0, 0, 0⟩),
    (0x224201000012E80000000000, .lFsqrt ⟨8, 4, 0, 0, 9, 1, 1, 5, 0, 0, 0, 0⟩),
    (0x228201000012680000000000, .lFexp2 ⟨8, 4, 0, 0, 9, 0, 1, 5, 0, 0, 0, 0⟩),
    (0x22C201000012680000000000, .lFlog2 ⟨8, 4, 0, 0, 9, 0, 1, 5, 0, 0, 0, 0⟩),
    (0x230201000012680000000000, .lFsin ⟨8, 4, 0, 0, 9, 0, 1, 5, 0, 0, 0, 0⟩),
    (0x234201000012680000000000, .lFcos ⟨8, 4, 0, 0, 9, 0, 1, 5, 0, 0, 0, 0⟩),
    (0x238201000012E80000000000, .lFrnd ⟨8, 4, 0, 0, 9, 1, 1, 5, 0, 0, 0, 0⟩),
    (0x23C201000012680000000000, .lFfrac ⟨8, 4, 0, 0, 9, 0, 1, 5, 0, 0, 0, 0⟩),
    (0x240201014012E80000000000, .lFldexp ⟨8, 4, 5, 0, 9, 1, 1, 5, 0, 0, 0, 0⟩)] = true := by decide +kernel

/-- R42, R67: the row of opcode 0x100. -/
theorem test_decode_lane_100 : laneWords [
    (0x400201014012E80000000000, .lCvt ⟨8, 4, 5, 0, 9, 1, 1, 5, 0, 0, 0, 0⟩),
    (0x404201014006680000000000, .lPack ⟨8, 4, 5, 0, 3, 0, 1, 5, 0, 0, 0, 0⟩),
    (0x408201000006680000000000, .lUnpk ⟨8, 4, 0, 0, 3, 0, 1, 5, 0, 0, 0, 0⟩),
    (0x40C201014012680000000003, .lSwz ⟨8, 4, 5, 0, 9, 0, 1, 5, 0, 0, 0, 3⟩),
    (0x410201000020680000000000, .lBxq ⟨8, 4, 0, 0, 16, 0, 1, 5, 0, 0, 0, 0⟩),
    (0x414201000020680200000000, .lBxdq ⟨8, 4, 0, 0, 16, 0, 1, 5, 0, 0, 2, 0⟩),
    (0x418201000020680000000000, .lBxexp ⟨8, 4, 0, 0, 16, 0, 1, 5, 0, 0, 0, 0⟩),
    (0x41C201014020680000000000, .lBxalign ⟨8, 4, 5, 0, 16, 0, 1, 5, 0, 0, 0, 0⟩),
    (0x420201014020680000000000, .lBxnorm ⟨8, 4, 5, 0, 16, 0, 1, 5, 0, 0, 0, 0⟩)] = true := by decide +kernel

/-- R42, R67: the row of opcode 0x140. -/
theorem test_decode_lane_140 : laneWords [
    (0x500001014006680900000000, .lCmp ⟨0, 4, 5, 0, 3, 0, 1, 5, 0, 0, 9, 0⟩),
    (0x504001014012680200000000, .lFcmp ⟨0, 4, 5, 0, 9, 0, 1, 5, 0, 0, 2, 0⟩),
    (0x508201014192680000000000, .lSel ⟨8, 4, 5, 6, 9, 0, 1, 5, 0, 0, 0, 0⟩),
    (0x50C201000012680000000000, .lMov ⟨8, 4, 0, 0, 9, 0, 1, 5, 0, 0, 0, 0⟩),
    (0x510001014000680200000000, .lPand ⟨0, 4, 5, 0, 0, 0, 1, 5, 0, 0, 2, 0⟩),
    (0x514001014000680200000000, .lPor ⟨0, 4, 5, 0, 0, 0, 1, 5, 0, 0, 2, 0⟩),
    (0x518001014000680200000000, .lPxor ⟨0, 4, 5, 0, 0, 0, 1, 5, 0, 0, 2, 0⟩),
    (0x51C001000000680000000000, .lPset ⟨0, 4, 0, 0, 0, 0, 1, 5, 0, 0, 0, 0⟩),
    (0x520201000000680000000000, .lPget ⟨8, 4, 0, 0, 0, 0, 1, 5, 0, 0, 0, 0⟩)] = true := by decide +kernel

/-- R42, R67: the row of opcode 0x180. -/
theorem test_decode_lane_180 : laneWords [
    (0x600201014012680000000000, .lShfl ⟨8, 4, 5, 0, 9, 0, 1, 5, 0, 0, 0, 0⟩),
    (0x604201000012680000000003, .lShflx ⟨8, 4, 0, 0, 9, 0, 1, 5, 0, 0, 0, 3⟩),
    (0x608201000012680000000003, .lBcast ⟨8, 4, 0, 0, 9, 0, 1, 5, 0, 0, 0, 3⟩),
    (0x608201000012680100000000, .lBcastFirst ⟨8, 4, 0, 0, 9, 0, 1, 5, 0, 0, 1, 0⟩),
    (0x60C201000000680200000000, .lVote ⟨8, 4, 0, 0, 0, 0, 1, 5, 0, 0, 2, 0⟩),
    (0x610201000012680000000000, .lMatch ⟨8, 4, 0, 0, 9, 0, 1, 5, 0, 0, 0, 0⟩),
    (0x614201014012680200000000, .lReds ⟨8, 4, 5, 0, 9, 0, 1, 5, 0, 0, 2, 0⟩),
    (0x618201014012680200000000, .lScan ⟨8, 4, 5, 0, 9, 0, 1, 5, 0, 0, 2, 0⟩),
    (0x61C201000012E80000000000, .lDdx ⟨8, 4, 0, 0, 9, 1, 1, 5, 0, 0, 0, 0⟩),
    (0x620201000012E80000000000, .lDdy ⟨8, 4, 0, 0, 9, 1, 1, 5, 0, 0, 0, 0⟩),
    (0x624201000012680200000000, .lQswap ⟨8, 4, 0, 0, 9, 0, 1, 5, 0, 0, 2, 0⟩)] = true := by decide +kernel

/-- R42, R67: the row of opcode 0x1C0. -/
theorem test_decode_lane_1C0 : laneWords [
    (0x700201014012688000001234, .lLd ⟨8, 4, 5, 0, 9, 0, 1, 5, 0, 2, 0, 4660⟩),
    (0x700201014020688400001234, .lLdPlanes ⟨8, 4, 5, 0, 16, 0, 1, 5, 0, 2, 4, 4660⟩),
    (0x704001014192698000001234, .lSt ⟨0, 4, 5, 6, 9, 0, 1, 5, 1, 2, 0, 4660⟩),
    (0x708201000012680000001234, .lLds ⟨8, 4, 0, 0, 9, 0, 1, 5, 0, 0, 0, 4660⟩),
    (0x70C001000192690000001234, .lSts ⟨0, 4, 0, 6, 9, 0, 1, 5, 1, 0, 0, 4660⟩),
    (0x710201000012680000001234, .lLdp ⟨8, 4, 0, 0, 9, 0, 1, 5, 0, 0, 0, 4660⟩),
    (0x714001000192690000001234, .lStp ⟨0, 4, 0, 6, 9, 0, 1, 5, 1, 0, 0, 4660⟩),
    (0x718201014192698000001234, .lAtom ⟨8, 4, 5, 6, 9, 0, 1, 5, 1, 2, 0, 4660⟩),
    (0x71C201000192690000001234, .lAtoms ⟨8, 4, 0, 6, 9, 0, 1, 5, 1, 0, 0, 4660⟩),
    (0x720000014180690000001234, .lHpush ⟨0, 0, 5, 6, 0, 0, 1, 5, 1, 0, 0, 4660⟩),
    (0x724200014000680000001234, .lHpop ⟨8, 0, 5, 0, 0, 0, 1, 5, 0, 0, 0, 4660⟩)] = true := by decide +kernel

/-- R42, R67: the row of opcode 0x240. -/
theorem test_decode_lane_240 : laneWords [
    (0x90003D000016680200001234, .lWld ⟨0, 244, 0, 0, 11, 0, 1, 5, 0, 0, 2, 4660⟩),
    (0x90403D000016680200001234, .lWlds ⟨0, 244, 0, 0, 11, 0, 1, 5, 0, 0, 2, 4660⟩),
    (0x908201000016680200000000, .lMma ⟨8, 4, 0, 0, 11, 0, 1, 5, 0, 0, 2, 0⟩),
    (0x90C201000016680200000000, .lMmas ⟨8, 4, 0, 0, 11, 0, 1, 5, 0, 0, 2, 0⟩),
    (0x910200000000680000000000, .lAccz ⟨8, 0, 0, 0, 0, 0, 1, 5, 0, 0, 0, 0⟩),
    (0x914201000012E80000000000, .lAccrd ⟨8, 4, 0, 0, 9, 1, 1, 5, 0, 0, 0, 0⟩),
    (0x918201000012680000000000, .lAccwr ⟨8, 4, 0, 0, 9, 0, 1, 5, 0, 0, 0, 0⟩)] = true := by decide +kernel

/-- R42, R67: the row of opcode 0x280. -/
theorem test_decode_lane_280 : laneWords [
    (0xA00201014022688900000000, .lTrace ⟨8, 4, 5, 0, 17, 0, 1, 5, 0, 2, 9, 0⟩),
    (0xA04001000022688000000000, .lResumeReject ⟨0, 4, 0, 0, 17, 0, 1, 5, 0, 2, 0, 0⟩),
    (0xA04001000022688100000000, .lResumeAccept ⟨0, 4, 0, 0, 17, 0, 1, 5, 0, 2, 1, 0⟩),
    (0xA04001000022688200000000, .lResumeEnd ⟨0, 4, 0, 0, 17, 0, 1, 5, 0, 2, 2, 0⟩),
    (0xA08201000022680000000000, .lHitget ⟨8, 4, 0, 0, 17, 0, 1, 5, 0, 0, 0, 0⟩),
    (0xA0C201014192698900000000, .lSample ⟨8, 4, 5, 6, 9, 0, 1, 5, 1, 2, 9, 0⟩),
    (0xA10201000196698900000003, .lHgrid ⟨8, 4, 0, 6, 11, 0, 1, 5, 1, 2, 9, 3⟩),
    (0xA14201000196698900000003, .lRcqt ⟨8, 4, 0, 6, 11, 0, 1, 5, 1, 2, 9, 3⟩)] = true := by decide +kernel

/-- R42, R67: the row of opcode 0x3C0. -/
theorem test_decode_lane_3C0 : laneWords [
    (0xF0000100000068010000AB01, .lTrapif ⟨0, 4, 0, 0, 0, 0, 1, 5, 0, 0, 1, 43777⟩),
    (0xF04000000000680000000003, .lLnop ⟨0, 0, 0, 0, 0, 0, 1, 5, 0, 0, 0, 3⟩)] = true := by decide +kernel

/-! ### Single steps -/

/-- A step runs the word at the program counter. -/
theorem test_step_smovi : after (step (State.reset.withFetchWord 32 0x2814_0007)) (fun t => acting t (fun _ p => p.pc == 0x1_000C)) = true := by
  decide

/-- R100: a sum wraps. -/
theorem test_sadd_wraps : after (exec (.cSadd 7 5 6) ((ctl.withS 5 (BitVec.allOnes 64)).withS 6 2))
    (fun t => acting t (fun g p => readS g p 7 == 1)) = true := by decide

/-- R27: S0 discards what is written. -/
theorem test_s0_reads_zero : after (exec (.cSmovi 0 7) ctl) (fun t => acting t (fun g p => readS g p 0 == 0)) = true := by decide

/-- R101: the quotient of −2^63 by −1. -/
theorem test_sdiv_corner : after (exec (.cSdiv 7 5 6) ((ctl.withS 5 0x8000_0000_0000_0000).withS 6 (BitVec.allOnes 64)))
    (fun t => acting t (fun g p => readS g p 7 == 0x8000_0000_0000_0000)) = true := by decide

/-- R102: a shift by 64 leaves 0, and SSRA the sign. -/
theorem test_shift_by_64 : after (exec (.cSshl 7 5 6) ((ctl.withS 5 1).withS 6 64)) (fun t => acting t (fun g p => readS g p 7 == 0)) = true ∧
    after (exec (.cSsra 7 5 6) ((ctl.withS 5 0x8000_0000_0000_0000).withS 6 64))
      (fun t => acting t (fun g p => readS g p 7 == BitVec.allOnes 64)) = true := by decide

/-- R15: sequential flow passes the header of the next line. -/
theorem test_flow_skips_header : nextWord 0x1_007C 1 = 0x1_0088 ∧ nextWord 0x1_0078 2 = 0x1_0088 ∧ nextWord 0x1_0078 1 = 0x1_007C := by decide

/-- R106: a misaligned SLD traps and writes nothing. -/
theorem test_sld_misaligned : after (exec (.cSld 7 5 0) (ctl.withS 5 0x2_0004)) (fun t => acting t (fun g _ => g.tval == 0x2_0004 && g.tcause == 0x14)) = true := by
  decide +kernel

/-- R167: elements of u8x8 wrap each alone. -/
theorem test_add_u8x8 : after (exec (.lAdd { lf2 with ty := 6, b := 255, imm := 1 }) lan)
    (fun t => acting t (fun g _ => g.getV false 8 0 == 0x0101_0101_0101_0101)) = true := by decide

/-- R175: 1.5 × 2 in binary32, both elements. -/
theorem test_fmul_f32 : after (exec (.lFmul { lf2 with ty := 9, b := 255, imm := 0x4000_0000 })
      (lan.withG (fun g => g.setV false 4 0 0x3FC0_0000_3FC0_0000)))
    (fun t => acting t (fun g _ => g.getV false 8 0 == 0x4040_0000_4040_0000)) = true := by decide

/-- R34: a lane that the predicate leaves out keeps its register. -/
theorem test_predicated_lane_keeps : after (exec (.lMov { lf2 with b := 0, a := 255, imm := 9, pg := 1 }) lan)
    (fun t => acting t (fun g _ => g.getV false 8 0 == 0)) = true := by decide

/-- R217: HPUSH without a hod traps, at its own instruction. -/
theorem test_hpush_traps : after (exec (.lHpush { lf with d := 0, a := 0, b := 3 }) lan)
    (fun t => acting t (fun g _ => g.tcause == 0x134)) = true := by decide

/-- R205: an access writes memory and a read gives it back. -/
theorem test_memory : Memory.bytes (Memory.wr [] 0x2_0000 [1, 0, 3]) 0x1_FFFF 5 = [0, 1, 0, 3, 0] ∧
    Memory.wr [] 5 [0] = [] ∧ Memory.wr (Memory.wr [] 5 [1]) 5 [0] = [] := by decide

/-! ### For each statement, states that meet its hypotheses: control-stream words -/

/-- A line of C-code whose words are all targets, with an FN word; and a run of one LNOP in line 1. -/
def codeMem : Memory :=
  Memory.wr (Memory.wr [] 0x1_0000 (bytesOf 8 (2 ^ 60 + 2 ^ 30 - 1) ++ bytesOf 4 0x6A00_0000)) 0x1_0080
    (bytesOf 8 0x1_0001 ++ bytesOf 12 (((encode (.lLnop { lf with d := 0, a := 0, b := 0, c := 0 })).getD (0, 0)).2) ++
      bytesOf 12 (0x3FF * 2 ^ 86 + 2 ^ 81))

/-- The acting split, with that code, a scratchpad of four granules and a window of 8 bytes a lane. -/
def dev : State := { ctl with mem := codeMem }.withU (fun u => { u with scr := 4, priv := 8 })

/-- Its supervisor. -/
def devSm : State := dev.withP (fun p => { p with sm := true })

/-- Four splits. -/
def dev4 : State := dev.withG (fun g => { g with splits := [0, 1, 2, 3].map (fun k => (k, pOf dev)) })

theorem witness_acts : dev.actor = some (gOf dev, pOf dev) := by decide +kernel

/-- `Free` holds, of sources and destinations from S0 to S63: what ScalarSumsProductsAndMoves, ScalarDivisionByR101,
ScalarShiftsByR102 and ScalarFieldsByR103 ask. -/
theorem witness_Free : Free dev (gOf dev) (pOf dev) [5, 6] 7 ∧ Free dev (gOf dev) (pOf dev) [0, 63] 0 ∧
    Free dev (gOf dev) (pOf dev) [] 63 :=
  ⟨⟨witness_acts, by decide +kernel, by decide +kernel, by decide +kernel⟩,
   ⟨witness_acts, by decide +kernel, by decide +kernel, by decide +kernel⟩,
   ⟨witness_acts, by decide +kernel, by decide +kernel, by decide +kernel⟩⟩

theorem witness_ScalarLogicAndCounts : ((63 : BitVec 12).toNat < 64) ∧ ((0 : BitVec 12).toNat < 64) := by decide
theorem witness_ScalarComparisonsAndSelection : (9 : BitVec 6).toNat ≤ 9 ∧ (9 : BitVec 4).toNat ≤ 9 := by decide

/-- The clauses of BranchesAndCalls: a condition that holds and one that fails, a target, a callee, an empty stack. -/
theorem witness_BranchesAndCalls : emptyS (gOf dev) (pOf dev) 0 = false ∧ condHolds 0 (readS (gOf dev) (pOf dev) 0) 0 ∧
    ¬condHolds 9 (readS (gOf dev) (pOf dev) 0) 0 ∧ emptyS (gOf dev) (pOf dev) 63 = false ∧ (pOf dev).allFull = true ∧ (pOf dev).stack = [] ∧
    (dev.checkTarget 0 0 0 true false (jumpTo (pOf dev) (1 : BitVec 14))).2 = none ∧
    (dev.checkTarget 0 0 0 true false (jumpTo (pOf dev) (29 : BitVec 32))).2 = none ∧
    (dev.checkCall 0 0 0 (uOf dev).vregs (uOf dev).priv true true (some 0x1_000C) (jumpTo (pOf dev) (0 : BitVec 24))).2 = none ∧
    (dev.checkCall 0 0 0 (uOf dev).vregs (uOf dev).priv true true (some 0x1_0010) (jumpTo (pOf dev) (0 : BitVec 32))).2 = none := by
  refine ⟨by decide +kernel, ?_, ?_, by decide +kernel⟩
  · show readS (gOf dev) (pOf dev) 0 = 0
    decide +kernel
  · show ¬(0 : Word).toNat < (readS (gOf dev) (pOf dev) 0).toNat
    decide +kernel

/-- The word before a header and the one before that. -/
theorem witness_ProgramCounterAndSequentialFlow : wordIdx 0x1_007C + 1 = 32 ∧ wordIdx 0x1_0078 + 2 = 32 ∧ wordIdx 0x1_0078 + 1 < 32 ∧
    wordIdx 0x1_0008 + 2 < 32 := by decide

/-- One token, plain or of a call, below the split. -/
def token (call : Bool) (j : Word) (e a : Lanes) (s : State) : State :=
  (s.withG (fun g => { g with tokens := [(1, ⟨call, j, e, a, [], 0⟩)], nextTok := 2 })).withP (fun p => { p with stack := [.tok 1 0] })

/-- TokensAndDivision, clauses 1 to 5: a stack of 15, a token that others are still to join, one that this split completes, a
mask that JBRK leaves, a call token at S5. -/
theorem witness_TokensAndDivision : (pOf (dev.withP (fun p => { p with stack := List.replicate 15 (.tok 1 0) }))).stack.length < 16 ∧
    (pOf dev).runsLeft = 0 ∧ (pOf dev).allFull = true ∧
    acting (token false 0x1_0010 0xFFFF_FFFF 0 (dev.withP (fun p => { p with mask := 1 }))) (fun g p =>
      (FMap.get g.tokens 1).any (fun k => !k.call && decide (k.a ||| p.mask ≠ k.e) && decide (k.e &&& ~~~p.mask ≠ k.a))) = true ∧
    acting (token false 0x1_0010 0xFFFF_FFFF 0 dev) (fun g p => FMap.del g.splits 0 == [] &&
      (FMap.get g.tokens 1).any (fun k => !k.call && decide (k.a ||| p.mask = k.e) && decide (k.e ≠ 0))) = true ∧
    acting (token true 0x1_0010 0xFFFF_FFFF 0 (dev.withS 5 0x1_0010)) (fun g p =>
      (FMap.get g.tokens 1).any (fun k => k.call && decide (k.j = readS g p 5))) = true := by
  decide +kernel

/-- TokensAndDivision, BDIV: no lane, every lane and some lanes; room for a split, and none; CALLV: one target in every lane. -/
theorem witness_BDIV_CALLV : (gOf dev).getP 1 0 = false ∧ (gOf dev).getP 0 31 = true ∧
    (gOf (dev.withG (fun g => g.setP 1 0 true))).getP 1 0 = true ∧ (gOf dev).handler = none ∧ (gOf dev).splits.length < 4 ∧
    (gOf dev4).splits.length = 4 ∧ (pOf dev4).stack.length < 16 ∧
    acting (dev.withG (fun g => laneList.foldl (fun g l => g.setV false 4 l 0x1_0008) g)) (fun g p =>
      vReady g 4 p.mask && decide ((callTargets g p 4).length = 1) && (checkCalls 0 0 0 32 8 true 0x1_000C (callTargets g p 4) dev).2.isNone) = true := by
  decide +kernel

/-- RunsAreCheckedQueuedAndAwaited: a run that passes its checks, one that fails, a split drained and one not, V31 and V32. -/
theorem witness_RunsAreCheckedQueuedAndAwaited : runHeld (gOf dev) (pOf dev) = false ∧ (uOf dev).twin = none ∧
    fine (dev.checkRun 0 0 0 true 0x1_0000 32 1 0) = true ∧ fine (dev.checkRun 0 0 0 true 0x1_0000 32 1 10) = false ∧
    (pOf dev).runsLeft = 0 ∧ dev.lanesDrained (gOf dev) (pOf dev) = true ∧ lan.lanesDrained (gOf lan) (pOf lan) = false ∧
    (31 : BitVec 6).toNat < (uOf dev).vregs ∧ vReady (gOf (dev.withG (fun g => g.setV false 31 0 0))) 31 (pOf dev).mask = true ∧ (uOf dev).vregs ≤ (32 : BitVec 6).toNat := by
  decide +kernel

/-- ScalarMemoryAccess: an address at a page it may write, a misaligned one and one with no page; no wait; room in the queue. -/
theorem witness_ScalarMemoryAccess : (gOf dev).replayFull = false ∧
    (readS (gOf (dev.withS 5 0x2_0000)) (pOf (dev.withS 5 0x2_0000)) 5 + BitVec.ofInt 64 (8 * (2047 : BitVec 12).toInt)).toNat % 8 = 0 ∧
    fine (translate dev 0 0 (0x2_0000 + 8 * 2047) .read true) = true ∧ fine (translate dev 0 0 0x2_0000 .write true) = true ∧
    dev.scalarWait 0x8000_0000_0002_00F8 0x2_0000 = false ∧ dev.doveTwin 0 = none ∧
    (readS (gOf (dev.withS 5 0x2_0004)) (pOf (dev.withS 5 0x2_0004)) 5).toNat % 8 ≠ 0 ∧
    fine (translate dev 0 0 0 .read true) = false ∧ dev.drained (gOf dev) (pOf dev) = true := by
  decide +kernel

/-- TranslationsAndCacheControls: one split; pages to read, to write and absent; ranges of PIN and UNPIN; a canonical L2. -/
theorem witness_TranslationsAndCacheControls : (gOf dev).splits.length = 1 ∧ fine (translate dev 0 0 0x1_0000 .read true) = true ∧
    fine (translate dev 0 0 0x1_0000 .write true) = false ∧ fine (translate dev 0 0 0x2_0000 .write true) = true ∧
    (match dev.probe 0 0 0x2_0000 .read true with | .ok (leaf, loc) => decide (leafPeer leaf = 0) && backed loc | .error _ => false) = true ∧
    (match dev.probe 0 0 0 .read true with | .ok _ => false | .error _ => true) = true ∧
    (pinStatus dev 0 0 0x2_0000 128 true).1 ≤ 5 ∧ 2 ^ 24 < (0x100_0001 : Word).toNat ∧ FMap.wf dev.l2 = true := by
  decide +kernel

/-- A launch record at 0x2_0000: code and lane code in the page at 0x1_0000, entry 8, one unit. -/
def withRecord (va : Nat) (pers : Bool) (s : State) : State :=
  { s with mem := Memory.wr s.mem va (bytesOf 8 0x1_0000 ++ bytesOf 8 0x1_0000 ++ bytesOf 8 0 ++ bytesOf 8 0 ++ bytesOf 8 (8 + 2 ^ 32) ++
      bytesOf 8 (1 + 2 ^ 32) ++ bytesOf 8 (if pers then 2 ^ 14 else 0) ++ bytesOf 8 0) }

/-- The record's bytes, as LAUNCH reads them. -/
def recordBytes (s : State) : List Byte := match (s.readVa 0 0 true 3 0x2_0000 64).2 with | .ok (bs, _) => bs | .error _ => []

/-- LaunchesAreAcceptedOrRefused: a record that is refused, one whose entry may be entered, room in the partition and none, a
persistent one. -/
theorem witness_LaunchesAreAcceptedOrRefused : fine (dev.readVa 0 0 true 3 0x2_0000 64) = true ∧
    recordOk 0x2_0000 (recordBytes dev) = false ∧ recordOk 0x2_0000 (recordBytes (withRecord 0x2_0000 false dev)) = true ∧
    ((withRecord 0x2_0000 false dev).checkEntry 0 0 0 true 0 (recordLaunch (recordBytes (withRecord 0x2_0000 false dev)) 1 0 0 0 none).entryVa).2 = none ∧
    dev.openLaunches 0 < 4096 ∧ (recordLaunch (recordBytes (withRecord 0x2_0000 true dev)) 1 0 0 0 none).pers = true ∧
    (dev.reserveAll 0 (recordLaunch (recordBytes (withRecord 0x2_0000 true dev)) 1 0 0 0 none)).isNone = true ∧
    (dev.launchOf (uOf dev)).isSome = true ∧ (dev.jobOfGroup (gOf dev)).isSome = true := by
  decide +kernel

/-- GroupsBeginEndAndAreCancelled: room for a spawn, sixteen groups, a split drained and one with runs left; a launch of the
job, an unknown one, one of another job, a completed one. -/
theorem witness_GroupsBeginEndAndAreCancelled :
    (dev.checkCall 0 0 0 32 8 true true none (spawnEntry (pOf dev) 0)).2 = none ∧ (dev.spawnRoom 0 0 (uOf dev)).isSome = true ∧
    (gOf dev).triggered = false ∧ (gOf (dev.withG (fun g => { g with triggered := true }))).triggered = true ∧ (uOf dev).groups < 16 ∧ 16 ≤ (uOf (dev.withU (fun u => { u with groups := 16 }))).groups ∧
    dev.drained (gOf dev) (pOf dev) = true ∧ (pOf lan).runsLeft ≠ 0 ∧ dev.outstanding 0 0 = false ∧ (gOf dev).splits = [(0, pOf dev)] ∧
    (gOf dev).handler = none ∧ (dev.core 0).copies = [] ∧ FMap.get dev.launches 1 = some loadLaunch ∧ FMap.get dev.launches 2 = none ∧
    (FMap.get (FMap.put dev.launches 2 { loadLaunch with job := 2 }) 2).any (fun t => decide (t.job ≠ loadLaunch.job)) = true ∧
    (FMap.get (FMap.put dev.launches 1 { loadLaunch with done := true }) 1).any (fun t => t.done) = true ∧ (pOf dev).issued = none := by
  decide +kernel

/-- BarriersAndFences: a barrier that completes and one that waits for another group; a persistent launch; a barrier object
with an expected count of 1; an object whose phase has moved; drained and not; an empty write buffer. -/
theorem witness_BarriersAndFences : hasDeferred (pOf dev).stack = false ∧
    (dev.arriveBarrier false (gOf dev) (pOf dev).mask).instance_ false (gOf dev) ≠ dev.instance_ false (gOf dev) ∧
    (dev.arriveBarrier false (gOf dev) 1).instance_ false (gOf dev) = dev.instance_ false (gOf dev) ∧
    ((dev.launchOf (uOf dev)).any (fun l => !l.pers)) = true ∧ loadLaunch.pers = false ∧
    8 + 8 ≤ (uOf dev).scrSize ∧ (uOf dev).scrBad 8 8 = false ∧
    fld (BitVec.ofNat 64 ((uOf (dev.withU (fun u => { u with scratch := [(8, 2)] }))).scrAt 8 8) : Word) 0 24 = 2 ∧
    fld ((uOf dev).scrWord 8) 48 16 = fld (0 : Word) 0 16 ∧ fld ((uOf dev).scrWord 8) 48 16 ≠ fld (1 : Word) 0 16 ∧
    (dev.uoDrain 0 1 0 0).uoOutstanding 0 0 = false ∧ (dev.core 0).uo = [] ∧ lan.drained (gOf lan) (pOf lan) = false := by
  decide +kernel

/-- CopiesAndBatches: one row from the page to the scratchpad, one that leaves it; copies of a batch. -/
theorem witness_CopiesAndBatches : copyRows false 0x2_0000 0 64 0 = some [(0x2_0000, 0, 64)] ∧
    fine (copySide dev (gOf dev) (pOf dev) false .read [(0x2_0000, 64)]) = true ∧ fine (copySide dev (gOf dev) (pOf dev) true .write [(0, 64)]) = true ∧
    fine (copySide dev (gOf dev) (pOf dev) false .read [(0, 64)]) = false ∧ (pOf dev).willIssue scratchStore = false ∧
    (dev.core 0).copies = [] ∧ (copyRows true 0x2_0000 0 (2 * 2 ^ 32 + 64) 0).isSome = true ∧
    ((dev.withK (fun k => { k with copies := [⟨0, 0xFFF, 1, false, true, [], [], [], 0, [], []⟩] })).core 0).copies.any (fun c => c.gid == 0 && decide (c.batch ≤ 1)) = true := by
  decide +kernel
/-- A hod of 4 slots of 16 bytes at 64, with its pointers. -/
def hod (p c : BitVec 32) : Hod := ⟨64, 4, 16, p, c, none, none⟩

/-- Memory with bytes at an address of the writable page. -/
def withBytes (va : Nat) (bs : List Byte) (s : State) : State := { s with mem := Memory.wr s.mem va bs }

/-- HodWords: descriptors at the ends of R147's ranges; hods with room, full, empty, faulted and owned; a gather binding. -/
theorem witness_HodWords : fine (dev.readVa 0 0 true 3 0x2_0000 16) = true ∧ 64 + 16 * 2 ^ 1 ≤ (uOf dev).scrSize ∧
    (uOf dev).scrSize < 0 + 4096 * 2 ^ 12 ∧ FMap.get (uOf dev).hods 0 = none ∧
    (hod 0 0).fill + 4 ≤ (hod 0 0).n ∧ (hod 0 0).n < (hod 4 0).fill + 1 ∧ 4 ≤ (hod 4 0).fill ∧ (hod 0 0).fill < 1 ∧ (hod 0 0).fault = none ∧
    ({ hod 0 0 with fault := some (0x10, 0) }).fault = some (0x10, 0) ∧ (hod 0 0).owned true = false ∧ (hod 0 0).owned false = false ∧
    ({ hod 0 0 with bound := some (.gather, false) }).owned true = true ∧ ({ hod 0 0 with bound := some (.gather, true) }).owned false = true ∧
    dev.gatherServes 0 0 0 1 = false ∧
    (dev.withK (fun k => { k with gather := some ⟨0, 0, 1, 0, 1, false, 1, 0, true, 0⟩ })).gatherServes 0 0 0 1 = true ∧ dev.rasters = [] ∧
    (0x2_0020 : Word).toNat % 32 = 0 ∧ fine (dev.readVa 0 0 true 3 0x2_0020 32) = true ∧
    natOfBytes (bytesOf 8 (3 + 4 + 2 ^ 16 * 1 + 2 ^ 32 * 0xFFF)) = 3 + 4 + 2 ^ 16 * 1 + 2 ^ 32 * 0xFFF ∧ 1 * (4 + 4 * 1) ≤ (hod 0 0).slotb ∧
    1 * 2 ^ 3 ≤ (hod 0 0).slotb ∧ (dev.core 0).gather = none ∧ dev.popping 0 0 = false ∧ (pOf dev).willIssue scratchLoad = false := by
  decide +kernel

/-- PutsCountersAndBraces: ranges inside the scratchpad, empty, too long, misaligned, outside; counters that have come and not;
core 0 with four braces, with the group's first; a set-up answered either way. -/
theorem witness_PutsCountersAndBraces : 0 + 8 ≤ (uOf dev).scrSize ∧ (uOf dev).scrSize < 0 + 65536 ∧ 65536 < 65544 ∧ dev.doveTwin 0 = none ∧
    (pOf dev).willIssue scratchStore = false ∧ 0 ≤ ((0 : BitVec 32) - 0).toInt ∧ ((0 : BitVec 32) - 1).toInt < 0 ∧
    0 ≤ ((0 : BitVec 32) - 0x8000_0001).toInt ∧ (pOf dev).issued = none ∧ dev.wordAcquires 0 0 = false ∧
    epDev (0 : Word) ≠ 1 ∧ epCore (0 : Word) < Config.nCores ∧ 4 ≤ ((dev.withK (fun k => { k with braces := List.replicate 4 ⟨1, 0, 1, 0, true⟩ })).core 0).braces.length ∧
    (pOf (dev.withP (fun p => { p with issued := some ⟨2, 0, []⟩ }))).issued = some ⟨2, 0, []⟩ ∧
    (pOf (dev.withP (fun p => { p with issued := some ⟨3, 0, []⟩ }))).issued = some ⟨3, 0, []⟩ ∧ (dev.core 0).braces = [] ∧
    ((dev.withK (fun k => { k with braces := [⟨0, 5, 7, 0, true⟩] })).core 0).braces = [⟨0, 5, 7, 0, true⟩] := by
  decide +kernel

/-- An address space whose object table stands at 0x2_0000, with a structure of generation 1 as object 0. -/
def withScene (s : State) : State :=
  withBytes 0x2_0000 ([1, 0, 1, 0] ++ bytesOf 44 0 ++ bytesOf 8 1 ++ bytesOf 8 0)
    { s with spaces := FMap.put s.spaces 0 ⟨0, 0, 0, 0, 0, 0, 0x2_0000, 1, 0⟩ }

/-- A network of one layer, one input and one output. -/
def net : Net := ⟨0, 0, 0, 1, [1], 0, 0, 16, 0, 0, 0, 0, 0, 1, 1, [(1, [⟨[[0]], [0]⟩])], ⟨[0, 0], [0, 0], [0, 0], 0⟩, false, [], false, none, 0, 0⟩

/-- GenerationsAndNetworks: a structure's entry, and none; a network at rest, held, changed, switching, with a full queue. -/
theorem witness_GenerationsAndNetworks : ((withScene dev).scene 0 0 true 0).2 = some ⟨1, 0, [0, 0, 0, 0], 1⟩ ∧
    (dev.scene 0 0 true 0).2 = none ∧ (withScene dev).inFlight 0 0 2 = 0 ∧
    ({ dev with structs := [(structKey 0 0, [(2, 1)])] } : State).inFlight 0 0 2 ≠ 0 ∧
    dev.gensRetired 0 0 1 0 = true ∧ ({ dev with structs := [(structKey 0 0, [(0, 1)])] } : State).gensRetired 0 0 1 0 = false ∧
    net.held = none ∧ net.changed = false ∧ net.version ≤ net.published ∧ net.version + 1 > net.published ∧ net.switching = false ∧
    net.pending.length < 16 ∧ 16 ≤ (List.replicate 16 64).length ∧ FMap.get dev.nets (netKey 0 3) = none := by
  decide +kernel

/-- SystemRegisters: numbers at the ends of both ranges, in both modes; numbers between and beyond them. -/
theorem witness_SystemRegisters : (readSys dev (gOf dev) (pOf dev) 0x000).isSome = true ∧ (readSys dev (gOf dev) (pOf dev) 0x00E).isSome = true ∧
    (readSys dev (gOf dev) (pOf dev) 0x00F).isSome = false ∧ (readSys devSm (gOf devSm) (pOf devSm) 0x100).isSome = true ∧
    (readSys devSm (gOf devSm) (pOf devSm) 0x10B).isSome = true ∧ (readSys devSm (gOf devSm) (pOf devSm) 0x10C).isSome = false ∧
    (pOf devSm).sm = true ∧ (pOf dev).sm = false ∧ dev.unitOf (gOf dev) ≠ none ∧
    (writeSys dev (gOf dev) 0x108 5).actor.isSome = true := by
  decide +kernel

/-- A handler of the acting split, in supervisor mode, for a lane access fault, to return to the word after the split's. -/
def inHandler : State :=
  (devSm.withP (fun p => { p with tpc := 0x1_000C })).withG (fun g =>
    { g with handler := some ⟨0, 0x10, true, (pOf dev).aside, none, false, [], []⟩ })

/-- TrapsByWordAndReturns: causes of the table and none of it; each debug level; a handler that may return, and return points
that are none; a frame that can be read. -/
theorem witness_TrapsByWordAndReturns : (0x32 : BitVec 8).toNat ∈ causes ∧ (0x00 : BitVec 8).toNat ∉ causes ∧
    ({ dev.mgmt with debug := .invasive }).debug = .invasive ∧ dev.mgmt.debug ≠ .invasive ∧
    (gOf devSm).handlerAt 0 = none ∧ ((gOf inHandler).handlerAt 0).isSome = true ∧ inHandler.tpcOk (gOf inHandler) (pOf inHandler) = true ∧
    (((gOf inHandler).handlerAt 0).any (fun h => inHandler.mayReturn (gOf inHandler) (pOf inHandler) h && accessCause h.cause && h.lane && !h.held)) = true ∧
    devSm.tpcOk (gOf devSm) (pOf devSm) = false ∧ accessCause 0x20 = false ∧ (pOf inHandler).runq.length < Config.runQueueEntries := by
  decide +kernel

/-- Page tables of address space 0: page 3 absent, page 4 left for the first touch, page 5 mapped. -/
def withTables (s : State) : State :=
  withBytes 0x101_8018 (bytesOf 8 0 ++ bytesOf 8 0x9000_0000_0000_0018 ++ bytesOf 8 0x8000_0000_0005_00F8)
    (withBytes 0x101_0000 (bytesOf 8 0x8000_0000_0101_8000) (withBytes 0x100_8000 (bytesOf 8 0x8000_0000_0101_0000)
      (withBytes 0x100_0000 (bytesOf 8 0x8000_0000_0100_8000)
        { s with spaces := FMap.put s.spaces 0 ⟨0x100_0000, 0, 0, 0, 0, 0, 0, 0, 0⟩ })))

/-- MappingWords: both modes; drained and not; MAP of an absent page; MAP.FT of a page that is none for it; pages with a valid
leaf and without tables; no copies. -/
theorem witness_MappingWords : (pOf dev).sm = false ∧ (pOf devSm).sm = true ∧ devSm.drained (gOf devSm) (pOf devSm) = true ∧
    ((withTables devSm).mapLeaf ((withTables devSm).ptroot (gOf devSm)) 0x3_0000 0x8000_0000_0003_00F8).2 = 0 ∧
    (match (withTables devSm).mapFt (gOf devSm) 0x100_0000 0x5_0000 with | .ok (_, n) => n == 2 | .error _ => false) = true ∧
    ((withTables devSm).leafSlot 0x100_0000 0x5_0000).any (fun e => leafV ((withTables devSm).entry e.1)) = true ∧
    devSm.leafSlot (devSm.ptroot (gOf devSm)) 0x5_0000 = none ∧ devSm.cores.all (fun e => e.2.copies.isEmpty) = true ∧
    (pOf devSm).issued = none ∧
    (({ lan.withP (fun p => { p with sm := true }) with agenda := [] } : State).drained (gOf lan) (pOf lan)) = false := by
  decide +kernel

/-- EmptyRegisters: an empty S5; a divided group with S1 and S47 shared. -/
theorem witness_EmptyRegisters : emptyS (gOf (dev.withG (fun g => { g with sEmpty := [(5, true)] }))) (pOf dev) 5 = true ∧
    emptyS (gOf dev4) (pOf dev4) 1 = false ∧ emptyS (gOf dev4) (pOf dev4) 47 = false ∧ 1 < (gOf dev4).splits.length ∧
    (lan.laneActor { lf with fe := 7 }).isSome = true ∧
    onLane (lan.withG (fun g => { g with vEmpty := [(32 * 4, true), (32 * 5 + 31, true), (32 * 6, true)] })) { lf with fe := 7 }
      (fun c => c.emptyRead { lf with fe := 7 } 1 0 0 && c.emptyRead { lf with fe := 7 } 1 1 0 && c.emptyRead { lf with fe := 7 } 1 0 1 &&
        c.emptyRead { lf with fe := 7 } 1 1 1) = true := by
  decide +kernel

/-! ### Lane instructions -/

/-- The acting run's unit has a scratchpad of four granules, a window, tiles and hods 0 and 1. -/
def lanD : State := lan.withU (fun u => { u with scr := 4, priv := 8, acc := 16, hods := [(0, hod 0 0), (1, hod 4 0)] })

/-- Every type that a statement names is met, at the ends of its range, by a run that acts in every lane. -/
def ofType (t : BitVec 5) : LF := { lf with ty := t }

/-- LaneIntegerArithmetic, LaneBitInstructions, LaneFloatingPoint, LaneDivisionAndDotProducts, LaneConversionsAndBlockFormats,
LaneComparesAndPredicates, LaneExchangesVotesAndQuads, LaneReductionsAndScans: a run acts, no block is empty. -/
theorem witness_lanes : [0, 7, 8, 11, 13, 14, 16, 17].all (fun t => onLane lan (ofType t) (fun c =>
      c.act == 0xFFFF_FFFF && !c.emptyRead (ofType t) 1 1 1 && !c.emptyRead (ofType t) 1 1 0 && !c.emptyRead (ofType t) 1 0 0 &&
        !c.emptyRead (ofType t) 0 0 0)) = true ∧
    (ofType 7).ty.toNat < 8 ∧ (ofType 17).ty.toNat = 17 ∧ 8 ≤ (ofType 11).ty.toNat ∧ (ofType 16).ty.toNat ≤ 16 := by
  decide +kernel

/-- LaneDivision: no bad lane, bad lanes with MODE.AE 0 and 1. -/
theorem witness_LaneDivision : onLane lan { lf with b := 255, imm := 3 } (fun c => c.b { lf with b := 255, imm := 3 } 31 == 3 && !c.g.mode.getLsbD 1) = true ∧
    onLane (lan.withG (fun g => { g with mode := 2 })) lf (fun c => c.b lf 0 == 0 && c.g.mode.getLsbD 1) = true := by
  decide +kernel

/-- CVT: more, fewer and as many elements, at the first and last part. -/
theorem witness_LaneConversions : tyCount 8 ≤ tyCount 9 ∧ tyCount 9 < tyCount 12 ∧ 3 * tyCount 9 ≤ 7 ∧ 7 < 3 * tyCount 9 + tyCount 9 ∧
    0 < 3 * tyCount 9 ∧ tyCount 8 ≤ tyCount 0 := by decide

/-- Comparison conditions, shuffles at their greatest immediate, segments that begin at a lane and go on. -/
theorem witness_LaneCross : (9 : BitVec 6).toNat % 16 ≤ 9 ∧ (31 : BitVec 32).toNat < 32 * tyCount 0 ∧
    onLane lan lf (fun c => c.real == 0xFFFF_FFFF && c.b lf 1 == 0) = true ∧
    onLane (lan.withG (fun g => { g with helper := 1 })) lf (fun c => c.real == 0xFFFF_FFFE) = true ∧
    onLane (lan.withG (fun g => g.setV false 5 3 1)) lf (fun c => c.b lf 3 == 1) = true := by
  decide +kernel

/-- LaneQuadInstructions: a quad whole, and one whose lane 1 does not act. -/
theorem witness_LaneQuads : onLane lan { lf with ty := 9 } (fun c => c.act.getLsbD 0 && c.act.getLsbD 1) = true ∧
    onLane (lan.withP (fun p => { p with running := p.running.map (fun r => { r with active := 0xFFFF_FFFD }) })) { lf with ty := 9 }
      (fun c => c.act.getLsbD 0 && !c.act.getLsbD 1) = true := by
  decide +kernel

/-- Lanes that act in no lane. -/
def idle : State := lanD.withP (fun p => { p with running := p.running.map (fun r => { r with active := 0 }) })

/-- A full replay queue. -/
def forty : FMap Producer := (List.range 40).map (fun k => (k, mkProducer .near false 0 0 0 .none 1))
def full : State := lanD.withG (fun g => { g with replay := forty, nextPid := 40 })

/-- LaneAndScratchpadAccesses: a shape that waits and shapes that do not; lanes in bounds, aligned, up to the last byte; none. -/
theorem witness_LaneAndScratchpadAccesses : onLane lanD lf (fun c => !(plainShape .memory .load lf).waits c lanD && decide (c.act ≠ 0) &&
      c.r.dove.isNone && !c.g.replayFull) = true ∧
    onLane full lf (fun c => (plainShape .memory .load lf).waits c full && (plainShape .scratchpad .load lf).waits c full &&
      (atomShape .memory lf).waits c full) = true ∧
    onLane idle lf (fun c => c.act == 0 && !(plainShape .window .store lf).waits c idle) = true ∧
    [0, 1, 2, 3].all (fun w => onLane (lanD.withG (fun g => laneList.foldl (fun g l => g.setV false 4 l (BitVec.ofNat 64 (8 * l))) g))
      { lf with md := w, imm := 0 } (fun c => laneList.all (fun l =>
        decide (((plainShape .scratchpad .store { lf with md := w }).addr c l).toNat % (plainShape .scratchpad .store { lf with md := w }).size = 0) &&
        decide (((plainShape .scratchpad .store { lf with md := w }).addr c l).toNat + (plainShape .scratchpad .store { lf with md := w }).size ≤
          (uOf lanD).scrSize)))) = true ∧ (uOf lanD).scrSize < 2 ^ 63 := by
  decide +kernel

/-- LaneHodsAndTrapif: a hod with room and data, full and empty ones, owned and faulted ones; slots of 256 bytes for 32 lanes; a
lane that traps, and none. -/
theorem witness_LaneHodsAndTrapif : onLane idle lf (fun c => c.act == 0 && !c.emptyRead lf 0 0 1) = true ∧
    (hod 0 0).room = 4 ∧ (hod 4 0).room = 0 ∧ 0 + 8 * 31 + 8 ≤ ({ hod 0 0 with slotb := 256 }).slotb ∧ full.actor.isSome = true ∧
    (gOf full).replayFull = true ∧ (gOf lanD).replayFull = false ∧ (hod 0 0).owned true = false ∧ (hod 0 0).owned false = false ∧
    onLane lanD { lf with md := 1 } (fun c => c.a lf 0 == 0) = true := by
  decide +kernel

/-- A unit with a bank latched in the array. -/
def lanM : State :=
  (lanD.withU (fun u => { u with banks := [(0, ⟨0, 11, false, false⟩)] })).withK (fun k =>
    { k with banks := [(0, ⟨0, ⟨0, 11, false, false⟩, [], true, false⟩)] })

/-- MatrixInstructions: a tile image that fits, one misaligned and one outside; a bank ready and none; tile 15; columns up to
128. -/
theorem witness_MatrixInstructions : 0 % 64 = 0 ∧ 0 + imageBytes ⟨0, 11, true, false⟩ ((uOf lanD).scrAt 0 8) ≤ (uOf lanD).scrSize ∧ 8 % 64 ≠ 0 ∧
    (uOf lanD).scrSize < 1048576 + 64 ∧ onLane lanM { lf with d := 15, ty := 11 } (fun c => !c.emptyRead { lf with d := 15, ty := 11 } 16 0 0 &&
      (match bankReady (lanM.core 0) (uOf lanM) 0 0 { lf with d := 15, ty := 11 } false with | .ready _ => true | _ => false)) = true ∧
    (match bankReady (lanD.core 0) (uOf lanD) 0 0 { lf with d := 15, ty := 11 } false with | .engine => true | _ => false) = true ∧
    lanM.relatching 0 = false ∧ 15 < (uOf lanM).acc ∧ (uOf lanM).acc ≤ 16 ∧ 112 + 8 * accCols 9 ≤ 128 ∧ (gOf lanM).replayFull = false := by
  decide +kernel

/-- A ray of lane 0 at record block 4, suspended at a candidate that its group has. -/
def ray : Ray := ⟨0, 0, some 0, none, 4, 0, 0, 1, 0, 0, 0xFF, 0, 0, none, none, [], 0, .suspended, [], [], none, 0, false, none, true, 0, false, false, none⟩

def lanR (r : Ray) : State :=
  { lan with rays := [(1, r)], nextRay := 2 }.withG (fun g => { g with rays := [(rayKey 0 4, 1)] })

/-- RayInstructions: no lane acting, only helper lanes, valid cases; rays at a candidate in lane 0, and none in the others. -/
theorem witness_RayInstructions : onLane idle lf (fun c => c.act == 0 && !c.emptyRead lf 4 1 0) = true ∧
    onLane (lanD.withG (fun g => { g with helper := 0xFFFF_FFFF })) { lf with d := 212 } (fun c => c.act != 0 && c.real == 0 && !c.g.replayFull) = true ∧
    onLane lanD lf (fun c => (traceCases lanD c lf (slackOf c.g c.p 0)).2.length == 32) = true ∧
    onLane (lanR ray) lf (fun c => (c.g.rayAt (lanR ray) 0 4).any (fun e => e.2.atCandidate) && !(c.g.rayAt (lanR ray) 1 4).any (fun e => e.2.atCandidate)) = true ∧
    onLane (lanR { ray with pid := none, resumed := true }) lf (fun c =>
      (c.g.rayAt (lanR { ray with pid := none, resumed := true }) 0 4).any (fun e => e.2.resumed && e.2.pid.isNone)) = true ∧
    onLane ((lanR ray).withP (fun p => { p with running := p.running.map (fun r => { r with active := 1 }) })) lf (fun c => c.real == 1) = true := by
  decide +kernel

/-- FilterAndQueryInstructions: no lane acting, a full queue, room in the queue; a network and none. -/
theorem witness_FilterAndQueryInstructions : onLane idle lf (fun c => c.act == 0 && !c.emptyRead lf 1 1 1 && !c.emptyRead lf 2 0 1 && !c.emptyRead lf 1 0 2) = true ∧
    onLane full lf (fun c => c.g.replayFull && c.act != 0 && !c.emptyRead lf 1 1 1) = true ∧
    onLane lanD lf (fun c => !c.g.replayFull && c.act != 0 && !c.emptyRead lf 1 1 1 && !c.emptyRead lf 2 0 1) = true ∧
    (FMap.get (FMap.put lanD.nets (netKey 0 3) net) (netKey 0 3)).isSome = true ∧ FMap.get lanD.nets (netKey 0 3) = none := by
  decide +kernel

/-- IssueAdvancesTheRun: runs of two instructions and of one, one with a run begun behind it, in a canonical slot table. -/
theorem witness_IssueAdvancesTheRun : (pOf lan).running.any (fun r => r.todo.length == 1 && r.dove.isNone) = true ∧ (gOf lan).due = [] ∧
    FMap.wf (lan.core 0).lslots = true ∧ (FMap.get (lan.core 0).lslots 0).isSome = true ∧
    (pOf (lan.withP (fun p => { p with running := p.running.map (fun r => { r with todo := r.todo ++ r.todo }) }))).running.any (fun r => r.todo.length == 2) = true ∧
    (pOf (lan.withP (fun p => { p with runq := p.running.toList.map (fun r => { r with begun := true }) }))).runq.head?.any (fun r => r.begun) = true := by
  decide +kernel

/-! ### Events of the scheduler, the network, memory -/

/-- A run of line 1 waits for a lane slot; core 0 is in partition 0, which has cluster 0. -/
def part0 : Part := ⟨true, 1, 0, 0, 0, 0, 0, false, false⟩
def queued : State := (match exec (.cRun 1 0) dev with | .next t => t | _ => dev)
def devP : State := { dev with parts := FMap.put dev.parts 0 part0 }
def queuedP : State := { queued with parts := FMap.put queued.parts 0 part0 }

/-- Core 0 as its next cycle begins. -/
def turned (s : State) : State :=
  let c := ((s.countSplits 0).setCore 0 ((s.countSplits 0).core 0).tick).endYields 0
  (if (c.core 0).ccyc % 4096 = 0 then c.issuePeriod 0 else c).settleCore 0

/-- LaneSlotsSelect: no candidate and one, a free slot and slots that are held, a core whose budget lasts. -/
theorem witness_LaneSlotsSelect : (turned dev).cands 0 = [] ∧ (turned queuedP).cands 0 ≠ [] ∧
    (minBy Cand.before ((turned queuedP).cands 0)).isSome = true ∧ (turned queuedP).issueOk 0 = true ∧
    FMap.get ((turned queuedP).core 0).lslots 0 = none ∧ (FMap.get ((turned lan).core 0).lslots 0).isSome = true ∧
    FMap.get ((turned lan).core 0).lslots 1 = none ∧ FMap.wf (lan.core 0).lslots = true ∧ FMap.get (queuedP.countSplits 0).groups 0 ≠ none ∧
    coreOfGid 0 = 0 := by
  decide +kernel

/-- A deferred trap of a class-D cause. -/
def dueAt (cause : Nat) : Due := ⟨.D, cause, false, 0, 1, 0, false⟩

/-- SchedulerEvents: words and runs that have waited 64 cycles; each deferred cause at a boundary; an acting split; partitions
as they are and halted. -/
theorem witness_SchedulerEvents : Stands dev 0 0 0 (gOf dev) (pOf dev) ∧ Stands lan 0 0 0 (gOf lan) (pOf lan) ∧
    64 ≤ (pOf (dev.withP (fun p => { p with waited := 64 }))).waited ∧ (pOf (dev.withP (fun p => { p with waited := 64, overdue := none }))).overdue = none ∧ (pOf queued).running = none ∧
    (pOf queued).runq.length = 1 ∧ ((pOf lan).running.map (fun r => r.overdue)) = some none ∧
    [cPEERFAULT, cPEERTIMEOUT, cPOISON, cLATESLACK, cCANCELLED, cPREEMPT].all (fun c =>
      (gOf (dev.withG (fun g => { g with due := [dueAt c] }))).deferred.any (fun d => d.1.cause == c)) = true ∧
    (firstDue [dueAt cPOISON]).isNone = true ∧ (gOf dev).issuing = false ∧ (gOf dev).halted = false ∧ (gOf dev).stopped = false ∧
    dev.partHalted (dev.corePart 0) = false ∧
    ({ dev with parts := [(0, { part0 with saved := true })] } : State).partHalted 0 = true := by
  refine ⟨⟨?_, ?_⟩, ⟨?_, ?_⟩, ?_⟩ <;> decide +kernel

/-- A launch of two units, one of which is placed. -/
def waiting (pers : Bool) : Launch := { loadLaunch with gx := 2, placed := 0, live := 0, pers := pers, entry := 8, reserved := [(0, none), (1, none)] }

/-- UnitsArePlaced: a partition that is saved, one with nothing to place, a persistent launch and one that fits. -/
theorem witness_UnitsArePlaced : ((FMap.get ({ dev with parts := [(0, { part0 with saved := true })] } : State).parts 0).any (fun p => p.saving || p.saved)) = true ∧
    ((FMap.get devP.parts 0).any (fun p => p.saving || p.saved)) = false ∧ devP.placeable 0 = [] ∧
    ({ devP with launches := [(2, waiting true)] } : State).placeable 0 = [(2, waiting true)] ∧
    ({ devP with launches := [(2, waiting false)] } : State).placeable 0 = [(2, waiting false)] ∧
    (({ devP with launches := [(2, waiting false)] } : State).firstFit 0 [(2, waiting false)]).any (fun e => e.1 == 2 && e.2.2.2.isNone) = true := by
  decide +kernel

/-- A producer whose lane 3 has come, of V8 or of S5. -/
def come : Producer := { mkProducer .near false 0 0 0 (.lanes 8 1 false) 0xF with ready := 8, vals := [(3, 7)] }
def comeS : Producer := { mkProducer .access true 0 0 0 (.scalar 5 false) 1 with ready := 1, vals := [(32, 7)] }

/-- FillsAndLandings: a line that a run waits for; results of lanes and of a scalar; a bank that loads, one for another unit, an
MMA that waits. -/
theorem witness_FillsAndLandings :
    (gOf (queued.withP (fun p => { p with runq := [], running := (pOf lan).running.map (fun r =>
      { r with todo := [⟨0, BitVec.ofNat 96 ((encode (.lAdd lf2)).getD (0, 0)).2, 0xFFFF_FFFF⟩] }) }))).wantsLine 2 = true ∧
    FMap.get (gOf dev).lines 2 = none ∧ (uOf dev).lru.length < dev.regionLines (uOf dev) ∧ FMap.rd false (gOf dev).written 2 = false ∧
    come.kind = .near ∧ come.ctl = false ∧ come.arrivedLanes = 8 ∧ come.poison = 0 ∧ come.errs = [] ∧ come.late = 0 ∧ (gOf dev).handler = none ∧
    (gOf dev).stopFrame = [] ∧ dev.rays = [] ∧ comeS.kind = .access ∧ comeS.ctl = true ∧ comeS.ready ≠ 0 ∧ comeS.landed ≠ comeS.mask ∧
    comeS.sup ≠ comeS.mask ∧ (FMap.get ((lanM.withK (fun k => { k with banks := [(1, ⟨0, ⟨0, 11, false, false⟩, [], true, true⟩)] })).core 0).banks 1).any (fun b => b.loading) = true ∧
    FMap.get (uOf lanM).banks 0 = some ⟨0, 11, false, false⟩ ∧ FMap.get (lanD.core 0).banks 0 = none ∧
    decodeLane ((encode (.lMma { lf with d := 2, a := 0, b := 0, c := 0, ty := 11 })).getD (0, 0)).2 = some (.lMma { lf with d := 2, a := 0, b := 0, c := 0, ty := 11 }) ∧
    decodeLane ((encode (.lMmas { lf with d := 2, a := 0, b := 0, c := 0, ty := 11 })).getD (0, 0)).2 = some (.lMmas { lf with d := 2, a := 0, b := 0, c := 0, ty := 11 }) := by
  decide +kernel

/-- A packet with a body at a place. -/
def pkt (at_ : Place) (inLink : Bool) (path : List Place) (slack : Nat) (b : Body) : Packet :=
  { mkPacket 0 0 0 slack 0 0 1 b with at_ := at_, inLink := inLink, path := path }

def withPkt (p : Packet) : State := { dev with pkts := [(1, p)], nextPkt := 2 }

/-- A load, a store and an atomic of 8 bytes at 0x2_0000. -/
def req (op : AccOp) (pid : Option Nat) : Body := .req [⟨32, 0x2_0000, 8, op, 0⟩] pid false false 0 false 0 0

def atHub : Packet := pkt (.cluster 0) false [.sector 0] 5 (req (.load []) (some 0))

/-- The switch of cluster 0 at cycle 27, one cycle after what stands there has come. -/
def sw27 : Switch := { Switch.reset with cycle := 27 }

/-- NetworkSwitches: an output with a packet to grant, and one without; arrivals at a switch and at a core; slack that runs out. -/
theorem witness_NetworkSwitches : (switchKey (.cluster 0)).isSome = true ∧
    (mayGrant (withPkt atHub) sw27 (.cluster 0) (.sector 0)).length = 1 ∧ sw27.cycle % 14 = 13 ∧ Switch.reset.cycle % 14 ≠ 13 ∧
    ((withPkt atHub).outBudget (.cluster 0) (.sector 0) 0).2 = true ∧
    (sw27.choose (.cluster 0) (.sector 0) [(1, atHub)]).isSome = true ∧
    mayGrant dev (FMap.rd Switch.reset [] 0) (.cluster 0) (.sector 0) = [] ∧
    ((pkt (.core 0) true [.cluster 0] 0 (req (.load []) (some 0))).path.head? = some (.cluster 0)) ∧
    (FMap.get ((dev.withG (fun g => { g with replay := [(0, comeS)] })).groups) 0).any (fun g => (FMap.get g.replay 0).any (fun q => !q.isAtomic)) = true ∧
    ticks (.cluster 0) = true ∧ atHub.stands (.cluster 0) = true ∧ { atHub with slack := 1 }.slack = 1 := by
  decide +kernel

/-- Device 3. -/
def devF : State := { dev with mgmt := { dev.mgmt with fid := 3 } }

/-- BracesAndPutsArrive: set-ups that wait at a hop, free or taken, and at their end; puts for a unit that is there and for none. -/
theorem witness_BracesAndPutsArrive :
    (pkt (.cluster 0) false [.sector 0] 0 (.setup 0 1 true false)).braced = false ∧ Switch.reset.braceAt (.sector 0) = none ∧
    ({ Switch.reset with brace := [(.sector 0, ⟨0, 0, 1, 0, 256⟩)] }.braceAt (.sector 0)).isSome = true ∧
    devF.epUnit (devF.endpoint 0) = some 0 ∧ (FMap.get dev.units 0).any (fun u => decide (u.twin ≠ some 0) && decide (0 + 8 ≤ u.scrSize)) = true ∧
    FMap.rd 0 dev.puts 0 + 8 < 2 ^ 20 ∧ devF.epUnit (devF.endpoint 0 + 1) = none ∧ dev.log.length < 64 := by
  decide +kernel

/-- BudgetsAreRenewed: partitions as they are and halted, in a canonical table. -/
theorem witness_BudgetsAreRenewed : dev.partHalted 0 = false ∧ ({ dev with parts := [(0, { part0 with saved := true })] } : State).partHalted 0 = true ∧
    FMap.wf devP.parts = true ∧ devP.parts.all (fun e => decide (e.1 < 32)) = true ∧
    (FMap.get ({ dev with parts := [(31, { part0 with saved := true })] } : State).parts 31).any (fun q => q.saved) = true := by
  decide +kernel

/-- A line of 0x2_0000 stands at its home. -/
def homed (op : AccOp) (pid : Option Nat) : State :=
  (withPkt (pkt (.slice (sliceOf 0x2_0000)) false [] 5 (req op pid))).fillHome 0 0 0x2_0000 128

/-- HomesPerformAccesses: a store, a load and an atomic at their home, and a load of a line that is not there. -/
theorem witness_HomesPerformAccesses :
    AtHome (homed (.store 7) none) 1 (pkt (.slice (sliceOf 0x2_0000)) false [] 5 (req (.store 7) none)) (sliceOf 0x2_0000) ⟨32, 0x2_0000, 8, .store 7, 0⟩ none ∧
    AtHome (homed (.load []) (some 0)) 1 (pkt (.slice (sliceOf 0x2_0000)) false [] 5 (req (.load []) (some 0))) (sliceOf 0x2_0000) ⟨32, 0x2_0000, 8, .load [], 0⟩ (some 0) ∧
    AtHome (homed (.atomic 0 0 1 0) (some 0)) 1 (pkt (.slice (sliceOf 0x2_0000)) false [] 5 (req (.atomic 0 0 1 0) (some 0))) (sliceOf 0x2_0000)
      ⟨32, 0x2_0000, 8, .atomic 0 0 1 0, 0⟩ (some 0) ∧
    dev.homeLine 0x2_0000 = none ∧ sectorMask 0x2_0000 8 ≠ 0 ∧ inHbm 0x2_0000 = true ∧ (dev.sill 0).queue = [] :=
  ⟨⟨by decide +kernel, ⟨false, false, 0, 0, rfl⟩, by decide +kernel, (fun _ _ _ _ h hp => by cases h; cases hp), by decide +kernel, by decide +kernel⟩,
   ⟨by decide +kernel, ⟨false, false, 0, 0, rfl⟩, by decide +kernel, (fun _ _ _ _ h hp => by cases h; cases hp), by decide +kernel, by decide +kernel⟩,
   ⟨by decide +kernel, ⟨false, false, 0, 0, rfl⟩, by decide +kernel, (fun _ _ _ _ h hp => by cases h; cases hp), by decide +kernel, by decide +kernel⟩, by decide +kernel⟩

/-- A read and a write of one line, of different slack, at sill 0; a page walk that finds its leaf. -/
def sillQ : State := (dev.queueHbm 0x2_0000 false 1 5 0 0 [] []).queueHbm 0x2_0080 true 1 9 0 0 [] []

/-- HbmWalksHostRepliesAndErrors: requests to serve; a walk that finds a leaf and one that does not; a line that is waited for;
words in the scratchpad, in the L2, in HBM; a line with two errors. -/
theorem witness_HbmWalksHostRepliesAndErrors : (servable sillQ 0).length = 2 ∧ (servable sillQ 0).head?.map (fun e => e.2.write) = some false ∧
    (servable (dev.queueHbm 0x2_0080 true 1 9 0 0 [] []) 0).length = 1 ∧
    FMap.get ({ dev with symErr := [(0, 2)] } : State).symErr 0 = some 2 ∧ 0 ∈ sectorNos 0 15 ∧
    fine (walkAccess (withTables dev) 0 0 0x5_0000 .read true) = true ∧ fine (walkAccess (withTables dev) 0 0 0x3_0000 .read true) = false ∧
    ({ dev with hostWait := [0x400] } : State).hostWait.contains 0x400 = true ∧ inHost (128 * (Config.hostBase / 128)) = true ∧ inHost 0 = false ∧
    8 * 0 < (uOf dev).scrSize ∧ (homed (.load []) none).sectorsHere (8 * 0x4000) 8 = true ∧ inHbm (32 * 0) = true := by
  decide +kernel

/-! ### Engines, rays, filters, networks -/

/-- A copy of one row, from the page to the scratchpad or back; core 0 with it first. -/
def copyOf (toScr : Bool) : Copy :=
  ⟨0, 0xFFF, 1, !toScr, toScr, [(if toScr then 0x2_0000 else 0, if toScr then 0 else 0x2_0000, 33)],
   if toScr then [⟨0x2_0000, 33, 0x8000_0000_0002_00F8⟩] else [], if toScr then [] else [⟨0x2_0000, 33, 0x8000_0000_0002_00F8⟩], 0, [], []⟩

/-- A gather of one element of 8 bytes from 0x2_0000, from hod 1 to hod 0. -/
def gather : Gather := ⟨0, 1, 0, 0x2_0000, 8, false, 1, 0, true, 0⟩
def devH : State := dev.withU (fun u => { u with hods := [(0, hod 0 0), (1, ⟨128, 4, 48, 1, 0, none, none⟩)] })

/-- HBIND .raster's descriptor, and the raster that it binds. -/
def rasterDesc : List Byte := bytesOf 8 0x2_1000 ++ bytesOf 8 (2 ^ 32 * 8 + 2 ^ 16 + 1) ++ bytesOf 8 (2 ^ 16 * 0xFFF + 2 ^ 9 * 2 + 2 ^ 8 + 1) ++ bytesOf 8 8
def raster : Raster := ⟨0, 1, 0, 0x2_1000, 8, 1, 1, 2, true, 1, none, true, 0, 0, 0, 0, none, [], 0xFFF⟩

/-- CopyGatherAndRasterEnginesWork: rows of 33 bytes either way; a firing of the gather engine; a descriptor of R421 at the ends
of its ranges, with an entry and without; a firing of a raster. -/
theorem witness_CopyGatherAndRasterEnginesWork : (copyOf true).rows = [(0x2_0000, 0, 33)] ∧ (copyOf true).dstScr = true ∧ (copyOf false).dstScr = false ∧
    dev.copyBlocked 0 (copyOf true) 0x2_0000 32 33 = false ∧ (copyOf false).ahead = [] ∧ (copyOf false).behind = [] ∧
    (spanAt (copyOf false).dspans 0x2_0000).any (fun x => x.peer == 0 && x.kind != 2 && (List.range 32).all (fun i => x.loc (0x2_0000 + i) == 0x2_0000 + i) && decide (0x2_0000 + min 32 33 ≤ x.va + x.len)) = true ∧
    (hod 1 0).fill ≠ 0 ∧ (hod 0 0).room ≠ 0 ∧ gather.hin ≠ gather.hout ∧
    (match (translateSpans devH 0 0 .read true (pageParts 2 0x2_0000 8)).2 with | .ok ss => ss.all (fun x => x.peer == 0) | .error _ => false) = true ∧
    fine ((withBytes 0x2_0020 rasterDesc devH).readVa 0 0 true 3 0x2_0020 32) = true ∧ 48 * 1 ≤ 48 ∧ 16 ≤ (hod 0 0).slotb ∧
    FMap.get devH.rasters 0 = none ∧ (devH.checkCall 0 0 0 32 8 true true none (0x1_0000 + 8)).2 = none ∧
    (devH.rasterSlot raster 0 0 (uOf devH) 128).fault = none := by
  decide +kernel

/-- Address space 0 with page 2 mapped, a structure of one treelet at 0x2_0200: a triangle around the axis, any-hit. -/
def scened : State :=
  withBytes 0x2_0200 ([0xBF80_0000, 0xBF80_0000, 0x3F80_0000, 0x3F80_0000, 0xBF80_0000, 0x3F80_0000, 0, 0x3F80_0000, 0x3F80_0000].flatMap (bytesOf 4) ++
      bytesOf 4 0 ++ [0, 2])
    (withBytes 0x2_0100 (bytesOf 8 0x2_0200 ++ bytesOf 8 (2 * 2 ^ 16))
      (withBytes 0x2_0000 ([1, 0, 1, 0] ++ bytesOf 12 0 ++ [0, 0x1, 2] ++ bytesOf 5 0 ++ [0, 0x1, 2] ++ bytesOf 5 0 ++ bytesOf 16 0 ++ bytesOf 8 1 ++ bytesOf 8 0)
        (withBytes 0x101_8010 (bytesOf 8 0x8000_0000_0002_00F8)
          { withTables dev with spaces := FMap.put dev.spaces 0 ⟨0x100_0000, 0, 0, 0, 0, 0, 0x2_0000, 1, 0⟩ })))

/-- The axis, and a box around it; a ray along it with things to visit, in pipe 0 of stack 0. -/
def axis : Space3 := ⟨⟨0, 0, 0⟩, ⟨0, 0, 0x3F80_0000⟩, 0, 0⟩
def box : List (BitVec 32) := [0xBF80_0000, 0xBF80_0000, 0xBF80_0000, 0x3F80_0000, 0x3F80_0000, 0x3F80_0000]
def along (todo : List Visit) : Ray := { ray with flags := 1, tmax := 0x7F00_0000, todo := todo, stage := .piped 0 0 0 true, gen := 0 }

/-- What its visit does: 0 it goes on, 1 leaves, 2 suspends, 3 ends; 9 there is no treelet. -/
def visitOf (todo : List Visit) : Nat :=
  match scened.treeletFor 0 (along todo) 0 with
  | (s', some (t, loc)) =>
    if s'.poisonedAt loc (64 * t.nslot) then 8
    else match (Reader.run ⟨0, t.nslot, fun o n => s'.natAt (loc + o) n⟩ visitFuel (along todo)).1 with
      | .go _ => 0
      | .leave _ => 1
      | .suspend _ => 2
      | .finish _ => 3
  | (_, none) => 9

/-- A packet at sill 0. -/
def sillPkt (b : Body) : Packet := pkt (.sill 0) false [] 5 b

/-- RayAndFilterUnitsServe: messages of new and resumed rays; a free pipe; rays to choose from; visits of each ending; a
continuation; requests for SAMPLE and HGRID. -/
theorem witness_RayAndFilterUnitsServe : (sillPkt (.ray 1)).atSill = some 0 ∧ (ray.stage = .suspended) ∧ (dev.sill 0).spilled = [] ∧
    FMap.get (dev.sill 0).pipes 15 = none ∧ ray.needsCont = false ∧ dev.rayOk 0 0 = true ∧
    (pickRay [] [(1, ray), (2, { ray with slack := 65 })]).map (·.1) = some 1 ∧
    visitOf [.ref 0 0 box axis] = 3 ∧ visitOf [.tris 0 0 1 axis] = 2 ∧ visitOf [.ref 0 0 box axis, .node 1 0 axis] = 1 ∧
    FMap.get ({ dev with conts := [(1, ⟨0, none, 0, []⟩)] } : State).conts 1 = some ⟨0, none, 0, []⟩ ∧
    ((withPkt (sillPkt (.filter 0 3 true 0 [] 0))).nextFilter 0).map (·.1) = some 1 ∧ (FMap.get dev.groups 0).isSome = true ∧
    (dev.serveSample 0 0 0 0 true { lf with ty := 9 } [0, 0, BitVec.allOnes 64, 0, 0, 0]).2.poison = none := by
  decide +kernel

/-- A visit longer than one event goes on. -/
theorem witness_long_visit : visitOf (List.replicate 257 (.ref 0 0 box axis)) = 0 := by decide +kernel

/-- A query of V0's network from lane 3, alone in array 0 of a partition with cluster 0. -/
def query : Query := ⟨0, 0, 0, 0, 3, 0, [0], [], false, false, true, 5, false, 0, 0⟩
def netted : State := { devP with nets := [(netKey 0 0, net)] }.setRca 0 { (devP.rca 0) with queries := [query], clock := 8 }

/-- The network of slot 3 with a step of one sample asked for, and the sample. -/
def netStep : State :=
  { devP with nets := [(netKey 0 3, { net with pending := [1] })] }.setRca 0 { (devP.rca 0) with samples := [(3, [⟨[0], [0]⟩])] }

/-- NetworksAnswerAndLearn: an array with one query; a network that switches; a step that changes the master and one that is
discarded. -/
theorem witness_NetworksAnswerAndLearn : netted.partOfCluster 0 = some 0 ∧ (netted.rca 0).queries = [query] ∧ query.cyc + 8 ≤ (netted.rca 0).clock ∧ (devP.rca 0).queries = [] ∧ devP.nextBatchNet 0 = none ∧ netted.queryBlocked query = false ∧
    FMap.get (netted.rca 0).incoming 0 = none ∧ FMap.rd 1 (netted.rca 0).version 0 = 1 ∧ { net with switching := true }.switching = true ∧
    ((FMap.get devP.parts 0).any (fun p => p.saved)) = false ∧ ({ dev with spaces := [] } : State).rootOf 0 = none ∧
    netStep.nextStep 0 = some (netKey 0 3, { net with pending := [1] }, 1) ∧
    (stepMaster { net with b1 := 0x3F00_0000, b2 := 0x3F00_0000, eps := 0x3F80_0000 } [⟨[0], [0]⟩]).isSome = true ∧
    (stepMaster net [⟨[0x7F80], [0]⟩]).isNone = true := by
  decide +kernel

/-! ### Ports, the host, resets, the debugger, peers -/

/-- The device operates and port A holds SEMA. -/
def held : State := { dev with shared := { dev.shared with held := true, owner := 1 } }

/-- A record that GO can start: an entry that user mode may enter, in address space 0 of partition 0. -/
def goReady : State :=
  { withRecord 0x2_0000 false devP with spaces := [(0, ⟨0x100_0000, 0, 0, 0, 0, 0, 0, 0, 0⟩)],
                                        portA := { devP.portA with lrec := 0x2_0000 } }

/-- A save under way, whose groups are quiet and not; a partition's save in the shadow of core 0. -/
def saving : State := { devP with parts := [(0, { part0 with saving := true })] }
def shadow : Shadow := ⟨0, [], [], none, [], 0, none⟩

/-- PortCommands: busy and idle ports, absent and present spaces and partitions, a launch that starts; jobs of the port and
none; SEMA free and held; saves refused, begun, done. -/
theorem witness_PortCommands : Running dev ∧ Running held ∧ ({ dev.portA with busy := true }).busy = true ∧ dev.portA.busy = false ∧
    FMap.get dev.spaces 0 = none ∧ FMap.get goReady.parts 0 = some part0 ∧ ({ part0 with valid := false }).valid = false ∧
    fine (goReady.readVa 0 0 false 3 0x2_0000 64) = true ∧ recordOk 0x2_0000 (recordBytes goReady) = true ∧
    (goReady.checkEntry 0 0 0 true 0 0x1_0008).2 = none ∧ goReady.openLaunches 0 < 4096 ∧ (coresOf (goReady.clustersOf 0)).headD 0 = 0 ∧
    ({ dev with jobs := [] } : State).jobs = [] ∧ (dev.jobs.find? (fun e => decide (e.2.port = .a))).isSome = true ∧
    dev.groups.all (fun e => !e.2.halted) = true ∧ dev.shared.held = false ∧ held.shared.held = true ∧ held.holdsSema .a = true ∧
    held.holdsSema .b = false ∧ dev.shadowBusy 0 = false ∧ ({ devP with shadow := [(0, shadow)] } : State).shadowBusy 0 = true ∧
    (devP.groupsOfPart 0).length = 1 ∧ devP.slotsFree 0 shadow = true ∧ (part0.clusters.getLsbD (clusterOf 0)) = true ∧
    (saving.preemptAll 0).quiet 0 = false ∧ ({ saving with groups := [], units := [], jobs := [] } : State).quiet 0 = true := by
  refine ⟨⟨?_, ?_⟩, ⟨?_, ?_⟩, ?_⟩ <;> decide +kernel

/-- HostAccesses: lines of the window that are held and not; window accesses at its ends. -/
theorem witness_HostAccesses : inHost (128 * (Config.hostBase / 128)) = true ∧
    FMap.get ({ dev with hostLines := [(Config.hostBase / 128, true)] } : State).hostLines (Config.hostBase / 128) = some true ∧
    2 ^ 28 - 8 + 8 ≤ 2 ^ 28 * ({ dev.shared with hdmn := 1 }).hdmn.toNat ∧ inHbm (0 + (2 ^ 28 - 8)) = true ∧ inHbm (0 + (2 ^ 28 - 8) + 8 - 1) = true ∧
    inHbm (Config.hostBase + 0) = false := by
  decide +kernel

/-- ResetsAndPowerStates: SEMA held and not; groups and none; each power mode; a canonical partition table; a limit exceeded and
kept; an image verifies or does not. -/
theorem witness_ResetsAndPowerStates : Running held ∧ held.holdsSema .a = true ∧ held.holdsSema .dbg = false ∧ held.mayRetain = false ∧
    State.reset.mayRetain = true ∧ State.reset.groups = [] ∧ State.reset.enginesBusy = false ∧ dev.groups ≠ [] ∧ State.reset.mgmt.mode = .run ∧
    ({ dev.mgmt with mode := .idle }).mode = .idle ∧ ({ dev.mgmt with mode := .retention }).mode = .retention ∧
    ({ dev.mgmt with mode := .off }).mode = .off ∧ FMap.wf devP.parts = true ∧ dev.l2 = [] ∧ dev.sills = [] ∧ dev.hostLines = [] ∧
    1000 * dev.shared.plim.toNat * 1 < [1_600_001].sum ∧ ¬(1000 * dev.shared.plim.toNat * 1 < [1_600_000].sum ∨ 1_800_000 < 1_600_000) ∧
    ∀ f, imageOk f = true ∨ imageOk f = false := by
  refine ⟨⟨?_, ?_⟩, ?_, ?_, ?_, ?_, ?_, ?_, ?_, ?_, ?_, ?_, ?_, ?_, ?_, ?_, ?_, ?_, ?_, ?_⟩
  case refine_20 => intro f; cases imageOk f <;> simp
  all_goals decide +kernel

/-- DebuggerAndLifecycle: each level, a group that runs, that is stopped, that is halted; each lifecycle; either verdict on a
signature. -/
theorem witness_DebuggerAndLifecycle : Running dev ∧ ({ dev with mgmt := { dev.mgmt with debug := .invasive } } : State).invasive = true ∧
    dev.invasive = false ∧ (gOf dev).stopped = false ∧ (gOf dev).halted = false ∧ (gOf dev).stopAsked = false ∧
    (gOf (dev.withG (fun g => { g with stopped := true }))).stopFrame = [] ∧ (gOf dev).replay = [] ∧ levelNo .none < levelNo .observe ∧
    levelNo .observe < levelNo .invasive ∧ lifeNo .sealed ≤ lifeNo .sealed ∧ lifeNo .manufacture < lifeNo .returned ∧
    (({ dev.mgmt with life := .sealed }).life = .sealed) ∧ (({ dev.mgmt with key := .present }).key = .present) ∧
    KeyState.zeroised ≠ .present ∧ ∀ a b c, Config.ecdsaValid a b c = true ∨ Config.ecdsaValid a b c = false := by
  refine ⟨⟨?_, ?_⟩, ?_, ?_, ?_, ?_, ?_, ?_, ?_, ?_, ?_, ?_, ?_, ?_, ?_, ?_, ?_⟩
  case refine_17 => intro a b c; cases Config.ecdsaValid a b c <;> simp
  all_goals decide +kernel

/-- A load of 8 bytes that a peer sends to this device. -/
def inbound : PeerReq := ⟨3, 7, 0, 0x5_0000, 5, false, false, [3], .load 8⟩
def devT : State := { withTables dev with mgmt := { dev.mgmt with fid := 3 } }

/-- PeersAndLinks: a port in each state; a packet at an active port; a request to a peer; loads of this device that are performed
and refused, misaligned ones, one of another device. -/
theorem witness_PeersAndLinks : FutasPort.reset.state = .detect ∧ ({ FutasPort.reset with state := .active }).state = .active ∧
    (pkt (.futas 0) false [] 5 (req (.load []) (some 0))).at_ = .futas 0 ∧ FMap.wf (withPkt atHub).pkts = true ∧
    ({ atHub with peer := 2 }).peer ≠ 0 ∧ (FMap.get ((dev.withG (fun g => { g with replay := [(0, comeS)] })).groups) 0).any (fun g => (FMap.get g.replay 0).isSome) = true ∧
    Running devT ∧ inbound.dev = devT.mgmt.fid.toNat ∧ ({ inbound with dev := 4 }).dev ≠ devT.mgmt.fid.toNat ∧
    (match walkAccess devT 0 0 0x5_0000 .read true with | (s', .ok (leaf, loc)) => leafPeer leaf == 0 && !s'.poisonedAt loc 8 | _ => false) = true ∧
    fine (walkAccess devT 0 0 0x3_0000 .read true) = false ∧ (0x5_0004 : Word).toNat % 8 ≠ 0 := by
  refine ⟨?_, ?_, ?_, ?_, ?_, ?_, ⟨?_, ?_⟩, ?_⟩ <;> decide +kernel

/-! ### Decoding, stepping, trapping, memory -/

/-- DecodeAndEncodeAgree: well-formed instructions with an encoding, and events without. -/
theorem witness_DecodeAndEncodeAgree : WellFormed (.cSlit 63 0xFFFF_FFFF) ∧ (encode (.cSlit 63 0xFFFF_FFFF)).isSome = true ∧
    WellFormed (.lAdd lf2) ∧ (encode (.lAdd lf2)).isSome = true ∧ encode (.evRefresh 0 0) = none ∧
    (decodeLane 0x20BA_0080_C012_0000_0000_0000).isSome = true := by
  decide +kernel

/-- A supervisor entry at 0x1_0008, and the group's context in a page that it may write. -/
def trapReady : State :=
  (({ dev with mem := Memory.wr (Memory.wr [] 0x1_0000 (bytesOf 8 (2 ^ 60 + 2 ^ 30 - 1) ++ bytesOf 4 0x6A80_0000)) 0x2_0000 [0],
               spaces := [(0, ⟨0x100_0000, 0, 0, 0x40_0000, 0x1_0008, 0, 0, 0, 0⟩)] } : State).tlbFill 0 0 0x42_0000 0x8000_0000_0042_00F0).withG
    (fun g => { g with tvec := 0x1_0008 })

/-- The group as a trap of class D saves it. -/
def savedG (s : State) : Group :=
  { gOf s with due := [], tcause := BitVec.ofNat 9 cPOISON, tval := 0, tmask := 1, replay := s.withdrawn 0 (gOf s) }
def armedS (s : State) : State := s.putGroup 0 (savedG s)

/-- TakingATrap and TrapsByWordAndReturns: a vector that names an entry and one that does not, a frame that can be written and
read and one that cannot, both modes, a group with nothing due. -/
theorem witness_TakingATrap : (armedS trapReady).vectorOk 0 (savedG trapReady) = true ∧
    (armedS (trapReady.withG (fun g => { g with tvec := 0x1_000C }))).vectorOk 0 { savedG trapReady with tvec := 0x1_000C } = false ∧
    ((armedS trapReady).writeFrame 0 (savedG trapReady) ((dueAt cPOISON).runOf (pOf trapReady)).1 ((dueAt cPOISON).runOf (pOf trapReady)).2).isSome = true ∧
    ((armedS { dev with cores := [], tlbs := [] }).writeFrame 0 (savedG dev) none false).isSome = false ∧
    fine (trapReady.ctxLoc 0 (trapReady.tframe 0 (gOf trapReady)) .read) = true ∧
    (pOf trapReady).sm = false ∧ (pOf (trapReady.withP (fun p => { p with sm := true }))).sm = true ∧ (dueAt 0x10).cls ≠ .H ∧
    (gOf trapReady).due = [] ∧ (gOf trapReady).issuing = false ∧ (gOf trapReady).handler = none ∧ (gOf trapReady).halted = false := by
  decide +kernel

/-- A trap that is taken: SLD at an address without a page enters at TVEC with PAGEFAULT, in supervisor mode. -/
theorem test_trap_enters : after (exec (.cSld 7 0 0) trapReady) (fun t => acting t (fun g p =>
    p.pc == 0x1_0008 && p.sm && !p.pm && p.tpc == 0x1_0008 && g.tcause == 0x10 && g.tval == 0 && g.handler.isSome && !g.halted)) = true := by
  decide +kernel

/-- The state in which the turn of split 0 acts. -/
def turnOf (s : State) : State := { ({ s with agenda := [] } : State).unready 0 0 0 with cur := ⟨0, 0, 0⟩ }

/-- AStepRunsTheDecodedInstruction, a split's turn: the pipe takes it, its line is fetched. -/
theorem witness_Takes : Takes { dev with agenda := [.control 0 0 0] } [] 0 0 0 (gOf (turnOf dev)) (pOf (turnOf dev)) (turnOf dev) :=
  have h : (({ dev with agenda := [] } : State).nextSplit 0).any (fun r => r.gslot == 0 && r.place == 0) = true := by decide +kernel
  let ⟨r, hr, hp⟩ := (Option.any_eq_true _ _).mp h
  ⟨rfl, ⟨r, hr, by simpa using hp⟩, rfl, by decide +kernel⟩

/-- AStepRunsTheDecodedInstruction: words that decode and that do not, a page and none; a lane slot, alone and paired, held and
not; events that exist and not; a cycle that still issues and one that ends; an empty agenda. -/
theorem witness_AStepRunsTheDecodedInstruction :
    (match (turnOf dev).fetchLine 0 0 0 true 0x1_0008 with
      | (_, .ok line) => lineOk (headerOf line) (wordOf line) && !((pOf dev).seq && decide (wordIdx (pOf dev).pc = 2)) | _ => false) = true ∧
    (match decodeBytes false (bytesOf 8 0x6D00_0000) with | .ok (.cNop, _) => true | _ => false) = true ∧
    (match decodeBytes false (bytesOf 8 0xF000_0000) with | .error .illegal => true | _ => false) = true ∧
    (match (turnOf dev).fetchLine 0 0 0 true 0x9_0000 with | (_, .error _) => true | _ => false) = true ∧
    (FMap.get (lan.core 0).lslots 0) = some ⟨0, 0, none, 0, false⟩ ∧ (gOf lan).halted = false ∧ (gOf lan).stopped = false ∧
    (pOf lan).running.any (fun r => !r.suspended && (r.todo.head?.bind (fun i => decodeLane i.bits.toNat)).isSome) = true ∧
    isEvent (.evRefresh 0 0) = true ∧ WellFormed (.evRefresh 11 85) ∧ isEvent .cNop = false ∧
    (({ dev with agenda := [] } : State).cycleBusy 0 = true) ∧ (State.reset.cycleBusy 0 = false) ∧ WellFormed (.evLaneSlotSelect 0) ∧
    State.reset.agenda = [] ∧ State.reset.moves exec = [] := by
  decide +kernel

/-- MemoryStaysCanonical: a canonical memory with cells, and a step of that device. -/
theorem witness_MemoryStaysCanonical : MemOk dev ∧ MemOk State.reset ∧ after (step { dev with agenda := [.control 0 0 0] }) (fun _ => true) = true := by
  refine ⟨?_, rfl, ?_⟩
  · show Memory.wf dev.mem = true
    decide +kernel
  · decide +kernel

/-- An acquiring atomic of the acting split, of a lane or of its control stream (32), is on its way. -/
def acqBy (lane : Nat) : State :=
  { lanD with pkts := [(1, { mkPacket 0 0 0 5 0 0 1 (.req [⟨lane, 0x2_0000, 8, .atomic 0 0 1 0, 0⟩] (some 0) false false 0 false 1 4) with tag := 1 })],
              nextPkt := 2 }

/-- An acquiring atomic of lane 0. -/
def acq : State := acqBy 0

/-- LaneHodsAndTrapif, MatrixInstructions, RayInstructions, FilterAndQueryInstructions, PutsCountersAndBraces: an acquire that has
not read, and none; an array that is busy and one that is not; rays at the ends of their block numbers. -/
theorem witness_waits_of_lanes : acq.acquiring 0 0 = true ∧ acq.asksAcquire 0 0 = true ∧ acq.wordAcquires 0 0 = false ∧ (acqBy 32).wordAcquires 0 0 = true ∧ lanD.acquiring 0 0 = false ∧ lanD.asksAcquire 0 0 = false ∧
    (acq.laneActor lf).isSome = true ∧ lanM.arrayBusy = false ∧ (lanM.withK (fun k => { k with arrayFree := k.ccyc + 1 })).arrayBusy = true ∧
    rayKey 31 (recBlock true 231) ≠ rayKey 31 (recBlock false 231) ∧ (gOf acq).replayFull = false := by
  decide +kernel

/-- DividingWaitingAndMappingWordsComplete: BDIV with no, every and some lanes of the split; a join address and a target; a
callee that every lane names; a barrier object that expects 2; drained, in supervisor mode, with no copies. -/
theorem witness_DividingWaitingAndMappingWordsComplete : Settled (pOf dev) ∧
    (dev.checkReturn 0 0 0 true (jumpTo (pOf dev) (1 : BitVec 14))).2 = none ∧ (dev.checkTarget 0 0 0 true false (jumpTo (pOf dev) (1 : BitVec 14))).2 = none ∧
    callTargets (gOf (dev.withG (fun g => laneList.foldl (fun g l => g.setV false 4 l 0x1_0008) g))) (pOf dev) 4 = [(0x1_0008, (pOf dev).mask)] ∧
    fld ((uOf (dev.withU (fun u => { u with scratch := [(8, 2)] }))).scrWord 8) 0 24 = 2 ∧ (pOf devSm).sm = true ∧
    Free devSm (gOf devSm) (pOf devSm) [5, 6] 7 ∧ devSm.drained (gOf devSm) (pOf devSm) = true ∧ (∀ x, devSm.copyUses 0 x = false) ∧ dev.wordAcquires 0 0 = false ∧ (uOf dev).scrBad 8 8 = false ∧
    (devSm.walked (gOf devSm) 0).slot2 (devSm.ptroot (gOf devSm)) 0 = none ∧ dev.uoOutstanding 0 0 = false := by
  refine ⟨⟨by decide +kernel, by decide +kernel⟩, ?_, ?_, ?_, ?_, ?_, ⟨?_, ?_, ?_, ?_⟩, ?_, fun x => ?_, ?_, ?_, ?_, ?_⟩
  case refine_11 =>
    have h : devSm.cores.all (fun e => e.2.copies.isEmpty) = true := by decide +kernel
    have h0 : devSm.pkts = [] := by decide +kernel
    rw [State.copyUses, h0, List.any_nil, Bool.or_false, List.any_eq_false]
    intro e he
    have := List.all_eq_true.mp h e he
    simp only [List.isEmpty_iff] at this
    simp [this]
  all_goals decide +kernel

/-- RegisterReads: a device that operates, a log with an entry and without. -/
theorem witness_RegisterReads : State.reset.operates = true ∧ State.reset.log = [] ∧
    ({ dev with log := [⟨0x10, 3, 7, 0x10, 0⟩] } : State).log.length ≤ 64 ∧ dev.lost < 2 ^ 32 ∧
    ({ dev with log := [⟨0x10, 3, 7, 0x10, 0⟩] } : State).readBar 0x3000 = 1 := by
  decide +kernel

/-- Lane memory at the ends of X5's range, window offsets at the end of the window. -/
def lanX : State := lanD.withG (fun g => laneList.foldl (fun g l => g.setV false 4 l (BitVec.ofNat 64 (8 * l)))
  (g.setX 5 { vb := 0x10_0000, lim := 256, pte := 0x8000_0000_0000_00F8 }))
def lanW : State := lanD.withG (fun g => laneList.foldl (fun g l => g.setV false 4 l (BitVec.ofNat 64 ((uOf lanD).priv - 8))) g)

/-- Every acting lane of an access is aligned and in range, and the access does not wait. -/
def within (s : State) (f : LF) (sh : Shape) (base bytes : Nat) : Bool :=
  onLane s f (fun c => !sh.waits c s && !c.emptyRead f 1 0 1 && c.r.dove.isNone && decide (c.act ≠ 0) && laneList.all (fun l =>
    decide ((sh.addr c l).toNat % sh.size = 0 ∧ base ≤ (sh.addr c l).toNat ∧ (sh.addr c l).toNat + sh.size ≤ base + bytes)))

/-- LaneAndScratchpadAccesses: lanes inside an X register's range up to its end, with D, W and U set; a window's last word; the
words of atomics in the scratchpad, each lane's its own. -/
theorem witness_LaneAccessesComplete :
    within lanX lf (plainShape .memory .load lf) 0x10_0000 256 = true ∧ within lanX lf (plainShape .memory .store lf) 0x10_0000 256 = true ∧
    within lanX lf (atomShape .memory lf) 0x10_0000 256 = true ∧ leafD ((gOf lanX).getX 5).pte = true ∧
    rightsFault ((gOf lanX).getX 5).pte .write true = none ∧ accessKind ((gOf lanX).getX 5).pte 0x10_0000 ≠ 2 ∧
    0 < (uOf lanW).priv ∧ (uOf lanW).priv ≤ 2048 ∧ within lanW lf (plainShape .window .load lf) 0 (uOf lanW).priv = true ∧
    within lanW lf (plainShape .window .store lf) 0 (uOf lanW).priv = true ∧
    within lanX lf (atomShape .scratchpad lf) 0 (uOf lanX).scrSize = true := by
  decide +kernel

/-! ### The clauses that follow a transfer, a join, a launch, a barrier, a handler -/

/-- MovingTheProgramCounter: the group is undivided, and the target's line is there; BranchesAndCalls goes there. -/
theorem witness_lineAt : (gOf dev).splits = [(0, pOf dev)] ∧ (pOf dev).parked = none ∧
    (lineAt (dev.onSplit (fun q => q.movedTo 0x1_000C false (dev.now + 2))) (gOf dev) (pOf dev) 0x1_000C).isSome = true ∧
    acting (dev.goTo 0x1_000C) (fun _ p => decide (p.fetched = lineAt (dev.onSplit (fun q => q.movedTo 0x1_000C false (dev.now + 2))) (gOf dev)
      (pOf dev) 0x1_000C)) = true ∧ lineAt dev (gOf dev) (pOf dev) 0x9_0000 = none := by
  decide +kernel

/-- A token that lanes 0 and 1 join: split 1 with lane 1 waits, split 0 with lane 0 acts. -/
def joining : State :=
  (dev.withG (fun g => { g with tokens := [(1, ⟨false, 0x1_0010, 3, 2, [], 0⟩)], nextTok := 2 })).withG (fun g =>
    { g with splits := [(0, { pOf dev with mask := 1, stack := [.tok 1 0] }), (1, { pOf dev with mask := 2, stack := [.tok 1 0], parked := some 1 })] })

/-- Two functions, at 0x1_0008 and 0x1_0108: lane 0 names the second in V4, the other lanes the first. -/
def twoFns : State :=
  { dev with mem := Memory.wr codeMem 0x1_0100 (bytesOf 8 (2 ^ 60 + 2 ^ 30 - 1) ++ bytesOf 4 0x6A00_0000) }.withG (fun g =>
    laneList.foldl (fun g l => g.setV false 4 l (if l = 0 then 0x1_0108 else 0x1_0008)) g)

/-- TokensAndDivision: a JOIN that completes beside a parked split; a CALLV with two targets. -/
theorem witness_TokensAndDivision_more :
    acting joining (fun g p => decide ((FMap.get g.tokens 1).map (fun k => k.a ||| p.mask) = some 3) &&
      (dev.checkTarget 0 0 0 true false 0x1_0010).2.isNone && decide (g.splits.length = 2) &&
      (FMap.get g.splits 1).any (fun x => decide (x.parked = some 1 ∧ x.sm = p.sm))) = true ∧
    after (exec .cJoin joining) (fun t => acting t (fun g p => decide (g.splits.length = 1 ∧ p.pc = 0x1_0010 ∧ p.mask = 3 ∧ p.parked = none) &&
      (FMap.get g.tokens 1).isNone)) = true ∧
    acting twoFns (fun g p => vReady g 4 p.mask && decide ((callTargets g p 4).length + g.splits.length ≤ 5) && decide ((callTargets g p 4).length = 2) &&
      (checkCalls 0 0 0 32 8 true 0x1_000C (callTargets g p 4) twoFns).2.isNone) = true ∧
    after (exec (.cCallv 4) twoFns) (fun t => acting t (fun g _ => decide (g.splits.length = 2))) = true := by
  decide +kernel

/-- A group whose record stands at 0x2_0000 (S5), behind launch S6, in the partition with cluster 0. -/
def launching (pers : Bool) (pred : Word) : State := ((withRecord 0x2_0000 pers devP).withS 5 0x2_0000).withS 6 pred

/-- LaunchesAreAcceptedOrRefused: nothing holds the read back; behind a launch of the same graph, behind none; a persistent launch
whose unit finds a place. -/
theorem witness_Launches_more : (launching false 1).readWaits 0 0 0 true 0x2_0000 64 = false ∧ fine ((launching false 1).readVa 0 0 true 3 0x2_0000 64) = true ∧
    (FMap.get (launching false 1).launches 1).any (fun q => decide (q.job = loadLaunch.job ∧ q.phase = loadLaunch.phase ∧ q.graph = loadLaunch.graph)) = true ∧
    FMap.get (launching false 7).launches 7 = none ∧
    ((launching true 0).reserveAll 0 (recordLaunch (recordBytes (launching true 0)) 1 0 0 0 none)).any (fun r => r == [(1, none)]) = true ∧
    after (exec (.cLaunch 7 5 6) (launching false 7)) (fun t => acting t (fun g p => readS g p 7 == BitVec.ofNat 64 (2 ^ 63 + 4))) = true := by
  decide +kernel

/-- A persistent launch of dev's group. -/
def devPers : State := { dev with launches := FMap.upd dev.launches 1 (fun l => { l with pers := true }) }

/-- BarriersAndFences: the last lanes of a unit and of a persistent launch arrive; an object met by an acquire that has not read. -/
theorem witness_Barriers_more : (uOf dev).twin = none ∧
    dev.groups.all (fun e => decide (e.2.alive &&& ~~~(FMap.rd 0 (uOf dev).baruArr e.1 ||| if e.1 = 0 then (pOf dev).mask else 0) = 0)) = true ∧
    (devPers.launchOf (uOf devPers)).any (fun l => l.pers) = true ∧
    (let s1 := devPers.updUnit 0 (fun u => { u with bargArr := FMap.put u.bargArr 0 (FMap.rd 0 u.bargArr 0 ||| (pOf devPers).mask) });
      (s1.unitsOf (uOf devPers).launch).all (fun e => s1.allArrived e.1 e.2.bargArr)) = true ∧
    after (exec .cBaru dev) (fun t => acting t (fun _ p => p.pc == nextWord (pOf dev).pc 1)) = true ∧
    after (exec .cBarg devPers) (fun t => acting t (fun _ p => p.pc == nextWord (pOf dev).pc 1) && (FMap.get t.launches 1).any (fun l => l.barg == 1)) = true ∧
    devPers.rays = [] ∧ after (exec .cExit dev) (fun t => (FMap.get t.groups 0).isNone) = true := by
  decide +kernel

/-- TrapAndBreakpointWords: TRAP and BKPT may enter the handler. -/
theorem witness_CanTrap : CanTrap trapReady (gOf trapReady) (pOf trapReady) 0x32 5 ∧ CanTrap trapReady (gOf trapReady) (pOf trapReady) cDEBUG 7 ∧
    (trapReady.onSplit (fun q => { q with issued := none })) = trapReady :=
  ⟨⟨by decide +kernel, by decide +kernel, by decide +kernel, by decide +kernel, by decide +kernel⟩,
   ⟨by decide +kernel, by decide +kernel, by decide +kernel, by decide +kernel, by decide +kernel⟩, by rfl⟩

/-- The device in the handler of that TRAP. -/
def trapped : State := match exec (.cTrap 5 0x32) trapReady with | .next t => t | _ => trapReady

/-- TRAP enters: TVEC, supervisor mode, the next word as TPC. -/
theorem test_trap_word : acting trapped (fun g p => p.pc == 0x1_0008 && p.sm && !p.pm && p.tpc == 0x1_000C && !p.wr && g.tcause == 0x32 &&
    g.tval == 5 && g.tmask == 0xFFFF_FFFF && g.handler.isSome) = true := by
  decide +kernel

/-- In a handler without entries, whose frame stands in the context. -/
def returning : State :=
  (trapReady.withP (fun p => { p with sm := true, tpc := 0x1_000C, wr := false })).withG (fun g =>
    { g with handler := some ⟨0, 0x32, false, (pOf trapReady).aside, none, false, [], []⟩ })

/-- HandlersEnd: the handler of a TRAP may return, its frame can be read, and RFT goes back. -/
theorem witness_HandlersEnd : acting returning (fun g p => p.sm && returning.tpcOk g p && decide (g.due = []) && (g.handlerAt 0).any (fun h =>
      returning.mayReturn g p h && decide (h.cause ≠ cPREEMPT ∧ h.cause ≠ cCANCELLED ∧ h.run = none) &&
      fine ((returning.updGroup 0 (fun g => g)).frameParts 0 g h.frameEntries .read))) = true ∧
    after (exec .cRft returning) (fun t => acting t (fun g p => p.pc == 0x1_000C && !p.sm && g.handler.isNone)) = true := by
  decide +kernel

/-- A run of one LD of V4 without a page is in its handler: the frame has one entry. -/
def ldAt : LF := { lf with a := 4, b := 1, c := 0, ty := 17 }
def faulting : State :=
  match exec (.lLd ldAt) { trapReady.withP (fun p => { p with running := (pOf (State.reset.placeLane ((encode (.lLd ldAt)).getD (0, 0)).2)).running }) with
    cores := lan.cores } with
  | .next t => t
  | _ => trapReady

/-- HandlersEnd, EntriesArePerformed, RepliesToEntries: a fault of a lane access; its entry faults again; RPLY beyond the frame and of the entry. -/
theorem witness_Entries : acting faulting (fun g p => p.sm && (g.handlerAt 0).any (fun h => h.lane && accessCause h.cause && !h.held &&
      decide (h.entries = [0] ∧ h.frameEntries = 1) && fine (faulting.frameParts 0 g h.frameEntries .read) && faulting.mayReturn g p h) &&
      (FMap.get g.replay 0).any (fun q => q.state == 0 && q.flt == 0xFFFF_FFFF && (shapeOfBits q.bits).any (fun sh => decide (sh.deed ≠ .store)))) = true ∧
    after (exec (.cRply 48 49) (faulting.withP (fun p => { p with s := FMap.put p.s 49 1 }))) (fun t => acting t (fun g p => readS g p 48 == 1)) = true ∧
    after (exec (.cRply 48 0) faulting) (fun t => acting t (fun g p => readS g p 48 == 0 && g.handler.any (fun h => h.replied == [0]))) = true := by
  decide +kernel

/-- The tables, in supervisor mode, S5 a and S6 b; a frame stack of one frame at 0x2_0000. -/
def mapping (a b : Word) : State := ((withTables devSm).withS 5 a).withS 6 b
def pooled (count frame : Nat) : State :=
  (withBytes 0x2_0000 (bytesOf 8 count ++ bytesOf 4 frame) (mapping 0x4_0000 0)).withG (fun g => { g with ftpool := 0x2_0000 })

/-- What the word answers in S7. -/
def answers (i : Instr) (s : State) (v : Word) : Bool := after (exec i s) (fun t => acting t (fun g p => readS g p 7 == v))

/-- MapStatuses: each status of MAP, of MAP.FT but 0, and a stack whose frame can be taken. -/
theorem witness_MapStatuses : answers (.cMap 7 5 6) (mapping 0x3_0000 0x8000_0000_0003_00F8) 0 = true ∧
    answers (.cMap 7 5 6) (mapping 0x5_0000 0x8000_0000_0003_00F8) 2 = true ∧ answers (.cMap 7 5 6) (mapping 0x3_0000 0x8000_0000_0003_00FC) 2 = true ∧
    answers (.cMap 7 5 6) (mapping 0x4000_0000_0000 0x8000_0000_0003_00F8) 3 = true ∧
    answers (.cMap 7 5 6) (mapping 0x3_0000 0x8000_0000_0003_00F9) 4 = true ∧ answers (.cMapFt 7 5) (pooled 0 0) 1 = true ∧
    answers (.cMapFt 7 5) (mapping 0x5_0000 0) 2 = true ∧ answers (.cMapFt 7 5) (mapping 0x4000_0000_0000 0) 3 = true ∧
    answers (.cMapFt 7 5) (pooled 1 0x7FFF_FFFF) 5 = true ∧
    acting (pooled 1 0x300) (fun g _ => fine ((pooled 1 0x300).reach 0 0 g.ftpool .write false) && backed (0x300 * 2 ^ 16) &&
      (homeLoc 0 (0x300 * 2 ^ 16)).isSome) = true := by
  decide +kernel

/-- TRACE's fields; lane 0 has a ray along the axis, the other lanes none. -/
def lt : LF := { lf with d := 16, a := 4, b := 12, c := 0, md := 1 }
def traced : State :=
  ({ scened with cores := lan.cores }.withP (fun p => { p with running := (pOf lan).running })).withG (fun g => g.setV false 7 0 0x7F00_0000_3F80_0000)

/-- RayInstructions: a lane that sends a ray to a home, lanes whose rays are invalid, no seventeenth generation. -/
theorem witness_TRACE : onLane traced lt (fun c => decide (c.real = 0xFFFF_FFFF) && !c.g.replayFull &&
      ((traceCases traced c lt 0).2.map (fun e => match e.2 with | .send r home => decide (r.gen = 1 ∧ home < 12) | .invalid _ => false)).take 2 == [true, false] &&
      !(traceCases traced c lt 0).1.gensFull (traceCases traced c lt 0).2) = true := by
  decide +kernel

/-- A texture of 2 by 2 as object 0 and a grid of one level as object 1, whose table stands at 0x2_0080. -/
def filtered : State :=
  (withBytes 0x2_0000 (bytesOf 8 2 ++ bytesOf 8 0x2_0002 ++ bytesOf 48 0 ++ bytesOf 8 3 ++ bytesOf 8 0x2_0080 ++ bytesOf 48 0 ++
      bytesOf 8 0 ++ bytesOf 8 (2 ^ 32 + 16))
    { scened with cores := lan.cores, spaces := FMap.upd scened.spaces 0 (fun x => { x with objn := 2 }) }).withP (fun p =>
      { p with running := (pOf lan).running })

/-- FilterAndQueryInstructions: lanes whose handle names what they ask for, which send, and lanes whose handle does not. -/
theorem witness_Filter_more : onLane filtered { lf with ty := 9 } (fun c => (match (sampleCase filtered c { lf with ty := 9 } 0).2 with | .send _ ops => ops.take 1 == [c.a lf 0] | .fill => false)) = true ∧
    onLane filtered { lf with ty := 9, b := 0 } (fun c => (match (gridCase filtered c { lf with ty := 9, b := 0 } 0).2 with | .fill => true | .send _ _ => false)) = true ∧
    onLane (filtered.withG (fun g => g.setV false 6 0 1)) { lf with b := 0, ty := 11 } (fun c =>
      (match (gridCase filtered c { lf with b := 0, ty := 11 } 0).2 with | .send _ ops => ops.length == 4 | .fill => false)) = true ∧
    onLane lanD { lf with ty := 9 } (fun c => (match (sampleCase lanD c { lf with ty := 9 } 31).2 with | .fill => true | .send _ _ => false)) = true := by
  decide +kernel

/-- LaneAndScratchpadAccesses: the lines of the windows are not resident, nothing has been written to them and there is room. -/
theorem witness_WindowsAtHand : onLane lanW lf (fun c => laneList.all (fun l =>
    decide (FMap.rd false c.g.written ((uOf lanW).windowLine ((plainShape .window .load lf).addr c l).toNat) = false ∧
      (uOf lanW).lru.length + (dedup ((lanesIn c.act).map (fun k => (uOf lanW).windowLine ((plainShape .window .load lf).addr c k).toNat))).length ≤
        lanW.regionLines (uOf lanW)))) = true := by
  decide +kernel

/-- LaneAndScratchpadAccesses: each byte of a store whose lanes name bytes of their own is on its way in some packet; of a byte that two
lanes name the higher lane's. -/
theorem test_store_bytes : after (exec (.lSt { lf with d := 0, a := 4, b := 1, c := 6 }) (lanX.withG (fun g => g.setX 1 (g.getX 5)))) (fun t =>
    t.pkts.all (fun e => match e.2.body with | .req accs none _ _ _ _ _ _ => !accs.isEmpty | _ => false) && !t.pkts.isEmpty) = true := by
  decide +kernel

/-- MatrixInstructions: a run on a slot, a bank that re-latches and one that loads. -/
theorem witness_Matrix_more : onLane lanM lf (fun c => !c.r.suspended) = true ∧
    (match bankReady ((lanM.withK (fun k => { k with banks := [(0, ⟨0, ⟨0, 11, false, false⟩, [], true, true⟩)] })).core 0) (uOf lanM) 0 0
      { lf with d := 2, ty := 11 } false with | .wait => true | _ => false) = true ∧
    (match bankReady ((lanM.withK (fun k => { k with banks := [] })).core 0) (uOf lanM) 0 0 { lf with d := 2, ty := 11 } false with
      | .relatch => true | _ => false) = true := by
  decide +kernel

/-- A run of one MMA, on a slot and suspended; its bank is latched for no one. -/
def lm : LF := { lf with d := 2, a := 0, b := 0, c := 0, ty := 11 }
def mmaAt (suspended : Bool) : State :=
  { ((lanM.withP (fun p => { p with running := (pOf (State.reset.placeLane ((encode (.lMma lm)).getD (0, 0)).2)).running.map (fun r =>
      { r with suspended := suspended }) })).withK (fun k => { k with banks := [], mmaBusy := some ⟨0, 0, BitVec.ofNat 96 ((encode (.lMma lm)).getD (0, 0)).2, false⟩ })) with agenda := [] }

/-- FillsAndLandings: the array re-latches for a run that waits for it; a lane slot stands at an MMA, and none does. -/
theorem witness_MatrixEvents : ((mmaAt true).mmaWaiting 0 0).isSome = true ∧ ((mmaAt true).mmaWaiting 0 0).any (fun e => (e.2.mmaNext).any (fun x => x.1.md.toNat % 2 == 0)) = true ∧
    (match bankReady ((mmaAt true).core 0) (uOf (mmaAt true)) 0 0 lm false with | .relatch => true | _ => false) = true ∧
    (mmaAt false).mmaSlot 0 = some 0 ∧ (mmaAt false).nextLane 0 0 0 = some (.lMma lm) ∧ lanM.mmaSlot 0 = none ∧
    (FMap.get ((mmaAt false).core 0).lslots 0).any (fun e => e.pair.isNone) = true ∧
    ((mmaAt true).relatching 0 = false) ∧ ({ mmaAt true with cur := ⟨0, 1, 0⟩ } : State).relatching 0 = true := by
  decide +kernel

/-- Eight packets stand at a buffer of cluster 0's switch. -/
def crowded : State := { dev with pkts := (List.range 8).map (fun k => (k + 1, { atHub with port := inPort (.core 0) (.cluster 0) })), nextPkt := 9 }

/-- NetworkSwitches: room and none; slack of what waits in a place that is no switch, and of what has come in this cycle. -/
theorem witness_NetworkSwitches_more : dev.roomAt (.core 0) (.cluster 0) atHub.buf = true ∧ crowded.roomAt (.core 0) (.cluster 0) atHub.buf = false ∧
    switchKey (.core 0) = none ∧ ticks (.slice 0) = true ∧ switchKey (.slice 0) = none ∧ ({ atHub with cyc := 27 }).cyc = sw27.cycle := by
  decide +kernel

/-- A load at its home, and one before it: of the same core, and of another that arrived earlier. -/
def racing (gid arrived : Nat) : State :=
  let s := homed (.load []) (some 0)
  { s with pkts := [(1, { (pkt (.slice (sliceOf 0x2_0000)) false [] 5 (req (.load []) (some 0))) with gid := gid, arrived := arrived }),
                    (2, { (pkt (.slice (sliceOf 0x2_0000)) false [] 5 (req (.load []) (some 0))) with arrived := 7 })] }

/-- HomesPerformAccesses: an older request of the core, an earlier arrival of another core, and neither. -/
theorem witness_Homes_more : (racing 0 9).olderRequest 2 0 0x400 = true ∧ (racing 64 3).olderRequest 2 0 0x400 = false ∧
    (FMap.get (racing 64 3).pkts 2).any (fun p => (racing 64 3).earlierRequest p (sliceOf 0x2_0000) 0x400) = true ∧
    (FMap.get (racing 64 9).pkts 2).any (fun p => (racing 64 9).earlierRequest p (sliceOf 0x2_0000) 0x400) = false ∧ coreOfGid 64 = 1 := by
  decide +kernel

/-- Port 0 is active and leads to device 4. -/
def ported : State :=
  { devT with futas := [(0, { FutasPort.reset with state := .active, fid := 4, unit := 10000 })], routes := [(4, (1, 0x8000_0000_0000_0000))] }

/-- PeersAndLinks, DebuggerAndLifecycle, ResetsAndPowerStates: a port that leads to a device; a peer's store here; a run whose T registers a
debugger reads; a save in the shadow of core 0 whose partition is there. -/
theorem witness_Peers_more : ported.livePorts 4 = [0] ∧ (ported.livePorts 4)[0x5_0000 / 128 % (ported.livePorts 4).length]? = some 0 ∧
    Running ported ∧ (match walkAccess devT 0 0 0x5_0000 .write true with | (_, .ok (leaf, loc)) => leafPeer leaf == 0 && !inHost loc | _ => false) = true ∧
    ({ inbound with kind := .store 8 7, devs := [3, 4] }).devs.length = 2 ∧ (∀ id, inbound.kind ≠ .own id) ∧
    (FMap.get ({ devP with shadow := [(0, shadow)] } : State).shadow 0).any (fun sh => (FMap.get devP.parts sh.part).isSome) = true ∧
    acting (lan.withG (fun g => { g with stopped := true })) (fun g p => g.stopped && p.running.isSome) = true ∧ inHbm 0x2_0000 = true := by
  refine ⟨?_, ?_, ⟨?_, ?_⟩, ?_, ?_, fun id h => (nomatch h), ?_⟩
  all_goals decide +kernel

/-- AStepRunsTheDecodedInstruction: the line at the program counter, held and to be fetched. -/
theorem witness_HasLine : (pOf (turnOf dev)).fetched = none ∧ (lineAt (turnOf dev) (gOf (turnOf dev)) (pOf (turnOf dev)) (pOf (turnOf dev)).pc).isSome = true ∧
    (pOf (dev.goTo 0x1_000C)).fetched.isSome = true ∧ lineOk 0 (fun _ => 0xF000_0000) = true := by
  decide +kernel

/-- NetworksAnswerAndLearn, RayAndFilterUnitsServe, GenerationsAndNetworks, TokensAndDivision's marked division: what the other clauses ask. -/
theorem witness_more : (sillPkt (.record 1)).atSill = some 0 ∧ ray.stage = .suspended ∧ ({ ray with stage := .flying }).stage ≠ .suspended ∧
    { net with auto := 1 }.auto ≠ 0 ∧ net.auto = 0 ∧ net.pending.drop 1 = [] ∧
    acting (dev.withP (fun p => { p with issued := some ⟨0, 0, [0, 0]⟩ })) (fun _ p => decide (p.issued = some ⟨0, 0, [0, 0]⟩)) = true ∧
    ({ dev with structs := [(structKey 0 0, [(0, 1)])] } : State).gensRetired 0 0 ((dev.curNow (gOf dev) true 0 0)) 0 = false ∧ (1 : BitVec 2) ≠ 0 := by
  decide +kernel

end Sys2Proof.Tests
end

/-! Finite maps, fields of words and bytes of the scratchpad: what reads after writes give, beyond Laws/Store. -/

namespace Sys2Proof.Machine

/-! ### Finite maps -/

theorem FMap.put_put {α : Type} (m : FMap α) (k : Nat) (v w : α) : FMap.put (FMap.put m k v) k w = FMap.put m k w := by
  induction m with
  | nil => simp [FMap.put]
  | cons e m ih =>
    obtain ⟨k', v'⟩ := e
    by_cases h1 : k < k'
    · simp [FMap.put, h1]
    · by_cases h2 : k = k'
      · simp [FMap.put, h2]
      · simp [FMap.put, h1, h2, ih]

theorem FMap.upd_upd {α : Type} (m : FMap α) (k : Nat) (f f' : α → α) :
    FMap.upd (FMap.upd m k f) k f' = FMap.upd m k (f' ∘ f) := by
  cases h : FMap.get m k with
  | none => simp [FMap.upd, h]
  | some v => simp [FMap.upd, h, FMap.put_put]

theorem FMap.upd_const {α : Type} {m : FMap α} {k : Nat} {v : α} (h : FMap.get m k = some v) (f : α → α) :
    FMap.upd m k f = FMap.upd m k (fun _ => f v) := by
  simp [FMap.upd, h]

theorem FMap.put_ne_nil {α : Type} (m : FMap α) (k : Nat) (v : α) : FMap.put m k v ≠ [] := by
  cases m with
  | nil => simp [FMap.put]
  | cons e m =>
    rw [FMap.put]
    split
    · exact List.cons_ne_nil _ _
    · split <;> exact List.cons_ne_nil _ _

theorem FMap.mem_of_get {α : Type} {m : FMap α} {k : Nat} {v : α} (h : FMap.get m k = some v) : (k, v) ∈ m := by
  induction m with
  | nil => simp at h
  | cons e m ih =>
    obtain ⟨k', v'⟩ := e
    by_cases hk : k = k'
    · simp_all [FMap.get]
    · exact List.mem_cons_of_mem _ (ih (by simpa [FMap.get, hk] using h))

theorem FMap.rd_put {α : Type} (d : α) (m : FMap α) (k x : Nat) (v : α) :
    FMap.rd d (FMap.put m k v) x = if x = k then v else FMap.rd d m x := by
  unfold FMap.rd
  rw [FMap.get_put]
  split <;> rfl

/-- The entries of a map that a function may drop, or change under their keys. -/
theorem FMap.get_filterMap {α : Type} {m : FMap α} (hm : FMap.wf m = true) (f : Nat → α → Option α) (k : Nat) :
    FMap.get (m.filterMap (fun e => (f e.1 e.2).map (fun v => (e.1, v)))) k = (FMap.get m k).bind (f k) := by
  rw [FMap.wf_iff] at hm
  induction m with
  | nil => rfl
  | cons e m ih =>
    obtain ⟨k', v'⟩ := e
    obtain ⟨hk', hm⟩ := List.pairwise_cons.mp hm
    have ih := ih hm
    by_cases hk : k = k'
    · subst hk
      have hnone : FMap.get m k = none := by
        cases hg : FMap.get m k with
        | none => rfl
        | some v => exact absurd (hk' _ (FMap.mem_of_get hg)) (Nat.lt_irrefl k)
      cases hf : f k v' <;> simp [hf, FMap.get, ih, hnone]
    · cases hf : f k' v' <;> simp [hf, FMap.get, ih, hk]

/-! ### Fields -/

theorem testBit_fld {n : Nat} (x : BitVec n) (lo w i : Nat) :
    (fld x lo w).testBit i = (decide (i < w) && x.getLsbD (lo + i)) := by
  simp [fld, BitVec.getLsbD, Nat.testBit_mod_two_pow, Nat.testBit_shiftRight]

theorem getLsbD_setFld {n : Nat} (x : BitVec n) (lo w v i : Nat) (hi : i < n) :
    (setFld x lo w v).getLsbD i = if lo ≤ i ∧ i < lo + w then v.testBit (i - lo) else x.getLsbD i := by
  simp only [setFld, BitVec.getLsbD_or, BitVec.getLsbD_and, BitVec.getLsbD_not, BitVec.getLsbD_ofNat, hi, decide_true,
    Bool.true_and, Nat.testBit_shiftLeft, Nat.testBit_mod_two_pow, Nat.testBit_two_pow_sub_one]
  by_cases h1 : lo ≤ i
  · by_cases h2 : i < lo + w
    · have : i - lo < w := by omega
      simp [h1, h2, this]
    · have : ¬ i - lo < w := by omega
      simp [h1, h2, this]
  · simp [h1]

/-- A field reads what was put in it. -/
theorem fld_setFld_same {n : Nat} (x : BitVec n) (lo w v : Nat) (h : lo + w ≤ n) : fld (setFld x lo w v) lo w = v % 2 ^ w := by
  apply Nat.eq_of_testBit_eq
  intro i
  rw [testBit_fld, Nat.testBit_mod_two_pow]
  by_cases hi : i < w
  · rw [getLsbD_setFld _ _ _ _ _ (by omega), if_pos (by omega), Nat.add_sub_cancel_left]
  · simp [hi]

/-- A field apart from it reads as before. -/
theorem fld_setFld_other {n : Nat} (x : BitVec n) (lo w v lo' w' : Nat) (h : lo' + w' ≤ lo ∨ lo + w ≤ lo') :
    fld (setFld x lo w v) lo' w' = fld x lo' w' := by
  apply Nat.eq_of_testBit_eq
  intro i
  rw [testBit_fld, testBit_fld]
  by_cases hi : i < w'
  · by_cases hn : lo' + i < n
    · rw [getLsbD_setFld _ _ _ _ _ hn, if_neg (by omega)]
    · rw [BitVec.getLsbD_of_ge _ _ (by omega), BitVec.getLsbD_of_ge _ _ (by omega)]
  · simp [hi]

/-! ### Words made of numbers and of narrower words -/

theorem fld_ofNat (n lo w : Nat) (hn : n < 2 ^ 64) : fld (BitVec.ofNat 64 n) lo w = n / 2 ^ lo % 2 ^ w := by
  rw [fld, BitVec.toNat_ofNat, Nat.mod_eq_of_lt hn, Nat.shiftRight_eq_div_pow]

theorem fld_setWidth_low {k : Nat} (x : BitVec k) (hk : k ≤ 64) : fld (x.zeroExtend 64) 0 k = x.toNat := by
  have hx : x.toNat < 2 ^ 64 := Nat.lt_of_lt_of_le x.isLt (Nat.pow_le_pow_right (by decide) hk)
  rw [fld, BitVec.toNat_setWidth, Nat.mod_eq_of_lt hx, Nat.shiftRight_zero, Nat.mod_eq_of_lt x.isLt]

theorem zeroExtend_truncate (v : Word) (k : Nat) : (v.truncate k).zeroExtend 64 = BitVec.ofNat 64 (v.toNat % 2 ^ k) := by
  apply BitVec.eq_of_toNat_eq
  simp

theorem zext64_truncate (v : Word) (k : Nat) (hk : k ≤ 64) {low : Word} (hlow : low = BitVec.ofNat 64 (2 ^ k - 1)) :
    zext64 (v.truncate k) = v &&& low := by
  subst hlow
  have hlt : 2 ^ k - 1 < 2 ^ 64 := by
    have := Nat.pow_le_pow_right (show 0 < 2 by decide) hk
    have := Nat.two_pow_pos k
    omega
  apply BitVec.eq_of_toNat_eq
  have hmod : v.toNat % 2 ^ k < 2 ^ 64 := Nat.lt_of_le_of_lt (Nat.mod_le _ _) v.isLt
  simp only [zext64, BitVec.truncate_eq_setWidth, BitVec.toNat_setWidth, BitVec.toNat_and, BitVec.toNat_ofNat,
    Nat.mod_eq_of_lt hlt, Nat.mod_eq_of_lt hmod, Nat.and_two_pow_sub_one_eq_mod]

/-! ### Bytes and the scratchpad -/

@[simp] theorem length_bytesOf (k v : Nat) : (bytesOf k v).length = k := by
  induction k generalizing v with
  | zero => rfl
  | succ k ih => simp [bytesOf, ih]

theorem natOfBytes_bytesOf (k v : Nat) : natOfBytes (bytesOf k v) = v % 256 ^ k := by
  induction k generalizing v with
  | zero => simp [bytesOf, natOfBytes, Nat.mod_one]
  | succ k ih =>
    have hb : (BitVec.ofNat 8 (v % 256)).toNat = v % 256 := by simp
    rw [bytesOf, natOfBytes, ih, hb, Nat.pow_succ', Nat.mod_mul]

/-- Bytes written one after another from `o + a` read back, and every other byte as before. -/
theorem rd_writeBytes (o : Nat) (bs : List Byte) (a : Nat) (m : FMap Byte) (q : Nat) :
    FMap.rd 0 ((bs.zip (List.range' a bs.length)).foldl (fun m b => FMap.wr 0 m (o + b.2) b.1) m) q =
      if o + a ≤ q ∧ q < o + a + bs.length then bs.getD (q - (o + a)) 0 else FMap.rd 0 m q := by
  induction bs generalizing a m with
  | nil => exact (if_neg (by simp only [List.length_nil]; omega)).symm
  | cons b bs ih =>
    rw [List.length_cons, List.range'_succ, List.zip_cons_cons, List.foldl_cons, ih, FMap.rd_wr]
    by_cases h1 : q = o + a
    · subst h1
      rw [if_neg (by omega), if_pos rfl, if_pos (by omega), Nat.sub_self]
      rfl
    · by_cases h2 : o + a ≤ q ∧ q < o + a + (bs.length + 1)
      · rw [if_pos (by omega), if_pos h2, show q - (o + a) = q - (o + (a + 1)) + 1 by omega]
        rfl
      · rw [if_neg (by omega), if_neg h1, if_neg h2]

theorem rd_scrPut (u : UnitRec) (o : Nat) (bs : List Byte) (q : Nat) :
    FMap.rd 0 (u.scrPut o bs).scratch q = if o ≤ q ∧ q < o + bs.length then bs.getD (q - o) 0 else FMap.rd 0 u.scratch q := by
  rw [UnitRec.scrPut, List.range_eq_range']
  exact rd_writeBytes o bs 0 u.scratch q

/-- A word of the scratchpad reads back what was written there. -/
theorem scrAt_scrPut (u : UnitRec) (o k v : Nat) : (u.scrPut o (bytesOf k v)).scrAt o k = v % 256 ^ k := by
  have hbytes : (List.range k).map (fun i => FMap.rd 0 (u.scrPut o (bytesOf k v)).scratch (o + i)) = bytesOf k v := by
    apply List.ext_getElem
    · simp
    · intro i h1 h2
      have hi : i < k := by simpa using h2
      rw [List.getElem_map, List.getElem_range, rd_scrPut, if_pos (by simp; omega), Nat.add_sub_cancel_left]
      rw [List.getD_eq_getElem?_getD, List.getElem?_eq_getElem h2, Option.getD_some]
  rw [UnitRec.scrAt, hbytes, natOfBytes_bytesOf]

end Sys2Proof.Machine

/-! SGET and SSET (O18): what a system register is read from, and what SSET changes of it. -/

namespace Sys2Proof.Machine

open Sys2Proof.Claims

/-! ### What the system registers are read from -/

theorem State.launchOfGroup_eq (s : State) (g : Group) :
    s.launchOfGroup g = ((s.unitOf g).map (·.launch)).bind (FMap.get s.launches) := by
  unfold State.launchOfGroup State.launchOf
  cases s.unitOf g <;> rfl

theorem State.jobOfGroup_eq (s : State) (g : Group) :
    s.jobOfGroup g = (s.launchOfGroup g).bind (fun l => FMap.get s.jobs l.job) := by
  unfold State.jobOfGroup State.launchOfGroup State.jobOf
  cases s.unitOf g with
  | none => rfl
  | some u =>
    simp only [Option.bind_some]
    cases s.launchOf u <;> rfl

/-- What other system registers than PUTERR read of a unit (R157). -/
def UnitRec.place (u : UnitRec) : Nat × Nat × Option Nat × BitVec 32 := (u.launch, u.index, u.twin, u.gen)

/-- Of the system registers that a group and a split hold, none but number `n` differs between `g`, `p` and `g'`, `p'`. -/
structure SysRegs (n : Nat) (g g' : Group) (p p' : Split) : Prop where
  mode : n ≠ 0x000 → g'.mode = g.mode
  slktab : n ≠ 0x001 → g'.slktab = g.slktab
  dslack : n ≠ 0x002 → p'.dslack = p.dslack
  latecnt : n ≠ 0x003 → g'.latecnt = g.latecnt
  status : n ≠ 0x100 → p'.status = p.status
  tvec : n ≠ 0x101 → g'.tvec = g.tvec
  tcause : n ≠ 0x102 → g'.tcause = g.tcause
  tval : n ≠ 0x103 → g'.tval = g.tval
  tmask : n ≠ 0x104 → g'.tmask = g.tmask
  tpc : n ≠ 0x105 → p'.tpc = p.tpc
  ftpool : n ≠ 0x108 → g'.ftpool = g.ftpool

theorem SysRegs.refl (n : Nat) (g : Group) (p : Split) : SysRegs n g g p p := by constructor <;> exact fun _ => rfl

/-- From `s` to `t`, where groups `g` and `g'` and splits `p` and `p'` act, no system register but number `n` has changed,
nor anything that one is read from. -/
structure SysOnly (n : Nat) (s t : State) (g g' : Group) (p p' : Split) : Prop where
  frame : t = { s with groups := t.groups, units := t.units }
  was : FMap.get s.groups s.gid = some g
  acts : FMap.get t.groups s.gid = some g'
  units : ∀ k, (FMap.get t.units k).map UnitRec.place = (FMap.get s.units k).map UnitRec.place
  uid : g'.uid = g.uid
  idx : g'.idx = g.idx
  batch : g'.batch = g.batch
  regs : SysRegs n g g' p p'
  puterr : n ≠ 0x004 → t.units = s.units

namespace SysOnly

variable {n : Nat} {s t : State} {g g' : Group} {p p' : Split} (h : SysOnly n s t g g' p p')
include h

theorem cur : t.cur = s.cur := by rw [h.frame]
theorem core (c : Nat) : t.core c = s.core c := by rw [h.frame]; rfl

theorem unitPlace : (t.unitOf g').map UnitRec.place = (s.unitOf g).map UnitRec.place := by
  unfold State.unitOf; rw [h.uid]; exact h.units g.uid

theorem unitMap {α : Type} (f : UnitRec → α) (q : Nat × Nat × Option Nat × BitVec 32 → α) (hf : ∀ u, f u = q u.place) :
    (t.unitOf g').map f = (s.unitOf g).map f := by
  have hq := congrArg (Option.map q) h.unitPlace
  simp only [Option.map_map] at hq
  rwa [show f = q ∘ UnitRec.place from funext hf]

theorem launchOfGroup : t.launchOfGroup g' = s.launchOfGroup g := by
  rw [State.launchOfGroup_eq, State.launchOfGroup_eq, show t.launches = s.launches by rw [h.frame],
    h.unitMap (·.launch) (·.1) (fun _ => rfl)]

theorem jobOfGroup : t.jobOfGroup g' = s.jobOfGroup g := by
  rw [State.jobOfGroup_eq, State.jobOfGroup_eq, h.launchOfGroup, show t.jobs = s.jobs by rw [h.frame]]

theorem asidOf : t.asidOf g' = s.asidOf g := by simp [State.asidOf, h.jobOfGroup]
theorem partOf : t.partOf g' = s.partOf g := by simp [State.partOf, h.jobOfGroup]

theorem rootOf (a : Nat) : t.rootOf a = s.rootOf a := by
  unfold State.rootOf; rw [show t.spaces = s.spaces by rw [h.frame]]

theorem ctxb : t.ctxb t.gid g' = s.ctxb s.gid g := by
  have hgid : t.gid = s.gid := by rw [State.gid, h.cur]; rfl
  have hsp : t.spaceFor s.gid (s.asidOf g) = s.spaceFor s.gid (s.asidOf g) := by
    simp [State.spaceFor, h.acts, h.was, h.jobOfGroup, show t.spaces = s.spaces by rw [h.frame]]
  simp [State.ctxb, hgid, h.asidOf, hsp, h.uid, h.idx]

theorem lead (uid : Nat) : t.lead uid = s.lead uid := by
  have htwin : (FMap.get t.units uid).bind (·.twin) = (FMap.get s.units uid).bind (·.twin) := by
    simpa [UnitRec.place, Option.bind_map, Function.comp_def] using congrArg (Option.bind · (·.2.2.1)) (h.units uid)
  have hsome (k : Nat) : (FMap.get t.units k).isSome = (FMap.get s.units k).isSome := by
    simpa using congrArg Option.isSome (h.units k)
  simp [State.lead, htwin, hsome]

theorem endpoint : t.endpoint g'.uid = s.endpoint g.uid := by
  have hu := h.units (s.lead g.uid)
  have hm : t.mgmt = s.mgmt := by rw [h.frame]
  unfold State.endpoint
  rw [h.uid, h.lead, hm]
  dsimp only
  revert hu
  generalize FMap.get t.units (s.lead g.uid) = a
  generalize FMap.get s.units (s.lead g.uid) = b
  intro hu
  cases a with
  | none =>
    cases b with
    | none => rfl
    | some v => cases hu
  | some u =>
    cases b with
    | none => cases hu
    | some v =>
      have hgen : u.gen = v.gen := congrArg (·.2.2.2) (Option.some.inj hu)
      dsimp only
      rw [hgen]

/-- Every other system register reads as before. -/
theorem readSys {m : Nat} (hm : n ≠ m) : readSys t g' p' m = readSys s g p m := by
  have hu : n ≠ 0x004 → t.unitOf g' = s.unitOf g := fun hn => by unfold State.unitOf; rw [h.puterr hn, h.uid]
  have hl := h.launchOfGroup
  unfold Machine.readSys
  split <;> simp only [hl]
  · rw [h.regs.mode hm]
  · rw [h.regs.slktab hm]
  · rw [h.regs.dslack hm]
  · rw [h.regs.latecnt hm]
  · rw [hu hm]
  · rw [h.endpoint]
  · rw [h.unitMap (fun u => BitVec.ofNat 64 u.launch) (fun q => BitVec.ofNat 64 q.1) (fun _ => rfl)]
  · rw [h.unitMap (fun u => BitVec.ofNat 64 u.index) (fun q => BitVec.ofNat 64 q.2.1) (fun _ => rfl)]
  · rw [h.cur]
  · rw [h.cur, h.core]
  · rw [h.batch]
  · rw [h.regs.status hm]
  · rw [h.regs.tvec hm]
  · rw [h.regs.tcause hm]
  · rw [h.regs.tval hm]
  · rw [h.regs.tmask hm]
  · rw [h.regs.tpc hm]
  · rw [State.tframe, State.tframe, h.ctxb]
  · rw [h.ctxb]
  · rw [h.regs.ftpool hm]
  · rw [h.asidOf]
  · rw [h.partOf]
  · rw [h.asidOf, h.rootOf]

end SysOnly

/-! ### What SSET writes -/

theorem SysOnly.refl (n : Nat) {s : State} {g : Group} {p : Split} (h : s.actor = some (g, p)) : SysOnly n s s g g p p := by
  have hg := (State.actor_eq.mp h).1
  exact ⟨rfl, hg, hg, fun _ => rfl, rfl, rfl, rfl, .refl n g p, fun _ => rfl⟩

theorem State.actor_updGroup {s : State} {g : Group} {p : Split} (h : s.actor = some (g, p)) (f : Group → Group)
    (hf : (f g).splits = g.splits) : (s.updGroup s.gid f).actor = some (f g, p) := by
  rw [State.actor_eq] at h ⊢
  obtain ⟨hg, hp⟩ := h
  exact ⟨by simp [State.groups_updGroup, hg], by rw [hf]; exact hp⟩

theorem State.actor_onSplit {s : State} {g : Group} {p : Split} (h : s.actor = some (g, p)) (f : Split → Split) :
    (s.onSplit f).actor = some (g.updSplit s.cur.place f, f p) := by
  rw [State.actor_eq] at h ⊢
  obtain ⟨hg, hp⟩ := h
  exact ⟨by simp [State.onSplit, State.updSplit, State.groups_updGroup, hg], by simp [Group.updSplit, hp]⟩

/-- An update of a unit's other fields leaves what a system register but PUTERR reads of it. -/
theorem UnitRec.place_upd (m : FMap UnitRec) (k x : Nat) (f : UnitRec → UnitRec) (hf : ∀ u, (f u).place = u.place) :
    (FMap.get (FMap.upd m k f) x).map UnitRec.place = (FMap.get m x).map UnitRec.place := by
  rw [FMap.get_upd]
  split
  · next hx => subst hx; simp [Function.comp_def, hf]
  · rfl

section
variable {s : State} {g : Group} {p : Split} (h : s.actor = some (g, p)) {n : Nat}
include h

theorem SysOnly.updGroup (f : Group → Group) (huid : (f g).uid = g.uid) (hidx : (f g).idx = g.idx)
    (hbatch : (f g).batch = g.batch) (hr : SysRegs n g (f g) p p) : SysOnly n s (s.updGroup s.gid f) g (f g) p p := by
  have hs := (State.actor_eq.mp h).1
  exact ⟨rfl, hs, by simp [State.groups_updGroup, hs], fun _ => rfl, huid, hidx, hbatch, hr, fun _ => rfl⟩

theorem SysOnly.onSplit (f : Split → Split) (hr : SysRegs n g g p (f p)) :
    SysOnly n s (s.onSplit f) g (g.updSplit s.cur.place f) p (f p) := by
  have hs := (State.actor_eq.mp h).1
  exact ⟨rfl, hs, (State.actor_eq.mp (State.actor_onSplit h f)).1, fun _ => rfl, rfl, rfl, rfl,
    { hr with }, fun _ => rfl⟩

theorem SysOnly.updUnit (k : Nat) (f : UnitRec → UnitRec) (hf : ∀ u, (f u).place = u.place) :
    SysOnly 0x004 s (s.updUnit k f) g g p p := by
  have hs := (State.actor_eq.mp h).1
  exact ⟨rfl, hs, hs, fun x => UnitRec.place_upd s.units k x f hf, rfl, rfl, rfl, .refl _ _ _, fun hn => absurd rfl hn⟩

/-- After SSET to `n` the group that acts has changed in register `n` at most (R6, R157). -/
theorem writeSys_only (v : Word) :
    ∃ g' p', (writeSys s g n v).actor = some (g', p') ∧ SysOnly n s (writeSys s g n v) g g' p p' := by
  unfold writeSys
  dsimp only
  split
  case h_3 | h_6 | h_11 =>
    exact ⟨_, _, State.actor_onSplit h _, SysOnly.onSplit h _ (by constructor <;> simp [Split.status])⟩
  case h_5 => exact ⟨_, _, h, SysOnly.updUnit h _ _ (fun _ => rfl)⟩
  case h_13 => exact ⟨_, _, h, .refl n h⟩
  all_goals exact ⟨_, _, State.actor_updGroup h _ rfl, SysOnly.updGroup h _ rfl rfl rfl (by constructor <;> simp)⟩

end

/-! ### What SSET writes reads back with the reserved bits 0 -/

/-- STATUS holds the three bits that SSET gave it (R136). -/
theorem status_of_bits (p : Split) (v : Word) :
    ({ p with sm := bitOf v 0, pm := bitOf v 1, wr := bitOf v 2 } : Split).status = v &&& 7 := by
  have three : ∀ w : BitVec 3, BitVec.ofNat 64 ((if w.getLsbD 0 then 1 else 0) + (if w.getLsbD 1 then 2 else 0) +
      (if w.getLsbD 2 then 4 else 0)) = w.zeroExtend 64 := by decide
  rw [← zext64_truncate v 3 (by decide) (low := 7) rfl, zext64, ← three]
  simp [Split.status, bitOf]

section
variable {s : State} {g g' : Group} {p p' : Split} (h : s.actor = some (g, p)) (v : Word) {n : Nat}
  (h' : (writeSys s g n v).actor = some (g', p'))
include h h'

theorem writeSys_group (f : Group → Group) (hw : writeSys s g n v = s.updGroup s.gid f) (hf : (f g).splits = g.splits) :
    g' = f g := by
  rw [hw, State.actor_updGroup h f hf] at h'
  simp_all

theorem writeSys_split (f : Split → Split) (hw : writeSys s g n v = s.onSplit f) : p' = f p := by
  rw [hw, State.actor_onSplit h f] at h'
  simp_all

end

theorem readSys_puterr {s : State} {g : Group} (hu : s.unitOf g ≠ none) (v : Word)
    (p' : Split) : readSys (writeSys s g 0x004 v) g p' 0x004 = some (zext64 (v.truncate 32)) := by
  obtain ⟨u, hu⟩ := Option.ne_none_iff_exists'.mp hu
  have : (writeSys s g 0x004 v).unitOf g = some { u with puterr := v.truncate 32 } := by
    unfold State.unitOf at hu
    simp [writeSys, State.unitOf, State.updUnit, hu]
  simp [readSys, this]

theorem writeSys_none {n : Nat}
    (hn : n ∉ [0x000, 0x001, 0x002, 0x003, 0x004, 0x100, 0x101, 0x102, 0x103, 0x104, 0x105, 0x108]) (s : State) (g : Group)
    (v : Word) : writeSys s g n v = s := by
  unfold writeSys
  dsimp only
  split
  case h_13 => rfl
  all_goals exact absurd (by decide) hn

theorem readSys_isSome (s : State) (g : Group) (p : Split) (r : Nat) :
    (readSys s g p r).isSome = true ↔ r ≤ 0x00E ∨ (0x100 ≤ r ∧ r ≤ 0x10B) := by
  unfold readSys
  dsimp only
  split
  case h_28 =>
    simp only [imp_false, Option.isSome_none, Bool.false_eq_true, false_iff] at *
    omega
  all_goals simp

/-- The numbers of the system registers that SSET writes (R157). -/
def sysWritable : List Nat := [0x000, 0x001, 0x002, 0x003, 0x004, 0x100, 0x101, 0x102, 0x103, 0x104, 0x105, 0x108]

/-- The bits of a system register that are not reserved. -/
def sysBits : Nat → Word
  | 0x000 => 7
  | 0x001 => 0xF_FFFF_FFFF
  | 0x002 => 0xFFF
  | 0x003 | 0x004 | 0x104 => 0xFFFF_FFFF
  | 0x100 => 7
  | 0x102 => 0x1FF
  | _ => BitVec.allOnes 64

theorem readSys_writeSys_same {s : State} {g g' : Group} {p p' : Split} (h : s.actor = some (g, p)) (hu : s.unitOf g ≠ none)
    (v : Word) {n : Nat} (hn : n ∈ sysWritable) (h' : (writeSys s g n v).actor = some (g', p')) :
    readSys (writeSys s g n v) g' p' n = some (v &&& sysBits n) := by
  have full : some v = some (v &&& BitVec.allOnes 64) := by rw [BitVec.and_allOnes]
  have kinds : (n = 0x000 ∨ n = 0x001 ∨ n = 0x003 ∨ n = 0x102 ∨ n = 0x104) ∨ (n = 0x101 ∨ n = 0x103 ∨ n = 0x108) ∨
      n = 0x002 ∨ n = 0x100 ∨ n = 0x105 ∨ n = 0x004 := by
    simp only [sysWritable, List.mem_cons, List.not_mem_nil, or_false] at hn
    omega
  rcases kinds with hgroup | hwhole | rfl | rfl | rfl | rfl
  · rcases hgroup with rfl | rfl | rfl | rfl | rfl
    all_goals
      rw [writeSys_group h v h' _ rfl rfl]
      exact congrArg some (zext64_truncate v _ (by decide) rfl)
  · rcases hwhole with rfl | rfl | rfl
    all_goals
      rw [writeSys_group h v h' _ rfl rfl]
      exact full
  · rw [writeSys_split h v h' _ rfl]
    exact congrArg some (zext64_truncate v 12 (by decide) rfl)
  · rw [writeSys_split h v h' _ rfl]
    exact congrArg some (status_of_bits p v)
  · rw [writeSys_split h v h' _ rfl]
    exact full
  · obtain ⟨rfl, rfl⟩ : g' = g ∧ p' = p := by
      have hacts := h'.symm.trans h
      simpa using hacts
    exact (readSys_puterr hu v p').trans (congrArg some (zext64_truncate v 32 (by decide) rfl))

/-- Settles O18: SGET and SSET check the privilege first, then the number, then the registers that they name; what SSET writes
reads back, and no other system register changes. -/
theorem systemRegisters : Obligations.SystemRegisters := by
  unfold Obligations.SystemRegisters
  intro s g p d a r h
  have hpriv : (r.toNat < 0x100 ∨ p.sm = true) → ¬ (0x100 ≤ r.toNat ∧ p.user = true) := by
    rintro (hr | hs) ⟨h1, h2⟩
    · omega
    · simp [Split.user, hs] at h2
  have hget : exec (.cSget d r) s = execCSget d r s := rfl
  have hset : exec (.cSset a r) s = execCSset a r s := rfl
  rw [hget, hset, execCSget, execCSset, control_next h, control_next h]
  refine ⟨fun v hr hv => ?_, fun hr hv => ?_, fun hr hs => ?_, readSys_isSome s g p _, ?_, ?_⟩
  · simp only [if_neg (hpriv hr), hv]
    exact ⟨fun hd hsh => by simp [hd, hsh, answered], fun ha => by simp [ha]⟩
  · simp only [if_neg (hpriv hr), hv, and_self]
  · simp [hr, Split.user, hs]
  · intro v n g' p' hu h'
    have same (hn : n ∈ sysWritable) := readSys_writeSys_same h hu v hn h'
    have full : some (v &&& BitVec.allOnes 64) = some v := by rw [BitVec.and_allOnes]
    refine ⟨?_, ?_, ?_, ?_, ?_, ?_, ?_, fun hn => writeSys_none hn s g v⟩
    all_goals
      intro hn
      simp only [List.mem_cons, List.not_mem_nil, or_false] at hn
    · subst hn; exact same (by decide)
    · subst hn; exact same (by decide)
    · subst hn; exact same (by decide)
    · rcases hn with rfl | rfl | rfl
      all_goals exact same (by decide)
    · subst hn; exact same (by decide)
    · subst hn; exact same (by decide)
    · rcases hn with rfl | rfl | rfl | rfl
      all_goals exact (same (by decide)).trans full
  · intro n v m g' p' hnm hu h'
    obtain ⟨g1, p1, h1, honly⟩ := writeSys_only h (n := n) v
    rw [h1] at h'
    cases h'
    exact honly.readSys hnm

end Sys2Proof.Machine

/-! What the host reads of ports, shared registers and the fault log (O60). -/

namespace Sys2Proof.Machine

/-! ### Ports (R438, R439) -/

theorem flag_eq (b : Bool) (i : Nat) : flag b i = 2 ^ i * b.toNat := by cases b <;> simp [flag]

/-- The six conditions of STAT as a number. -/
def Port.conditions (p : Port) : Nat :=
  p.busy.toNat + 2 * p.done.toNat + 4 * p.canc.toNat + 8 * p.halt.toNat + 16 * p.iflt.toNat + 32 * p.pdone.toNat

theorem Port.conditions_bits (p : Port) :
    p.conditions < 64 ∧ p.conditions % 2 = p.busy.toNat ∧ p.conditions / 2 % 2 = p.done.toNat ∧
      p.conditions / 4 % 2 = p.canc.toNat ∧ p.conditions / 8 % 2 = p.halt.toNat ∧ p.conditions / 16 % 2 = p.iflt.toNat ∧
      p.conditions / 32 % 2 = p.pdone.toNat := by
  have := p.busy.toNat_le
  have := p.done.toNat_le
  have := p.canc.toNat_le
  have := p.halt.toNat_le
  have := p.iflt.toNat_le
  have := p.pdone.toNat_le
  unfold Port.conditions
  omega

/-- STAT as a number: its conditions, LST and PST. -/
theorem Port.stat_toNat (p : Port) : p.stat.toNat = p.conditions + 2 ^ 8 * p.lst.toNat + 2 ^ 20 * p.pst.toNat := by
  have hc := p.conditions_bits.1
  have := p.lst.isLt
  have := p.pst.isLt
  unfold Port.conditions at hc ⊢
  simp only [Port.stat, flag_eq, BitVec.toNat_ofNat]
  omega

theorem Port.stat_fields (p : Port) :
    fld p.stat 8 8 = p.lst.toNat ∧ fld p.stat 20 4 = p.pst.toNat ∧ fld p.stat 24 40 = 0 ∧ fld p.stat 6 2 = 0 ∧
      fld p.stat 16 4 = 0 := by
  have hc := p.conditions_bits.1
  have := p.lst.isLt
  have := p.pst.isLt
  simp only [fld, p.stat_toNat, Nat.shiftRight_eq_div_pow]
  omega

theorem bitOf_eq_of_toNat {n : Nat} {x : BitVec n} {i : Nat} {b : Bool} (h : x.toNat / 2 ^ i % 2 = b.toNat) :
    bitOf x i = b := by
  rw [bitOf, BitVec.getLsbD, Nat.testBit_eq_decide_div_mod_eq, h]
  cases b <;> rfl

theorem Port.stat_conditions (p : Port) :
    [0, 1, 2, 3, 4, 5].map (bitOf p.stat) = [p.busy, p.done, p.canc, p.halt, p.iflt, p.pdone] := by
  obtain ⟨hlt, h0, h1, h2, h3, h4, h5⟩ := p.conditions_bits
  simp only [List.map_cons, List.map_nil, List.cons.injEq, and_true]
  refine ⟨?_, ?_, ?_, ?_, ?_, ?_⟩
  all_goals
    apply bitOf_eq_of_toNat
    rw [p.stat_toNat]
    omega

/-- Between the registers of a port's block, and past them, nothing is read. -/
theorem Port.read_none (p : Port) {o : Nat} (ho : o % 8 ≠ 0 ∨ 0x40 ≤ o) : p.read o = 0 := by
  unfold Port.read
  split
  case h_7 => rfl
  all_goals omega

/-! ### What a write stores -/

theorem State.port_setPort (s : State) (i : PortId) (p : Port) : (s.setPort i p).port i = p := by cases i <;> rfl

/-- A port register written while the device operates reads what the port's write left. -/
theorem readBlock_registerWrite (s : State) (port : PortId) (v : Word) {o : Nat} (ho : o < 0x800) (h : s.operates = true) :
    ∃ t, exec (.evRegisterWrite port o v) s = .next t ∧ t.readBlock port o = ((s.awake.port port).write o v).read o := by
  refine ⟨s.awake.setPort port ((s.awake.port port).write o v), ?_, ?_⟩
  · show execEvRegisterWrite port o v s = _
    simp [execEvRegisterWrite, inbound, h, ho]
  · rw [State.readBlock, if_pos ho, State.port_setPort]

/-! ### BAR0 (R436, R442, R450) -/

theorem readBlock_shared (s : State) (port : PortId) {o : Nat} (ho : 0x800 ≤ o) : s.readBlock port o = s.readShared o := by
  rw [State.readBlock, if_neg (by omega)]

theorem readBlock_own (s : State) (port : PortId) {o : Nat} (ho : o < 0x800) : s.readBlock port o = (s.port port).read o := by
  rw [State.readBlock, if_pos ho]

theorem readBar_blockA (s : State) {o : Nat} (ho : o < 0x1000) : s.readBar o = s.readBlock .a o := by
  have hin : ¬ Config.barBytes ≤ o := by unfold Config.barBytes; omega
  have hdiv : o / 0x1000 = 0 := by omega
  simp only [State.readBar, if_neg hin, hdiv]

theorem readBar_blockB (s : State) {o : Nat} (ho : o < 0x1000) : s.readBar (0x1000 + o) = s.readBlock .b o := by
  have hin : ¬ Config.barBytes ≤ 0x1000 + o := by unfold Config.barBytes; omega
  have hdiv : (0x1000 + o) / 0x1000 = 1 := by omega
  have hmod : (0x1000 + o) % 0x1000 = o := by omega
  simp only [State.readBar, if_neg hin, hdiv, hmod]

theorem readBar_log (s : State) {o : Nat} (ho : o / 0x1000 = 3) : s.readBar o = s.readLog o := by
  have hin : ¬ Config.barBytes ≤ o := by unfold Config.barBytes; omega
  simp only [State.readBar, if_neg hin, ho]

theorem readBar_outside (s : State) {o : Nat} (ho : 0x2000 ≤ o) (h3 : o / 0x1000 ≠ 3) : s.readBar o = 0 := by
  unfold State.readBar
  split
  case h_4 => rfl
  all_goals
    next hk =>
      split at hk <;> omega

/-! ### The shared registers and the fault log (R442, R450) -/

theorem readBar_shared (s : State) {o : Nat} (h1 : 0x800 ≤ o) (h2 : o < 0x1000) : s.readBar o = s.readShared o := by
  rw [readBar_blockA s h2, readBlock_shared s .a h1]

/-- LOGH: the number of entries and of lost ones. -/
theorem readBar_LOGH (s : State) (hn : s.log.length ≤ 64) (hl : s.lost < 2 ^ 32) :
    fld (s.readBar 0x3000) 0 7 = s.log.length ∧ fld (s.readBar 0x3000) 16 32 = s.lost := by
  rw [readBar_log s rfl, show s.readLog 0x3000 = BitVec.ofNat 64 (s.log.length + 2 ^ 16 * s.lost) from rfl,
    fld_ofNat _ _ _ (by omega), fld_ofNat _ _ _ (by omega)]
  omega

/-- LVA and LINF show the oldest entry. -/
theorem readBar_oldest (s : State) :
    s.readBar 0x3010 = (s.log.head?.map (·.va)).getD 0 ∧ s.readBar 0x3018 = (s.log.head?.map LogEntry.linf).getD 0 :=
  ⟨readBar_log s rfl, readBar_log s rfl⟩

theorem linf_fields (e : LogEntry) (hf : e.fid < 2 ^ 12) (ht : e.tasid < 2 ^ 14) (hc : e.cause < 2 ^ 8) (hk : e.kind < 2 ^ 3) :
    fld e.linf 0 12 = e.fid ∧ fld e.linf 16 14 = e.tasid ∧ fld e.linf 32 8 = e.cause ∧ fld e.linf 40 3 = e.kind ∧
      fld e.linf 12 4 = 0 ∧ fld e.linf 30 2 = 0 := by
  have hlt : e.fid + 2 ^ 16 * e.tasid + 2 ^ 32 * e.cause + 2 ^ 40 * e.kind < 2 ^ 64 := by omega
  simp only [LogEntry.linf, fld_ofNat _ _ _ hlt]
  omega

/-- Settles O60: each register that the host reads, by its block. -/
theorem registerReads : Obligations.RegisterReads := by
  unfold Obligations.RegisterReads
  refine ⟨fun p => ?_, fun s port v hop => ?_, fun s => ?_, fun e hf ht hc hk => linf_fields e hf ht hc hk⟩
  · obtain ⟨hlst, hpst, h24, h6, h16⟩ := p.stat_fields
    exact ⟨rfl, rfl, rfl, rfl, rfl, fun o ho => p.read_none ho, hlst, hpst, h24, h6, h16, p.stat_conditions⟩
  · have stored (o : Nat) (ho : o < 0x800) := readBlock_registerWrite s port v ho hop
    refine ⟨stored 0x000 (by decide), ?_, ?_⟩
    · obtain ⟨t, ht, hr⟩ := stored 0x008 (by decide)
      exact ⟨t, ht, hr.trans (zeroExtend_truncate v 14)⟩
    · obtain ⟨t, ht, hr⟩ := stored 0x010 (by decide)
      exact ⟨t, ht, hr.trans (zeroExtend_truncate v 5)⟩
  · have shared (o : Nat) (h1 : 0x800 ≤ o) (h2 : o < 0x1000) := readBar_shared s h1 h2
    obtain ⟨hva, hinf⟩ := readBar_oldest s
    refine ⟨fun x y o ho => (readBlock_shared s x ho).trans (readBlock_shared s y ho).symm,
      fun o ho => (readBar_blockA s (by omega)).trans (readBlock_own s .a ho),
      fun o ho => (readBar_blockB s (by omega)).trans (readBlock_own s .b ho),
      fun o ho h3 => readBar_outside s ho h3, readBar_log s rfl, ?_, shared 0x808 (by decide) (by decide),
      shared 0x820 (by decide) (by decide), ?_, readBar_LOGH s, fun e rest he => ?_, fun he => ?_⟩
    · rw [shared 0x800 (by decide) (by decide), ← flag_eq]
      rfl
    · rw [shared 0x830 (by decide) (by decide)]
      exact fld_setWidth_low s.shared.plim (by decide)
    · rw [hva, hinf, he]
      exact ⟨rfl, rfl⟩
    · rw [hva, hinf, he]
      exact ⟨rfl, rfl⟩

end Sys2Proof.Machine

/-! Barriers and fences (O13): what an arrival, an acquire and a drain change, and what the words that make them answer. -/

namespace Sys2Proof.Machine

open Sys2Proof.Claims

/-! ### Arrivals at a barrier (R142) -/

theorem State.unitOf_updUnit {s : State} {g : Group} {u : UnitRec} (hu : s.unitOf g = some u) (f : UnitRec → UnitRec) :
    (s.updUnit g.uid f).unitOf g = some (f u) := by
  unfold State.unitOf at hu ⊢
  simp [State.updUnit, hu]

theorem State.updUnit_updUnit (s : State) (k : Nat) (f f' : UnitRec → UnitRec) :
    (s.updUnit k f).updUnit k f' = s.updUnit k (f' ∘ f) := by
  simp [State.updUnit, FMap.upd_upd]

theorem State.updUnit_const {s : State} {g : Group} {u : UnitRec} (hu : s.unitOf g = some u) (f : UnitRec → UnitRec) :
    s.updUnit g.uid f = s.updUnit g.uid (fun _ => f u) := by
  unfold State.unitOf at hu
  simp [State.updUnit, FMap.upd_const hu f]

theorem State.instance_unit {s : State} {g : Group} {u : UnitRec} (hu : s.unitOf g = some u) :
    s.instance_ false g = BitVec.ofNat 64 u.baru := by
  simp [State.instance_, hu]

theorem State.instance_grid {s : State} {g : Group} {u : UnitRec} {l : Launch} (hu : s.unitOf g = some u)
    (hl : s.launchOf u = some l) : s.instance_ true g = BitVec.ofNat 64 l.barg := by
  simp [State.instance_, hu, hl]

/-- A barrier that passes changes its number. -/
theorem ofNat_succ_ne (n : Nat) : BitVec.ofNat 64 (n + 1) ≠ BitVec.ofNat 64 n := by
  intro h
  have := congrArg BitVec.toNat h
  simp only [BitVec.toNat_ofNat] at this
  omega

theorem State.allArrived_iff (s : State) (uid : Nat) (arr : FMap Lanes) :
    s.allArrived uid arr = true ↔ ∀ e ∈ s.groups, e.2.uid = uid → e.2.alive &&& ~~~(FMap.rd 0 arr e.1) = 0 := by
  rw [State.allArrived, List.all_eq_true]
  refine ⟨fun h e he huid => ?_, fun h e he => ?_⟩
  · exact of_decide_eq_true (h e (List.mem_filter.mpr ⟨he, decide_eq_true huid⟩))
  · obtain ⟨he, huid⟩ := List.mem_filter.mp he
    exact decide_eq_true (h e he (of_decide_eq_true huid))

/-- The arrivals at a barrier once the lanes `mask` of the group with key `gid` have arrived. -/
def addArrival (gid : Nat) (mask : Lanes) (m : FMap Lanes) : FMap Lanes := FMap.put m gid (FMap.rd 0 m gid ||| mask)

theorem rd_addArrival (gid : Nat) (mask : Lanes) (m : FMap Lanes) (k : Nat) :
    FMap.rd 0 (addArrival gid mask m) k = FMap.rd 0 m k ||| if k = gid then mask else 0 := by
  rw [addArrival, FMap.rd_put]
  split
  · next h => rw [h]
  · simp

theorem addArrival_isEmpty (gid : Nat) (mask : Lanes) (m : FMap Lanes) : (addArrival gid mask m).isEmpty = false := by
  rw [List.isEmpty_eq_false_iff]
  exact FMap.put_ne_nil _ _ _

theorem arriveBarrier_unit (s : State) (g : Group) (mask : Lanes) :
    s.arriveBarrier false g mask =
      (s.updUnit g.uid (fun u => { u with baruArr := addArrival s.gid mask u.baruArr })).settleBaru g.uid := rfl

theorem arriveBarrier_grid {s : State} {g : Group} {u : UnitRec} (hu : s.unitOf g = some u) (mask : Lanes) :
    s.arriveBarrier true g mask =
      (s.updUnit g.uid (fun u => { u with bargArr := addArrival s.gid mask u.bargArr })).settleBarg u.launch := by
  have h := State.unitOf_updUnit hu (fun u => { u with bargArr := addArrival s.gid mask u.bargArr })
  unfold State.arriveBarrier
  simp only [if_true]
  split
  · next u' _ hu' =>
    obtain rfl : _ = u' := Option.some.inj (h.symm.trans hu')
    rfl
  · next hno => exact (hno _ rfl h).elim

/-- The last arrival at a unit barrier lets it pass. -/
theorem settleBaru_complete {s : State} {uid : Nat} {u : UnitRec} (hu : FMap.get s.units uid = some u) (ht : u.twin = none)
    (hne : u.baruArr.isEmpty = false) (hall : s.allArrived uid u.baruArr = true) :
    s.settleBaru uid = s.updUnit uid (fun u => { u with baru := u.baru + 1, baruArr := [] }) := by
  simp [State.settleBaru, hu, State.twinOf, ht, hne, hall]

/-- The last arrival at a grid barrier lets it pass. -/
theorem settleBarg_complete {s : State} {lid uid : Nat} {u : UnitRec} (hu : FMap.get s.units uid = some u) (hl : u.launch = lid)
    (hne : u.bargArr.isEmpty = false) (hall : ∀ e ∈ s.unitsOf lid, s.allArrived e.1 e.2.bargArr = true) :
    s.settleBarg lid = { s with
      units := (s.unitsOf lid).foldl (fun (m : FMap UnitRec) (e : Nat × UnitRec) =>
        FMap.upd m e.1 (fun (u : UnitRec) => { u with bargArr := [] })) s.units,
      launches := FMap.upd s.launches lid (fun (l : Launch) => { l with barg := l.barg + 1 }) } := by
  have hmem : (uid, u) ∈ s.unitsOf lid := by simp [State.unitsOf, FMap.mem_of_get hu, hl]
  have hsome : (s.unitsOf lid).all (fun e => e.2.bargArr.isEmpty) = false :=
    List.all_eq_false.mpr ⟨_, hmem, by simp [hne]⟩
  have hevery : (s.unitsOf lid).all (fun e => s.allArrived e.1 e.2.bargArr) = true := List.all_eq_true.mpr hall
  simp [State.settleBarg, hsome, hevery]

/-- Updates that keep the launch of every unit keep that of each. -/
theorem launch_foldl_upd (f : UnitRec → UnitRec) (hf : ∀ u, (f u).launch = u.launch) (l : List (Nat × UnitRec))
    (m : FMap UnitRec) (k : Nat) :
    (FMap.get (l.foldl (fun m e => FMap.upd m e.1 f) m) k).map (·.launch) = (FMap.get m k).map (·.launch) := by
  induction l generalizing m with
  | nil => rfl
  | cons e l ih =>
    rw [List.foldl_cons, ih, FMap.get_upd]
    split
    · next h => subst h; simp [Function.comp_def, hf]
    · rfl

/-! ### BARU and BARG -/

/-- The scope of a barrier's acquire: unit, or the device for the grid (R142). -/
def barrierScope (grid : Bool) : Nat := if grid then 4 else 1

section
variable {s : State} {g : Group} {p : Split} (h : s.actor = some (g, p))
include h

/-- A barrier's word whose split's accesses are performed arrives, and goes on when the barrier then passes. -/
theorem barrier_arrives {grid : Bool} (hi : p.issued = none) (hd : hasDeferred p.stack = false) (hdr : s.drained g p = true)
    (hp : grid = true → ((s.unitOf g).bind (s.launchOf ·)).any (fun l => l.pers) = true) :
    ((s.arriveBarrier grid g p.mask).instance_ grid g ≠ s.instance_ grid g →
      barrier grid s = .next (((s.arriveBarrier grid g p.mask).acquire (barrierScope grid) true false).goOn 1)) ∧
    ((s.arriveBarrier grid g p.mask).instance_ grid g = s.instance_ grid g →
      barrier grid s = .next ((s.arriveBarrier grid g p.mask).hold 1 (s.instance_ grid g))) := by
  have hill : ¬ (hasDeferred p.stack = true ∨
      (grid = true ∧ (!((s.unitOf g).bind (s.launchOf ·)).any (fun l => l.pers)) = true)) := by
    rintro (hs | ⟨hg, hn⟩)
    · simp [hd] at hs
    · simp [hp hg] at hn
  unfold barrier
  rw [control_next h]
  simp only [hi, if_neg hill, hdr, Bool.not_true, Bool.false_eq_true, if_false]
  refine ⟨fun hne => ?_, fun he => ?_⟩
  · rw [if_neg hne]
    cases grid <;> rfl
  · rw [if_pos he]

/-- A barrier's word that has arrived waits for the barrier to pass. -/
theorem barrier_waits {v : Word} {src : List Word} (hi : p.issued = some ⟨1, v, src⟩) :
    (s.instance_ false g = v → barrier false s = .next s) ∧
    (s.instance_ false g ≠ v → barrier false s = .next ((s.acquire 1 true false).goOn 1)) := by
  unfold barrier
  rw [control_next h]
  simp only [hi]
  exact ⟨fun he => by rw [if_pos he], fun hne => by rw [if_neg hne]; rfl⟩

/-- BARG outside a persistent launch (R142). -/
theorem barg_not_persistent (hi : p.issued = none) (hp : ((s.unitOf g).bind (s.launchOf ·)).any (fun l => l.pers) = false) :
    barrier true s = .next (s.trap cILLEGAL 0) := by
  unfold barrier
  rw [control_next h]
  simp [hi, hp]

end

/-- The unit barrier when the last lanes of a unit arrive. -/
theorem arriveBarrier_unit_completes {s : State} {g : Group} {u : UnitRec} {mask : Lanes} (hu : s.unitOf g = some u)
    (ht : u.twin = none)
    (hall : ∀ e ∈ s.groups, e.2.uid = g.uid →
      e.2.alive &&& ~~~(FMap.rd 0 u.baruArr e.1 ||| if e.1 = s.gid then mask else 0) = 0) :
    s.arriveBarrier false g mask = s.updUnit g.uid (fun u => { u with baru := u.baru + 1, baruArr := [] }) := by
  have hg := State.unitOf_updUnit hu (fun u => { u with baruArr := addArrival s.gid mask u.baruArr })
  have harr : (s.updUnit g.uid (fun u => { u with baruArr := addArrival s.gid mask u.baruArr })).allArrived g.uid
      (addArrival s.gid mask u.baruArr) = true := by
    rw [State.allArrived_iff]
    intro e he huid
    rw [rd_addArrival]
    exact hall e he huid
  rw [arriveBarrier_unit, settleBaru_complete hg ht (addArrival_isEmpty _ _ _) harr, State.updUnit_updUnit]
  rfl

theorem instance_unit_completed {s : State} {g : Group} {u : UnitRec} (hu : s.unitOf g = some u) :
    (s.updUnit g.uid (fun u => { u with baru := u.baru + 1, baruArr := [] })).instance_ false g ≠ s.instance_ false g := by
  rw [State.instance_unit hu, State.instance_unit (State.unitOf_updUnit hu _)]
  exact ofNat_succ_ne u.baru

/-- A state whose grid barrier of launch `lid` has passed. -/
def State.gridPassed (s : State) (lid : Nat) : State :=
  { s with
    units := (s.unitsOf lid).foldl (fun (m : FMap UnitRec) (e : Nat × UnitRec) =>
      FMap.upd m e.1 (fun (u : UnitRec) => { u with bargArr := [] })) s.units,
    launches := FMap.upd s.launches lid (fun (l : Launch) => { l with barg := l.barg + 1 }) }

/-- The grid barrier when the last lanes of a launch arrive. -/
theorem arriveBarrier_grid_completes {s s1 : State} {g : Group} {u : UnitRec} {mask : Lanes} (hu : s.unitOf g = some u)
    (hs1 : s1 = s.updUnit g.uid (fun u => { u with bargArr := addArrival s.gid mask u.bargArr }))
    (hall : ∀ e ∈ s1.unitsOf u.launch, s1.allArrived e.1 e.2.bargArr = true) :
    s.arriveBarrier true g mask = s1.gridPassed u.launch := by
  have hg := State.unitOf_updUnit hu (fun u => { u with bargArr := addArrival s.gid mask u.bargArr })
  rw [arriveBarrier_grid hu, ← hs1]
  rw [← hs1] at hg
  exact settleBarg_complete hg rfl (addArrival_isEmpty _ _ _) hall

theorem instance_grid_completed {s s1 : State} {g : Group} {u : UnitRec} {l : Launch} {mask : Lanes} (hu : s.unitOf g = some u)
    (hl : s.launchOf u = some l)
    (hs1 : s1 = s.updUnit g.uid (fun u => { u with bargArr := addArrival s.gid mask u.bargArr })) :
    (s1.gridPassed u.launch).instance_ true g ≠ s.instance_ true g := by
  have hlaunch : ((s1.gridPassed u.launch).unitOf g).map (·.launch) = some u.launch := by
    have hg := State.unitOf_updUnit hu (fun u => { u with bargArr := addArrival s.gid mask u.bargArr })
    rw [← hs1] at hg
    refine (launch_foldl_upd (fun u => { u with bargArr := [] }) (fun _ => rfl) _ _ _).trans ?_
    rw [show FMap.get s1.units g.uid = _ from hg]
    rfl
  obtain ⟨u', hu', hul⟩ := Option.map_eq_some_iff.mp hlaunch
  have hl' : (s1.gridPassed u.launch).launchOf u' = some { l with barg := l.barg + 1 } := by
    have hget : FMap.get s1.launches u.launch = some l := by rw [hs1]; exact hl
    simp [State.launchOf, hul, State.gridPassed, hget]
  rw [State.instance_grid hu hl, State.instance_grid hu' hl']
  exact ofNat_succ_ne l.barg

/-! ### Barrier objects (R143) -/

/-- An object that lies within the scratchpad, on a word, faults nothing. -/
theorem objectFault_none {u : UnitRec} {o : Nat} (h8 : o % 8 = 0) (hsz : o + 8 ≤ u.scrSize) : objectFault u o = none := by
  simp [objectFault, h8, Nat.not_lt.mpr hsz]

/-- What arrivals leave in an object: EXPECTED stands, COUNT adds up modulo 2^24 (R7) and returns to 0 with the next phase
when it reaches EXPECTED. -/
theorem arrived_fields (old : Word) (n : Nat) :
    fld (arrived old n) 0 24 = fld old 0 24 ∧
    ((fld old 24 24 + n) % 2 ^ 24 < fld old 0 24 →
      fld (arrived old n) 24 24 = (fld old 24 24 + n) % 2 ^ 24 ∧ fld (arrived old n) 48 16 = fld old 48 16) ∧
    (fld old 0 24 ≤ (fld old 24 24 + n) % 2 ^ 24 →
      fld (arrived old n) 24 24 = 0 ∧ fld (arrived old n) 48 16 = (fld old 48 16 + 1) % 2 ^ 16) := by
  unfold arrived
  dsimp only
  split
  · next hle =>
    refine ⟨?_, fun hlt => absurd hle (Nat.not_le.mpr hlt), fun _ => ⟨?_, fld_setFld_same _ _ _ _ (by decide)⟩⟩
    · rw [fld_setFld_other _ _ _ _ _ _ (by decide), fld_setFld_other _ _ _ _ _ _ (by decide)]
    · rw [fld_setFld_other _ _ _ _ _ _ (by decide)]
      exact (fld_setFld_same _ _ _ _ (by decide)).trans (Nat.zero_mod _)
  · next hlt =>
    refine ⟨fld_setFld_other _ _ _ _ _ _ (by decide), fun _ => ⟨?_, fld_setFld_other _ _ _ _ _ _ (by decide)⟩,
      fun hle => absurd hle hlt⟩
    rw [fld_setFld_same _ _ _ _ (by decide), Nat.mod_mod]

/-- The unit once an object at `o` holds `w`. -/
def UnitRec.putObject (u : UnitRec) (o : Nat) (w : Word) : UnitRec :=
  { u.scrPut o (bytesOf 8 w.toNat) with scrPoison := u.scrPoison }

theorem putObject_frame (u : UnitRec) (o : Nat) (w : Word) :
    u.putObject o w = { u with scratch := (u.putObject o w).scratch } := rfl

theorem scrAt_putObject (u : UnitRec) (o : Nat) (w : Word) : (u.putObject o w).scrAt o 8 = w.toNat := by
  have hw : w.toNat % 256 ^ 8 = w.toNat := Nat.mod_eq_of_lt w.isLt
  exact (scrAt_scrPut u o 8 w.toNat).trans hw

theorem rd_putObject (u : UnitRec) (o : Nat) (w : Word) {q : Nat} (hq : q < o ∨ o + 8 ≤ q) :
    FMap.rd 0 (u.putObject o w).scratch q = FMap.rd 0 u.scratch q := by
  refine (rd_scrPut u o _ q).trans (if_neg ?_)
  rw [length_bytesOf]
  omega

@[simp] theorem sourceAt_fresh {p : Split} (hi : p.issued = none) (g : Group) (i : Nat) (r : BitVec 6) :
    sourceAt g p i r = readS g p r := by
  simp [sourceAt, hi]

@[simp] theorem poisonDue_false (s : State) (v : Word) (m : Lanes) : s.poisonDue false v m = s := rfl

/-- ARRIVE at an object that expects arrivals answers the phase that it met. -/
theorem arrive_counts {s : State} {g : Group} {p : Split} {u : UnitRec} {d a b : BitVec 6} (hf : Free s g p [a, b] d)
    (hu : s.unitOf g = some u) (hi : p.issued = none) {o n : Nat} (ho : o = (readS g p a).toNat) (hn : n = (readS g p b).toNat)
    (h8 : o % 8 = 0) (hsz : o + 8 ≤ u.scrSize) (hn0 : 0 < n) (hn24 : n < 2 ^ 24) (hdr : s.drained g p = true)
    (hbad : u.scrBad o 8 = false) (hexp : fld (u.scrWord o) 0 24 ≠ 0) :
    execCArrive d a b s = .next (answered (s.updUnit g.uid (fun _ => u.putObject o (arrived (u.scrWord o) n))) p d
      (BitVec.ofNat 64 (fld (u.scrWord o) 48 16))) := by
  subst ho hn
  have hsrc : [a, b].any (emptyS g p) = false := by
    simp [hf.full a (by simp), hf.full b (by simp)]
  have hput := State.updUnit_const hu
    (fun u' => u'.putObject (readS g p a).toNat (arrived (u.scrWord (readS g p a).toNat) (readS g p b).toNat))
  have hcount : ¬ ((readS g p b).toNat = 0 ∨ 2 ^ 24 ≤ (readS g p b).toNat) := by omega
  rw [execCArrive, scalarWord_free hf.acts hsrc hf.dest hf.own]
  simp only [sourceAt_fresh hi, hu, objectFault_none h8 hsz, if_neg hcount, hdr, Bool.not_true, Bool.false_eq_true, if_false,
    if_neg hexp, hbad, poisonDue_false]
  exact congrArg (fun t => (.next (answered t p d _) : Answer)) hput

/-- AWAIT goes on once the phase has moved and no acquire of its control stream has still to read; else it waits with its
sources. -/
theorem await_answers {s : State} {g : Group} {p : Split} {u : UnitRec} {a b : BitVec 6} (h : s.actor = some (g, p))
    (hu : s.unitOf g = some u) (hi : p.issued = none) (ha : emptyS g p a = false) (hb : emptyS g p b = false) {o : Nat}
    (ho : o = (readS g p a).toNat) (h8 : o % 8 = 0) (hsz : o + 8 ≤ u.scrSize) :
    (fld (u.scrWord o) 48 16 ≠ fld (readS g p b) 0 16 → s.wordAcquires s.gid s.cur.place = false → u.scrBad o 8 = false →
      execCAwait a b s = .next ((s.acquire 1 true false).goOn 1)) ∧
    (fld (u.scrWord o) 48 16 = fld (readS g p b) 0 16 ∨ s.wordAcquires s.gid s.cur.place = true →
      execCAwait a b s = .next (s.holdWith 0 0 [readS g p a, readS g p b])) := by
  subst ho
  have hsrc : [a, b].any (emptyS g p) = false := by simp [ha, hb]
  rw [execCAwait, scalarWord_free h hsrc (by simp [emptyS, getSEmpty]) (by simp [sharedS])]
  simp only [sourceAt_fresh hi, hu, objectFault_none h8 hsz]
  refine ⟨fun hne hw hbad => ?_, fun hor => ?_⟩
  · rw [if_neg (by simp [hne, hw]), hbad, poisonDue_false]
  · rw [if_pos hor.symm]

/-- R142, R143: barriers and barrier objects. -/
theorem barriersAndBarrierObjects : BarriersAndBarrierObjects := by
  intro s g p d a b u h hu
  have hpers (l : Launch) (hl : s.launchOf u = some l) : ((s.unitOf g).bind (s.launchOf ·)).any (fun l => l.pers) = l.pers := by
    simp [hu, hl]
  refine ⟨fun hi hd hdr => ?_, fun v src hi => barrier_waits h hi, ?_, ?_⟩
  · have hunit := barrier_arrives h (grid := false) hi hd hdr (fun hg => absurd hg (by decide))
    have hgrid (l : Launch) (hl : s.launchOf u = some l) (hp : l.pers = true) :=
      barrier_arrives h (grid := true) hi hd hdr (fun _ => (hpers l hl).trans hp)
    refine ⟨hunit.1, hunit.2, hgrid, fun l hl hp => barg_not_persistent h hi ((hpers l hl).trans hp), fun ht hall => ?_,
      fun l s1 hl hp hs1 hall => ?_⟩
    · have hc := arriveBarrier_unit_completes hu ht hall
      have hgo := hunit.1
      rw [hc] at hgo
      exact hgo (instance_unit_completed hu)
    · have hs1' : s1 = s.updUnit g.uid (fun u => { u with bargArr := addArrival s.gid p.mask u.bargArr }) := hs1
      have hgo := (hgrid l hl hp).1
      rw [arriveBarrier_grid_completes hu hs1' hall] at hgo
      exact hgo (instance_grid_completed hu hl hs1')
  · intro o n old hf hi ho hn h8 hsz hn0 hn24 hdr hbad hold hexp
    have hw : old = u.scrWord o := hold
    subst hw
    obtain ⟨hexpected, hbelow, hreached⟩ := arrived_fields (u.scrWord o) n
    exact ⟨arrived (u.scrWord o) n, u.putObject o (arrived (u.scrWord o) n),
      arrive_counts hf hu hi ho hn h8 hsz hn0 hn24 hdr hbad hexp, putObject_frame _ _ _, scrAt_putObject _ _ _,
      fun q hq => rd_putObject _ _ _ hq, hexpected, hbelow, hreached⟩
  · intro o hi ha hb ho h8 hsz
    exact await_answers h hu hi ha hb ho h8 hsz

/-! ### Acquires (R116, R303, R308) -/

theorem State.core_setCore (s : State) (c : Nat) (k : Core) : (s.setCore c k).core c = k := by
  simp [State.core, State.setCore, FMap.rd_put]

@[simp] theorem State.core_dropGuests (s : State) (sector c : Nat) : (s.dropGuests sector).core c = s.core c := rfl

/-- What stays of a set of the L2 when the guest lines of a sector leave. -/
def keptLines (sector key : Nat) (ls : List L2Line) : Option (List L2Line) :=
  if sectorOfSlice (key / 2048) = sector then
    match ls.filter (fun l => !l.guest) with
    | [] => none
    | ls => some ls
  else some ls

theorem keptLines_getD (sector key : Nat) (ls : List L2Line) :
    (keptLines sector key ls).getD [] =
      if sectorOfSlice (key / 2048) = sector then ls.filter (fun l => !l.guest) else ls := by
  unfold keptLines
  split
  · cases ls.filter (fun l => !l.guest) <;> rfl
  · rfl

theorem dropGuests_l2 (s : State) (sector : Nat) :
    (s.dropGuests sector).l2 = s.l2.filterMap (fun e => (keptLines sector e.1 e.2).map (fun ls => (e.1, ls))) := by
  refine congrArg (s.l2.filterMap ·) (funext fun e => ?_)
  unfold keptLines
  split
  · cases e.2.filter (fun l => !l.guest) <;> rfl
  · rfl

/-- A sector's guest lines leave, and no other line does (R308). -/
theorem dropGuests_l2Set {s : State} (hwf : FMap.wf s.l2 = true) (sector slice : Nat) {set : Nat} (hset : set < 2048) :
    (s.dropGuests sector).l2Set slice set =
      if sectorOfSlice slice = sector then (s.l2Set slice set).filter (fun l => !l.guest) else s.l2Set slice set := by
  have hslice : l2Key slice set / 2048 = slice := by unfold l2Key; omega
  unfold State.l2Set FMap.rd
  rw [dropGuests_l2, FMap.get_filterMap hwf]
  cases FMap.get s.l2 (l2Key slice set) with
  | none => simp
  | some ls => rw [Option.bind_some, keptLines_getD, hslice, Option.getD_some]

theorem State.acquire_l1 (s : State) (scope : Nat) (cov drain : Bool) :
    ((s.acquire scope cov drain).core s.cur.core).l1 =
      if drain then [] else if cov ∧ 2 ≤ scope then (s.core s.cur.core).l1.filter (fun l => l.uo) else (s.core s.cur.core).l1 := by
  unfold State.acquire State.acquireAt
  dsimp only
  split <;> simp [State.core_setCore]

theorem State.acquire_l2 (s : State) (scope : Nat) (cov drain : Bool) :
    (s.acquire scope cov drain).l2 = if 3 ≤ scope then (s.dropGuests (sectorOf s.cur.core)).l2 else s.l2 := by
  unfold State.acquire State.acquireAt
  dsimp only
  split <;> rfl

theorem State.acquire_frame (s : State) (scope : Nat) (cov drain : Bool) :
    (s.acquire scope cov drain).mem = s.mem ∧ (s.acquire scope cov drain).groups = s.groups := by
  unfold State.acquire State.acquireAt
  dsimp only
  split <;> exact ⟨rfl, rfl⟩

/-! ### FENCE (R144, R304, R351) -/

theorem State.send_kept (s : State) (p : Packet) (here : Place) (path : List Place) :
    (s.send p here path).cores = s.cores ∧ (s.send p here path).cur = s.cur := by
  unfold State.send State.arrive
  dsimp only
  split <;> exact ⟨rfl, rfl⟩

theorem State.uoWrites_kept (gid core slack : Nat) (f : UoLine → UoLine) (l : List UoLine) (s : State) :
    (l.foldl (fun s e => s.uoWrite gid core slack (f e)) s).cores = s.cores ∧
      (l.foldl (fun s e => s.uoWrite gid core slack (f e)) s).cur = s.cur := by
  induction l generalizing s with
  | nil => exact ⟨rfl, rfl⟩
  | cons e l ih =>
    obtain ⟨hcores, hcur⟩ := ih (s.uoWrite gid core slack (f e))
    obtain ⟨hc, hk⟩ := s.send_kept (p := { mkPacket gid 9 (corePort core) slack 0 (s.partOfGid gid) 5
      (.req (uoStores (f e)) none false false 2 false 0 0) with owners := (f e).owners }) (.cluster (clusterOf core))
      (pathToSlice core (sliceOf (128 * (f e).line)))
    exact ⟨hcores.trans hc, hcur.trans hk⟩

/-- A drain empties the write buffer of its core (R304). -/
theorem State.uoDrain_uo (s : State) (gid tag core slack : Nat) : ((s.uoDrain gid tag core slack).core core).uo = [] := by
  have h := (State.uoWrites_kept gid core slack (fun e => { e with owners := (gid, tag) :: e.owners }) (s.core core).uo
    (s.setCore core { s.core core with uo := [] })).1
  have hc : (s.uoDrain gid tag core slack).core core = (s.setCore core { s.core core with uo := [] }).core core :=
    congrArg (fun m => FMap.rd Core.reset m core) h
  rw [hc, State.core_setCore]

theorem State.uoDrain_cur (s : State) (gid tag core slack : Nat) : (s.uoDrain gid tag core slack).cur = s.cur :=
  (State.uoWrites_kept gid core slack (fun e => { e with owners := (gid, tag) :: e.owners }) _ _).2

section
variable {s : State} {gr : Group} {p : Split} (h : s.actor = some (gr, p)) (hi : p.issued = none) (k : BitVec 2)
  (pp gg ll : BitVec 1) (sc : BitVec 3)
include h hi

theorem fence_waits (hdr : s.drained gr p = false) (r : BitVec 1) : execCFence r k pp gg ll sc s = .next (s.hold 0 0) := by
  rw [execCFence, control_next h]
  simp [hi, hdr]

theorem fence_goesOn (hdr : s.drained gr p = true) : execCFence 0 k pp gg ll sc s = .next (fenced k pp gg sc false s) := by
  rw [execCFence, control_next h]
  simp only [hi, hdr]
  rfl

/-- A fence that drains goes on once the lines that it has written are performed. -/
theorem fence_drains (hdr : s.drained gr p = true) {s1 : State} (hs1 : s1 = s.uoDrain s.gid p.tag s.cur.core p.dslack.toNat) :
    (s1.uoOutstanding s.gid s.cur.place = true → execCFence 1 k pp gg ll sc s = .next (s1.hold 1 0)) ∧
    (s1.uoOutstanding s.gid s.cur.place = false → execCFence 1 k pp gg ll sc s = .next (fenced k pp gg sc true s1)) := by
  have hcur : s1.cur = s.cur := hs1 ▸ s.uoDrain_cur _ _ _ _
  have hgid : s1.gid = s.gid := by rw [State.gid, hcur]; rfl
  rw [execCFence, control_next h]
  simp only [hi, hdr, ← hs1, hgid, hcur]
  refine ⟨fun ho => ?_, fun ho => ?_⟩
  · simp [ho]
  · simp only [ho]
    rfl

end

/-- R116, R144, R303, R304, R308, R346, R351: fences and acquires. -/
theorem fencesWaitAndAcquire : FencesWaitAndAcquire := by
  intro s gr p k pp gg ll sc h hi
  refine ⟨fence_waits h hi k pp gg ll sc, fun hdr => ⟨fence_goesOn h hi k pp gg ll sc hdr, fun s1 hs1 => ?_⟩,
    fun scope cov drain t ht => ?_⟩
  · obtain ⟨hwait, hgo⟩ := fence_drains h hi k pp gg ll sc hdr hs1
    exact ⟨hs1 ▸ s.uoDrain_uo _ _ _ _, hwait, hgo⟩
  · subst ht
    obtain ⟨hmem, hgroups⟩ := s.acquire_frame scope cov drain
    rw [s.acquire_l1, s.acquire_l2]
    refine ⟨fun hd => if_pos hd, fun hd hc h2 => ?_, fun hd hno => ?_, fun h3 => if_neg (Nat.not_le.mpr h3),
      fun h3 hwf slice set hset => ?_, hmem, hgroups⟩
    · simp [hd, hc, h2]
    · have hkeeps : ¬ (cov = true ∧ 2 ≤ scope) := by
        rintro ⟨hc, h2⟩
        rcases hno with hcov | hscope
        · simp [hcov] at hc
        · omega
      rw [if_neg (by simp [hd]), if_neg hkeeps]
    · have hl2 := s.acquire_l2 scope cov drain
      rw [if_pos h3] at hl2
      exact (congrArg (fun m => FMap.rd [] m (l2Key slice set)) hl2).trans
        (dropGuests_l2Set hwf (sectorOf s.cur.core) slice hset)

/-- Settles O13: the barriers with their objects, and the fences with their acquires. -/
theorem barriersAndFences : Obligations.BarriersAndFences := ⟨barriersAndBarrierObjects, fencesWaitAndAcquire⟩

end Sys2Proof.Machine

/-! Scalar words (O4): what a word with one result changes, and the values of shifts, counts and conditions. -/

namespace Sys2Proof.Machine

open Sys2Proof.Claims

/-! ### Writing a scalar register (R27, R28) -/

theorem Split.setOwn_frame (p : Split) (n : Nat) (ks : Bool) (v : Word) :
    p.setOwn n ks v = { p with s := (p.setOwn n ks v).s, ks := (p.setOwn n ks v).ks } := by
  cases ks <;> rfl

theorem Split.rd_s_setOwn (p : Split) (n : Nat) (ks : Bool) (v : Word) (k : Nat) :
    FMap.rd 0 (p.setOwn n ks v).s k = if k = n ∧ ks = false then v else FMap.rd 0 p.s k := by
  cases ks <;> simp [Split.setOwn, FMap.rd_wr]

theorem Split.rd_ks_setOwn (p : Split) (n : Nat) (ks : Bool) (v : Word) (k : Nat) :
    FMap.rd 0 (p.setOwn n ks v).ks k = if k = n - 56 ∧ ks = true then v else FMap.rd 0 p.ks k := by
  cases ks <;> simp [Split.setOwn, FMap.rd_wr]

/-- The split once scalar register `n` is written: its own registers are those from S48 up (R27). -/
def Split.withReg (p : Split) (n : Nat) (ks : Bool) (v : Word) : Split := if 48 ≤ n then p.setOwn n ks v else p

theorem Split.withReg_frame (p : Split) (n : Nat) (ks : Bool) (v : Word) :
    p.withReg n ks v = { p with s := (p.withReg n ks v).s, ks := (p.withReg n ks v).ks } := by
  unfold Split.withReg
  split
  · exact p.setOwn_frame n ks v
  · rfl

@[simp] theorem Split.withReg_sm (p : Split) (n : Nat) (ks : Bool) (v : Word) : (p.withReg n ks v).sm = p.sm := by
  rw [Split.withReg_frame]

@[simp] theorem Split.withReg_pc (p : Split) (n : Nat) (ks : Bool) (v : Word) : (p.withReg n ks v).pc = p.pc := by
  rw [Split.withReg_frame]

@[simp] theorem Split.withReg_fetched (p : Split) (n : Nat) (ks : Bool) (v : Word) : (p.withReg n ks v).fetched = p.fetched := by
  rw [Split.withReg_frame]

theorem Split.rd_s_withReg {p : Split} {n : Nat} {ks : Bool} {k : Nat} (h : k ≠ n ∨ ks = true) (v : Word) :
    FMap.rd 0 (p.withReg n ks v).s k = FMap.rd 0 p.s k := by
  unfold Split.withReg
  split
  · rw [Split.rd_s_setOwn, if_neg]
    rintro ⟨rfl, rfl⟩
    simp at h
  · rfl

theorem Split.rd_ks_withReg {p : Split} {n : Nat} {ks : Bool} {k : Nat} (h : k + 56 ≠ n ∨ ks = false) (h56 : ks = true → 56 ≤ n)
    (v : Word) : FMap.rd 0 (p.withReg n ks v).ks k = FMap.rd 0 p.ks k := by
  unfold Split.withReg
  split
  · rw [Split.rd_ks_setOwn, if_neg]
    rintro ⟨rfl, rfl⟩
    have := h56 rfl
    simp only [Bool.true_eq_false, or_false] at h
    omega
  · rfl

theorem Group.setS_frame (g : Group) (place n : Nat) (ks : Bool) (v : Word) :
    g.setS place n ks v = { g with s := (g.setS place n ks v).s, splits := (g.setS place n ks v).splits } := by
  unfold Group.setS
  split
  · rfl
  · split <;> rfl

theorem Group.rd_s_setS_other (g : Group) (place : Nat) {n k : Nat} (ks : Bool) (v : Word) (h : k ≠ n) :
    FMap.rd 0 (g.setS place n ks v).s k = FMap.rd 0 g.s k := by
  unfold Group.setS
  split
  · rfl
  · split
    · exact FMap.rd_wr_other 0 g.s v h
    · rfl

theorem Group.get_splits_setS_other (g : Group) {place q : Nat} (n : Nat) (ks : Bool) (v : Word) (h : q ≠ place) :
    FMap.get (g.setS place n ks v).splits q = FMap.get g.splits q := by
  unfold Group.setS
  split
  · rfl
  · split
    · rfl
    · exact FMap.get_upd_other g.splits _ h

/-- A scalar register reads what was written to it, but S0 reads 0 (R27). -/
theorem getS_setS_same (g : Group) (p : Split) (place n : Nat) (ks : Bool) (v : Word) :
    getS (g.setS place n ks v) (p.withReg n ks v) n ks = if n = 0 then 0 else v := by
  unfold getS
  by_cases h0 : n = 0
  · simp [h0]
  · by_cases h48 : n < 48
    · simp [h0, h48, Group.setS]
    · cases ks <;> simp [h0, h48, Split.withReg, Nat.not_lt.mp h48, Split.setOwn]

/-! ### A word with one result -/

/-- Writing `v` to `d` and going on is a scalar step. -/
theorem scalarStep_of_writeS_goOn {s : State} {g : Group} {p : Split} (h : s.actor = some (g, p)) (d : BitVec 6) (words : Nat)
    (v : Word) : ∃ g' p', ScalarStep s ((s.writeS p d v).goOn words) g g' p p' d words v := by
  have hact := State.actor_goOn (State.actor_writeS h p d v) words
  rw [← Split.withReg] at hact
  have hks : selKs p d.toNat = true → 56 ≤ d.toNat := by simp [selKs]
  refine ⟨_, _, {
    acts := hact
    dest := ?dest
    pc := congrArg (nextWord · words) (Split.withReg_pc ..)
    shared := fun n hn => Group.rd_s_setS_other g _ _ v hn
    mine := fun n hn => Split.rd_s_withReg hn v
    bank := fun n hn => Split.rd_ks_withReg hn hks v
    split := ?split
    fetched := ?fetched
    group := ?group
    places := fun q hq => (FMap.get_upd_other _ _ hq).trans (Group.get_splits_setS_other g _ _ v hq)
    device := rfl
    slots := fun x hx => (State.updGroup_other _ _ hx).trans (State.updGroup_other _ _ hx)
    memory := fun _ => rfl }⟩
  case dest =>
    have hsel : selKs (p.withReg d.toNat (selKs p d.toNat) v) d.toNat = selKs p d.toNat := by
      simp [selKs]
    refine (congrArg (getS _ _ _) hsel).trans ((getS_setS_same g p s.cur.place d.toNat _ v).trans ?_)
    simp [BitVec.toNat_eq]
  case split =>
    rw [Split.withReg_frame]
    rfl
  case fetched => simp [Split.movedTo]
  case group =>
    rw [Group.setS_frame]
    rfl

/-- A word whose result is a value that `val` allows of its sources. -/
theorem scalarRel_of_result {i : Instr} {srcs : List (BitVec 6)} {d : BitVec 6} {words : Nat} {f : Group → Split → Word}
    {val : (BitVec 6 → Word) → Word → Prop} (hi : ∀ s, exec i s = scalarResult srcs d words f s)
    (hval : ∀ g p, val (readS g p) (f g p)) : ScalarRel i srcs d words val := by
  intro s g p hf
  have hsrc : srcs.any (emptyS g p) = false := List.any_eq_false.mpr (fun r hr => by simp [hf.full r hr])
  obtain ⟨g', p', hstep⟩ := scalarStep_of_writeS_goOn hf.acts d words (f g p)
  exact ⟨_, g', p', f g p, (hi s).trans (scalarResult_free hf.acts hsrc hf.dest hf.own words f), hval g p, hstep⟩

/-! ### Shifts (R102, R104) -/

theorem shiftLeft_eq_shl (a n : Word) : shiftLeft a n = shl a n.toNat := by
  unfold shiftLeft shl
  split
  · apply BitVec.eq_of_toNat_eq
    simp [Nat.shiftLeft_eq]
  · rfl

theorem shiftRight_eq_shr (a n : Word) : shiftRight a n = shr a n.toNat := by
  unfold shiftRight shr
  split
  · apply BitVec.eq_of_toNat_eq
    have hlt : a.toNat / 2 ^ n.toNat < 2 ^ 64 := Nat.lt_of_le_of_lt (Nat.div_le_self _ _) a.isLt
    rw [BitVec.toNat_ushiftRight, Nat.shiftRight_eq_div_pow, BitVec.toNat_ofNat, Nat.mod_eq_of_lt hlt]
  · rfl

/-- An arithmetic shift past the top bit leaves the sign bit everywhere. -/
theorem sshiftRight_63 (a : Word) : a.sshiftRight 63 = if a.getLsbD 63 then BitVec.allOnes 64 else 0 := by
  apply BitVec.eq_of_getLsbD_eq
  intro i hi
  have htop : (a.sshiftRight 63).getLsbD i = a.getLsbD 63 := by
    rw [BitVec.getLsbD_sshiftRight, BitVec.msb_eq_getLsbD_last]
    by_cases hi0 : i = 0
    · simp [hi0]
    · simp [hi, show ¬ 63 + i < 64 by omega]
  rw [htop]
  cases a.getLsbD 63
  · simp
  · rw [if_pos rfl, BitVec.getLsbD_allOnes, decide_eq_true hi]

theorem shiftArith_eq_sra (a n : Word) : shiftArith a n = sra a n.toNat := by
  unfold shiftArith sra
  split
  · rw [BitVec.sshiftRight, Int.shiftRight_eq_div_pow]
    rfl
  · exact sshiftRight_63 a

theorem toNat_zext64 {w : Nat} (hw : w ≤ 64) (n : BitVec w) : (zext64 n).toNat = n.toNat :=
  BitVec.toNat_setWidth_of_le hw

/-! ### Counts (R100) -/

theorem popNat_eq (k v : Nat) : popNat k v = ((List.range k).filter (fun i => v.testBit i)).length := by
  induction k generalizing v with
  | zero => rfl
  | succ k ih =>
    have hhigh : (fun i => v.testBit i) ∘ Nat.succ = fun i => (v / 2).testBit i := funext (Nat.testBit_succ v)
    have hlow : (if v.testBit 0 = true then 1 else 0) = v % 2 := by
      rcases Nat.mod_two_eq_zero_or_one v with hv | hv <;> simp [hv]
    rw [popNat, ih, ← List.countP_eq_length_filter, ← List.countP_eq_length_filter, List.range_succ_eq_map, List.countP_cons,
      List.countP_map, hhigh, hlow, Nat.add_comm]

theorem clzNat_of_ne_zero {x : Word} (hx : x.toNat ≠ 0) : clzNat 64 x.toNat = 63 - Nat.log2 x.toNat := by
  simp [clzNat, Nat.mod_eq_of_lt x.isLt, hx]

/-- The count of leading 0 bits: that many are 0, and the next one, if there is one, is 1. -/
theorem clzNat_spec (x : Word) :
    clzNat 64 x.toNat ≤ 64 ∧ (∀ i, 64 - clzNat 64 x.toNat ≤ i → x.getLsbD i = false) ∧
      (clzNat 64 x.toNat < 64 → x.getLsbD (63 - clzNat 64 x.toNat) = true) := by
  by_cases hx : x.toNat = 0
  · simp [clzNat, BitVec.getLsbD, hx]
  · have hlog : Nat.log2 x.toNat < 64 := (Nat.log2_lt hx).mpr x.isLt
    rw [clzNat_of_ne_zero hx]
    refine ⟨by omega, fun i hi => ?_, fun _ => ?_⟩
    · exact Nat.testBit_lt_two_pow (Nat.lt_of_lt_of_le Nat.lt_log2_self (Nat.pow_le_pow_right (by decide) (by omega)))
    · rw [show 63 - (63 - Nat.log2 x.toNat) = Nat.log2 x.toNat by omega]
      exact Nat.testBit_log2 hx

/-! ### Conditions (R54) -/

theorem sextNat_toNat (a : Word) : sextNat 64 a.toNat = a.toInt := by
  have := a.isLt
  rw [BitVec.toInt_eq_toNat_cond, sextNat, Nat.mod_eq_of_lt a.isLt]
  split <;> split <;> omega

theorem scalarCond_iff (code : Nat) (a b : Word) : scalarCond code a b = true ↔ condHolds code a b := by
  unfold scalarCond intCond condHolds
  simp only [sextNat_toNat]
  split <;> simp [BitVec.toNat_eq]

theorem condWord_wordOfBool (code : Nat) (a b : Word) : CondWord code a b (wordOfBool (scalarCond code a b)) := by
  unfold CondWord
  rw [← scalarCond_iff]
  cases scalarCond code a b <;> simp [wordOfBool]

/-! ### The words -/

/-- R100, R104: bitwise words, immediate shifts and counts. -/
theorem scalarLogicAndCounts : ScalarLogicAndCounts := by
  intro d a b i n _
  have hn : (zext64 n).toNat = n.toNat := toNat_zext64 (by decide) n
  refine ⟨?and, ?or, ?xor, ?andn, ?andi, ?ori, ?xori, ?shli, ?shri, ?srai, ?popc, ?clz⟩
  case shli => exact scalarRel_of_result (fun _ => rfl) fun g p => hn ▸ shiftLeft_eq_shl (readS g p a) (zext64 n)
  case shri => exact scalarRel_of_result (fun _ => rfl) fun g p => hn ▸ shiftRight_eq_shr (readS g p a) (zext64 n)
  case srai => exact scalarRel_of_result (fun _ => rfl) fun g p => hn ▸ shiftArith_eq_sra (readS g p a) (zext64 n)
  case popc => exact scalarRel_of_result (fun _ => rfl) fun g p => congrArg (BitVec.ofNat 64) (popNat_eq 64 _)
  case clz =>
    refine scalarRel_of_result (fun _ => rfl) fun g p => ?_
    have hspec := clzNat_spec (readS g p a)
    have hv : (BitVec.ofNat 64 (clzNat 64 (readS g p a).toNat)).toNat = clzNat 64 (readS g p a).toNat :=
      Nat.mod_eq_of_lt (by omega)
    rwa [hv]
  all_goals exact scalarRel_of_result (fun _ => rfl) fun _ _ => rfl

/-- R54, R100, R104: comparisons and selection. -/
theorem scalarComparisonsAndSelection : ScalarComparisonsAndSelection := by
  intro d a b c k i _ _ e
  exact ⟨scalarRel_of_result (fun _ => rfl) fun _ _ => condWord_wordOfBool _ _ _,
    scalarRel_of_result (fun _ => rfl) fun _ _ => condWord_wordOfBool _ _ _,
    scalarRel_of_result (fun _ => rfl) fun _ _ => rfl⟩

/-- Settles O4: each word's result is the spec's value of its sources, and it changes nothing but its destination and the
program counter. -/
theorem scalarLogicCountsAndSelection : Obligations.ScalarLogicCountsAndSelection :=
  ⟨scalarLogicAndCounts, scalarComparisonsAndSelection⟩

end Sys2Proof.Machine
